-- ==== Sys2Proof/Word.lean ====
section
/-! DEFINITION. The words of the Lomith LT-4 and the names of its counts of time. -/

namespace Sys2Proof

/-- A byte of a link frame (R178). -/
abbrev Byte := BitVec 8

/-- Sequences, handles and the CRC: 16-bit fields (R179, R21, R150). -/
abbrev Word16 := BitVec 16

/-- Stream ids, block sequences, match values, masks and leader ids: 32-bit fields (R74, R17). -/
abbrev Word32 := BitVec 32

/-- Local time, R1: a count of local ticks. It does not wrap within the service life of the part (log 1). -/
abbrev LocalTime := Nat

/-- Domain time, R3: a count of domain ticks on a house timeline, kept below 2^64 by `toDomainTime`. -/
abbrev DomainTime := Nat

/-- A position P, section 7.1: domain time in units of 1/65,536 tick. -/
abbrev Position := Nat

end Sys2Proof
end

