-- ==== Sys2Proof/Syntax.lean ====
section
/-! DEFINITION. The commands of the LT-4: one constructor per row of spec/opcode_table.json, and the names their operands use. -/

namespace Sys2Proof

/-- The two domain records, section "Names and states" of 00_scope.md. -/
inductive DomainId where
  | d0 | d1
  deriving DecidableEq, Repr

/-- The four zones; audio output port AOPn belongs to zone Zn. -/
inductive ZoneId where
  | z0 | z1 | z2 | z3
  deriving DecidableEq, Repr

/-- The strobe inputs, R7: RX for an edge on RXSTB, TX for an edge on TXSTB. -/
inductive StrobeInput where
  | rx | tx
  deriving DecidableEq, Repr

/-- The level of the LSEL strap, R189. -/
inductive Level where
  | low | high
  deriving DecidableEq, Repr

/-- The commands of the part. A request carries the TAG and the BODY of its frame (R191, R192); the arrival of the frame is
the command. An event carries what it happens to or what it brings. -/
inductive Instr where
  | capc (tag : Byte) (body : List Byte)
  | capl (tag : Byte) (body : List Byte)
  | capd (tag : Byte) (body : List Byte)
  | stmp (tag : Byte) (body : List Byte)
  | dset (tag : Byte) (body : List Byte)
  | drun (tag : Byte) (body : List Byte)
  | beac (tag : Byte) (body : List Byte)
  | lchg (tag : Byte) (body : List Byte)
  | drel (tag : Byte) (body : List Byte)
  | dsta (tag : Byte) (body : List Byte)
  | echs (tag : Byte) (body : List Byte)
  | echa (tag : Byte) (body : List Byte)
  | fset (tag : Byte) (body : List Byte)
  | fdef (tag : Byte) (body : List Byte)
  | pblk (tag : Byte) (body : List Byte)
  | pool (tag : Byte) (body : List Byte)
  | pwmk (tag : Byte) (body : List Byte)
  | zflu (tag : Byte) (body : List Byte)
  | zset (tag : Byte) (body : List Byte)
  | zena (tag : Byte) (body : List Byte)
  | zdis (tag : Byte) (body : List Byte)
  | zrun (tag : Byte) (body : List Byte)
  | zstp (tag : Byte) (body : List Byte)
  | zsta (tag : Byte) (body : List Byte)
  | zgan (tag : Byte) (body : List Byte)
  | zsub (tag : Byte) (body : List Byte)
  | gsub (tag : Byte) (body : List Byte)
  | sadd (tag : Byte) (body : List Byte)
  | scan (tag : Byte) (body : List Byte)
  | slst (tag : Byte) (body : List Byte)
  | indc (tag : Byte) (body : List Byte)
  | indr (tag : Byte) (body : List Byte)
  | inda (tag : Byte) (body : List Byte)
  | tsnp (tag : Byte) (body : List Byte)
  | taut (tag : Byte) (body : List Byte)
  | tred (tag : Byte) (body : List Byte)
  | lrat (tag : Byte) (body : List Byte)
  | rset (tag : Byte) (body : List Byte)
  | helo (tag : Byte) (body : List Byte)
  /-- A sound frame whose KIND is none of the request kinds, R184. -/
  | unknownKind (kind tag : Byte) (body : List Byte)
  /-- A sound frame that arrives while 8 replies are unread, R183. -/
  | overrun (kind tag : Byte) (body : List Byte)
  /-- A complete frame and the CRC received with it, R179. -/
  | crcMismatch (kind tag : Byte) (body : List Byte) (crc : Word16)
  /-- The second LEN byte of a frame has arrived and LEN is formed, R178. -/
  | lenOutOfRange (len : Word16)
  | stopBitError
  | inFrameSilenceExpiry
  | spiTransferStart
  | spiTransferEnd
  | replyLeavesQueue
  | lratRateChange
  | rsetReset
  | powerOn (lsel : Level)
  | pinReset (lsel : Level)
  | strobeEdge (input : StrobeInput)
  | beaconWatchExpiry (d : DomainId)
  | windowEnd (d : DomainId)
  | holdoverExpiry (d : DomainId)
  /-- The deadline of the domain's echo record with this sequence, R62. -/
  | echoTimeout (d : DomainId) (sequence : Word16)
  | outputFrame (z : ZoneId)
  | automaticSnapshot
  | byteReceived (b : Byte)
  deriving DecidableEq, Repr

end Sys2Proof
end

