-- ==== Sys2Proof/Config.lean ====
section
/-! DEFINITION. What the part fixes (capacities and tick counts of the spec), and the free values of the model: constants
with no body, so that no proof can see what they are. -/

namespace Sys2Proof.Config

/-- 24,576 local ticks per millisecond (00_scope.md, Time). -/
def ticksPerMs : Nat := 24576
/-- 24,576,000 local ticks per second (00_scope.md, Time). -/
def ticksPerSecond : Nat := 24576000
/-- Capture ring, R9. -/
def ringCapacity : Nat := 32
/-- Echo table, R55. -/
def echoCapacity : Nat := 8
/-- Path list, R56. -/
def pathCapacity : Nat := 8
/-- Pool slots, R67. -/
def poolSlots : Nat := 512
/-- Payload bytes of a slot, R78. -/
def payloadCapacity : Nat := 1024
/-- Schedule entries, R149. -/
def scheduleCapacity : Nat := 32
/-- Done records, R159. -/
def doneCapacity : Nat := 8
/-- Reply queue, R183. -/
def replyCapacity : Nat := 8
/-- LEN lies in 2..1,048 (section 11.1). -/
def maxLen : Nat := 1048
/-- The ceiling of a tally counter, R172. -/
def counterCeiling : Nat := 4294967295
/-- The in-frame silence limit, R181: 10 ms. -/
def silenceLimit : Nat := 245760
/-- Nominal rate, R4. -/
def nominalCode : Nat := 32768
/-- Unity gain (00_scope.md, Gains). -/
def unity : Nat := 16384
/-- The nominal UART divisor after power-on and pin reset, R189. -/
def resetDivisor : Byte := 7#8
/-- The SYNC byte (section 11.1). -/
def sync : Byte := 0xD5#8
/-- The fill byte (R180). -/
def fill : Byte := 0xFF#8
/-- The revision code of the part this manual describes, R188. -/
def revision : Byte := 1#8

/-- FREE VALUE, log 10: the 64-bit domain time that stands for an exact result outside 0..2^64 − 1. -/
opaque domainTimeOutOfRange : Int → BitVec 64
/-- FREE VALUE, log 10: the 80-bit position that stands for an exact advance beyond 2^64 ticks. -/
opaque positionOutOfRange : Nat → BitVec 80
/-- FREE VALUE, log 11: the 64 bits sent for a signed difference outside −2^63..2^63 − 1. -/
opaque signedOutOfRange : Int → BitVec 64
/-- FREE VALUE, log 12: whether an E with a fraction is reported rounded up to a whole tick. -/
opaque errorRoundsUp : Int → Bool
/-- FREE VALUE, log 12: whether a baud rate that is no whole number is reported rounded up. -/
opaque baudRoundsUp : Nat → Bool
/-- FREE VALUE, log 13: the two 24-bit lanes of the frame taken by a zone at a local time when a STOP applied in the frame's
reseek ends the frame before it is mixed. -/
opaque stoppedFrameLanes : ZoneId → LocalTime → BitVec 24 × BitVec 24
/-- FREE VALUE, log 8: at the n-th in-frame silence deadline that local time reaches, whether the start bit that stops the
deadline has begun (R181). The table has no row for a start bit. -/
opaque startBitBegun : Nat → Bool

end Sys2Proof.Config
end

