-- ==== Sys2Proof/WellFormed.lean ====
section
/-! DEFINITION. Which command terms describe something the link or a pin can bring. -/

namespace Sys2Proof

/-- The KIND codes of the 39 requests, section 12.2. -/
def requestCodes : List Nat :=
  [0x01, 0x02, 0x03, 0x08, 0x09, 0x0A, 0x10, 0x11, 0x12, 0x13, 0x18, 0x19, 0x1A, 0x1B, 0x1C, 0x1D, 0x20, 0x21, 0x28, 0x29] ++
  [0x2A, 0x2B, 0x2C, 0x30, 0x31, 0x32, 0x33, 0x34, 0x35, 0x36, 0x37, 0x38, 0x39, 0x40, 0x41, 0x42, 0x48, 0x49, 0x4A]

/-- A body that fits a frame: LEN counts KIND, TAG and body and is at most 1,048 (section 11.1). -/
def bodyFits (body : List Byte) : Bool := body.length + 2 ≤ Config.maxLen

/-- LEN in 2..1,048 (R178). -/
def lenInRange (len : Nat) : Bool := 2 ≤ len && len ≤ Config.maxLen

/-- The well-formed commands: bodies fit a frame, an unknown kind is none of the 39, and an out-of-range LEN is out of range.
The CRC of `crcMismatch` and the fullness that `overrun` names are judged by the commands themselves. -/
def Instr.wellFormed : Instr → Bool
  | .capc _ b => bodyFits b | .capl _ b => bodyFits b | .capd _ b => bodyFits b | .stmp _ b => bodyFits b
  | .dset _ b => bodyFits b | .drun _ b => bodyFits b | .beac _ b => bodyFits b | .lchg _ b => bodyFits b
  | .drel _ b => bodyFits b | .dsta _ b => bodyFits b | .echs _ b => bodyFits b | .echa _ b => bodyFits b
  | .fset _ b => bodyFits b | .fdef _ b => bodyFits b | .pblk _ b => bodyFits b | .pool _ b => bodyFits b
  | .pwmk _ b => bodyFits b | .zflu _ b => bodyFits b | .zset _ b => bodyFits b | .zena _ b => bodyFits b
  | .zdis _ b => bodyFits b | .zrun _ b => bodyFits b | .zstp _ b => bodyFits b | .zsta _ b => bodyFits b
  | .zgan _ b => bodyFits b | .zsub _ b => bodyFits b | .gsub _ b => bodyFits b | .sadd _ b => bodyFits b
  | .scan _ b => bodyFits b | .slst _ b => bodyFits b | .indc _ b => bodyFits b | .indr _ b => bodyFits b
  | .inda _ b => bodyFits b | .tsnp _ b => bodyFits b | .taut _ b => bodyFits b | .tred _ b => bodyFits b
  | .lrat _ b => bodyFits b | .rset _ b => bodyFits b | .helo _ b => bodyFits b
  | .unknownKind kind _ b => bodyFits b && !requestCodes.contains kind.toNat
  | .overrun _ _ b => bodyFits b
  | .crcMismatch _ _ b _ => bodyFits b
  | .lenOutOfRange len => !lenInRange len.toNat
  | .stopBitError => true | .inFrameSilenceExpiry => true | .spiTransferStart => true | .spiTransferEnd => true
  | .replyLeavesQueue => true | .lratRateChange => true | .rsetReset => true
  | .powerOn _ => true | .pinReset _ => true | .strobeEdge _ => true
  | .beaconWatchExpiry _ => true | .windowEnd _ => true | .holdoverExpiry _ => true | .echoTimeout _ _ => true
  | .outputFrame _ => true | .automaticSnapshot => true | .byteReceived _ => true

end Sys2Proof
end

