-- ==== Sys2Proof/Decode.lean ====
section
/-! DEFINITION. The word decoder the host asks for. spec/opcode_table.json gives no row any bits, so no word spells a command. -/

namespace Sys2Proof

/-- No row of the table has bits: no word spells a command (log 29). -/
def decodeTableWord (_nbits _w : Nat) : Option Instr := none

end Sys2Proof
end

