-- ==== Sys2Proof/Machine/State.lean ====
section
/-! DEFINITION. Everything the spec gives the LT-4 to hold, grouped by the block that owns it (00_scope.md, The part in
outline), the queue of waiting commands, and the part right after reset. -/

namespace Sys2Proof.Machine

/-- One thing for each domain. -/
structure PerDomain (α : Type) where
  d0 : α
  d1 : α
  deriving DecidableEq, Repr

/-- One thing for each zone. -/
structure PerZone (α : Type) where
  z0 : α
  z1 : α
  z2 : α
  z3 : α
  deriving DecidableEq, Repr

/-- A subset of the four zones. -/
abbrev ZoneSet := PerZone Bool

/-! ### Captures (chapter 1) -/

/-- A capture record, section 1.5. -/
structure Capture where
  number : Byte
  input : StrobeInput
  time : LocalTime
  deriving DecidableEq, Repr

/-- The capture unit, section 1.5. The ring is oldest first; `lastRx` and `lastTx` are the ticks of the inputs' latest
captures (R7: one capture per input and local tick). -/
structure CaptureUnit where
  rxEnabled : Bool
  txEnabled : Bool
  counter : Byte
  ring : List Capture
  lastRx : Option LocalTime
  lastTx : Option LocalTime
  deriving DecidableEq, Repr

/-! ### Time domains (chapter 2) -/

inductive Role where
  | follow | lead
  deriving DecidableEq, Repr

inductive LossCriterion where
  | consec | sparse
  deriving DecidableEq, Repr

inductive StepAction where
  | step | reacquire
  deriving DecidableEq, Repr

inductive StartKind where
  | cold | warm
  deriving DecidableEq, Repr

/-- The phases of ACQUIRE, R24 and R25. -/
inductive AcquirePhase where
  | waiting | queued | anchored | searching
  deriving DecidableEq, Repr

/-- The state of a domain record, section 2.1; the phase stands in ACQUIRE, where alone it has a meaning. -/
inductive DomainState where
  | unbound | acquire (phase : AcquirePhase) | track | holdover | lost | lead
  deriving DecidableEq, Repr

/-- The setup part of a domain record, section 2.1, in the units of its table. -/
structure DomainSetup where
  role : Role
  leaderId : Word32
  beaconInterval : Nat
  lossCriterion : LossCriterion
  nLoss : Nat
  holdoverLimit : Nat
  stepThreshold : Nat
  nStep : Nat
  stepAction : StepAction
  filterShift : Nat
  deadband : Nat
  window : Nat
  warmWidth : Nat
  initialPathDelay : Nat
  echoTimeout : Nat
  deriving DecidableEq, Repr

/-- The anchor of a domain, R5. -/
structure Anchor where
  localTime : LocalTime
  domainTime : DomainTime
  deriving DecidableEq, Repr

/-- A domain record, section 2.1. -/
structure Domain where
  setup : DomainSetup
  state : DomainState
  startKind : StartKind
  anchor : Option Anchor
  code : Nat
  lastSequence : Option Word16
  newLeader : Bool
  outlierRun : Nat
  missed : Nat
  sparseCurrent : Nat
  sparsePrevious : Nat
  watch : Option LocalTime
  windowEnd : Option LocalTime
  holdover : Option LocalTime
  loss : Bool
  path : Bool
  range : Bool
  lastStepError : Option Int
  deriving DecidableEq, Repr

/-! ### The trim search engine (chapter 3) -/

/-- The search record of the served domain, section 3.1. -/
structure Search where
  domain : DomainId
  entryCode : Nat
  settledCode : Nat
  bit : Nat
  windowCount : Nat
  deriving DecidableEq, Repr

/-- The engine, section 3.1: the search it serves, and the domains in phase QUEUED, oldest joiner first. -/
structure SearchEngine where
  served : Option Search
  queue : List DomainId
  deriving DecidableEq, Repr

/-! ### The echo table (chapter 4) -/

/-- An echo record, section 4.1. -/
structure EchoRecord where
  domain : DomainId
  sequence : Word16
  departure : LocalTime
  deadline : LocalTime
  deriving DecidableEq, Repr

/-- The echo table, section 4.1: records in the order they were made (they have no order among themselves, R55), and for
each domain its path list, oldest first, and its consecutive timeouts. -/
structure EchoTable where
  records : List EchoRecord
  samples : PerDomain (List Nat)
  timeouts : PerDomain Nat
  deriving DecidableEq, Repr

/-! ### The block pool and the stream filter (chapter 5) -/

inductive Rate where
  | r48000 | r96000
  deriving DecidableEq, Repr

inductive SampleFormat where
  | s16 | s24 | s32
  deriving DecidableEq, Repr

/-- What a held slot carries, section 5.1, but for the holder count. -/
structure Block where
  stream : Word32
  sequence : Word32
  time : DomainTime
  rate : Rate
  format : SampleFormat
  channels : Nat
  frames : Nat
  final : Bool
  mark : Bool
  payload : List Byte
  deriving DecidableEq, Repr

/-- A held slot, R67. -/
structure HeldSlot where
  number : Nat
  holders : Nat
  block : Block
  deriving DecidableEq, Repr

/-- The pool, section 5.1: the held slots in ascending number; every other number of 0..511 is on the free list (R67, R68). -/
structure BlockPool where
  held : List HeldSlot
  watermark : Nat
  deriving DecidableEq, Repr

inductive FilterAction where
  | main | overlay | reject
  deriving DecidableEq, Repr

/-- A filter entry, section 5.3. -/
structure FilterEntry where
  enabled : Bool
  matchValue : Word32
  mask : Word32
  action : FilterAction
  zones : ZoneSet
  deriving DecidableEq, Repr

/-- The stream filter, section 5.3. -/
structure StreamFilter where
  entries : Vector FilterEntry 16
  defaultAction : FilterAction
  defaultZones : ZoneSet
  deriving DecidableEq, Repr

/-! ### Zones and their mixers (chapters 6, 7 and 8) -/

/-- A lane map, R134. -/
inductive LaneMap where
  | channel (c : Nat) | sum (a b : Nat) | silence
  deriving DecidableEq, Repr

inductive OverlayMode where
  | duck | replace
  deriving DecidableEq, Repr

inductive Substitution where
  | none | silence | tone
  deriving DecidableEq, Repr

/-- The mixer setup, R135. -/
structure MixerSetup where
  mapL : LaneMap
  mapR : LaneMap
  trimL : Nat
  trimR : Nat
  gainCeiling : Nat
  overlayMode : OverlayMode
  duckGain : Nat
  overlayGain : Nat
  rampLength : Nat
  deriving DecidableEq, Repr

/-- The setup part of a zone record, section 7.1. -/
structure ZoneSetup where
  domain : DomainId
  rate : Rate
  latency : Nat
  horizon : Nat
  slewLimit : Nat
  reseekThreshold : Nat
  tolerance : Nat
  mainQuota : Nat
  overlayQuota : Nat
  lowWatermark : Nat
  mixer : MixerSetup
  deriving DecidableEq, Repr

/-- What a HELD zone returns to, section 7.1; RUNNING stands for the PLAYING class. -/
inductive ResumeState where
  | armed | running
  deriving DecidableEq, Repr

/-- The state of a zone, section 7.1, with the end point of STOPPING and the resume state of HELD. -/
inductive ZoneState where
  | disabled | idle | armed | playing | starved | drained
  | stopping (endPoint : DomainTime)
  | held (resume : ResumeState)
  deriving DecidableEq, Repr

/-- The start condition of ARMED, R109. -/
inductive ZoneStart where
  | at (time : DomainTime) | auto
  deriving DecidableEq, Repr

/-- A ramp, R138: start value, target, length in frames, frames taken since it began. -/
structure Ramp where
  start : Rat
  target : Nat
  length : Nat
  count : Nat
  deriving DecidableEq, Repr

/-- Two 24-bit lane values, R132. -/
structure Lanes where
  left : Int
  right : Int
  deriving DecidableEq, Repr

/-- The running part of a zone's mixer, R146. -/
structure Mixer where
  zoneGain : Nat
  substitution : Substitution
  mainGain : Ramp
  programme : Ramp
  tone : Ramp
  overlayActive : Bool
  lastLanes : Option Lanes
  deriving DecidableEq, Repr

/-- The record of a zone's latest frame in a running state, R110. `error` is E in units of 1/65,536 tick. -/
structure LastFrame where
  time : LocalTime
  target : DomainTime
  error : Int
  deriving DecidableEq, Repr

/-- A zone's last marker: the three values of R94. -/
structure Marker where
  stream : Word32
  sequence : Word32
  time : LocalTime
  deriving DecidableEq, Repr

/-- A zone record, section 7.1. The queues hold slot numbers in play order (R88); `port` is the local time of the port's
next frame (R107, R110); `emitted` is the frame the port began last (R132); `lastMarkerSlot` is the slot of the last marker's
block, which R68 has in the marker reports (log 33). -/
structure Zone where
  setup : ZoneSetup
  state : ZoneState
  start : Option ZoneStart
  position : Option Position
  aligned : Bool
  lastFrame : Option LastFrame
  lastFinal : Bool
  lastMarker : Option Marker
  lastMarkerSlot : Option Nat
  mainQueue : List Nat
  overlayQueue : List Nat
  port : Option LocalTime
  emitted : Option Lanes
  mixer : Mixer
  deriving DecidableEq, Repr

/-! ### The action schedule (chapter 9) -/

inductive StopMode where
  | graceful | immediate
  deriving DecidableEq, Repr

/-- An action with its parameters, section 9.1. -/
inductive Action where
  | gain (g : Nat)
  | subst (s : Substitution)
  | overlay (mode : OverlayMode) (duck : Nat)
  | latency (l : Nat)
  | stop (mode : StopMode)
  | note
  deriving DecidableEq, Repr

/-- Which action an entry carries, without its parameters. -/
inductive ActionKind where
  | gain | subst | overlay | latency | stop | note
  deriving DecidableEq, Repr

/-- A live schedule entry, section 9.1. -/
structure ScheduleEntry where
  handle : Word16
  time : DomainTime
  domain : DomainId
  zones : ZoneSet
  pending : ZoneSet
  action : Action
  notify : Bool
  applied : Nat
  deriving DecidableEq, Repr

/-- A done record, R159: handle, action, zone set, applied count and local time. -/
structure DoneRecord where
  handle : Word16
  action : ActionKind
  zones : ZoneSet
  applied : Nat
  time : LocalTime
  deriving DecidableEq, Repr

/-- The schedule: live entries in list order (R149), the handle counter (R150), the done list, oldest first (R159). -/
structure Schedule where
  entries : List ScheduleEntry
  counter : Word16
  done : List DoneRecord
  deriving DecidableEq, Repr

/-! ### Indications and tallies (chapter 10) -/

/-- The fifteen kinds of indication, section 10.1, in the order of their codes (section 12.3). -/
inductive IndicationKind where
  | link | captureOverwrite | poolLow | actionDone | tally
  | domainState | domainAlarm | domainStep
  | zoneState | underrun | queueLow | reseek | align | marker | endOfStream
  deriving DecidableEq, Repr

/-- The object of an indication, section 10.1. -/
inductive IndicationObject where
  | part | domain (d : DomainId) | zone (z : ZoneId)
  deriving DecidableEq, Repr

/-- An indication: a pair of a kind and an object. -/
structure Pair where
  kind : IndicationKind
  object : IndicationObject
  deriving DecidableEq, Repr

/-- A pending pair, R165. -/
structure PendingPair where
  pair : Pair
  raises : Nat
  first : LocalTime
  latest : LocalTime
  deriving DecidableEq, Repr

/-- The causes of LINK, R166. -/
inductive LinkCause where
  | crc | framing | overrun
  deriving DecidableEq, Repr

/-- The cause set of LINK, R166. -/
structure CauseSet where
  crc : Bool
  framing : Bool
  overrun : Bool
  deriving DecidableEq, Repr

/-- The two attention lines, R168. -/
inductive Line where
  | line0 | line1
  deriving DecidableEq, Repr

/-- Enable and line of one kind, R167. -/
structure KindSetting where
  enabled : Bool
  line : Line
  deriving DecidableEq, Repr

/-- The indication unit: the pending set in report order (R165, R169), the causes of LINK, the settings by kind code. -/
structure IndicationUnit where
  pending : List PendingPair
  causes : CauseSet
  settings : Vector KindSetting 15
  deriving DecidableEq, Repr

/-- A live counter with its overflow flag, R172. -/
structure Counter where
  value : Nat
  overflow : Bool
  deriving DecidableEq, Repr

structure ZoneTallies where
  blocksPlayed : Counter
  droppedLate : Counter
  framesConcealed : Counter
  underruns : Counter
  reseeks : Counter
  blocksRefused : Counter
  deriving DecidableEq, Repr

structure DomainTallies where
  samplesHeard : Counter
  outliers : Counter
  beaconsMissed : Counter
  steps : Counter
  echoAnswers : Counter
  echoTimeouts : Counter
  deriving DecidableEq, Repr

structure PartTallies where
  filterRejects : Counter
  poolExhausted : Counter
  captureOverwrites : Counter
  linkErrors : Counter
  deriving DecidableEq, Repr

/-- The 40 counters of section 10.6. -/
structure TallySet where
  zones : PerZone ZoneTallies
  domains : PerDomain DomainTallies
  part : PartTallies
  deriving DecidableEq, Repr

inductive SnapshotCause where
  | request | auto
  deriving DecidableEq, Repr

/-- The snapshot set, R173; an absent cause is NONE (R176). -/
structure Snapshot where
  tallies : TallySet
  number : Word32
  time : Option LocalTime
  cause : Option SnapshotCause
  deriving DecidableEq, Repr

/-- The tally unit, R172 to R175. -/
structure TallyUnit where
  live : TallySet
  snapshot : Snapshot
  automatic : Bool
  deadline : Option LocalTime
  deriving DecidableEq, Repr

/-! ### The host link (chapter 11) -/

inductive LinkMode where
  | spi | uart
  deriving DecidableEq, Repr

/-- The hunt states of R178 with the bytes of the frame in progress: in BODY the LEN and the bytes kept so far, in CHECK
all LEN bytes and the low CRC byte once it is kept. -/
inductive Receiver where
  | hunt
  | lengthLow
  | lengthHigh (low : Byte)
  | body (len : Nat) (kept : List Byte)
  | checkLow (bytes : List Byte)
  | checkHigh (bytes : List Byte) (low : Byte)
  deriving DecidableEq, Repr

/-- What the last byte of a reply brings about: nothing, a new divisor (R186), the reset (R187). -/
inductive AfterReply where
  | nothing | rate (divisor : Byte) | reset
  deriving DecidableEq, Repr

/-- A reply in the reply queue, R191: reply kind, tag, body with its status first. -/
structure Reply where
  kind : Byte
  tag : Byte
  body : List Byte
  after : AfterReply
  deriving DecidableEq, Repr

/-- The link controller, chapter 11. -/
structure Link where
  mode : LinkMode
  divisor : Byte
  receiver : Receiver
  silence : Option LocalTime
  replies : List Reply
  sent : Nat
  txEnd : Option LocalTime
  rateDue : Option Byte
  deaf : Bool
  resetDue : Bool
  selected : Bool
  miso : Option Byte
  deriving DecidableEq, Repr

/-! ### The part -/

/-- The LT-4: local time (R1) and the state of its blocks. -/
structure Part where
  localTime : LocalTime
  capture : CaptureUnit
  domains : PerDomain Domain
  engine : SearchEngine
  echo : EchoTable
  pool : BlockPool
  filter : StreamFilter
  zones : PerZone Zone
  globalSubstitution : Substitution
  schedule : Schedule
  indications : IndicationUnit
  tallies : TallyUnit
  link : Link
  deriving DecidableEq, Repr

/-- The part and the commands that wait for it, first in, first out. `draws` is the model's own field: how many times the clock
has asked the free value `Config.startBitBegun` (log 8). -/
structure State where
  part : Part
  pending : List Instr
  draws : Nat
  deriving DecidableEq, Repr

/-- No command of the LT-4 ends in a fault: bad frames are discarded and counted (R185), bad requests are answered with a
status (R191). So there is no constructor, and no command can raise one. -/
inductive Fault where
  deriving DecidableEq, Repr

/-- Refusals of the model. -/
inductive Refusal where
  /-- The command has no meaning yet: raised by `exec` alone, and by no arm of this model. Safe: the model stops. -/
  | notModelled (mnemonic : String)
  deriving DecidableEq, Repr

/-! ### Reset -/

/-- The same thing for both domains. -/
def PerDomain.both {α : Type} (a : α) : PerDomain α := ⟨a, a⟩

/-- The same thing for all four zones. -/
def PerZone.all {α : Type} (a : α) : PerZone α := ⟨a, a, a, a⟩

/-- R16. -/
def CaptureUnit.reset : CaptureUnit := ⟨false, false, 0#8, [], none, none⟩

/-- The defaults of section 2.1. -/
def DomainSetup.reset : DomainSetup where
  role := .follow
  leaderId := 0#32
  beaconInterval := 125
  lossCriterion := .consec
  nLoss := 3
  holdoverLimit := 30
  stepThreshold := 4915
  nStep := 4
  stepAction := .step
  filterShift := 2
  deadband := 25
  window := 4
  warmWidth := 7
  initialPathDelay := 0
  echoTimeout := 250

/-- R42. -/
def Domain.reset : Domain where
  setup := .reset
  state := .unbound
  startKind := .cold
  anchor := none
  code := Config.nominalCode
  lastSequence := none
  newLeader := false
  outlierRun := 0
  missed := 0
  sparseCurrent := 0
  sparsePrevious := 0
  watch := none
  windowEnd := none
  holdover := none
  loss := false
  path := false
  range := false
  lastStepError := none

/-- R87: the watermark is 32 and every slot is free. -/
def BlockPool.reset : BlockPool := ⟨[], 32⟩

/-- R87. -/
def FilterEntry.reset : FilterEntry := ⟨false, 0#32, 0#32, .reject, .all false⟩

/-- R87. -/
def StreamFilter.reset : StreamFilter := ⟨Vector.replicate 16 .reset, .reject, .all false⟩

/-- The values after reset of R135. -/
def MixerSetup.reset : MixerSetup where
  mapL := .channel 0
  mapR := .channel 1
  trimL := 16384
  trimR := 16384
  gainCeiling := 65535
  overlayMode := .duck
  duckGain := 4096
  overlayGain := 16384
  rampLength := 480

/-- The defaults of section 7.1. -/
def ZoneSetup.reset : ZoneSetup where
  domain := .d0
  rate := .r48000
  latency := 0
  horizon := 4000
  slewLimit := 100
  reseekThreshold := 24576
  tolerance := 123
  mainQuota := 128
  overlayQuota := 32
  lowWatermark := 8
  mixer := .reset

/-- A ramp at rest (R138, R141). -/
def Ramp.rest (v : Nat) : Ramp := ⟨(v : Rat), v, 0, 0⟩

/-- R147. -/
def Mixer.reset : Mixer := ⟨16384, .none, .rest 16384, .rest 0, .rest 0, false, none⟩

/-- R131 and R105. -/
def Zone.reset : Zone where
  setup := .reset
  state := .disabled
  start := none
  position := none
  aligned := false
  lastFrame := none
  lastFinal := false
  lastMarker := none
  lastMarkerSlot := none
  mainQueue := []
  overlayQueue := []
  port := none
  emitted := none
  mixer := .reset

/-- No cause (R166). -/
def CauseSet.empty : CauseSet := ⟨false, false, false⟩

/-- R171. -/
def IndicationUnit.reset : IndicationUnit := ⟨[], .empty, Vector.replicate 15 ⟨false, .line0⟩⟩

def Counter.zero : Counter := ⟨0, false⟩

/-- Every counter 0 with its flag clear (R173, R177). -/
def TallySet.zero : TallySet where
  zones := .all ⟨.zero, .zero, .zero, .zero, .zero, .zero⟩
  domains := .both ⟨.zero, .zero, .zero, .zero, .zero, .zero⟩
  part := ⟨.zero, .zero, .zero, .zero⟩

/-- R177. -/
def TallyUnit.reset : TallyUnit := ⟨.zero, ⟨.zero, 0#32, none, none⟩, false, none⟩

/-- R189, with the mode and the divisor the kind of reset leaves and the level of the nCS pin. -/
def Link.reset (mode : LinkMode) (divisor : Byte) (selected : Bool) : Link where
  mode := mode
  divisor := divisor
  receiver := .hunt
  silence := none
  replies := []
  sent := 0
  txEnd := none
  rateDue := none
  deaf := false
  resetDue := false
  selected := selected
  miso := none

/-- The part after any of the three resets: R1, R16, R42, R43, R66, R87, R105, R131, R147, R164, R171, R177, R189. -/
def Part.reset (mode : LinkMode) (divisor : Byte) (selected : Bool) : Part where
  localTime := 0
  capture := .reset
  domains := .both .reset
  engine := ⟨none, []⟩
  echo := ⟨[], .both [], .both 0⟩
  pool := .reset
  filter := .reset
  zones := .all .reset
  globalSubstitution := .none
  schedule := ⟨[], 0#16, []⟩
  indications := .reset
  tallies := .reset
  link := .reset mode divisor selected

/-- The machine right after reset: a pin reset with LSEL low and nCS high (log 9), divisor 7 (R189), no command waiting, no free
value asked (log 8). -/
def State.reset : State := ⟨Part.reset .spi Config.resetDivisor false, [], 0⟩

end Sys2Proof.Machine
end

