-- ==== Sys2Proof/Machine/Operands.lean ====
section
/-! DEFINITION. Rounding, narrowing and byte order; the codes and field encodings of chapter 12; and what each request body
holds (sections 12.2 to 12.4, R192, R193). -/

namespace Sys2Proof

/-! ### Codes of domains, zones and inputs (section 12.3) -/

def DomainId.ofCode : Nat → Option DomainId
  | 0 => some .d0
  | 1 => some .d1
  | _ => none

def DomainId.code : DomainId → Byte
  | .d0 => 0#8
  | .d1 => 1#8

def ZoneId.ofCode : Nat → Option ZoneId
  | 0 => some .z0
  | 1 => some .z1
  | 2 => some .z2
  | 3 => some .z3
  | _ => none

def ZoneId.code : ZoneId → Byte
  | .z0 => 0#8
  | .z1 => 1#8
  | .z2 => 2#8
  | .z3 => 3#8

def StrobeInput.ofCode : Nat → Option StrobeInput
  | 0 => some .rx
  | 1 => some .tx
  | _ => none

def StrobeInput.code : StrobeInput → Byte
  | .rx => 0#8
  | .tx => 1#8

end Sys2Proof

namespace Sys2Proof.Machine

/-! ### Rounding and narrowing -/

/-- `n / d` rounded to the nearest whole number, a value exactly halfway away from zero (R5, R116, R118, R136, R140). -/
def roundHalfAway (n : Int) (d : Nat) : Int :=
  if 0 ≤ n then (2 * n + d) / (2 * d) else -((2 * (-n) + d) / (2 * d))

/-- A fraction rounded to the nearest whole number, halfway away from zero. -/
def roundRat (q : Rat) : Int := roundHalfAway q.num q.den

/-- An exact result as a 64-bit domain time (R3); the spec gives none outside 0..2^64 − 1: a free value (log 10). -/
def toDomainTime (x : Int) : DomainTime :=
  if 0 ≤ x ∧ x < 2 ^ 64 then x.toNat else (Config.domainTimeOutOfRange x).toNat

/-- An exact position as 64 bits of ticks and 16 of fraction (R3); beyond that a free value (log 10). -/
def toPosition (x : Nat) : Position :=
  if x < 2 ^ 80 then x else (Config.positionOutOfRange x).toNat

/-- One tick of a position. -/
def positionUnit : Nat := 65536

/-- A whole domain time as a position, fraction 0. -/
def positionAt (t : DomainTime) : Position := t * positionUnit

/-! ### Little-endian fields (section 12.1) -/

/-- The number that bytes hold, low byte first. -/
def leNat : List Byte → Nat
  | [] => 0
  | b :: bs => b.toNat + 256 * leNat bs

/-- The low `n` bytes of a number, low byte first. -/
def leBytes : Nat → Nat → List Byte
  | 0, _ => []
  | n + 1, x => BitVec.ofNat 8 x :: leBytes n (x / 256)

/-- The unsigned field of `n` bytes at offset `off` of a body. -/
def field (body : List Byte) (off n : Nat) : Nat := leNat ((body.drop off).take n)

/-- A 64-bit time in a reply; an exact sum beyond 64 bits is sent as the domain time that stands for it (log 10). -/
def timeBytes (t : Nat) : List Byte := leBytes 8 (toDomainTime t)

/-- A signed difference in 8 bytes, two's complement (section 12.3); beyond 64 bits a free value (log 11). -/
def signedBytes (x : Int) : List Byte :=
  if -(2 ^ 63) ≤ x ∧ x < 2 ^ 63 then leBytes 8 (BitVec.ofInt 64 x).toNat
  else leBytes 8 (Config.signedOutOfRange x).toNat

/-- A flag, 0 or 1. -/
def flagBytes (b : Bool) : List Byte := [if b then 1#8 else 0#8]

/-- A value that may be absent: a presence byte, then the value's `n` bytes, 0 when absent (section 12.3). -/
def optBytes {α : Type} (n : Nat) (enc : α → List Byte) : Option α → List Byte
  | none => 0#8 :: List.replicate n 0#8
  | some a => 1#8 :: enc a

/-- A deadline: a local time, or absent when stopped (section 12.3). -/
def deadlineBytes (d : Option LocalTime) : List Byte := optBytes 8 timeBytes d

/-! ### Per-domain and per-zone access -/

def PerDomain.get {α : Type} (m : PerDomain α) : DomainId → α
  | .d0 => m.d0
  | .d1 => m.d1

def PerDomain.set {α : Type} (m : PerDomain α) (d : DomainId) (a : α) : PerDomain α :=
  match d with
  | .d0 => { m with d0 := a }
  | .d1 => { m with d1 := a }

def PerZone.get {α : Type} (m : PerZone α) : ZoneId → α
  | .z0 => m.z0
  | .z1 => m.z1
  | .z2 => m.z2
  | .z3 => m.z3

def PerZone.set {α : Type} (m : PerZone α) (z : ZoneId) (a : α) : PerZone α :=
  match z with
  | .z0 => { m with z0 := a }
  | .z1 => { m with z1 := a }
  | .z2 => { m with z2 := a }
  | .z3 => { m with z3 := a }

/-- The domains in order. -/
def allDomains : List DomainId := [.d0, .d1]

/-- The zones in ascending number. -/
def allZones : List ZoneId := [.z0, .z1, .z2, .z3]

/-- The zones of a set in ascending number. -/
def ZoneSet.members (s : ZoneSet) : List ZoneId := allZones.filter s.get

def ZoneSet.isEmpty (s : ZoneSet) : Bool := !(s.z0 || s.z1 || s.z2 || s.z3)

/-! ### Choice codes (section 12.3) -/

/-- A flag field: 0 or 1 (R192). -/
def flagOf : Nat → Option Bool
  | 0 => some false
  | 1 => some true
  | _ => none

def Role.ofCode : Nat → Option Role
  | 0 => some .follow
  | 1 => some .lead
  | _ => none

def Role.code : Role → Byte
  | .follow => 0#8
  | .lead => 1#8

def LossCriterion.ofCode : Nat → Option LossCriterion
  | 0 => some .consec
  | 1 => some .sparse
  | _ => none

def LossCriterion.code : LossCriterion → Byte
  | .consec => 0#8
  | .sparse => 1#8

def StepAction.ofCode : Nat → Option StepAction
  | 0 => some .step
  | 1 => some .reacquire
  | _ => none

def StepAction.code : StepAction → Byte
  | .step => 0#8
  | .reacquire => 1#8

def Rate.ofCode : Nat → Option Rate
  | 0 => some .r48000
  | 1 => some .r96000
  | _ => none

def Rate.code : Rate → Byte
  | .r48000 => 0#8
  | .r96000 => 1#8

def SampleFormat.ofCode : Nat → Option SampleFormat
  | 0 => some .s16
  | 1 => some .s24
  | 2 => some .s32
  | _ => none

def SampleFormat.code : SampleFormat → Byte
  | .s16 => 0#8
  | .s24 => 1#8
  | .s32 => 2#8

def FilterAction.ofCode : Nat → Option FilterAction
  | 0 => some .main
  | 1 => some .overlay
  | 2 => some .reject
  | _ => none

def FilterAction.code : FilterAction → Byte
  | .main => 0#8
  | .overlay => 1#8
  | .reject => 2#8

def OverlayMode.ofCode : Nat → Option OverlayMode
  | 0 => some .duck
  | 1 => some .replace
  | _ => none

def OverlayMode.code : OverlayMode → Byte
  | .duck => 0#8
  | .replace => 1#8

def Substitution.ofCode : Nat → Option Substitution
  | 0 => some .none
  | 1 => some .silence
  | 2 => some .tone
  | _ => Option.none

def Substitution.code : Substitution → Byte
  | .none => 0#8
  | .silence => 1#8
  | .tone => 2#8

def StopMode.ofCode : Nat → Option StopMode
  | 0 => some .graceful
  | 1 => some .immediate
  | _ => none

def StopMode.code : StopMode → Byte
  | .graceful => 0#8
  | .immediate => 1#8

/-- A queue selector of ZFLU, section 6.4. -/
inductive QueueSelector where
  | main | overlay | both
  deriving DecidableEq, Repr

def QueueSelector.ofCode : Nat → Option QueueSelector
  | 0 => some .main
  | 1 => some .overlay
  | 2 => some .both
  | _ => none

def IndicationKind.index : IndicationKind → Fin 15
  | .link => 0
  | .captureOverwrite => 1
  | .poolLow => 2
  | .actionDone => 3
  | .tally => 4
  | .domainState => 5
  | .domainAlarm => 6
  | .domainStep => 7
  | .zoneState => 8
  | .underrun => 9
  | .queueLow => 10
  | .reseek => 11
  | .align => 12
  | .marker => 13
  | .endOfStream => 14

/-- The kinds in the order of their codes, which is the report order within each object (section 10.1). -/
def allKinds : List IndicationKind :=
  [.link, .captureOverwrite, .poolLow, .actionDone, .tally, .domainState, .domainAlarm, .domainStep, .zoneState,
   .underrun, .queueLow, .reseek, .align, .marker, .endOfStream]

def IndicationKind.ofCode (n : Nat) : Option IndicationKind := allKinds[n]?

def IndicationKind.code (k : IndicationKind) : Byte := BitVec.ofNat 8 k.index.val

def IndicationObject.ofCode : Nat → Option IndicationObject
  | 0 => some .part
  | 1 => some (.domain .d0)
  | 2 => some (.domain .d1)
  | 3 => some (.zone .z0)
  | 4 => some (.zone .z1)
  | 5 => some (.zone .z2)
  | 6 => some (.zone .z3)
  | _ => none

def IndicationObject.index : IndicationObject → Nat
  | .part => 0
  | .domain .d0 => 1
  | .domain .d1 => 2
  | .zone .z0 => 3
  | .zone .z1 => 4
  | .zone .z2 => 5
  | .zone .z3 => 6

def IndicationObject.code (o : IndicationObject) : Byte := BitVec.ofNat 8 o.index

/-- The object class of a kind, section 10.1: does the object belong to it? -/
def Pair.valid (p : Pair) : Bool :=
  match p.object with
  | .part => p.kind.index.val ≤ 4
  | .domain _ => 5 ≤ p.kind.index.val && p.kind.index.val ≤ 7
  | .zone _ => 8 ≤ p.kind.index.val

/-- An INDA pair: a kind and an object of the kind's class (R170, R192). -/
def Pair.ofCodes (kind object : Nat) : Option Pair := do
  let k ← IndicationKind.ofCode kind
  let o ← IndicationObject.ofCode object
  if Pair.valid ⟨k, o⟩ then some ⟨k, o⟩ else none

def LinkMode.code : LinkMode → Byte
  | .spi => 0#8
  | .uart => 1#8

def DomainState.code : DomainState → Byte
  | .unbound => 0#8
  | .acquire _ => 1#8
  | .track => 2#8
  | .holdover => 3#8
  | .lost => 4#8
  | .lead => 5#8

/-- The ACQUIRE phase, NONE outside ACQUIRE (R41). -/
def DomainState.phaseCode : DomainState → Byte
  | .acquire .waiting => 0#8
  | .acquire .queued => 1#8
  | .acquire .anchored => 2#8
  | .acquire .searching => 3#8
  | _ => 0xFF#8

def StartKind.code : StartKind → Byte
  | .cold => 0#8
  | .warm => 1#8

def ZoneState.code : ZoneState → Byte
  | .disabled => 0#8
  | .idle => 1#8
  | .armed => 2#8
  | .playing => 3#8
  | .starved => 4#8
  | .drained => 5#8
  | .stopping _ => 6#8
  | .held _ => 7#8

/-- The resume state, NONE outside HELD (R129). -/
def ZoneState.resumeCode : ZoneState → Byte
  | .held .armed => 0#8
  | .held .running => 1#8
  | _ => 0xFF#8

/-- The outcome of a BEAC, R23. -/
inductive BeaconOutcome where
  | anchored | window | tracked | outlier | stepped
  deriving DecidableEq, Repr

def BeaconOutcome.code : BeaconOutcome → Byte
  | .anchored => 0#8
  | .window => 1#8
  | .tracked => 2#8
  | .outlier => 3#8
  | .stepped => 4#8

/-- The statuses of a reply, section 12.5. -/
inductive Status where
  | ok | unknownKind | badLength | badField | wrongState | untimed | noEntry | captureGone | wrongInput
  | leaderMismatch | stale | duplicate | tableFull | zoneMismatch | zoneOff | badEcho | rejected | refused
  deriving DecidableEq, Repr

def Status.code : Status → Byte
  | .ok => 0#8
  | .unknownKind => 1#8
  | .badLength => 2#8
  | .badField => 3#8
  | .wrongState => 4#8
  | .untimed => 5#8
  | .noEntry => 6#8
  | .captureGone => 7#8
  | .wrongInput => 8#8
  | .leaderMismatch => 9#8
  | .stale => 10#8
  | .duplicate => 11#8
  | .tableFull => 12#8
  | .zoneMismatch => 13#8
  | .zoneOff => 14#8
  | .badEcho => 15#8
  | .rejected => 16#8
  | .refused => 17#8

/-- A zone's result in a PBLK reply, sections 5.4 and 12.5. -/
inductive ZoneResult where
  | accepted | zoneOff | rate | duplicate | late | early | overlap | quota | noSlot
  deriving DecidableEq, Repr

def ZoneResult.code : ZoneResult → Byte
  | .accepted => 0#8
  | .zoneOff => 1#8
  | .rate => 2#8
  | .duplicate => 3#8
  | .late => 4#8
  | .early => 5#8
  | .overlap => 6#8
  | .quota => 7#8
  | .noSlot => 8#8

/-! ### Composite fields (section 12.3) -/

/-- A zone set byte: Z0 in the lowest bit, the four upper bits 0. -/
def ZoneSet.ofCode (n : Nat) : Option ZoneSet :=
  if n < 16 then some ⟨n.testBit 0, n.testBit 1, n.testBit 2, n.testBit 3⟩ else none

def ZoneSet.code (s : ZoneSet) : Byte :=
  BitVec.ofNat 8 (s.z0.toNat + 2 * s.z1.toNat + 4 * s.z2.toNat + 8 * s.z3.toNat)

/-- A lane map: kind, first channel, second channel; unused channel bytes are 0 (R192), channels at most 7 (R135). -/
def LaneMap.ofCodes (kind a b : Nat) : Option LaneMap :=
  match kind with
  | 0 => if a ≤ 7 ∧ b = 0 then some (.channel a) else none
  | 1 => if a ≤ 7 ∧ b ≤ 7 then some (.sum a b) else none
  | 2 => if a = 0 ∧ b = 0 then some .silence else none
  | _ => none

def LaneMap.bytes : LaneMap → List Byte
  | .channel c => [0#8, BitVec.ofNat 8 c, 0#8]
  | .sum a b => [1#8, BitVec.ofNat 8 a, BitVec.ofNat 8 b]
  | .silence => [2#8, 0#8, 0#8]

/-- P: whole ticks in 8 bytes, then the 16 fraction bits in 2. -/
def positionBytes (p : Position) : List Byte := leBytes 8 (p / positionUnit) ++ leBytes 2 (p % positionUnit)

/-- A lane value: 4 bytes, two's complement. -/
def laneBytes (v : Int) : List Byte := leBytes 4 (BitVec.ofInt 32 v).toNat

/-- A value in its range, or nothing (R192). -/
def inRange (lo hi x : Nat) : Option Nat := if lo ≤ x ∧ x ≤ hi then some x else none

/-- The setup part of a DSET body (offsets 1..28), every field in its range (section 2.1), or nothing. -/
def DomainSetup.ofBody (body : List Byte) : Option DomainSetup := do
  let role ← Role.ofCode (field body 1 1)
  let bi ← inRange 20 1000 (field body 6 2)
  let crit ← LossCriterion.ofCode (field body 8 1)
  let nLoss ← inRange 2 16 (field body 9 1)
  let limit ← inRange 1 600 (field body 10 2)
  let s ← inRange 100 2000000 (field body 12 4)
  let nStep ← inRange 2 16 (field body 16 1)
  let act ← StepAction.ofCode (field body 17 1)
  let k ← inRange 0 4 (field body 18 1)
  let dead ← inRange 0 1000 (field body 19 2)
  let w ← inRange 2 16 (field body 21 1)
  let warm ← inRange 0 15 (field body 22 1)
  let pathDelay ← inRange 0 2457600 (field body 23 4)
  let echo ← inRange 50 2000 (field body 27 2)
  some { role := role, leaderId := BitVec.ofNat 32 (field body 2 4), beaconInterval := bi, lossCriterion := crit,
         nLoss := nLoss, holdoverLimit := limit, stepThreshold := s, nStep := nStep, stepAction := act,
         filterShift := k, deadband := dead, window := w, warmWidth := warm, initialPathDelay := pathDelay,
         echoTimeout := echo }

/-- The setup part of a domain in a reply: the fields in the order of section 2.1, as DSET carries them. -/
def DomainSetup.bytes (s : DomainSetup) : List Byte :=
  [s.role.code] ++ leBytes 4 s.leaderId.toNat ++ leBytes 2 s.beaconInterval ++ [s.lossCriterion.code] ++
  leBytes 1 s.nLoss ++ leBytes 2 s.holdoverLimit ++ leBytes 4 s.stepThreshold ++ leBytes 1 s.nStep ++
  [s.stepAction.code] ++ leBytes 1 s.filterShift ++ leBytes 2 s.deadband ++ leBytes 1 s.window ++
  leBytes 1 s.warmWidth ++ leBytes 4 s.initialPathDelay ++ leBytes 2 s.echoTimeout

/-- The mixer setup of a ZSET body (offsets 21..39), every field in its range (R135), or nothing. -/
def MixerSetup.ofBody (body : List Byte) : Option MixerSetup := do
  let mapL ← LaneMap.ofCodes (field body 21 1) (field body 22 1) (field body 23 1)
  let mapR ← LaneMap.ofCodes (field body 24 1) (field body 25 1) (field body 26 1)
  let mode ← OverlayMode.ofCode (field body 33 1)
  let ramp ← inRange 0 4800 (field body 38 2)
  some { mapL := mapL, mapR := mapR, trimL := field body 27 2, trimR := field body 29 2, gainCeiling := field body 31 2,
         overlayMode := mode, duckGain := field body 34 2, overlayGain := field body 36 2, rampLength := ramp }

/-- The setup part of a ZSET body (offsets 1..39), every field in its range (section 7.1), or nothing. -/
def ZoneSetup.ofBody (body : List Byte) : Option ZoneSetup := do
  let domain ← DomainId.ofCode (field body 1 1)
  let rate ← Rate.ofCode (field body 2 1)
  let latency ← inRange 0 4095 (field body 3 2)
  let horizon ← inRange 100 10000 (field body 5 2)
  let slew ← inRange 0 1000 (field body 7 2)
  let reseek ← inRange 1000 2457600 (field body 9 4)
  let tolerance ← inRange 10 24576 (field body 13 2)
  let mainQuota ← inRange 1 512 (field body 15 2)
  let overlayQuota ← inRange 1 128 (field body 17 2)
  let low ← inRange 0 512 (field body 19 2)
  let mixer ← MixerSetup.ofBody body
  some { domain := domain, rate := rate, latency := latency, horizon := horizon, slewLimit := slew,
         reseekThreshold := reseek, tolerance := tolerance, mainQuota := mainQuota, overlayQuota := overlayQuota,
         lowWatermark := low, mixer := mixer }

/-- The mixer setup in a reply, as ZSET carries it. -/
def MixerSetup.bytes (m : MixerSetup) : List Byte :=
  m.mapL.bytes ++ m.mapR.bytes ++ leBytes 2 m.trimL ++ leBytes 2 m.trimR ++ leBytes 2 m.gainCeiling ++
  [m.overlayMode.code] ++ leBytes 2 m.duckGain ++ leBytes 2 m.overlayGain ++ leBytes 2 m.rampLength

/-- The setup of a zone in a reply: the fields in the order of section 7.1, as ZSET carries them. -/
def ZoneSetup.bytes (s : ZoneSetup) : List Byte :=
  [s.domain.code, s.rate.code] ++ leBytes 2 s.latency ++ leBytes 2 s.horizon ++ leBytes 2 s.slewLimit ++
  leBytes 4 s.reseekThreshold ++ leBytes 2 s.tolerance ++ leBytes 2 s.mainQuota ++ leBytes 2 s.overlayQuota ++
  leBytes 2 s.lowWatermark ++ s.mixer.bytes

/-- A DRUN form with its operand, section 2.2. -/
inductive RunForm where
  | followCold
  | followWarm (hint : Nat)
  | leadFrom (start : DomainTime)
  | leadInherit (x : DomainId)
  deriving DecidableEq, Repr

/-- A DRUN form byte and its 8-byte operand (section 12.3); unused operand bytes are 0 (R192). -/
def RunForm.ofCodes (form operand : Nat) : Option RunForm :=
  match form with
  | 0 => if operand = 0 then some .followCold else none
  | 1 => if operand < 65536 then some (.followWarm operand) else none
  | 2 => some (.leadFrom operand)
  | 3 => (DomainId.ofCode operand).map .leadInherit
  | _ => none

/-- A ZRUN start: a form byte and an 8-byte time that is 0 under AUTO (section 12.3). -/
def ZoneStart.ofCodes (form time : Nat) : Option ZoneStart :=
  match form with
  | 0 => some (.at time)
  | 1 => if time = 0 then some .auto else none
  | _ => none

/-- A start in a reply: its form and its time; none has the form 0xFF (section 12.3). -/
def startBytes : Option ZoneStart → List Byte
  | some (.at t) => 0#8 :: timeBytes t
  | some .auto => 1#8 :: timeBytes 0
  | none => 0xFF#8 :: timeBytes 0

/-- An action code and the 4-byte parameter field at `off`, packed from its first byte (section 12.3), in the ranges of
section 9.1; unused bytes are 0 (R192). -/
def Action.ofBody (code : Nat) (body : List Byte) (off : Nat) : Option Action :=
  match code with
  | 0 => if field body (off + 2) 2 = 0 then some (.gain (field body off 2)) else none
  | 1 => if field body (off + 1) 3 = 0 then (Substitution.ofCode (field body off 1)).map .subst else none
  | 2 => if field body (off + 3) 1 = 0 then
           (OverlayMode.ofCode (field body off 1)).map (fun m => .overlay m (field body (off + 1) 2)) else none
  | 3 => if field body (off + 2) 2 = 0 then (inRange 0 4095 (field body off 2)).map .latency else none
  | 4 => if field body (off + 1) 3 = 0 then (StopMode.ofCode (field body off 1)).map .stop else none
  | 5 => if field body off 4 = 0 then some .note else none
  | _ => none

/-- Which action it is. -/
def Action.kind : Action → ActionKind
  | .gain _ => .gain
  | .subst _ => .subst
  | .overlay _ _ => .overlay
  | .latency _ => .latency
  | .stop _ => .stop
  | .note => .note

def ActionKind.code : ActionKind → Byte
  | .gain => 0#8
  | .subst => 1#8
  | .overlay => 2#8
  | .latency => 3#8
  | .stop => 4#8
  | .note => 5#8

def Action.code (a : Action) : Byte := a.kind.code

/-- The 4-byte parameter field of an action. -/
def Action.parameterBytes : Action → List Byte
  | .gain g => leBytes 2 g ++ [0#8, 0#8]
  | .subst s => [s.code, 0#8, 0#8, 0#8]
  | .overlay m duck => [m.code] ++ leBytes 2 duck ++ [0#8]
  | .latency l => leBytes 2 l ++ [0#8, 0#8]
  | .stop m => [m.code, 0#8, 0#8, 0#8]
  | .note => [0#8, 0#8, 0#8, 0#8]

/-- Bytes per sample, R193. -/
def SampleFormat.size : SampleFormat → Nat
  | .s16 => 2
  | .s24 => 4
  | .s32 => 4

/-- A block as PBLK carries it, with its quiet flag (section 12.4). -/
structure Delivery where
  block : Block
  quiet : Bool
  deriving DecidableEq, Repr

/-- The header and payload of a PBLK body of at least 22 bytes, with the field checks of R78, or nothing. -/
def Delivery.ofBody (body : List Byte) : Option Delivery := do
  let rate ← Rate.ofCode (field body 16 1)
  let format ← SampleFormat.ofCode (field body 17 1)
  let channels ← inRange 1 8 (field body 18 1)
  let frames ← inRange 1 256 (field body 19 2)
  let flags ← inRange 0 7 (field body 21 1)
  let payload := body.drop 22
  if payload.length = frames * channels * format.size ∧ payload.length ≤ Config.payloadCapacity then
    some { block := { stream := BitVec.ofNat 32 (field body 0 4), sequence := BitVec.ofNat 32 (field body 4 4),
                      time := field body 8 8, rate := rate, format := format, channels := channels, frames := frames,
                      final := flags.testBit 0, mark := flags.testBit 1, payload := payload },
           quiet := flags.testBit 2 }
  else none

/-! ### Request kinds (section 12.2) -/

/-- The 39 request kinds. -/
inductive RequestKind where
  | helo | rset | lrat | indr | inda | indc | capc | capl | capd | stmp | dset | drun | drel | dsta | beac | lchg
  | echs | echa | fset | fdef | pblk | pool | pwmk | zset | zena | zdis | zrun | zstp | zflu | zsta | zgan | zsub
  | gsub | sadd | scan | slst | tsnp | taut | tred
  deriving DecidableEq, Repr

def RequestKind.ofCode : Nat → Option RequestKind
  | 0x01 => some .helo
  | 0x02 => some .rset
  | 0x03 => some .lrat
  | 0x08 => some .indr
  | 0x09 => some .inda
  | 0x0A => some .indc
  | 0x10 => some .capc
  | 0x11 => some .capl
  | 0x12 => some .capd
  | 0x13 => some .stmp
  | 0x18 => some .dset
  | 0x19 => some .drun
  | 0x1A => some .drel
  | 0x1B => some .dsta
  | 0x1C => some .beac
  | 0x1D => some .lchg
  | 0x20 => some .echs
  | 0x21 => some .echa
  | 0x28 => some .fset
  | 0x29 => some .fdef
  | 0x2A => some .pblk
  | 0x2B => some .pool
  | 0x2C => some .pwmk
  | 0x30 => some .zset
  | 0x31 => some .zena
  | 0x32 => some .zdis
  | 0x33 => some .zrun
  | 0x34 => some .zstp
  | 0x35 => some .zflu
  | 0x36 => some .zsta
  | 0x37 => some .zgan
  | 0x38 => some .zsub
  | 0x39 => some .gsub
  | 0x40 => some .sadd
  | 0x41 => some .scan
  | 0x42 => some .slst
  | 0x48 => some .tsnp
  | 0x49 => some .taut
  | 0x4A => some .tred
  | _ => none

def RequestKind.code : RequestKind → Byte
  | .helo => 0x01#8
  | .rset => 0x02#8
  | .lrat => 0x03#8
  | .indr => 0x08#8
  | .inda => 0x09#8
  | .indc => 0x0A#8
  | .capc => 0x10#8
  | .capl => 0x11#8
  | .capd => 0x12#8
  | .stmp => 0x13#8
  | .dset => 0x18#8
  | .drun => 0x19#8
  | .drel => 0x1A#8
  | .dsta => 0x1B#8
  | .beac => 0x1C#8
  | .lchg => 0x1D#8
  | .echs => 0x20#8
  | .echa => 0x21#8
  | .fset => 0x28#8
  | .fdef => 0x29#8
  | .pblk => 0x2A#8
  | .pool => 0x2B#8
  | .pwmk => 0x2C#8
  | .zset => 0x30#8
  | .zena => 0x31#8
  | .zdis => 0x32#8
  | .zrun => 0x33#8
  | .zstp => 0x34#8
  | .zflu => 0x35#8
  | .zsta => 0x36#8
  | .zgan => 0x37#8
  | .zsub => 0x38#8
  | .gsub => 0x39#8
  | .sadd => 0x40#8
  | .scan => 0x41#8
  | .slst => 0x42#8
  | .tsnp => 0x48#8
  | .taut => 0x49#8
  | .tred => 0x4A#8

/-- The length check of R184: the body lengths of section 12.2; PBLK's body holds its header, INDA's holds its count and
exactly as many pairs. -/
def RequestKind.lengthOk (k : RequestKind) (body : List Byte) : Bool :=
  match k with
  | .helo | .rset | .capl | .capd | .tsnp => body.length = 0
  | .lrat | .indr | .drel | .dsta | .zena | .zdis | .zsta | .gsub | .slst | .taut | .tred => body.length = 1
  | .capc | .fdef | .pool | .pwmk | .zstp | .zsub | .scan => body.length = 2
  | .indc | .stmp | .zgan => body.length = 3
  | .echs => body.length = 4
  | .lchg => body.length = 5
  | .drun | .zrun | .zflu => body.length = 10
  | .fset => body.length = 12
  | .beac | .sadd => body.length = 16
  | .echa => body.length = 20
  | .dset => body.length = 29
  | .zset => body.length = 40
  | .pblk => 22 ≤ body.length
  | .inda => 1 ≤ body.length && body.length = 1 + 2 * field body 0 1

end Sys2Proof.Machine
end

