-- ==== Sys2Proof/Machine/Flags.lean ====
section
/-! DEFINITION. The flags of the part: tallies with their overflow flags (R172), the pending set, LINK's causes and the
attention lines (R165 to R168), and the alarms of a domain (R39). -/

namespace Sys2Proof.Machine

/-! ### Record access -/

def Part.domain (p : Part) (d : DomainId) : Domain := p.domains.get d

def Part.setDomain (p : Part) (d : DomainId) (x : Domain) : Part := { p with domains := p.domains.set d x }

def Part.zone (p : Part) (z : ZoneId) : Zone := p.zones.get z

def Part.setZone (p : Part) (z : ZoneId) (x : Zone) : Part := { p with zones := p.zones.set z x }

/-! ### Tallies -/

inductive ZoneTally where
  | blocksPlayed | droppedLate | framesConcealed | underruns | reseeks | blocksRefused
  deriving DecidableEq, Repr

inductive DomainTally where
  | samplesHeard | outliers | beaconsMissed | steps | echoAnswers | echoTimeouts
  deriving DecidableEq, Repr

inductive PartTally where
  | filterRejects | poolExhausted | captureOverwrites | linkErrors
  deriving DecidableEq, Repr

/-- One of the 40 counters of section 10.6. -/
inductive TallyId where
  | zone (z : ZoneId) (t : ZoneTally)
  | domain (d : DomainId) (t : DomainTally)
  | part (t : PartTally)
  deriving DecidableEq, Repr

def ZoneTallies.get (s : ZoneTallies) : ZoneTally → Counter
  | .blocksPlayed => s.blocksPlayed
  | .droppedLate => s.droppedLate
  | .framesConcealed => s.framesConcealed
  | .underruns => s.underruns
  | .reseeks => s.reseeks
  | .blocksRefused => s.blocksRefused

def ZoneTallies.set (s : ZoneTallies) (t : ZoneTally) (c : Counter) : ZoneTallies :=
  match t with
  | .blocksPlayed => { s with blocksPlayed := c }
  | .droppedLate => { s with droppedLate := c }
  | .framesConcealed => { s with framesConcealed := c }
  | .underruns => { s with underruns := c }
  | .reseeks => { s with reseeks := c }
  | .blocksRefused => { s with blocksRefused := c }

def DomainTallies.get (s : DomainTallies) : DomainTally → Counter
  | .samplesHeard => s.samplesHeard
  | .outliers => s.outliers
  | .beaconsMissed => s.beaconsMissed
  | .steps => s.steps
  | .echoAnswers => s.echoAnswers
  | .echoTimeouts => s.echoTimeouts

def DomainTallies.set (s : DomainTallies) (t : DomainTally) (c : Counter) : DomainTallies :=
  match t with
  | .samplesHeard => { s with samplesHeard := c }
  | .outliers => { s with outliers := c }
  | .beaconsMissed => { s with beaconsMissed := c }
  | .steps => { s with steps := c }
  | .echoAnswers => { s with echoAnswers := c }
  | .echoTimeouts => { s with echoTimeouts := c }

def PartTallies.get (s : PartTallies) : PartTally → Counter
  | .filterRejects => s.filterRejects
  | .poolExhausted => s.poolExhausted
  | .captureOverwrites => s.captureOverwrites
  | .linkErrors => s.linkErrors

def PartTallies.set (s : PartTallies) (t : PartTally) (c : Counter) : PartTallies :=
  match t with
  | .filterRejects => { s with filterRejects := c }
  | .poolExhausted => { s with poolExhausted := c }
  | .captureOverwrites => { s with captureOverwrites := c }
  | .linkErrors => { s with linkErrors := c }

def TallySet.get (s : TallySet) : TallyId → Counter
  | .zone z t => (s.zones.get z).get t
  | .domain d t => (s.domains.get d).get t
  | .part t => s.part.get t

def TallySet.set (s : TallySet) (i : TallyId) (c : Counter) : TallySet :=
  match i with
  | .zone z t => { s with zones := s.zones.set z ((s.zones.get z).set t c) }
  | .domain d t => { s with domains := s.domains.set d ((s.domains.get d).set t c) }
  | .part t => { s with part := s.part.set t c }

/-! ### The pending set -/

/-- The report order of R169: by object (part, D0, D1, Z0 to Z3), then by kind. -/
def Pair.rank (p : Pair) : Nat := p.object.index * 15 + p.kind.index.val

/-- A raise of a pair at a local time, R165: it joins the set in report order, or its count rises, stopping at 255, and
its latest-raise time moves. -/
def raiseIn (pair : Pair) (now : LocalTime) : List PendingPair → List PendingPair
  | [] => [⟨pair, 1, now, now⟩]
  | q :: qs =>
    if q.pair = pair then { q with raises := min 255 (q.raises + 1), latest := now } :: qs
    else if pair.rank < q.pair.rank then ⟨pair, 1, now, now⟩ :: q :: qs
    else q :: raiseIn pair now qs

/-- Is the pair pending? -/
def IndicationUnit.isPending (u : IndicationUnit) (pair : Pair) : Bool := u.pending.any (fun q => q.pair == pair)

/-- Raise an indication now (R165). It is set pending whether or not its kind is enabled. -/
def Part.raise (p : Part) (kind : IndicationKind) (object : IndicationObject) : Part :=
  { p with indications := { p.indications with pending := raiseIn ⟨kind, object⟩ p.localTime p.indications.pending } }

def CauseSet.add (c : CauseSet) : LinkCause → CauseSet
  | .crc => { c with crc := true }
  | .framing => { c with framing := true }
  | .overrun => { c with overrun := true }

/-- Raise LINK with a cause, R166: a raise that brings LINK into the set starts the cause set with its own cause alone. -/
def Part.raiseLink (p : Part) (cause : LinkCause) : Part :=
  let before := if p.indications.isPending ⟨.link, .part⟩ then p.indications.causes else CauseSet.empty
  let p := p.raise .link .part
  { p with indications := { p.indications with causes := before.add cause } }

/-- Enable and line of a kind (R167). -/
def IndicationUnit.setting (u : IndicationUnit) (k : IndicationKind) : KindSetting := u.settings[k.index]

def IndicationUnit.setSetting (u : IndicationUnit) (k : IndicationKind) (s : KindSetting) : IndicationUnit :=
  { u with settings := u.settings.set k.index s }

/-- Does the pair hold the line asserted: its kind is enabled and routed to the line? -/
def IndicationUnit.pulls (u : IndicationUnit) (line : Line) (q : PendingPair) : Bool :=
  (u.setting q.pair.kind).enabled && (u.setting q.pair.kind).line == line

/-- ATTNn is asserted exactly while a pending indication belongs to an enabled kind routed to line n (R168). -/
def IndicationUnit.asserted (u : IndicationUnit) (line : Line) : Bool := u.pending.any (u.pulls line)

/-- The levels of ATTN0 and ATTN1 as a reply gives them: released 0, asserted 1. -/
def attentionBytes (u : IndicationUnit) : List Byte := flagBytes (u.asserted .line0) ++ flagBytes (u.asserted .line1)

/-! ### Rises -/

/-- One rise of a counter, R172, and whether it set the overflow flag: a rise at the ceiling leaves the counter there. -/
def Counter.rise (c : Counter) : Counter × Bool :=
  if c.value < Config.counterCeiling then ({ c with value := c.value + 1 }, false)
  else ({ c with overflow := true }, !c.overflow)

/-- A rise of a live counter (R172); the rise that sets its overflow flag raises TALLY for the part. -/
def Part.tally (p : Part) (i : TallyId) : Part :=
  let r := (p.tallies.live.get i).rise
  let p := { p with tallies := { p.tallies with live := p.tallies.live.set i r.1 } }
  if r.2 then p.raise .tally .part else p

/-- `n` rises of one counter. -/
def Part.tallyTimes (p : Part) (i : TallyId) : Nat → Part
  | 0 => p
  | n + 1 => (p.tally i).tallyTimes i n

/-! ### Alarms of a domain (R39) -/

inductive Alarm where
  | loss | path | range
  deriving DecidableEq, Repr

def Domain.alarm (x : Domain) : Alarm → Bool
  | .loss => x.loss
  | .path => x.path
  | .range => x.range

def Domain.withAlarm (x : Domain) (a : Alarm) (b : Bool) : Domain :=
  match a with
  | .loss => { x with loss := b }
  | .path => { x with path := b }
  | .range => { x with range := b }

/-- Declare or clear an alarm; a change raises DOMAIN_ALARM for the domain (R39). -/
def Part.setAlarm (p : Part) (d : DomainId) (a : Alarm) (b : Bool) : Part :=
  if (p.domain d).alarm a = b then p
  else (p.setDomain d ((p.domain d).withAlarm a b)).raise .domainAlarm (.domain d)

/-- A change of a domain's state raises DOMAIN_STATE (R40). -/
def Part.raiseDomainState (p : Part) (d : DomainId) : Part := p.raise .domainState (.domain d)

/-- A change of a zone's state raises ZONE_STATE (section 7.10). -/
def Part.raiseZoneState (p : Part) (z : ZoneId) : Part := p.raise .zoneState (.zone z)

end Sys2Proof.Machine
end

