-- ==== Sys2Proof/Machine/Ops.lean ====
section
/-! DEFINITION. The named operations the meanings share: the domain conversion, the capture ring, the pool and its queues,
the reply queue and the arrival of a request. -/

namespace Sys2Proof.Machine

/-! ### Time -/

/-- Ticks per frame (00_scope.md, Time; R3). -/
def Rate.tpf : Rate → Nat
  | .r48000 => 512
  | .r96000 => 256

/-- The first local time after `now` that is a whole multiple of `tpf` (R106, R107). -/
def nextMultiple (now : LocalTime) (tpf : Nat) : LocalTime := (now / tpf + 1) * tpf

/-- The domain conversion G of R5, from an anchor and a code. -/
def convert (a : Anchor) (code : Nat) (t : LocalTime) : DomainTime :=
  let d : Int := (t : Int) - a.localTime
  let g : Int := a.domainTime + d + roundHalfAway (d * ((code : Int) - 32768)) 64000000
  if g < 0 then 0 else toDomainTime g

/-- A domain is timed while it is in TRACK, HOLDOVER or LEAD (00_scope.md, Names and states). -/
def DomainState.timed : DomainState → Bool
  | .track | .holdover | .lead => true
  | .unbound | .acquire _ | .lost => false

/-- G of a domain that has an anchor (R5, R6). -/
def Domain.read (x : Domain) (t : LocalTime) : Option DomainTime := x.anchor.map (fun a => convert a x.code t)

/-- The beacon interval in ticks (R17). -/
def DomainSetup.biTicks (s : DomainSetup) : Nat := s.beaconInterval * Config.ticksPerMs

/-- 1.5 × BI in ticks (R18, R22). -/
def DomainSetup.watchTicks (s : DomainSetup) : Nat := s.beaconInterval * 36864

/-- The holdover limit in ticks (R17). -/
def DomainSetup.holdoverTicks (s : DomainSetup) : Nat := s.holdoverLimit * Config.ticksPerSecond

/-- The echo timeout in ticks (R17). -/
def DomainSetup.echoTicks (s : DomainSetup) : Nat := s.echoTimeout * Config.ticksPerMs

/-! ### Captures -/

/-- The capture with a number, looked up by number alone (R14). -/
def CaptureUnit.find (u : CaptureUnit) (n : Byte) : Option Capture := u.ring.find? (fun c => c.number == n)

/-- A claim removes the capture from the ring (R14). -/
def Part.claim (p : Part) (n : Byte) : Part :=
  { p with capture := { p.capture with ring := p.capture.ring.filter (fun c => c.number != n) } }

/-- The capture check of R14: the capture, or the status of the refusal. -/
def Part.checkCapture (p : Part) (n : Byte) (input : StrobeInput) : Except Status Capture :=
  match p.capture.find n with
  | none => .error .captureGone
  | some c => if c.input = input then .ok c else .error .wrongInput

/-! ### Paths -/

/-- The path delay in force, R56: the smallest sample of the path list, or the initial path delay. -/
def Part.pathDelay (p : Part) (d : DomainId) : Nat :=
  match p.echo.samples.get d with
  | [] => (p.domain d).setup.initialPathDelay
  | x :: xs => xs.foldl min x

/-! ### The pool -/

def BlockPool.find (pool : BlockPool) (n : Nat) : Option HeldSlot := pool.held.find? (fun h => h.number == n)

/-- The free count (R67). -/
def BlockPool.freeCount (pool : BlockPool) : Nat := Config.poolSlots - pool.held.length

/-- The lowest number from `n` on that an ascending list of held slots does not hold. -/
def lowestFrom (n : Nat) : List HeldSlot → Nat
  | [] => n
  | h :: hs => if h.number = n then lowestFrom (n + 1) hs else n

/-- The lowest-numbered free slot (R68). -/
def BlockPool.lowestFree (pool : BlockPool) : Option Nat :=
  let n := lowestFrom 0 pool.held
  if n < Config.poolSlots then some n else none

/-- The free list, ascending (R68). -/
def BlockPool.freeList (pool : BlockPool) : List Nat :=
  (List.range Config.poolSlots).filter (fun n => (pool.find n).isNone)

/-- A removal of one reference, R69: the count falls by one, and at 0 the slot is free. -/
def BlockPool.release (pool : BlockPool) (n : Nat) : BlockPool :=
  { pool with
    held := pool.held.filterMap (fun h =>
      if h.number = n then (if h.holders ≤ 1 then none else some { h with holders := h.holders - 1 }) else some h) }

/-- A held slot joins the pool at its place by number. -/
def insertSlot (h : HeldSlot) : List HeldSlot → List HeldSlot
  | [] => [h]
  | k :: ks => if h.number < k.number then h :: k :: ks else k :: insertSlot h ks

def Part.release (p : Part) (n : Nat) : Part := { p with pool := p.pool.release n }

/-- Removals of several entries (R92). -/
def Part.releaseAll (p : Part) (ns : List Nat) : Part := ns.foldl Part.release p

/-! ### Queues -/

/-- The start of a queue entry: its presentation time. -/
def BlockPool.entryStart (pool : BlockPool) (n : Nat) : DomainTime :=
  match pool.find n with
  | some h => h.block.time
  | none => 0

/-- The end of a queue entry's span, which the span excludes (section 6.1). It is compared exactly (log 28). -/
def BlockPool.entryEnd (pool : BlockPool) (tpf n : Nat) : Nat :=
  match pool.find n with
  | some h => h.block.time + h.block.frames * tpf
  | none => 0

/-- Does the entry's span contain the position? -/
def BlockPool.contains (pool : BlockPool) (tpf : Nat) (pos : Position) (n : Nat) : Bool :=
  positionAt (pool.entryStart n) ≤ pos && pos < positionAt (pool.entryEnd tpf n)

/-- The entry of a queue that contains the position. -/
def BlockPool.entryAt (pool : BlockPool) (tpf : Nat) (queue : List Nat) (pos : Position) : Option Nat :=
  queue.find? (pool.contains tpf pos)

/-- Is the entry's end at or before the position (R93, R95)? -/
def BlockPool.behind (pool : BlockPool) (tpf : Nat) (pos : Position) (n : Nat) : Bool :=
  positionAt (pool.entryEnd tpf n) ≤ pos

/-- Insertion by presentation time (R88): after every entry that starts earlier. -/
def BlockPool.insertEntry (pool : BlockPool) (n : Nat) (time : DomainTime) : List Nat → List Nat
  | [] => [n]
  | m :: ms => if pool.entryStart m < time then m :: pool.insertEntry n time ms else n :: m :: ms

/-- The zone's ticks per frame. -/
def Zone.tpf (x : Zone) : Nat := x.setup.rate.tpf

/-- Does a main entry of the zone contain the position? -/
def Part.mainAt (p : Part) (z : ZoneId) (pos : Position) : Option Nat :=
  p.pool.entryAt (p.zone z).tpf (p.zone z).mainQueue pos

def Part.overlayAt (p : Part) (z : ZoneId) (pos : Position) : Option Nat :=
  p.pool.entryAt (p.zone z).tpf (p.zone z).overlayQueue pos

/-- The low watermark test of R102 on a fall of the main queue from `before` to its present length. -/
def Part.testLowWatermark (p : Part) (z : ZoneId) (before : Nat) : Part :=
  if (p.zone z).setup.lowWatermark ≤ before ∧ (p.zone z).mainQueue.length < (p.zone z).setup.lowWatermark
  then p.raise .queueLow (.zone z) else p

/-! ### Replies (R191) and their queue (R183) -/

/-- The three values of a last marker: stream id, sequence, local time (R94, R169). -/
def Marker.bytes (m : Marker) : List Byte :=
  leBytes 4 m.stream.toNat ++ leBytes 4 m.sequence.toNat ++ timeBytes m.time

/-- A marker report, in ZSTA (R104) and in INDR's attachment (R169): the last marker or absent, then the slot its block held,
which R68 has reported there, or absent (log 33). -/
def Zone.markerBytes (x : Zone) : List Byte := optBytes 16 Marker.bytes x.lastMarker ++ optBytes 2 (leBytes 2) x.lastMarkerSlot

/-- What a request is answered with: a status, the contents that follow it, and what the reply's last byte brings about. -/
structure Answer where
  status : Status
  content : List Byte
  after : AfterReply
  deriving DecidableEq, Repr

/-- An OK answer with its contents. -/
def Answer.ok (content : List Byte) : Answer := ⟨.ok, content, .nothing⟩

/-- A refusal whose status stands alone. -/
def Answer.refusal (s : Status) : Answer := ⟨s, [], .nothing⟩

/-- A refusal with the additions its rule names (R191). -/
def Answer.refusalWith (s : Status) (content : List Byte) : Answer := ⟨s, content, .nothing⟩

/-- One bit of the CRC register of R179. -/
def crcBit (reg : Word16) : Word16 := if reg.msb then (reg <<< 1) ^^^ 0x1021#16 else reg <<< 1

/-- One byte into the CRC register, most significant bit first (R179). -/
def crcByte (reg : Word16) (b : Byte) : Word16 :=
  crcBit (crcBit (crcBit (crcBit (crcBit (crcBit (crcBit (crcBit (reg ^^^ (b.zeroExtend 16 <<< 8)))))))))

/-- The CRC of R179 over bytes in the order they are sent. -/
def crc16 (bytes : List Byte) : Word16 := bytes.foldl crcByte 0xFFFF#16

/-- The bytes of a frame that its CRC covers: LEN, KIND, TAG, body (section 12.1). -/
def frameCovered (kind tag : Byte) (body : List Byte) : List Byte :=
  leBytes 2 (body.length + 2) ++ [kind, tag] ++ body

/-- A whole frame (section 12.1). -/
def frameBytes (kind tag : Byte) (body : List Byte) : List Byte :=
  [Config.sync] ++ frameCovered kind tag body ++ leBytes 2 (crc16 (frameCovered kind tag body)).toNat

/-- The bytes of a reply's frame. -/
def Reply.frame (r : Reply) : List Byte := frameBytes r.kind r.tag r.body

/-- Local ticks of one UART byte (section 11.3). -/
def byteTicks (divisor : Byte) : Nat := 80 * (divisor.toNat + 1)

/-- When a reply that starts on TXD now will have been sent: in UART mode the stop bit of its last byte (R182). -/
def Link.sendEnd (l : Link) (now : LocalTime) (r : Reply) : Option LocalTime :=
  match l.mode with
  | .uart => some (now + r.frame.length * byteTicks l.divisor)
  | .spi => none

/-- A reply joins the tail of the queue (R183); on an idle UART it starts at once (R182). -/
def Link.enqueue (l : Link) (now : LocalTime) (r : Reply) : Link :=
  { l with replies := l.replies ++ [r], txEnd := if l.replies.isEmpty then l.sendEnd now r else l.txEnd }

/-- The reply frame of a request: the request kind plus 0x80, its tag, the status, the contents (R191). -/
def Answer.reply (a : Answer) (kind tag : Byte) : Reply := ⟨kind + 0x80#8, tag, a.status.code :: a.content, a.after⟩

/-- Queue the answer to a request. -/
def Part.answer (p : Part) (kind tag : Byte) (a : Answer) : Part :=
  { p with link := p.link.enqueue p.localTime (a.reply kind tag) }

/-- A discard of a frame or a request, R185: LINK with its cause, and one link error. After an RSET has been taken, frames
are dropped without cause (R187); a frame that is cut is dropped so too (log 38). -/
def Part.discard (p : Part) (cause : LinkCause) : Part :=
  if p.link.deaf then p else (p.raiseLink cause).tally (.part .linkErrors)

/-- No frame is in progress (R178), and the in-frame silence deadline is stopped (R181). -/
def Part.toHunt (p : Part) : Part := { p with link := { p.link with receiver := .hunt, silence := none } }

/-- The gate every arrival passes, R183 and R187: dropped once an RSET has been taken, discarded with OVERRUN while 8
replies are unread, else taken. -/
def Part.arrival (p : Part) (take : Part → Part) : Part :=
  let p := p.toHunt
  if p.link.deaf then p
  else if Config.replyCapacity ≤ p.link.replies.length then p.discard .overrun
  else take p

/-- The owner's handling of a request whose body has the right length: the state it leaves, and its answer, absent for a
quiet PBLK that R85 suppresses. -/
abbrev Handling := Part × Option Answer

/-- The arrival of a request of a known kind: the gate, the length check of R184, the owner's rule, the reply (R183). -/
def Part.request (p : Part) (k : RequestKind) (handle : List Byte → Part → Handling) (tag : Byte) (body : List Byte) : Part :=
  p.arrival (fun p =>
    if k.lengthOk body then
      let r := handle body p
      match r.2 with
      | some a => r.1.answer k.code tag a
      | none => r.1
    else p.answer k.code tag (.refusal .badLength))

/-- A refusal that changes nothing. -/
def Part.refuse (p : Part) (s : Status) : Handling := (p, some (.refusal s))

/-- An OK that reports. -/
def Part.accept (p : Part) (content : List Byte) : Handling := (p, some (.ok content))

/-- The outcome of a command: the part it leaves, and the queue as it was. -/
abbrev Outcome := Host.Outcome State Fault Refusal

/-- A command completes with the part that `f` leaves. -/
def State.complete (s : State) (f : Part → Part) : Outcome := .next { s with part := f s.part }

/-- A request command: the arrival of its frame. -/
def State.request (s : State) (k : RequestKind) (handle : List Byte → Part → Handling) (tag : Byte) (body : List Byte) :
    Outcome :=
  s.complete (fun p => p.request k handle tag body)

end Sys2Proof.Machine
end

