-- ==== Sys2Proof/Machine/Captures.lean ====
section
/-! DEFINITION. Chapter 1: the strobe edges and the requests CAPC, CAPL, CAPD, STMP. -/

namespace Sys2Proof.Machine

/-! ### STROBE_EDGE (R7 to R9) -/

def CaptureUnit.enabled (u : CaptureUnit) : StrobeInput → Bool
  | .rx => u.rxEnabled
  | .tx => u.txEnabled

def CaptureUnit.last (u : CaptureUnit) : StrobeInput → Option LocalTime
  | .rx => u.lastRx
  | .tx => u.lastTx

def CaptureUnit.setLast (u : CaptureUnit) (i : StrobeInput) (t : LocalTime) : CaptureUnit :=
  match i with
  | .rx => { u with lastRx := some t }
  | .tx => { u with lastTx := some t }

/-- The two stages of an append, R9: the capture of the same number goes, then, in a full ring, the oldest. -/
def makeRoom (number : Byte) (ring : List Capture) : List Capture :=
  let ring := ring.filter (fun c => c.number != number)
  if Config.ringCapacity ≤ ring.length then ring.tail else ring

/-- A removal made by an append raises CAPTURE_OVERWRITE and adds one to its tally (R9). -/
def Part.overwrite (p : Part) : Part := (p.raise .captureOverwrite .part).tally (.part .captureOverwrites)

/-- A rising edge on an enabled input makes a capture (R7, R8, R9). -/
def Part.makeCapture (p : Part) (i : StrobeInput) : Part :=
  let u := p.capture
  let room := makeRoom u.counter u.ring
  let taken : CaptureUnit := { u with ring := room ++ [⟨u.counter, i, p.localTime⟩], counter := u.counter + 1 }
  let p := { p with capture := taken.setLast i p.localTime }
  if room.length < u.ring.length then p.overwrite else p

/-- STROBE_EDGE, R7: an edge on a disabled input makes no capture, and one input makes at most one per local tick. -/
def execStrobeEdge (i : StrobeInput) (s : State) : Outcome :=
  s.complete (fun p =>
    if p.capture.enabled i = true ∧ p.capture.last i ≠ some p.localTime then p.makeCapture i else p)

/-! ### CAPC (R11) -/

def handleCapc (body : List Byte) (p : Part) : Handling :=
  match flagOf (field body 0 1), flagOf (field body 1 1) with
  | some rx, some tx =>
    ({ p with capture := { p.capture with rxEnabled := rx, txEnabled := tx } } : Part).accept (flagBytes rx ++ flagBytes tx)
  | _, _ => p.refuse .badField

/-- CAPC, R11. -/
def execCapc (tag : Byte) (body : List Byte) (s : State) : Outcome := s.request .capc handleCapc tag body

/-! ### CAPL (R12) -/

def Capture.bytes (c : Capture) : List Byte := [c.number, c.input.code] ++ timeBytes c.time

def handleCapl (_body : List Byte) (p : Part) : Handling :=
  let u := p.capture
  p.accept (leBytes 1 u.ring.length ++ [u.counter] ++ flagBytes u.rxEnabled ++ flagBytes u.txEnabled ++
    u.ring.flatMap Capture.bytes)

/-- CAPL, R12. -/
def execCapl (tag : Byte) (body : List Byte) (s : State) : Outcome := s.request .capl handleCapl tag body

/-! ### CAPD (R13) -/

def handleCapd (_body : List Byte) (p : Part) : Handling :=
  ({ p with capture := { p.capture with ring := [] } } : Part).accept (leBytes 1 p.capture.ring.length)

/-- CAPD, R13. -/
def execCapd (tag : Byte) (body : List Byte) (s : State) : Outcome := s.request .capd handleCapd tag body

/-! ### STMP (R15) -/

def handleStmp (body : List Byte) (p : Part) : Handling :=
  match DomainId.ofCode (field body 0 1), StrobeInput.ofCode (field body 2 1) with
  | some d, some input =>
    let x := p.domain d
    match x.state.timed, x.anchor with
    | true, some a =>
      match p.checkCapture (BitVec.ofNat 8 (field body 1 1)) input with
      | .error s => p.refuse s
      | .ok c => (p.claim c.number).accept (timeBytes (convert a x.code c.time) ++ timeBytes c.time ++ [c.input.code])
    | _, _ => p.refuse .untimed
  | _, _ => p.refuse .badField

/-- STMP, R15. -/
def execStmp (tag : Byte) (body : List Byte) (s : State) : Outcome := s.request .stmp handleStmp tag body

end Sys2Proof.Machine
end

