-- ==== Sys2Proof/Machine/Mixer.lean ====
section
/-! DEFINITION. Chapter 8, and the read of R118: from payload to the two lane values of a frame, and the frame's serial form. -/

namespace Sys2Proof.Machine

/-! ### Samples (R133, R193) and the read (R118) -/

/-- A source sample as a signed 24-bit value (R133), from the sample's bytes. -/
def toSample24 (f : SampleFormat) (bytes : List Byte) : Int :=
  match f with
  | .s16 => (BitVec.ofNat 16 (leNat bytes)).toInt * 256
  | .s24 => (BitVec.ofNat 24 (leNat bytes)).toInt
  | .s32 => (BitVec.ofNat 32 (leNat bytes)).toInt / 256

/-- Sample of channel `c` in frame `i` of a block: it begins at payload byte (i × channels + c) × size (R193). -/
def Block.sample (b : Block) (i c : Nat) : Int :=
  toSample24 b.format ((b.payload.drop ((i * b.channels + c) * b.format.size)).take b.format.size)

/-- The frame that follows frame `i` in channel `c` (R118): the block's next frame; past its last, the first frame of the
abutting entry if it carries the channel; else frame `i` itself, held. -/
def Block.following (b : Block) (next : Option Block) (i c : Nat) : Int :=
  if i + 1 < b.frames then b.sample (i + 1) c
  else match next with
    | some nb => if c < nb.channels then nb.sample 0 c else b.sample i c
    | none => b.sample i c

/-- A channel of an entry read at P (R118): interpolated between the two source frames that straddle P. A channel that the
block does not carry gives 0 (R134). -/
def Block.read (b : Block) (next : Option Block) (tpf : Nat) (pos : Position) (c : Nat) : Int :=
  if c < b.channels then
    let unit := tpf * positionUnit
    let off := pos - positionAt b.time
    let i := off / unit
    let x := b.sample i c
    roundHalfAway (x * unit + (off % unit : Nat) * (b.following next i c - x)) unit
  else 0

/-- The entry of a queue that starts exactly at the end of the entry `n` (R118), if there is one. -/
def BlockPool.abutting (pool : BlockPool) (tpf : Nat) (queue : List Nat) (n : Nat) : Option Block :=
  ((queue.find? (fun m => pool.entryStart m = pool.entryEnd tpf n)).bind pool.find).map HeldSlot.block

/-- Channel `c` of the queue at P; 0 when no entry of it contains P (R134). -/
def BlockPool.channelAt (pool : BlockPool) (tpf : Nat) (queue : List Nat) (pos : Position) (c : Nat) : Int :=
  match (pool.entryAt tpf queue pos).bind (fun n => (pool.find n).map (fun h => (n, h.block))) with
  | some (n, b) => b.read (pool.abutting tpf queue n) tpf pos c
  | none => 0

/-- A lane's value from the channels, R134; the half-sum is exact. -/
def LaneMap.apply (m : LaneMap) (channel : Nat → Int) : Rat :=
  match m with
  | .channel c => channel c
  | .sum a b => ((channel a : Rat) + channel b) / 2
  | .silence => 0

/-! ### Ramps (R138) -/

/-- The value a ramp gave at its latest frame. -/
def Ramp.value (r : Ramp) : Rat :=
  if r.length ≤ r.count then r.target else r.start + ((r.target : Rat) - r.start) * r.count / r.length

/-- A ramp at a frame: a target that differs begins a new ramp of `length` frames, and `count` takes this frame in. -/
def Ramp.frame (r : Ramp) (target length : Nat) : Ramp :=
  if r.target = target then { r with count := min r.length (r.count + 1) }
  else ⟨r.value, target, length, min length 1⟩

/-- Frames left of a ramp, 0 at rest (R146). -/
def Ramp.framesLeft (r : Ramp) : Nat := r.length - r.count

/-! ### Substitution and gain targets (R137, R139) -/

/-- The effective substitution, R139. -/
def effective (globalSub zoneSub : Substitution) : Substitution :=
  match globalSub with
  | .none => zoneSub
  | .silence => .silence
  | .tone => .tone

/-- The target of the programme level, R139. -/
def Substitution.programmeTarget : Substitution → Nat
  | .none => 16384
  | .silence => 0
  | .tone => 0

/-- The target of the tone level, R139. -/
def Substitution.toneTarget : Substitution → Nat
  | .none => 0
  | .silence => 0
  | .tone => 16384

/-- The main-gain target, R137. -/
def mainGainTarget (active : Bool) (s : MixerSetup) (zoneGain : Nat) : Nat :=
  if active then
    match s.overlayMode with
    | .duck => s.duckGain
    | .replace => 0
  else zoneGain

/-! ### The tone (R140) -/

/-- 2π × 2^100, rounded down. -/
def twoPiScaled : Nat := 7964883625991394727376702227904

/-- The sine series in fixed point with 100 fraction bits: from the term of order `2k + 1` on, `fuel` terms. -/
def sineSeries (y : Int) : Nat → Nat → Int → Int
  | 0, _, _ => 0
  | fuel + 1, k, term => term + sineSeries y fuel (k + 1) (-(term * y) / (2 ^ 100 * ((2 * k + 2) * (2 * k + 3))))

/-- sin(2π × r / N) × 2^100 for `r` in the first quarter of a period of `N` units (log 24). -/
def quarterSine (r : Nat) : Int :=
  let x : Int := (twoPiScaled * r / (24576 * 65536) : Nat)
  sineSeries (x * x / 2 ^ 100) 16 0 x

/-- The tone value x of R140 at a position: round(0.1 × 8,388,607 × sin(2π × P / 24,576)). -/
def toneValue (pos : Position) : Int :=
  let n := 24576 * 65536
  let q := n / 4
  let k := pos % n
  let r := k % q
  let s : Int :=
    match k / q with
    | 0 => quarterSine r
    | 1 => quarterSine (q - r)
    | 2 => -quarterSine r
    | _ => -quarterSine (q - r)
  roundHalfAway (8388607 * s) (10 * 2 ^ 100)

/-! ### The mix (R136) -/

/-- Saturation to 24 bits. -/
def saturate24 (v : Int) : Int := if 8388607 < v then 8388607 else if v < -8388608 then -8388608 else v

/-- One lane of R136: main value m, overlay value o, main gain g, overlay gain h, programme level c, tone level t, tone x,
lane trim q. Exact until the one rounding. -/
def mixLane (m o g h c t x q : Rat) : Int :=
  let programme := m * g / 16384 + o * h / 16384
  let lane := programme * c / 16384 + x * t / 16384
  saturate24 (roundRat (lane * q / 16384))

/-- The mixer's handling of one frame in a running state (R136 to R140): the ramps take the frame, and the two lanes are
made from what is read at P. `taken` is the zone as the frame was taken: a GAIN, SUBST or OVERLAY applied within the frame
governs the next one (R114, R139, R154, R155). `readMain` is no in ARMED, whose main queue is not read (R112), and in DRAINED,
whose main part is silence (R120, R134). -/
def Part.mixFrame (p : Part) (z : ZoneId) (taken : Zone) (pos : Position) (readMain : Bool) : Part :=
  let x := p.zone z
  let s := taken.setup.mixer
  let active := (p.overlayAt z pos).isSome
  let eff := effective p.globalSubstitution taken.mixer.substitution
  let main := x.mixer.mainGain.frame (mainGainTarget active s taken.mixer.zoneGain) s.rampLength
  let programme := x.mixer.programme.frame eff.programmeTarget s.rampLength
  let tone := x.mixer.tone.frame eff.toneTarget s.rampLength
  let mainChannel : Nat → Int := fun c => if readMain then p.pool.channelAt x.tpf x.mainQueue pos c else 0
  let overlayChannel : Nat → Int := p.pool.channelAt x.tpf x.overlayQueue pos
  let lane : LaneMap → Nat → Int := fun m q =>
    mixLane (m.apply mainChannel) (m.apply overlayChannel) main.value s.overlayGain programme.value tone.value
      (toneValue pos) q
  let lanes : Lanes := ⟨lane s.mapL s.trimL, lane s.mapR s.trimR⟩
  p.setZone z { x with
    emitted := some lanes
    mixer := { x.mixer with mainGain := main, programme := programme, tone := tone, overlayActive := active,
                            lastLanes := some lanes } }

/-- A frame of IDLE or HELD: 0 in both lanes (R132). -/
def Part.silentFrame (p : Part) (z : ZoneId) : Part := p.setZone z { p.zone z with emitted := some ⟨0, 0⟩ }

/-- The mixer of a zone that enters IDLE, DISABLED or HELD, R141: levels at 0, main gain at the zone gain, all at rest. -/
def Mixer.quiet (m : Mixer) : Mixer :=
  { m with mainGain := .rest m.zoneGain, programme := .rest 0, tone := .rest 0, overlayActive := false }

/-- Is the zone in a running state (section 7.2)? -/
def ZoneState.running : ZoneState → Bool
  | .armed | .playing | .starved | .drained | .stopping _ => true
  | .disabled | .idle | .held _ => false

/-- A new zone gain, clamped to the ceiling (R142); outside the running states the resting main gain takes it (R141). A GAIN
applied in the catch-up of a resume finds the zone in HELD, and moves the resting main gain at once (log 36). -/
def Zone.withGain (x : Zone) (g : Nat) : Zone :=
  let gain := min g x.setup.mixer.gainCeiling
  let m := { x.mixer with zoneGain := gain }
  { x with mixer := if x.state.running then m else { m with mainGain := .rest gain } }

/-! ### The serial form of a frame on the port (R132, R190) -/

/-- The 32-bit slot of a lane: its 24 bits on top, the low 8 bits 0 (R132). -/
def portSlot (lane : Int) : BitVec 32 := (BitVec.ofInt 24 lane).append (0#8)

/-- The 64 bits of a frame, left slot first, most significant bit first. -/
def portBits (f : Lanes) : List Bool :=
  (List.range 32).map (fun i => (portSlot f.left).getMsbD i) ++ (List.range 32).map (fun i => (portSlot f.right).getMsbD i)

/-- The 64 bit clock periods of a frame as (frame clock, data), R190: the frame clock is low through the left slot and high
through the right; data lags it by one period, so the first period carries the last bit of the frame before, one of its 8 zero
bits. A port's first frame has no frame before it: the period carries 0 there too (log 34). -/
def portPeriods (f : Lanes) : List (Bool × Bool) :=
  (List.range 64).map (fun i => (decide (32 ≤ i), (false :: portBits f).getD i false))

end Sys2Proof.Machine
end

