-- ==== Sys2Proof/Machine/ScheduleOps.lean ====
section
/-! DEFINITION. What leaves a zone's queues and the schedule's pending sets, the stops of a zone, and the application of due
schedule entries (sections 6.3, 7.7, 9.3, 9.4). -/

namespace Sys2Proof.Machine

/-! ### Leaving a queue (R92 to R96) -/

/-- Both queues of a zone are emptied (R96): no tally, no marker, no watermark test. -/
def Part.emptyQueues (p : Part) (z : ZoneId) : Part :=
  let x := p.zone z
  (p.setZone z { x with mainQueue := [], overlayQueue := [] }).releaseAll (x.mainQueue ++ x.overlayQueue)

/-- A marked block that leaves slot `n` as played records the zone's last marker, with the slot for its reports (R68), and
raises MARKER (R94). -/
def Part.recordMarker (p : Part) (z : ZoneId) (n : Nat) (b : Block) : Part :=
  if b.mark then
    (p.setZone z { p.zone z with lastMarker := some ⟨b.stream, b.sequence, p.localTime⟩
                                 lastMarkerSlot := some n }).raise .marker (.zone z)
  else p

/-- A main block leaves as played, R93: blocks played rises, the mark takes its FINAL flag, its marker is recorded. -/
def Part.playedMain (p : Part) (z : ZoneId) (n : Nat) : Part :=
  match p.pool.find n with
  | none => p
  | some h =>
    let p := p.tally (.zone z .blocksPlayed)
    let p := p.setZone z { p.zone z with lastFinal := h.block.final }
    (p.recordMarker z n h.block).release n

/-- An overlay block leaves as played, R93: its marker is recorded. -/
def Part.playedOverlay (p : Part) (z : ZoneId) (n : Nat) : Part :=
  match p.pool.find n with
  | none => p
  | some h => (p.recordMarker z n h.block).release n

/-- The main entries whose end is at or before the position leave as played, in presentation order (R93, R94). -/
def Part.playMain (p : Part) (z : ZoneId) (pos : Position) : Part :=
  let x := p.zone z
  let gone := x.mainQueue.filter (p.pool.behind x.tpf pos)
  let p := p.setZone z { x with mainQueue := x.mainQueue.filter (fun n => !p.pool.behind x.tpf pos n) }
  gone.foldl (fun p n => p.playedMain z n) p

/-- The overlay entries whose end is at or before the position leave as played. -/
def Part.playOverlay (p : Part) (z : ZoneId) (pos : Position) : Part :=
  let x := p.zone z
  let gone := x.overlayQueue.filter (p.pool.behind x.tpf pos)
  let p := p.setZone z { x with overlayQueue := x.overlayQueue.filter (fun n => !p.pool.behind x.tpf pos n) }
  gone.foldl (fun p n => p.playedOverlay z n) p

/-- The main entries wholly behind the position are dropped late (R95). -/
def Part.dropLateMain (p : Part) (z : ZoneId) (pos : Position) : Part :=
  let x := p.zone z
  let gone := x.mainQueue.filter (p.pool.behind x.tpf pos)
  let p := p.setZone z { x with mainQueue := x.mainQueue.filter (fun n => !p.pool.behind x.tpf pos n) }
  (p.releaseAll gone).tallyTimes (.zone z .droppedLate) gone.length

/-- The overlay entries wholly behind the position are dropped late (R95). -/
def Part.dropLateOverlay (p : Part) (z : ZoneId) (pos : Position) : Part :=
  let x := p.zone z
  let gone := x.overlayQueue.filter (p.pool.behind x.tpf pos)
  let p := p.setZone z { x with overlayQueue := x.overlayQueue.filter (fun n => !p.pool.behind x.tpf pos n) }
  (p.releaseAll gone).tallyTimes (.zone z .droppedLate) gone.length

/-- The drops of a reseek, from both queues (R95, R115). -/
def Part.dropLate (p : Part) (z : ZoneId) (pos : Position) : Part := (p.dropLateMain z pos).dropLateOverlay z pos

/-! ### Leaving the schedule (R158, R159) -/

/-- The last `doneCapacity` records of a list (R159). -/
def keepDone (l : List DoneRecord) : List DoneRecord := l.drop (l.length - Config.doneCapacity)

/-- What the retirement of an entry that has left the list reports: with notify, ACTION_DONE and a done record (R159). -/
def Part.reportDone (p : Part) (e : ScheduleEntry) : Part :=
  if e.notify then
    let r : DoneRecord := ⟨e.handle, e.action.kind, e.zones, e.applied, p.localTime⟩
    let p := p.raise .actionDone .part
    { p with schedule := { p.schedule with done := keepDone (p.schedule.done ++ [r]) } }
  else p

/-- The live entry with a handle. -/
def Schedule.find (s : Schedule) (h : Word16) : Option ScheduleEntry := s.entries.find? (fun e => e.handle == h)

/-- The entry with a handle leaves the list. -/
def Schedule.remove (s : Schedule) (h : Word16) : Schedule := { s with entries := s.entries.filter (fun e => e.handle != h) }

/-- An entry whose pending set is empty retires (R159). -/
def Part.retire (p : Part) (e : ScheduleEntry) : Part :=
  ({ p with schedule := p.schedule.remove e.handle } : Part).reportDone e

/-- The entry without one zone's pending bit. -/
def ScheduleEntry.without (e : ScheduleEntry) (z : ZoneId) : ScheduleEntry := { e with pending := e.pending.set z false }

/-- Would clearing this zone's bit empty the entry's pending set? -/
def ScheduleEntry.emptiedBy (e : ScheduleEntry) (z : ZoneId) : Bool :=
  e.pending.get z && ZoneSet.isEmpty (e.without z).pending

/-- A zone leaves every pending set at once, and the entries this empties retire in list order (R158). -/
def Part.leaveSchedule (p : Part) (z : ZoneId) : Part :=
  let emptied := (p.schedule.entries.filter (fun e => e.emptiedBy z)).map (fun e => e.without z)
  let kept := (p.schedule.entries.filter (fun e => !e.emptiedBy z)).map (fun e => e.without z)
  emptied.foldl Part.reportDone { p with schedule := { p.schedule with entries := kept } }

/-! ### Stops (R121 to R123) and holds (R125) -/

/-- A zone goes to IDLE (R96, R121, R123, R125, R141, R158). -/
def Part.toIdle (p : Part) (z : ZoneId) : Part :=
  let p := (p.emptyQueues z).leaveSchedule z
  let x := p.zone z
  (p.setZone z { x with state := .idle, start := none, position := none, aligned := false, lastFrame := none,
                        mixer := x.mixer.quiet }).raiseZoneState z

/-- A zone goes to DISABLED and its port stops (R96, R108, R141, R158). -/
def Part.toDisabled (p : Part) (z : ZoneId) : Part :=
  let p := (p.emptyQueues z).leaveSchedule z
  let x := p.zone z
  (p.setZone z { x with state := .disabled, start := none, position := none, aligned := false, lastFrame := none,
                        port := none, mixer := x.mixer.quiet }).raiseZoneState z

/-- A graceful stop begins with its end point, R122. -/
def Part.toStopping (p : Part) (z : ZoneId) (endPoint : DomainTime) : Part :=
  let p := p.setZone z { p.zone z with state := .stopping endPoint }
  (p.raiseZoneState z).leaveSchedule z

/-- The stop of a started zone, by ZSTP or by a STOP action (R121, R157): GRACEFUL in PLAYING with a main entry containing P
begins a graceful stop; everything else goes to IDLE. -/
def Part.stopZone (p : Part) (z : ZoneId) (mode : StopMode) : Part :=
  let x := p.zone z
  match mode, x.state, x.position.bind (p.mainAt z) with
  | .graceful, .playing, some n => p.toStopping z (toDomainTime (p.pool.entryEnd x.tpf n))
  | _, _, _ => p.toIdle z

/-- A zone goes to HELD (R125, R141). -/
def Part.toHeld (p : Part) (z : ZoneId) (r : ResumeState) : Part :=
  let x := p.zone z
  (p.setZone z { x with state := .held r, aligned := false, mixer := x.mixer.quiet }).raiseZoneState z

/-! ### Application (R153 to R157) -/

/-- What an action does to a zone that applies it (R155 to R157). -/
def Part.act (p : Part) (z : ZoneId) (a : Action) : Part :=
  let x := p.zone z
  match a with
  | .gain g => p.setZone z (x.withGain g)
  | .subst s => p.setZone z { x with mixer := { x.mixer with substitution := s } }
  | .overlay m duck =>
    p.setZone z { x with setup := { x.setup with mixer := { x.setup.mixer with overlayMode := m, duckGain := duck } } }
  | .latency l => p.setZone z { x with setup := { x.setup with latency := l } }
  | .stop mode => p.stopZone z mode
  | .note => p

/-- The schedule with one live entry rewritten. -/
def Schedule.update (s : Schedule) (h : Word16) (f : ScheduleEntry → ScheduleEntry) : Schedule :=
  { s with entries := s.entries.map (fun e => if e.handle = h then f e else e) }

/-- One entry that a zone at `pos` comes to in list order: if it is live, holds the zone pending and is due, the zone clears
its bit, the applied count rises, the action acts, and an emptied entry retires (R153). -/
def Part.applyEntry (p : Part) (z : ZoneId) (pos : Position) (h : Word16) : Part :=
  match p.schedule.find h with
  | none => p
  | some e =>
    if e.pending.get z ∧ positionAt e.time ≤ pos then
      let e' := { e.without z with applied := e.applied + 1 }
      let p := { p with schedule := p.schedule.update h (fun _ => e') }
      let p := p.act z e.action
      if ZoneSet.isEmpty e'.pending then p.retire e' else p
    else p

/-- The zone takes, in list order, every live entry that holds it pending and is due at `pos` (R153, R154). -/
def Part.applyDue (p : Part) (z : ZoneId) (pos : Position) : Part :=
  (p.schedule.entries.map ScheduleEntry.handle).foldl (fun p h => p.applyEntry z pos h) p

end Sys2Proof.Machine
end

