-- ==== Sys2Proof/Machine/Playout.lean ====
section
/-! DEFINITION. Chapter 7: the target, the frames of a zone, the content state, and what a domain event does to its zones. -/

namespace Sys2Proof.Machine

/-! ### The target (R111) -/

/-- The target of a frame at local time `t`: T = G(t) + L × tpf (R111). -/
def Part.target (p : Part) (z : ZoneId) (t : LocalTime) : DomainTime :=
  let x := p.zone z
  match (p.domain x.setup.domain).read t with
  | some g => toDomainTime ((g : Int) + (x.setup.latency * x.tpf : Nat))
  | none => 0

/-- The local time of the port's next frame. -/
def Part.nextFrameTime (p : Part) (z : ZoneId) : LocalTime := ((p.zone z).port).getD p.localTime

/-- The domain of the zone. -/
def Part.zoneDomain (p : Part) (z : ZoneId) : Domain := p.domain (p.zone z).setup.domain

/-! ### Content state (R119) -/

/-- The judgement of R119 from the position and the last-block-was-final mark. -/
def Part.contentState (p : Part) (z : ZoneId) (pos : Position) : ZoneState :=
  if (p.mainAt z pos).isSome then .playing else if (p.zone z).lastFinal then .drained else .starved

/-- Entry into STARVED (R113, R119): UNDERRUN, and one underrun. -/
def Part.underrun (p : Part) (z : ZoneId) : Part := (p.raise .underrun (.zone z)).tally (.zone z .underruns)

/-- Stage 7 for a zone that is not stopping: the judged state is taken, with the effects of R119's table. -/
def Part.judgeContent (p : Part) (z : ZoneId) (pos : Position) : Part :=
  let x := p.zone z
  let s := p.contentState z pos
  if s = x.state then p
  else
    let p := (p.setZone z { x with state := s }).raiseZoneState z
    match s with
    | .starved => p.underrun z
    | .drained => p.raise .endOfStream (.zone z)
    | _ => p

/-- The aligned flag is judged on an E in units of 1/65,536 tick; a change raises ALIGN (R117). -/
def Part.judgeAligned (p : Part) (z : ZoneId) (e : Int) : Part :=
  let x := p.zone z
  let a := decide (e.natAbs ≤ positionAt x.setup.tolerance)
  if a = x.aligned then p else (p.setZone z { x with aligned := a }).raise .align (.zone z)

/-! ### The advance (R116) -/

/-- The rate offset of a code in ppm (R4). -/
def ratePpm (code : Nat) : Rat := ((code : Rat) - 32768) / 64

/-- The correction c of R116 in ppm, from E in units of 1/65,536 tick: −E / 24.576, clamped to the slew limit. -/
def correctionPpm (e : Int) (slewLimit : Nat) : Rat :=
  let c : Rat := -((e : Rat) / 65536) * 1000 / 24576
  if c < -(slewLimit : Rat) then -(slewLimit : Rat) else if (slewLimit : Rat) < c then slewLimit else c

/-- The advance of P in units of 1/65,536 tick: tpf × (1 + (r + c) × 10⁻⁶), rounded once (R116). -/
def advanceUnits (tpf code : Nat) (e : Int) (slewLimit : Nat) : Int :=
  roundRat ((tpf * 65536 : Nat) * (1 + (ratePpm code + correctionPpm e slewLimit) / 1000000))

/-! ### The stages of a frame (R114) -/

/-- The zone's position, 0 where it is undefined (never in a started state, section 7.1). -/
def Zone.pos (x : Zone) : Position := x.position.getD 0

/-- Is a frame with no main entry under P concealed in this state (R120)? -/
def ZoneState.conceals : ZoneState → Bool
  | .playing | .starved | .stopping _ => true
  | .disabled | .idle | .armed | .drained | .held _ => false

/-- Stage 3: the read and the mix, and the count of a concealed frame (R114, R118, R120, R134); `taken` is the zone as the frame
was taken. -/
def Part.readAndMix (p : Part) (z : ZoneId) (taken : Zone) : Part :=
  let x := p.zone z
  let p := p.mixFrame z taken x.pos (x.state != .drained)
  if x.state.conceals ∧ (p.mainAt z x.pos).isNone then p.tally (.zone z .framesConcealed) else p

/-- Stage 4: P advances (R116). -/
def Part.advance (p : Part) (z : ZoneId) (e : Int) : Part :=
  let x := p.zone z
  let step := advanceUnits x.tpf (p.zoneDomain z).code e x.setup.slewLimit
  p.setZone z { x with position := some (toPosition ((x.pos : Int) + step).toNat) }

/-- Stage 5: entries P has passed leave as played, main before overlay, and the low watermark is tested once (R93, R94, R102).
`move` is the P that the move of a starting frame took (R112): the overlay entries it passed leave here, after the frame's main
entries, since R94 records main before overlay at one frame. -/
def Part.playOut (p : Part) (z : ZoneId) (move : Option Position) (before : Nat) : Part :=
  let pos := (p.zone z).pos
  let p := p.playMain z pos
  let p := match move with
    | some moved => p.playOverlay z moved
    | none => p
  (p.playOverlay z pos).testLowWatermark z before

/-- Stages 7 and 8: a stop that has reached its end point completes (R123), any other zone is judged (R117, R119). -/
def Part.judge (p : Part) (z : ZoneId) (e : Int) : Part :=
  let x := p.zone z
  match x.state with
  | .stopping endPoint => if positionAt endPoint ≤ x.pos then p.toIdle z else p.judgeAligned z e
  | _ => (p.judgeContent z x.pos).judgeAligned z e

/-- Stages 3 to 8 (R114): `taken` is the zone as the frame was taken, `move` the P of a starting frame's move, `before` the main
queue's length the watermark's fall starts from. An action of stage 6 that stops the zone ends its frame there. -/
def Part.completeFrame (p : Part) (z : ZoneId) (taken : Zone) (e : Int) (move : Option Position) (before : Nat) : Part :=
  let p := ((p.readAndMix z taken).advance z e).playOut z move before
  let state := (p.zone z).state
  let p := p.applyDue z (p.zone z).pos
  if (p.zone z).state = state then p.judge z e else p

/-- The jump of a reseek, R115: P takes T, late entries drop, the reseeks tally rises. -/
def Part.jump (p : Part) (z : ZoneId) (target : DomainTime) : Part :=
  let p := p.setZone z { p.zone z with position := some (positionAt target) }
  (p.dropLate z (positionAt target)).tally (.zone z .reseeks)

/-- The frame that a STOP applied in its reseek's catch-up ends before the mix (R157): its lanes are a free value, and the ramps
and overlay-active stay as the stop left them, without the step that R138 gives a frame (log 13). -/
def Part.unmixedFrame (p : Part) (z : ZoneId) : Part :=
  let v := Config.stoppedFrameLanes z p.localTime
  let lanes : Lanes := ⟨v.1.toInt, v.2.toInt⟩
  let x := p.zone z
  p.setZone z { x with emitted := some lanes, mixer := { x.mixer with lastLanes := some lanes } }

/-- The record of a frame's t, T and E (R110). -/
def Part.recordFrame (p : Part) (z : ZoneId) (target : DomainTime) (e : Int) : Part :=
  p.setZone z { p.zone z with lastFrame := some ⟨p.localTime, target, e⟩ }

/-- A frame in PLAYING, STARVED, DRAINED or STOPPING (R114, R115). -/
def Part.playingFrame (p : Part) (z : ZoneId) : Part :=
  let x := p.zone z
  let target := p.target z p.localTime
  let e : Int := (x.pos : Int) - positionAt target
  if e.natAbs ≤ positionAt x.setup.reseekThreshold then
    (p.recordFrame z target e).completeFrame z x e none x.mainQueue.length
  else
    let p := (((p.recordFrame z target 0).jump z target).raise .reseek (.zone z)).applyDue z (positionAt target)
    if (p.zone z).state = x.state then p.completeFrame z x 0 none x.mainQueue.length else p.unmixedFrame z

/-- Is the start condition met at the position (R112)? -/
def Part.startMet (p : Part) (z : ZoneId) (pos : Position) : Bool :=
  match (p.zone z).start, (p.zone z).mainQueue with
  | some (.at t), _ => positionAt t ≤ pos
  | some .auto, n :: _ => positionAt (p.pool.entryStart n) ≤ pos
  | some .auto, [] => false
  | none, _ => false

/-- The start of R113, up to the read of the frame: late drops with their watermark test, PLAYING or STARVED, ZONE_STATE. -/
def Part.startZone (p : Part) (z : ZoneId) (pos : Position) : Part :=
  let before := (p.zone z).mainQueue.length
  let p := (p.dropLateMain z pos).testLowWatermark z before
  let playing := (p.mainAt z pos).isSome
  let p := (p.setZone z { p.zone z with state := if playing then .playing else .starved, start := none }).raiseZoneState z
  if playing then p else p.underrun z

/-- A frame in ARMED (R112, R113). The overlay entries its move passes leave as played; if the zone starts, they leave at stage 5
of the same frame, after its main entries (R94). -/
def Part.armedFrame (p : Part) (z : ZoneId) : Part :=
  let x := p.zone z
  let target := p.target z p.localTime
  let pos := positionAt target
  let p := (p.setZone z { p.zone z with position := some pos }).recordFrame z target 0
  if p.startMet z pos then
    let p := (p.judgeAligned z 0).startZone z pos
    p.completeFrame z x 0 (some pos) (p.zone z).mainQueue.length
  else (((p.playOverlay z pos).judgeAligned z 0).mixFrame z x pos false).applyDue z pos

/-- One output frame of a zone whose port begins it now (R110). -/
def Part.frame (p : Part) (z : ZoneId) : Part :=
  let x := p.zone z
  let p := p.setZone z { x with port := some (nextMultiple p.localTime x.tpf) }
  match x.state with
  | .disabled | .idle | .held _ => p.silentFrame z
  | .armed => p.armedFrame z
  | .playing | .starved | .drained | .stopping _ => p.playingFrame z

/-! ### Domain events and their zones (R125, R127) -/

/-- A zone bound to a domain that has become untimed (R125). -/
def Part.holdZone (p : Part) (z : ZoneId) : Part :=
  match (p.zone z).state with
  | .armed => p.toHeld z .armed
  | .playing | .starved | .drained => p.toHeld z .running
  | .stopping _ => p.toIdle z
  | .disabled | .idle | .held _ => p

/-- A domain has become untimed: its zones are held, or stopped (R125), in the order Z0 to Z3 (log 35). -/
def Part.holdZones (p : Part) (d : DomainId) : Part :=
  allZones.foldl (fun p z => if (p.zone z).setup.domain = d then p.holdZone z else p) p

/-- A resume with resume state ARMED: P takes the target of the port's next frame (R127). -/
def Part.resumeArmed (p : Part) (z : ZoneId) : Part :=
  let pos := positionAt (p.target z (p.nextFrameTime z))
  (p.setZone z { p.zone z with state := .armed, position := some pos }).raiseZoneState z

/-- A resume with resume state RUNNING (R127): a reseek to the target of the port's next frame, the catch-up of the schedule,
and, unless a STOP has sent the zone to IDLE, the judged state. -/
def Part.resumeRunning (p : Part) (z : ZoneId) : Part :=
  let x := p.zone z
  let target := p.target z (p.nextFrameTime z)
  let pos := positionAt target
  let outside := positionAt x.setup.reseekThreshold < ((x.pos : Int) - pos).natAbs
  let p := (p.jump z target).testLowWatermark z x.mainQueue.length
  let p := (if outside then p.raise .reseek (.zone z) else p).applyDue z pos
  if (p.zone z).state = x.state then
    (p.setZone z { p.zone z with state := p.contentState z pos }).raiseZoneState z
  else p

/-- A zone bound to a domain that has become timed (R127). -/
def Part.resumeZone (p : Part) (z : ZoneId) : Part :=
  match (p.zone z).state with
  | .held .armed => p.resumeArmed z
  | .held .running => p.resumeRunning z
  | .disabled | .idle | .armed | .playing | .starved | .drained | .stopping _ => p

/-- A domain has become timed: its HELD zones resume (R127), in the order Z0 to Z3 (log 35). -/
def Part.resumeZones (p : Part) (d : DomainId) : Part :=
  allZones.foldl (fun p z => if (p.zone z).setup.domain = d then p.resumeZone z else p) p

end Sys2Proof.Machine
end

