-- ==== Sys2Proof/Machine/SearchOps.lean ====
section
/-! DEFINITION. Chapter 3 and the shared handlings of chapter 2: the trim search engine, loss events, the step actions, and
becoming timed or untimed. -/

namespace Sys2Proof.Machine

/-! ### The engine and its queue (R43 to R46, R52) -/

/-- The setup of a search from the domain's code and start kind, R46. -/
def Search.begin (d : DomainId) (x : Domain) : Search :=
  match x.startKind with
  | .cold => ⟨d, x.code, 0, 15, 0⟩
  | .warm => ⟨d, x.code, x.code / 2 ^ x.setup.warmWidth * 2 ^ x.setup.warmWidth, x.setup.warmWidth - 1, 0⟩

/-- The candidate code: the settled code with the current bit set (section 3.1). -/
def Search.candidate (r : Search) : Nat := r.settledCode + 2 ^ r.bit

/-- The engine takes the domain at the front of the queue whenever it serves none (R45, R46). -/
def Part.engineTake (p : Part) : Part :=
  match p.engine.served, p.engine.queue with
  | none, d :: rest =>
    let r := Search.begin d (p.domain d)
    let p := { p with engine := ⟨some r, rest⟩ }
    p.setDomain d { p.domain d with code := r.candidate, state := .acquire .anchored }
  | _, _ => p

/-- A domain joins the back of the search queue, and the engine, if free, takes it at once (R44, R45). -/
def Part.joinQueue (p : Part) (d : DomainId) : Part :=
  ({ p with engine := { p.engine with queue := p.engine.queue ++ [d] } } : Part).engineTake

/-- Does the engine serve the domain? -/
def SearchEngine.serves (e : SearchEngine) (d : DomainId) : Bool :=
  match e.served with
  | some r => r.domain == d
  | none => false

/-- A search or a queue place of the domain is given up (R44, R52): an abandoned search writes the entry code back. The engine
is left free; it takes the waiting domain once the giving-up rule has acted on this one. -/
def Part.giveUpSearch (p : Part) (d : DomainId) : Part :=
  let queue := p.engine.queue.filter (fun q => q != d)
  match p.engine.served with
  | some r =>
    if r.domain = d then
      ({ p with engine := ⟨none, queue⟩ } : Part).setDomain d { p.domain d with code := r.entryCode }
    else { p with engine := { p.engine with queue := queue } }
  | none => { p with engine := { p.engine with queue := queue } }

/-- Back to WAITING without an anchor (R33, R36), and the freed engine takes the waiting domain (R45, R52). -/
def Part.backToWaiting (p : Part) (d : DomainId) : Part :=
  let p := p.giveUpSearch d
  (p.setDomain d { p.domain d with anchor := none, state := .acquire .waiting }).engineTake

/-! ### State changes of a domain -/

/-- TRACK to HOLDOVER (R33, R36): the holdover deadline is set, DOMAIN_STATE is raised. -/
def Part.enterHoldover (p : Part) (d : DomainId) : Part :=
  let x := p.domain d
  (p.setDomain d { x with state := .holdover, holdover := some (p.localTime + x.setup.holdoverTicks) }).raiseDomainState d

/-- A domain that was untimed goes to TRACK: DOMAIN_STATE, and its HELD zones resume (R24, R25, R35, R127). -/
def Part.becomeTracked (p : Part) (d : DomainId) : Part :=
  ((p.setDomain d { p.domain d with state := .track, holdover := none }).raiseDomainState d).resumeZones d

/-- The return from HOLDOVER to TRACK (R28, R34, R37): the holdover deadline stops, DOMAIN_STATE is raised. In TRACK nothing
changes. -/
def Part.returnToTrack (p : Part) (d : DomainId) : Part :=
  match (p.domain d).state with
  | .holdover => (p.setDomain d { p.domain d with state := .track, holdover := none }).raiseDomainState d
  | _ => p

/-- A warm acquisition on a sample (R29, R35): ACQUIRE, QUEUED, WARM, the code kept as the hint. -/
def Part.reacquire (p : Part) (d : DomainId) (a : Anchor) : Part :=
  let p := p.setDomain d { p.domain d with state := .acquire .queued, startKind := .warm, anchor := some a,
                                           outlierRun := 0, holdover := none }
  (p.raiseDomainState d).joinQueue d

/-- The loss event of R33. -/
def Part.lossEvent (p : Part) (d : DomainId) : Part :=
  let p := p.setAlarm d .loss true
  match (p.domain d).state with
  | .track => p.enterHoldover d
  | .acquire .queued | .acquire .anchored | .acquire .searching => p.backToWaiting d
  | .acquire .waiting | .holdover | .lost | .unbound | .lead => p

/-! ### Tracking and stepping (R26 to R29) -/

/-- RANGE is declared at the ends of the code's scale and cleared elsewhere (R26 step 4, R51). -/
def Part.judgeRange (p : Part) (d : DomainId) : Part :=
  p.setAlarm d .range (decide ((p.domain d).code = 0 ∨ (p.domain d).code = 65535))

/-- The code after a tracking update, R26 step 3: one step toward the error outside the deadband, within 0..65535. -/
def nudge (code deadband : Nat) (e : Int) : Nat :=
  if (deadband : Int) < e then min 65535 (code + 1) else if e < -(deadband : Int) then code - 1 else code

/-- The tracking update of R26, from the error e and G(arrival) of the anchor and code held before. -/
def Part.trackingUpdate (p : Part) (d : DomainId) (arrival : LocalTime) (g : DomainTime) (e : Int) : Part :=
  let x := p.domain d
  let q := e.tdiv (2 ^ x.setup.filterShift)
  (p.setDomain d { x with outlierRun := 0, anchor := some ⟨arrival, toDomainTime (g + q)⟩,
                          code := nudge x.code x.setup.deadband e }).judgeRange d

/-- The effect of STEP, R28. -/
def Part.stepTo (p : Part) (d : DomainId) (a : Anchor) (e : Int) : Part :=
  ((p.setDomain d { p.domain d with anchor := some a, lastStepError := some e }).raise .domainStep (.domain d)).returnToTrack d

/-- The step action of the setup, R28 and R29; a REACQUIRE makes the domain untimed, and with w = 0 it acts as STEP. -/
def Part.stepAction (p : Part) (d : DomainId) (a : Anchor) (e : Int) : Part :=
  let x := p.domain d
  match x.setup.stepAction with
  | .step => p.stepTo d a e
  | .reacquire =>
    if x.setup.warmWidth = 0 then p.stepTo d a e
    else ((p.setDomain d { x with lastStepError := some e }).reacquire d a).holdZones d

/-- An outlier, R27 and R37: it is counted; the run that reaches N_step, or a sample judged alone, brings the step action. -/
def Part.outlier (p : Part) (d : DomainId) (a : Anchor) (e : Int) (alone : Bool) : Part × BeaconOutcome :=
  let p := p.tally (.domain d .outliers)
  let x := p.domain d
  if alone = true ∨ x.setup.nStep ≤ x.outlierRun + 1 then
    let p := (p.setDomain d { x with outlierRun := 0, newLeader := false }).tally (.domain d .steps)
    (p.stepAction d a e, .stepped)
  else (p.setDomain d { x with outlierRun := x.outlierRun + 1 }, .outlier)

/-- A sample in TRACK or HOLDOVER whose error against the kept anchor is e (R26, R27, R34, R37). -/
def Part.timedSample (p : Part) (d : DomainId) (a : Anchor) (g : DomainTime) (e : Int) : Part × BeaconOutcome :=
  let x := p.domain d
  if e.natAbs ≤ x.setup.stepThreshold then
    let p := (p.setDomain d { x with newLeader := false }).trackingUpdate d a.localTime g e
    (p.returnToTrack d, .tracked)
  else p.outlier d a e x.newLeader

/-! ### Samples in a search (R47 to R51) -/

/-- The sample that begins the first window (R47). -/
def Part.firstWindow (p : Part) (d : DomainId) (a : Anchor) : Part :=
  p.setDomain d { p.domain d with anchor := some a, state := .acquire .searching }

/-- The completion of a search on its final code (R51). -/
def Part.completeSearch (p : Part) (d : DomainId) (a : Anchor) (code : Nat) : Part :=
  let p := { p with engine := { p.engine with served := none } }
  let p := p.setDomain d { p.domain d with code := code, anchor := some a, outlierRun := 0 }
  ((p.judgeRange d).engineTake).becomeTracked d

/-- A sample in SEARCHING (R48 to R51): counted, and at the W-th the bit is decided by the sign of e. -/
def Part.windowSample (p : Part) (d : DomainId) (a : Anchor) (e : Int) : Part :=
  match p.engine.served with
  | none => p
  | some r =>
    let count := r.windowCount + 1
    if count < (p.domain d).setup.window then
      { p with engine := { p.engine with served := some { r with windowCount := count } } }
    else
      let settled := if 0 < e then r.candidate else r.settledCode
      if r.bit = 0 then p.completeSearch d a settled
      else
        let r' : Search := { r with settledCode := settled, bit := r.bit - 1, windowCount := 0 }
        let p := { p with engine := { p.engine with served := some r' } }
        p.setDomain d { p.domain d with anchor := some a, code := r'.candidate }

/-! ### The heard sample (R22 to R24, R35, R37) -/

/-- The effects every heard sample has in every state of a following domain (R22). -/
def Part.heardEffects (p : Part) (d : DomainId) (sequence : Word16) : Part :=
  let x := p.domain d
  let sparse := x.setup.lossCriterion = .sparse
  let p := p.setDomain d { x with
    lastSequence := some sequence
    watch := some (p.localTime + x.setup.watchTicks)
    missed := 0
    sparseCurrent := if sparse then min 255 (x.sparseCurrent + 1) else x.sparseCurrent }
  let p := if sparse then p else p.setAlarm d .loss false
  p.tally (.domain d .samplesHeard)

/-- A sample in WAITING (R24): the domain anchors, and queues or, warm with w = 0, goes to TRACK. -/
def Part.waitingSample (p : Part) (d : DomainId) (a : Anchor) : Part :=
  let x := p.domain d
  let p := p.setDomain d { x with anchor := some a }
  if x.startKind = .warm ∧ x.setup.warmWidth = 0 then p.becomeTracked d
  else (p.setDomain d { p.domain d with state := .acquire .queued }).joinQueue d

/-- The first sample in LOST (R35): a warm acquisition, or TRACK with w = 0. -/
def Part.lostSample (p : Part) (d : DomainId) (a : Anchor) : Part :=
  let x := p.domain d
  if x.setup.warmWidth = 0 then (p.setDomain d { x with anchor := some a }).becomeTracked d
  else p.reacquire d a

/-- New-leader pending is cleared by the first sample in ACQUIRE and in LOST (R37). -/
def Part.clearNewLeader (p : Part) (d : DomainId) : Part := p.setDomain d { p.domain d with newLeader := false }

/-- The handling of a heard sample by the rule of the domain's state, and its outcome (R23). -/
def Part.handleSample (p : Part) (d : DomainId) (a : Anchor) (g : Option DomainTime) (e : Option Int) :
    Part × BeaconOutcome :=
  match (p.domain d).state with
  | .acquire .waiting => ((p.clearNewLeader d).waitingSample d a, .anchored)
  | .acquire .queued =>
    let p := p.clearNewLeader d
    (p.setDomain d { p.domain d with anchor := some a }, .anchored)
  | .acquire .anchored => ((p.clearNewLeader d).firstWindow d a, .anchored)
  | .acquire .searching => ((p.clearNewLeader d).windowSample d a (e.getD 0), .window)
  | .lost => ((p.clearNewLeader d).lostSample d a, .anchored)
  | .track | .holdover | .unbound | .lead => p.timedSample d a (g.getD 0) (e.getD 0)

end Sys2Proof.Machine
end

