-- ==== Sys2Proof/Machine/Domains.lean ====
section
/-! DEFINITION. The requests and timer events of chapter 2: DSET, DRUN, BEAC, LCHG, DREL, DSTA, and the expiries of the beacon
watch, the SPARSE window and the holdover timer. -/

namespace Sys2Proof.Machine

/-! ### DSET (R17) -/

def handleDset (body : List Byte) (p : Part) : Handling :=
  match DomainId.ofCode (field body 0 1), DomainSetup.ofBody body with
  | some d, some setup =>
    if (p.domain d).state = .unbound then
      (p.setDomain d { p.domain d with setup := setup }).accept setup.bytes
    else p.refuse .wrongState
  | _, _ => p.refuse .badField

/-- DSET, R17: the setup part of an UNBOUND domain. -/
def execDset (tag : Byte) (body : List Byte) (s : State) : Outcome := s.request .dset handleDset tag body

/-! ### DRUN (R18, R19) -/

/-- A follow DRUN that passes (R18). -/
def Part.runFollow (p : Part) (d : DomainId) (kind : StartKind) (code : Nat) : Part :=
  let x := p.domain d
  (p.setDomain d { x with
    state := .acquire .waiting
    startKind := kind
    anchor := none
    code := code
    lastSequence := none
    newLeader := false
    outlierRun := 0
    missed := 0
    sparseCurrent := 0
    sparsePrevious := 0
    watch := some (p.localTime + x.setup.watchTicks)
    windowEnd := if x.setup.lossCriterion = .sparse then some (p.localTime + 8 * x.setup.biTicks) else none
    holdover := none }).raiseDomainState d

/-- A lead DRUN that passes (R19): the domain is timed, and its HELD zones resume (R127). -/
def Part.runLead (p : Part) (d : DomainId) (a : Anchor) (code : Nat) : Part :=
  ((p.setDomain d { p.domain d with state := .lead, anchor := some a, code := code }).raiseDomainState d).resumeZones d

/-- The anchor in a reply. -/
def Anchor.bytes (a : Anchor) : List Byte := timeBytes a.localTime ++ timeBytes a.domainTime

/-- State, phase and code in a reply. -/
def Domain.stateBytes (x : Domain) : List Byte := [x.state.code, x.state.phaseCode] ++ leBytes 2 x.code

/-- The reply of a follow DRUN: the state, the phase and the code now held (R18). -/
def Part.acceptFollow (p : Part) (d : DomainId) : Handling := p.accept (p.domain d).stateBytes

/-- The reply of a lead DRUN: anchor and code now held (R19). -/
def Part.acceptLead (p : Part) (d : DomainId) (a : Anchor) (code : Nat) : Handling :=
  (p.runLead d a code).accept (a.bytes ++ leBytes 2 code)

/-- DRUN of an UNBOUND domain, by its role and the form (R18 checks 3 and 4). -/
def Part.run (p : Part) (d : DomainId) (form : RunForm) : Handling :=
  match (p.domain d).setup.role, form with
  | .follow, .followCold => (p.runFollow d .cold Config.nominalCode).acceptFollow d
  | .follow, .followWarm hint => (p.runFollow d .warm hint).acceptFollow d
  | .lead, .leadFrom t0 => p.acceptLead d ⟨p.localTime, t0⟩ Config.nominalCode
  | .lead, .leadInherit x =>
    let y := p.domain x
    match y.setup.role, y.state, y.anchor with
    | .follow, .track, some a => p.acceptLead d a y.code
    | .follow, .holdover, some a => p.acceptLead d a y.code
    | _, _, _ => p.refuse .wrongState
  | _, _ => p.refuse .badField

def handleDrun (body : List Byte) (p : Part) : Handling :=
  match DomainId.ofCode (field body 0 1), RunForm.ofCodes (field body 1 1) (field body 2 8) with
  | some d, some form => if (p.domain d).state = .unbound then p.run d form else p.refuse .wrongState
  | _, _ => p.refuse .badField

/-- DRUN, R18 and R19. -/
def execDrun (tag : Byte) (body : List Byte) (s : State) : Outcome := s.request .drun handleDrun tag body

/-! ### BEAC (R21 to R23) -/

/-- Sequence s is newer than r when (s − r) mod 65,536 lies in 1..32,767 (00_scope.md). -/
def newer (s r : Word16) : Bool := 1 ≤ (s - r).toNat && (s - r).toNat ≤ 32767

/-- Is the sequence newer than the last, or the last absent (R21 check 6)? -/
def Domain.accepts (x : Domain) (s : Word16) : Bool :=
  match x.lastSequence with
  | none => true
  | some r => newer s r

/-- The domain has role FOLLOW and is not UNBOUND (R21, R36, R57, R59). -/
def Domain.following (x : Domain) : Bool := x.setup.role == .follow && x.state != .unbound

/-- A BEAC that passes its checks: claim, sample, R22's effects, the handling, the reply (R22, R23). -/
def Part.beacon (p : Part) (d : DomainId) (c : Capture) (sequence : Word16) (departure : DomainTime) : Handling :=
  let sample := toDomainTime ((departure : Int) + p.pathDelay d)
  let g := (p.domain d).read c.time
  let e : Option Int := g.map (fun (t : DomainTime) => (sample : Int) - (t : Int))
  let p := (p.claim c.number).heardEffects d sequence
  let r := p.handleSample d ⟨c.time, sample⟩ g e
  r.1.accept ([r.2.code] ++ optBytes 8 signedBytes e ++ (r.1.domain d).stateBytes)

def handleBeac (body : List Byte) (p : Part) : Handling :=
  match DomainId.ofCode (field body 0 1) with
  | none => p.refuse .badField
  | some d =>
    let x := p.domain d
    if !x.following then p.refuse .wrongState
    else
      match p.checkCapture (BitVec.ofNat 8 (field body 1 1)) .rx with
      | .error s => p.refuse s
      | .ok c =>
        if x.setup.leaderId ≠ BitVec.ofNat 32 (field body 2 4) then p.refuse .leaderMismatch
        else if !x.accepts (BitVec.ofNat 16 (field body 6 2)) then p.refuse .stale
        else p.beacon d c (BitVec.ofNat 16 (field body 6 2)) (field body 8 8)

/-- BEAC, R21 to R23. -/
def execBeac (tag : Byte) (body : List Byte) (s : State) : Outcome := s.request .beac handleBeac tag body

/-! ### LCHG (R36) -/

/-- Every echo record of the domain is removed, and its path list emptied (R36, R38, R65). -/
def EchoTable.clearDomain (t : EchoTable) (d : DomainId) : EchoTable :=
  { t with records := t.records.filter (fun r => r.domain != d), samples := t.samples.set d [] }

/-- A taken LCHG (R36). -/
def Part.changeLeader (p : Part) (d : DomainId) (leader : Word32) : Part :=
  let x := p.domain d
  let p := p.setDomain d { x with setup := { x.setup with leaderId := leader }, lastSequence := none, outlierRun := 0,
                                  newLeader := true }
  let p := { p with echo := p.echo.clearDomain d }
  match x.state with
  | .track => p.enterHoldover d
  | .acquire _ => p.backToWaiting d
  | .holdover | .lost | .unbound | .lead => p

def handleLchg (body : List Byte) (p : Part) : Handling :=
  match DomainId.ofCode (field body 0 1) with
  | none => p.refuse .badField
  | some d =>
    if (p.domain d).following then
      let p := p.changeLeader d (BitVec.ofNat 32 (field body 1 4))
      p.accept [(p.domain d).state.code, (p.domain d).state.phaseCode]
    else p.refuse .wrongState

/-- LCHG, R36. -/
def execLchg (tag : Byte) (body : List Byte) (s : State) : Outcome := s.request .lchg handleLchg tag body

/-! ### DREL (R38) -/

/-- The running part of a released domain, R38. -/
def Domain.released (x : Domain) : Domain := { Domain.reset with setup := x.setup }

/-- Every live entry of the domain leaves the schedule, and none retires (R160). -/
def Schedule.dropDomain (s : Schedule) (d : DomainId) : Schedule :=
  { s with entries := s.entries.filter (fun e => e.domain != d) }

/-- A taken DREL of a domain that is not UNBOUND (R38, R52, R65, R125, R160). -/
def Part.releaseDomain (p : Part) (d : DomainId) : Part :=
  let p := p.giveUpSearch d
  let p := { p with echo := { p.echo.clearDomain d with timeouts := p.echo.timeouts.set d 0 },
                    schedule := p.schedule.dropDomain d }
  (((p.setDomain d (p.domain d).released).engineTake).raiseDomainState d).holdZones d

def handleDrel (body : List Byte) (p : Part) : Handling :=
  match DomainId.ofCode (field body 0 1) with
  | none => p.refuse .badField
  | some d => if (p.domain d).state = .unbound then p.accept [] else (p.releaseDomain d).accept []

/-- DREL, R38. -/
def execDrel (tag : Byte) (body : List Byte) (s : State) : Outcome := s.request .drel handleDrel tag body

/-! ### DSTA (R41) -/

/-- The search place: QUEUED with its position in the queue, counted from 1 at the front (log 14), or ENGINE with the entry code,
the current bit and the window count (R41, R43), or NONE (log 14). -/
def Part.searchPlaceBytes (p : Part) (d : DomainId) : List Byte :=
  match p.engine.served with
  | some r =>
    if r.domain = d then [1#8] ++ leBytes 2 r.entryCode ++ leBytes 1 r.bit ++ leBytes 1 r.windowCount
    else if p.engine.queue.contains d then [0#8] ++ leBytes 1 (p.engine.queue.idxOf d + 1) else [0xFF#8]
  | none => if p.engine.queue.contains d then [0#8] ++ leBytes 1 (p.engine.queue.idxOf d + 1) else [0xFF#8]

/-- The report of R41, in its order. -/
def Part.domainReport (p : Part) (d : DomainId) : List Byte :=
  let x := p.domain d
  x.setup.bytes ++ [x.state.code, x.state.phaseCode, x.startKind.code] ++ p.searchPlaceBytes d ++
  optBytes 16 Anchor.bytes x.anchor ++ leBytes 2 x.code ++ leBytes 2 (BitVec.ofInt 16 ((x.code : Int) - 32768)).toNat ++
  timeBytes p.localTime ++ optBytes 8 timeBytes (if x.state.timed then x.read p.localTime else none) ++
  optBytes 2 (fun s : Word16 => leBytes 2 s.toNat) x.lastSequence ++ flagBytes x.newLeader ++ leBytes 1 x.outlierRun ++
  leBytes 1 x.missed ++ leBytes 1 x.sparseCurrent ++ leBytes 1 x.sparsePrevious ++
  deadlineBytes x.watch ++ deadlineBytes x.windowEnd ++ deadlineBytes x.holdover ++
  flagBytes x.loss ++ flagBytes x.path ++ flagBytes x.range ++
  leBytes 4 (p.pathDelay d) ++ leBytes 1 (p.echo.samples.get d).length ++ optBytes 8 signedBytes x.lastStepError

def handleDsta (body : List Byte) (p : Part) : Handling :=
  match DomainId.ofCode (field body 0 1) with
  | none => p.refuse .badField
  | some d => p.accept (p.domainReport d)

/-- DSTA, R41. -/
def execDsta (tag : Byte) (body : List Byte) (s : State) : Outcome := s.request .dsta handleDsta tag body

/-! ### Expiries (R30, R32, R35) -/

/-- Has local time reached the deadline (R2)? A stopped deadline is never reached. -/
def Part.reached (p : Part) (deadline : Option LocalTime) : Bool :=
  match deadline with
  | some t => t ≤ p.localTime
  | none => false

/-- A beacon watch expiry at the deadline `t` (R30). -/
def Part.watchExpiry (p : Part) (d : DomainId) (t : LocalTime) : Part :=
  let x := p.domain d
  let p := p.setDomain d { x with missed := min 16 (x.missed + 1), watch := some (t + x.setup.biTicks) }
  let p := p.tally (.domain d .beaconsMissed)
  if x.setup.lossCriterion = .consec ∧ x.missed + 1 = x.setup.nLoss then p.lossEvent d else p

/-- BEACON_WATCH_EXPIRY, R30; a deadline that local time has not reached does not expire (R2, log 4). -/
def execBeaconWatchExpiry (d : DomainId) (s : State) : Outcome :=
  s.complete (fun p =>
    match (p.domain d).watch with
    | some t => if t ≤ p.localTime then p.watchExpiry d t else p
    | none => p)

/-- The end of the SPARSE window whose deadline is `t` (R32). -/
def Part.windowExpiry (p : Part) (d : DomainId) (t : LocalTime) : Part :=
  let x := p.domain d
  let p :=
    if x.sparseCurrent < 3 ∧ x.sparsePrevious < 3 then p.lossEvent d
    else if 3 ≤ x.sparseCurrent then p.setAlarm d .loss false
    else p
  p.setDomain d { p.domain d with sparsePrevious := x.sparseCurrent, sparseCurrent := 0,
                                  windowEnd := some (t + 8 * x.setup.biTicks) }

/-- WINDOW_END, R32. -/
def execWindowEnd (d : DomainId) (s : State) : Outcome :=
  s.complete (fun p =>
    match (p.domain d).windowEnd with
    | some t => if t ≤ p.localTime then p.windowExpiry d t else p
    | none => p)

/-- HOLDOVER to LOST (R35): the deadline stops, DOMAIN_STATE is raised, the zones are held (R125). -/
def Part.holdoverExpiry (p : Part) (d : DomainId) : Part :=
  ((p.setDomain d { p.domain d with state := .lost, holdover := none }).raiseDomainState d).holdZones d

/-- HOLDOVER_EXPIRY, R35. -/
def execHoldoverExpiry (d : DomainId) (s : State) : Outcome :=
  s.complete (fun p => if p.reached (p.domain d).holdover then p.holdoverExpiry d else p)

end Sys2Proof.Machine
end

