-- ==== Sys2Proof/Machine/Echo.lean ====
section
/-! DEFINITION. Chapter 4: ECHS, ECHA and the expiry of an echo record. -/

namespace Sys2Proof.Machine

/-- The record of a domain with a sequence (R55). -/
def EchoTable.find (t : EchoTable) (d : DomainId) (q : Word16) : Option EchoRecord :=
  t.records.find? (fun r => r.domain == d && r.sequence == q)

/-- The record of a domain with a sequence is removed. -/
def EchoTable.remove (t : EchoTable) (d : DomainId) (q : Word16) : EchoTable :=
  { t with records := t.records.filter (fun r => !(r.domain == d && r.sequence == q)) }

/-! ### Expiry (R62, R63) -/

/-- The expiry of a record: removed, counted, and PATH at the fourth in a row (R62, R63). -/
def Part.echoExpiry (p : Part) (d : DomainId) (q : Word16) : Part :=
  let n := min 4 (p.echo.timeouts.get d + 1)
  let p := { p with echo := { p.echo.remove d q with timeouts := p.echo.timeouts.set d n } }
  let p := p.tally (.domain d .echoTimeouts)
  if n = 4 then p.setAlarm d .path true else p

/-! ### ECHS (R57, R58) -/

/-- An ECHS that passes its checks (R58): the capture is claimed and the record made; a deadline that local time has already
reached expires at once, after the answer is made (R64). -/
def Part.startEcho (p : Part) (capture : Byte) (r : EchoRecord) : Handling :=
  let p := p.claim capture
  let p := { p with echo := { p.echo with records := p.echo.records ++ [r] } }
  let answer := Answer.ok (leBytes 2 r.sequence.toNat ++ timeBytes r.departure ++ timeBytes r.deadline ++
    leBytes 1 p.echo.records.length)
  (if r.deadline ≤ p.localTime then p.echoExpiry r.domain r.sequence else p, some answer)

def handleEchs (body : List Byte) (p : Part) : Handling :=
  match DomainId.ofCode (field body 0 1) with
  | none => p.refuse .badField
  | some d =>
    let x := p.domain d
    let q : Word16 := BitVec.ofNat 16 (field body 1 2)
    if !x.following then p.refuse .wrongState
    else if (p.echo.find d q).isSome then p.refuse .duplicate
    else if Config.echoCapacity ≤ p.echo.records.length then p.refuse .tableFull
    else
      match p.checkCapture (BitVec.ofNat 8 (field body 3 1)) .tx with
      | .error s => p.refuse s
      | .ok c =>
        p.startEcho c.number ⟨d, q, c.time, c.time + x.setup.echoTicks⟩

/-- ECHS, R57 and R58. -/
def execEchs (tag : Byte) (body : List Byte) (s : State) : Outcome := s.request .echs handleEchs tag body

/-! ### ECHA (R59 to R61) -/

/-- A sample joins a path list of at most 8 (R56). -/
def joinPath (l : List Nat) (x : Nat) : List Nat :=
  (if Config.pathCapacity ≤ l.length then l.tail else l) ++ [x]

/-- A successful answer, R61: path sample, list, timeouts 0, PATH cleared, echo answers. -/
def Part.pathSample (p : Part) (d : DomainId) (sample : Nat) : Part :=
  let p := { p with echo := { p.echo with samples := p.echo.samples.set d (joinPath (p.echo.samples.get d) sample),
                                          timeouts := p.echo.timeouts.set d 0 } }
  (p.setAlarm d .path false).tally (.domain d .echoAnswers)

/-- An ECHA that passes its checks: turnaround, wait and round trip, then BAD_ECHO or a path sample (R60, R61). -/
def Part.answerEcho (p : Part) (d : DomainId) (r : EchoRecord) (c : Capture) (t2 t3 : DomainTime) : Handling :=
  let turnaround : Int := (t3 : Int) - t2
  let roundTrip : Int := ((c.time : Int) - r.departure) - turnaround
  let p := p.claim c.number
  let p := { p with echo := p.echo.remove d r.sequence }
  if turnaround < 0 ∨ roundTrip < 0 then
    (p, some (.refusalWith .badEcho (signedBytes turnaround ++ signedBytes roundTrip)))
  else
    let sample := roundTrip.toNat / 2
    let p := p.pathSample d sample
    p.accept (signedBytes turnaround ++ signedBytes roundTrip ++ leBytes 4 sample ++ leBytes 4 (p.pathDelay d) ++
      leBytes 1 (p.echo.samples.get d).length)

def handleEcha (body : List Byte) (p : Part) : Handling :=
  match DomainId.ofCode (field body 0 1) with
  | none => p.refuse .badField
  | some d =>
    if !(p.domain d).following then p.refuse .wrongState
    else
      match p.echo.find d (BitVec.ofNat 16 (field body 1 2)) with
      | none => p.refuse .noEntry
      | some r =>
        match p.checkCapture (BitVec.ofNat 8 (field body 19 1)) .rx with
        | .error s => p.refuse s
        | .ok c => p.answerEcho d r c (field body 3 8) (field body 11 8)

/-- ECHA, R59 to R61. -/
def execEcha (tag : Byte) (body : List Byte) (s : State) : Outcome := s.request .echa handleEcha tag body

/-! ### ECHO_TIMEOUT (R62) -/

/-- ECHO_TIMEOUT, R62: a record whose deadline local time has reached; no other expires (R2, R64, log 4). -/
def execEchoTimeout (d : DomainId) (q : Word16) (s : State) : Outcome :=
  s.complete (fun p =>
    match p.echo.find d q with
    | some r => if r.deadline ≤ p.localTime then p.echoExpiry d q else p
    | none => p)

end Sys2Proof.Machine
end

