-- ==== Sys2Proof/Machine/Indications.lean ====
section
/-! DEFINITION. Chapter 10, the commands: INDC, INDR, INDA, TSNP, TAUT, TRED and AUTOMATIC_SNAPSHOT. -/

namespace Sys2Proof.Machine

/-! ### INDC (R167) -/

def Line.ofCode : Nat → Option Line
  | 0 => some .line0
  | 1 => some .line1
  | _ => none

def Line.code : Line → Byte
  | .line0 => 0#8
  | .line1 => 1#8

/-- The kinds that an INDC names: one of the fifteen, or all of them under ALL (section 12.3). -/
def kindsNamed (n : Nat) : Option (List IndicationKind) :=
  if n = 0xFF then some allKinds else (IndicationKind.ofCode n).map (fun k => [k])

/-- Write one setting to each of the kinds (R167). -/
def IndicationUnit.configure (u : IndicationUnit) (s : KindSetting) (kinds : List IndicationKind) : IndicationUnit :=
  kinds.foldl (fun u k => u.setSetting k s) u

def KindSetting.bytes (s : KindSetting) : List Byte := flagBytes s.enabled ++ [s.line.code]

/-- The enable and line before and after of each kind written: a count, then the kinds in code order (log 14). -/
def configuredBytes (before after : IndicationUnit) (kinds : List IndicationKind) : List Byte :=
  leBytes 1 kinds.length ++ kinds.flatMap (fun k => (before.setting k).bytes ++ (after.setting k).bytes)

def handleIndc (body : List Byte) (p : Part) : Handling :=
  match kindsNamed (field body 0 1), flagOf (field body 1 1), Line.ofCode (field body 2 1) with
  | some kinds, some enabled, some line =>
    let u := p.indications.configure ⟨enabled, line⟩ kinds
    ({ p with indications := u } : Part).accept (configuredBytes p.indications u kinds ++ attentionBytes u)
  | _, _, _ => p.refuse .badField

/-- INDC, R167. -/
def execIndc (tag : Byte) (body : List Byte) (s : State) : Outcome := s.request .indc handleIndc tag body

/-! ### INDR (R169) -/

/-- What an INDR lists, R169. -/
inductive IndicationSelector where
  | all | line (l : Line)
  deriving DecidableEq, Repr

def IndicationSelector.ofCode : Nat → Option IndicationSelector
  | 0 => some .all
  | 1 => some (.line .line0)
  | 2 => some (.line .line1)
  | _ => none

/-- The pending pairs that the selector lists, in report order (R169). -/
def IndicationUnit.listed (u : IndicationUnit) : IndicationSelector → List PendingPair
  | .all => u.pending
  | .line l => u.pending.filter (u.pulls l)

/-- The cause set as three flags: CRC, FRAMING, OVERRUN (log 14). -/
def CauseSet.bytes (c : CauseSet) : List Byte := flagBytes c.crc ++ flagBytes c.framing ++ flagBytes c.overrun

/-- The attachment of a pair, read from the block that owns it (R169). -/
def Part.attachment (p : Part) (q : Pair) : List Byte :=
  match q.kind, q.object with
  | .link, _ => p.indications.causes.bytes
  | .domainStep, .domain d => optBytes 8 signedBytes (p.domain d).lastStepError
  | .marker, .zone z => (p.zone z).markerBytes
  | .actionDone, _ => leBytes 1 p.schedule.done.length
  | _, _ => []

/-- A listed pair: kind, object, raise count, first and latest raise times, and its attachment (R169). -/
def Part.pairBytes (p : Part) (q : PendingPair) : List Byte :=
  [q.pair.kind.code, q.pair.object.code] ++ leBytes 1 q.raises ++ timeBytes q.first ++ timeBytes q.latest ++
  p.attachment q.pair

/-- The report of R169. -/
def Part.indicationReport (p : Part) (sel : IndicationSelector) : List Byte :=
  let u := p.indications
  leBytes 1 u.pending.length ++ leBytes 1 (u.listed sel).length ++ attentionBytes u ++
  allKinds.flatMap (fun k => (u.setting k).bytes) ++ (u.listed sel).flatMap p.pairBytes

def handleIndr (body : List Byte) (p : Part) : Handling :=
  match IndicationSelector.ofCode (field body 0 1) with
  | none => p.refuse .badField
  | some sel => p.accept (p.indicationReport sel)

/-- INDR, R169. -/
def execIndr (tag : Byte) (body : List Byte) (s : State) : Outcome := s.request .indr handleIndr tag body

/-! ### INDA (R170) -/

/-- `n` pairs of an INDA body from offset `off` on, or nothing if one breaks its encoding (R192). -/
def pairsAt (body : List Byte) (off : Nat) : Nat → Option (List Pair)
  | 0 => some []
  | n + 1 => do
    let p ← Pair.ofCodes (field body off 1) (field body (off + 1) 1)
    let ps ← pairsAt body (off + 2) n
    some (p :: ps)

/-- The pairs of an INDA body, 1 to 39 of them (R170), or nothing. -/
def acknowledgedPairs (body : List Byte) : Option (List Pair) :=
  let n := field body 0 1
  if 1 ≤ n ∧ n ≤ 39 then pairsAt body 1 n else none

/-- One pair leaves the pending set, LINK with its causes (R165, R166, R170). -/
def IndicationUnit.acknowledge (u : IndicationUnit) (q : Pair) : IndicationUnit :=
  { u with pending := u.pending.filter (fun x => x.pair != q)
           causes := if q.kind = .link then .empty else u.causes }

/-- The listed pairs leave one after another (log 15). -/
def IndicationUnit.acknowledgeAll (u : IndicationUnit) (qs : List Pair) : IndicationUnit :=
  qs.foldl IndicationUnit.acknowledge u

def handleInda (body : List Byte) (p : Part) : Handling :=
  match acknowledgedPairs body with
  | none => p.refuse .badField
  | some qs =>
    let u := p.indications.acknowledgeAll qs
    let removed := p.indications.pending.length - u.pending.length
    ({ p with indications := u } : Part).accept
      (leBytes 1 removed ++ leBytes 1 (qs.length - removed) ++ leBytes 1 u.pending.length ++ attentionBytes u)

/-- INDA, R170. -/
def execInda (tag : Byte) (body : List Byte) (s : State) : Outcome := s.request .inda handleInda tag body

/-! ### Snapshots (R173 to R175) -/

/-- A snapshot: the live counters are copied with number, time and cause, and start again from zero (R173). -/
def Part.snapshot (p : Part) (cause : SnapshotCause) : Part :=
  { p with tallies := { p.tallies with
      live := .zero
      snapshot := ⟨p.tallies.live, p.tallies.snapshot.number + 1, some p.localTime, some cause⟩ } }

def handleTsnp (_body : List Byte) (p : Part) : Handling :=
  let r := p.snapshot .request
  r.accept (leBytes 4 r.tallies.snapshot.number.toNat ++ timeBytes p.localTime)

/-- TSNP, R174. -/
def execTsnp (tag : Byte) (body : List Byte) (s : State) : Outcome := s.request .tsnp handleTsnp tag body

/-- The tally unit after a TAUT (R175): a setting that is already in force changes nothing. -/
def TallyUnit.setAutomatic (u : TallyUnit) (now : LocalTime) (on : Bool) : TallyUnit :=
  if on = u.automatic then u
  else { u with automatic := on, deadline := if on then some (now + Config.ticksPerSecond) else none }

def handleTaut (body : List Byte) (p : Part) : Handling :=
  match flagOf (field body 0 1) with
  | none => p.refuse .badField
  | some on =>
    let u := p.tallies.setAutomatic p.localTime on
    ({ p with tallies := u } : Part).accept (flagBytes u.automatic ++ deadlineBytes u.deadline)

/-- TAUT, R175. -/
def execTaut (tag : Byte) (body : List Byte) (s : State) : Outcome := s.request .taut handleTaut tag body

/-- The automatic snapshot at the deadline `t`: cause AUTO, TALLY, the next deadline (R175). -/
def Part.automaticSnapshot (p : Part) (t : LocalTime) : Part :=
  let p := (p.snapshot .auto).raise .tally .part
  { p with tallies := { p.tallies with deadline := some (t + Config.ticksPerSecond) } }

/-- AUTOMATIC_SNAPSHOT, R175: at its deadline and not before (log 4). -/
def execAutomaticSnapshot (s : State) : Outcome :=
  s.complete (fun p =>
    match p.tallies.deadline with
    | some t => if t ≤ p.localTime then p.automaticSnapshot t else p
    | none => p)

/-! ### TRED (R176) -/

/-- The objects that a TRED names, in report order (R176). -/
def objectsNamed : Nat → Option (List IndicationObject)
  | 0 => some [.part, .domain .d0, .domain .d1, .zone .z0, .zone .z1, .zone .z2, .zone .z3]
  | 1 => some [.part]
  | 2 => some [.domain .d0]
  | 3 => some [.domain .d1]
  | 4 => some [.zone .z0]
  | 5 => some [.zone .z1]
  | 6 => some [.zone .z2]
  | 7 => some [.zone .z3]
  | _ => none

/-- A copied value with its overflow flag. -/
def Counter.bytes (c : Counter) : List Byte := leBytes 4 c.value ++ flagBytes c.overflow

/-- The counters of an object, in the order of the table of section 10.6. -/
def TallySet.ofObject (t : TallySet) : IndicationObject → List Counter
  | .part => [t.part.filterRejects, t.part.poolExhausted, t.part.captureOverwrites, t.part.linkErrors]
  | .domain d =>
    let x := t.domains.get d
    [x.samplesHeard, x.outliers, x.beaconsMissed, x.steps, x.echoAnswers, x.echoTimeouts]
  | .zone z =>
    let x := t.zones.get z
    [x.blocksPlayed, x.droppedLate, x.framesConcealed, x.underruns, x.reseeks, x.blocksRefused]

/-- A snapshot cause, NONE before the first snapshot (R176). -/
def causeCode : Option SnapshotCause → Byte
  | some .request => 0#8
  | some .auto => 1#8
  | none => 0xFF#8

/-- The report of R176 for a list of objects, their count before them (section 12.3, log 14). -/
def Snapshot.report (s : Snapshot) (objects : List IndicationObject) : List Byte :=
  leBytes 4 s.number.toNat ++ optBytes 8 timeBytes s.time ++ [causeCode s.cause] ++
  leBytes 1 objects.length ++ objects.flatMap (fun o => (s.tallies.ofObject o).flatMap Counter.bytes)

def handleTred (body : List Byte) (p : Part) : Handling :=
  match objectsNamed (field body 0 1) with
  | none => p.refuse .badField
  | some objects => p.accept (p.tallies.snapshot.report objects)

/-- TRED, R176. -/
def execTred (tag : Byte) (body : List Byte) (s : State) : Outcome := s.request .tred handleTred tag body

end Sys2Proof.Machine
end

