-- ==== Sys2Proof/Machine/Pool.lean ====
section
/-! DEFINITION. Chapters 5 and 6, the requests: PWMK, POOL, FSET, FDEF, PBLK, ZFLU. -/

namespace Sys2Proof.Machine

/-! ### PWMK (R72) -/

def handlePwmk (body : List Byte) (p : Part) : Handling :=
  match inRange 0 512 (field body 0 2) with
  | some w =>
    ({ p with pool := { p.pool with watermark := w } } : Part).accept (leBytes 2 w ++ leBytes 2 p.pool.freeCount)
  | none => p.refuse .badField

/-- PWMK, R72. -/
def execPwmk (tag : Byte) (body : List Byte) (s : State) : Outcome := s.request .pwmk handlePwmk tag body

/-! ### POOL (R73) -/

/-- A held slot in a reply: holder count, the block's header fields, FINAL and MARK; not the payload (R73). -/
def HeldSlot.bytes (h : HeldSlot) : List Byte :=
  leBytes 1 h.holders ++ leBytes 4 h.block.stream.toNat ++ leBytes 4 h.block.sequence.toNat ++ timeBytes h.block.time ++
  [h.block.rate.code, h.block.format.code] ++ leBytes 1 h.block.channels ++ leBytes 2 h.block.frames ++
  flagBytes h.block.final ++ flagBytes h.block.mark

/-- Held slots with a holder count. -/
def BlockPool.countHolders (pool : BlockPool) (n : Nat) : Nat := (pool.held.filter (fun h => h.holders == n)).length

/-- The counts of R73. -/
def BlockPool.bytes (pool : BlockPool) : List Byte :=
  leBytes 2 pool.freeCount ++ leBytes 2 pool.held.length ++ leBytes 2 pool.watermark ++
  optBytes 2 (leBytes 2) pool.lowestFree ++
  leBytes 2 (pool.countHolders 1) ++ leBytes 2 (pool.countHolders 2) ++ leBytes 2 (pool.countHolders 3) ++
  leBytes 2 (pool.countHolders 4)

/-- A slot's report: FREE, or held with its fields (R73). -/
def BlockPool.slotBytes (pool : BlockPool) (n : Nat) : List Byte :=
  match pool.find n with
  | none => [0#8]
  | some h => 1#8 :: h.bytes

def handlePool (body : List Byte) (p : Part) : Handling :=
  let n := field body 0 2
  if n = 0xFFFF then p.accept p.pool.bytes
  else if n < Config.poolSlots then p.accept (p.pool.bytes ++ p.pool.slotBytes n)
  else p.refuse .badField

/-- POOL, R73. -/
def execPool (tag : Byte) (body : List Byte) (s : State) : Outcome := s.request .pool handlePool tag body

/-! ### FSET and FDEF (R76, R77) -/

/-- A filter entry of an FSET body (offsets 1..11), or nothing. -/
def FilterEntry.ofBody (body : List Byte) : Option FilterEntry := do
  let enabled ← flagOf (field body 1 1)
  let action ← FilterAction.ofCode (field body 10 1)
  let zones ← ZoneSet.ofCode (field body 11 1)
  some ⟨enabled, BitVec.ofNat 32 (field body 2 4), BitVec.ofNat 32 (field body 6 4), action, zones⟩

def FilterEntry.bytes (e : FilterEntry) : List Byte :=
  flagBytes e.enabled ++ leBytes 4 e.matchValue.toNat ++ leBytes 4 e.mask.toNat ++ [e.action.code, ZoneSet.code e.zones]

def handleFset (body : List Byte) (p : Part) : Handling :=
  if h : field body 0 1 < 16 then
    match FilterEntry.ofBody body with
    | some e =>
      ({ p with filter := { p.filter with entries := p.filter.entries.set (field body 0 1) e } } : Part).accept
        (e.bytes ++ p.filter.entries[field body 0 1].bytes)
    | none => p.refuse .badField
  else p.refuse .badField

/-- FSET, R76. -/
def execFset (tag : Byte) (body : List Byte) (s : State) : Outcome := s.request .fset handleFset tag body

/-- The default route in a reply. -/
def StreamFilter.defaultBytes (f : StreamFilter) : List Byte := [f.defaultAction.code, ZoneSet.code f.defaultZones]

def handleFdef (body : List Byte) (p : Part) : Handling :=
  match FilterAction.ofCode (field body 0 1), ZoneSet.ofCode (field body 1 1) with
  | some .overlay, _ => p.refuse .badField
  | some action, some zones =>
    let f := { p.filter with defaultAction := action, defaultZones := zones }
    ({ p with filter := f } : Part).accept (f.defaultBytes ++ p.filter.defaultBytes)
  | _, _ => p.refuse .badField

/-- FDEF, R77. -/
def execFdef (tag : Byte) (body : List Byte) (s : State) : Outcome := s.request .fdef handleFdef tag body

/-! ### PBLK: routing (R74, R75, R79) -/

/-- Does the entry match the stream id (R74)? -/
def FilterEntry.matchesStream (e : FilterEntry) (stream : Word32) : Bool :=
  e.enabled && (stream &&& e.mask) == (e.matchValue &&& e.mask)

/-- A block's route: the deciding entry (none for DEFAULT), the action, the zone set (R75). -/
structure Route where
  entry : Option Nat
  action : FilterAction
  zones : ZoneSet
  deriving DecidableEq, Repr

/-- The first of the entries, numbered from `n` on, that matches the stream. -/
def firstMatch (stream : Word32) (n : Nat) : List FilterEntry → Option Route
  | [] => none
  | e :: es => if e.matchesStream stream then some ⟨some n, e.action, e.zones⟩ else firstMatch stream (n + 1) es

/-- The route of a stream, R75. -/
def StreamFilter.route (f : StreamFilter) (stream : Word32) : Route :=
  (firstMatch stream 0 f.entries.toList).getD ⟨none, f.defaultAction, f.defaultZones⟩

/-! ### PBLK: the zones' checks (R80, R90, R91) -/

/-- The queue a block is meant for. -/
inductive Target where
  | main | overlay
  deriving DecidableEq, Repr

def Zone.queue (x : Zone) : Target → List Nat
  | .main => x.mainQueue
  | .overlay => x.overlayQueue

def Zone.setQueue (x : Zone) (t : Target) (q : List Nat) : Zone :=
  match t with
  | .main => { x with mainQueue := q }
  | .overlay => { x with overlayQueue := q }

def ZoneSetup.quota (s : ZoneSetup) : Target → Nat
  | .main => s.mainQuota
  | .overlay => s.overlayQuota

/-- The horizon in ticks (R90). -/
def ZoneSetup.horizonTicks (s : ZoneSetup) : Nat := s.horizon * Config.ticksPerMs

/-- Does a zone in this state take blocks (R80 check 1)? -/
def ZoneState.takesBlocks : ZoneState → Bool
  | .armed | .playing | .starved | .drained | .held _ => true
  | .disabled | .idle | .stopping _ => false

/-- The seven checks of a zone on a block, R80; the first that fails gives the result. -/
def BlockPool.judge (pool : BlockPool) (x : Zone) (t : Target) (b : Block) : ZoneResult :=
  let tpf := x.setup.rate.tpf
  let stop := b.time + b.frames * tpf
  let pos := x.position.getD 0
  if !x.state.takesBlocks then .zoneOff
  else if b.rate ≠ x.setup.rate then .rate
  else if (x.queue t).any (fun n => match pool.find n with
      | some h => h.block.stream == b.stream && h.block.sequence == b.sequence
      | none => false) then .duplicate
  else if positionAt stop ≤ pos then .late
  else if pos + positionAt x.setup.horizonTicks < positionAt b.time then .early
  else if (x.queue t).any (fun n => b.time < pool.entryEnd tpf n && pool.entryStart n < stop) then .overlap
  else if x.setup.quota t ≤ (x.queue t).length then .quota
  else .accepted

/-! ### PBLK: storing and answering (R81 to R85) -/

/-- The block joins the target queue of a passing zone (R82, R88). -/
def Part.insertBlock (p : Part) (t : Target) (n : Nat) (time : DomainTime) (z : ZoneId) : Part :=
  p.setZone z ((p.zone z).setQueue t (p.pool.insertEntry n time ((p.zone z).queue t)))

/-- The block is stored in a slot and queued in each passing zone (R68, R82), and the fall of the free count is tested
against the watermark (R71). -/
def Part.storeBlock (p : Part) (b : Block) (t : Target) (slot : Nat) (passing : List ZoneId) : Part :=
  let free := p.pool.freeCount
  let stored : Part := { p with pool := { p.pool with held := insertSlot ⟨slot, passing.length, b⟩ p.pool.held } }
  let p := passing.foldl (fun p z => p.insertBlock t slot b.time z) stored
  if p.pool.watermark ≤ free ∧ p.pool.freeCount < p.pool.watermark then p.raise .poolLow .part else p

/-- Each zone whose result is not ACCEPTED counts a refused block (R83). -/
def Part.countRefused (p : Part) (results : List (ZoneId × ZoneResult)) : Part :=
  results.foldl (fun p r => if r.2 = .accepted then p else p.tally (.zone r.1 .blocksRefused)) p

/-- The zone results of a reply (R194). -/
def resultBytes (results : List (ZoneId × ZoneResult)) : List Byte :=
  leBytes 1 results.length ++ results.flatMap (fun r => [r.1.code, r.2.code])

/-- The contents of a PBLK reply after its status (R84, R194). -/
def deliveryBytes (b : Block) (r : Route) (target : Option Target) (slot : Option Nat) (free : Nat)
    (results : List (ZoneId × ZoneResult)) : List Byte :=
  leBytes 4 b.stream.toNat ++ leBytes 4 b.sequence.toNat ++
  (match r.entry with | some n => leBytes 1 n | none => [0xFF#8]) ++
  optBytes 1 (fun t : Target => match t with | .main => [0#8] | .overlay => [1#8]) target ++
  (match slot with | some n => leBytes 2 n | none => leBytes 2 0xFFFF) ++ leBytes 2 free ++ resultBytes results

/-- A shortage turns every passing zone's result to NO_SLOT (R81). -/
def shortage (results : List (ZoneId × ZoneResult)) : List (ZoneId × ZoneResult) :=
  results.map (fun r => if r.2 = .accepted then (r.1, .noSlot) else r)

/-- A block that its route sends to a queue: judged in each zone, stored or refused, answered (R80 to R85). -/
def Part.deliver (p : Part) (dl : Delivery) (r : Route) (t : Target) : Handling :=
  let b := dl.block
  let results := (ZoneSet.members r.zones).map (fun z => (z, p.pool.judge (p.zone z) t b))
  let passing := (results.filter (fun x => x.2 == .accepted)).map Prod.fst
  if passing.isEmpty then
    let p := p.countRefused results
    (p, some (.refusalWith .refused (deliveryBytes b r (some t) none p.pool.freeCount results)))
  else
    match p.pool.lowestFree with
    | none =>
      let p := (p.tally (.part .poolExhausted)).countRefused (shortage results)
      (p, some (.refusalWith .refused (deliveryBytes b r (some t) none p.pool.freeCount (shortage results))))
    | some slot =>
      let p := (p.storeBlock b t slot passing).countRefused results
      if dl.quiet ∧ passing.length = results.length then (p, none)
      else p.accept (deliveryBytes b r (some t) (some slot) p.pool.freeCount results)

def handlePblk (body : List Byte) (p : Part) : Handling :=
  match Delivery.ofBody body with
  | none => p.refuse .badField
  | some dl =>
    let r := p.filter.route dl.block.stream
    match r.action with
    | .reject =>
      let p := p.tally (.part .filterRejects)
      (p, some (.refusalWith .rejected (deliveryBytes dl.block r none none p.pool.freeCount [])))
    | .main => p.deliver dl r .main
    | .overlay => p.deliver dl r .overlay

/-- PBLK, R78 to R85. -/
def execPblk (tag : Byte) (body : List Byte) (s : State) : Outcome := s.request .pblk handlePblk tag body

/-! ### ZFLU (R99) -/

def QueueSelector.selects : QueueSelector → Target → Bool
  | .main, .main => true
  | .main, .overlay => false
  | .overlay, .main => false
  | .overlay, .overlay => true
  | .both, _ => true

/-- The entries of a queue that a flush from F removes: those that start at F or later (R99). -/
def BlockPool.flushed (pool : BlockPool) (f : DomainTime) (queue : List Nat) : List Nat :=
  queue.filter (fun n => f ≤ pool.entryStart n)

/-- The entries that a flush from F keeps. -/
def BlockPool.kept (pool : BlockPool) (f : DomainTime) (queue : List Nat) : List Nat :=
  queue.filter (fun n => pool.entryStart n < f)

/-- A taken ZFLU (R99): the part it leaves, and the entries removed from the main and from the overlay queue. -/
def Part.flush (p : Part) (z : ZoneId) (sel : QueueSelector) (f : DomainTime) : Part × List Nat × List Nat :=
  let x := p.zone z
  let main := if sel.selects .main then p.pool.flushed f x.mainQueue else []
  let overlay := if sel.selects .overlay then p.pool.flushed f x.overlayQueue else []
  let x' := { x with
    mainQueue := if sel.selects .main then p.pool.kept f x.mainQueue else x.mainQueue
    overlayQueue := if sel.selects .overlay then p.pool.kept f x.overlayQueue else x.overlayQueue }
  let p := (p.setZone z x').releaseAll (main ++ overlay)
  (if sel.selects .main then p.testLowWatermark z x.mainQueue.length else p, main, overlay)

def handleZflu (body : List Byte) (p : Part) : Handling :=
  match ZoneId.ofCode (field body 0 1), QueueSelector.ofCode (field body 1 1) with
  | some z, some sel =>
    let free := p.pool.freeCount
    let r := p.flush z sel (field body 2 8)
    let x := r.1.zone z
    r.1.accept (leBytes 2 r.2.1.length ++ leBytes 2 r.2.2.length ++ leBytes 2 x.mainQueue.length ++
      leBytes 2 x.overlayQueue.length ++ leBytes 2 (r.1.pool.freeCount - free) ++ leBytes 2 r.1.pool.freeCount)
  | _, _ => p.refuse .badField

/-- ZFLU, R99. -/
def execZflu (tag : Byte) (body : List Byte) (s : State) : Outcome := s.request .zflu handleZflu tag body

end Sys2Proof.Machine
end

