-- ==== Sys2Proof/Machine/Schedule.lean ====
section
/-! DEFINITION. Chapter 9, the requests: SADD, SCAN, SLST. -/

namespace Sys2Proof.Machine

/-! ### SADD (R150 to R152) -/

/-- The fields of a SADD body. -/
structure NewEntry where
  time : DomainTime
  domain : DomainId
  zones : ZoneSet
  action : Action
  notify : Bool
  deriving DecidableEq, Repr

/-- A SADD body with every field in its range (R151 check 1), or nothing. -/
def NewEntry.ofBody (body : List Byte) : Option NewEntry := do
  let domain ← DomainId.ofCode (field body 8 1)
  let zones ← ZoneSet.ofCode (field body 9 1)
  let action ← Action.ofBody (field body 10 1) body 11
  let notify ← flagOf (field body 15 1)
  if ZoneSet.isEmpty zones then none else some ⟨field body 0 8, domain, zones, action, notify⟩

/-- Does a zone in this state take schedule entries (R151 check 3)? -/
def ZoneState.takesEntries : ZoneState → Bool
  | .armed | .playing | .starved | .drained | .held _ => true
  | .disabled | .idle | .stopping _ => false

/-- Checks 3 and 4 of R151 for one zone: the status of its failure, or none. -/
def Part.zoneFailure (p : Part) (d : DomainId) (z : ZoneId) : Option Status :=
  if !(p.zone z).state.takesEntries then some .zoneOff
  else if (p.zone z).setup.domain ≠ d then some .zoneMismatch
  else none

/-- The first zone of a list, in its order, that fails check 3 or 4, with the status. -/
def Part.firstFailure (p : Part) (d : DomainId) : List ZoneId → Option (ZoneId × Status)
  | [] => none
  | z :: zs =>
    match p.zoneFailure d z with
    | some s => some (z, s)
    | none => p.firstFailure d zs

/-- The first handle from `h` on, going round, that no live entry holds; at most `fuel` steps (R150). -/
def Schedule.freeHandle (s : Schedule) (h : Word16) : Nat → Word16
  | 0 => h
  | fuel + 1 => if (s.find h).isSome then s.freeHandle (h + 1) fuel else h

/-- The handle the next successful SADD gives (R150). -/
def Schedule.nextHandle (s : Schedule) : Word16 := s.freeHandle s.counter Config.scheduleCapacity

/-- An entry joins the list after every entry of its time or earlier (R149, R152). -/
def insertByTime (e : ScheduleEntry) : List ScheduleEntry → List ScheduleEntry
  | [] => [e]
  | x :: xs => if x.time ≤ e.time then x :: insertByTime e xs else e :: x :: xs

/-- The entry that a passing SADD creates (R152). -/
def Schedule.newEntry (s : Schedule) (n : NewEntry) : ScheduleEntry :=
  ⟨s.nextHandle, n.time, n.domain, n.zones, n.zones, n.action, n.notify, 0⟩

/-- The schedule with the entry added, and the counter one past its handle (R150, R152). -/
def Schedule.add (s : Schedule) (n : NewEntry) : Schedule :=
  { s with entries := insertByTime (s.newEntry n) s.entries, counter := s.nextHandle + 1 }

/-- Is the zone's position at or after the time (R152)? -/
def Zone.pastDue (x : Zone) (time : DomainTime) : Bool := x.position.any (fun pos => positionAt time ≤ pos)

/-- The zones of the set whose P is at or after the time (R152). -/
def Part.pastDueSet (p : Part) (n : NewEntry) : ZoneSet :=
  ⟨n.zones.z0 && (p.zone .z0).pastDue n.time, n.zones.z1 && (p.zone .z1).pastDue n.time,
   n.zones.z2 && (p.zone .z2).pastDue n.time, n.zones.z3 && (p.zone .z3).pastDue n.time⟩

/-- The place of a handle in the list order, from 1 (R152). -/
def Schedule.place (s : Schedule) (h : Word16) : Nat := s.entries.findIdx (fun e => e.handle == h) + 1

def handleSadd (body : List Byte) (p : Part) : Handling :=
  match NewEntry.ofBody body with
  | none => p.refuse .badField
  | some n =>
    if (p.domain n.domain).state = .unbound then p.refuse .wrongState
    else
      match p.firstFailure n.domain (ZoneSet.members n.zones) with
      | some (z, s) => (p, some (.refusalWith s [z.code]))
      | none =>
        if Config.scheduleCapacity ≤ p.schedule.entries.length then p.refuse .tableFull
        else
          let h := p.schedule.nextHandle
          let sch := p.schedule.add n
          ({ p with schedule := sch } : Part).accept
            (leBytes 2 h.toNat ++ leBytes 1 (sch.place h) ++ leBytes 1 sch.entries.length ++
              [ZoneSet.code (p.pastDueSet n)])

/-- SADD, R151 and R152. -/
def execSadd (tag : Byte) (body : List Byte) (s : State) : Outcome := s.request .sadd handleSadd tag body

/-! ### SCAN (R161) -/

/-- An entry without its handle: time, domain, zone set, pending set, action, parameters, notify, applied count (R161). -/
def ScheduleEntry.bytes (e : ScheduleEntry) : List Byte :=
  timeBytes e.time ++ [e.domain.code, ZoneSet.code e.zones, ZoneSet.code e.pending, e.action.code] ++
  e.action.parameterBytes ++ flagBytes e.notify ++ leBytes 1 e.applied

def handleScan (body : List Byte) (p : Part) : Handling :=
  let h : Word16 := BitVec.ofNat 16 (field body 0 2)
  match p.schedule.find h with
  | none => p.refuse .noEntry
  | some e => ({ p with schedule := p.schedule.remove h } : Part).accept e.bytes

/-- SCAN, R161. -/
def execScan (tag : Byte) (body : List Byte) (s : State) : Outcome := s.request .scan handleScan tag body

/-! ### SLST (R162) -/

/-- A live entry in a listing, its handle first. -/
def ScheduleEntry.listBytes (e : ScheduleEntry) : List Byte := leBytes 2 e.handle.toNat ++ e.bytes

/-- A done record in a listing: handle, action, zone set, applied count, local time (R159, R162). -/
def DoneRecord.bytes (r : DoneRecord) : List Byte :=
  leBytes 2 r.handle.toNat ++ [r.action.code, ZoneSet.code r.zones] ++ leBytes 1 r.applied ++ timeBytes r.time

/-- The report of R162; the live entries follow their count and the counts of free places and the counter. -/
def Schedule.report (s : Schedule) : List Byte :=
  leBytes 1 s.entries.length ++ leBytes 1 (Config.scheduleCapacity - s.entries.length) ++ leBytes 2 s.counter.toNat ++
  s.entries.flatMap ScheduleEntry.listBytes ++ leBytes 1 s.done.length ++ s.done.flatMap DoneRecord.bytes

def handleSlst (body : List Byte) (p : Part) : Handling :=
  match flagOf (field body 0 1) with
  | none => p.refuse .badField
  | some clear =>
    ({ p with schedule := { p.schedule with done := if clear then [] else p.schedule.done } } : Part).accept
      p.schedule.report

/-- SLST, R162. -/
def execSlst (tag : Byte) (body : List Byte) (s : State) : Outcome := s.request .slst handleSlst tag body

end Sys2Proof.Machine
end

