-- ==== Sys2Proof/Machine/Zones.lean ====
section
/-! DEFINITION. Chapters 7 and 8, the commands: ZSET, ZENA, ZDIS, ZRUN, ZSTP, ZSTA, ZGAN, ZSUB, GSUB and OUTPUT_FRAME. -/

namespace Sys2Proof.Machine

/-! ### ZSET (R106, R135) -/

/-- Is the zone unstarted: DISABLED or IDLE (section 7.2)? -/
def ZoneState.unstarted : ZoneState → Bool
  | .disabled | .idle => true
  | .armed | .playing | .starved | .drained | .stopping _ | .held _ => false

/-- The port of a zone whose setup is written: a change of rate moves a running port to the new grid (R106). -/
def Zone.portUnder (x : Zone) (now : LocalTime) (rate : Rate) : Option LocalTime :=
  if rate = x.setup.rate then x.port else x.port.map (fun _ => nextMultiple now rate.tpf)

/-- A taken ZSET: every setup field at once, the port's new grid, and a lowered ceiling lowers the zone gain (R106, R135). -/
def Zone.withSetup (x : Zone) (now : LocalTime) (setup : ZoneSetup) : Zone :=
  ({ x with setup := setup, port := x.portUnder now setup.rate } : Zone).withGain x.mixer.zoneGain

def handleZset (body : List Byte) (p : Part) : Handling :=
  match ZoneId.ofCode (field body 0 1), ZoneSetup.ofBody body with
  | some z, some setup =>
    if (p.zone z).state.unstarted then
      (p.setZone z ((p.zone z).withSetup p.localTime setup)).accept setup.bytes
    else p.refuse .wrongState
  | _, _ => p.refuse .badField

/-- ZSET, R106. -/
def execZset (tag : Byte) (body : List Byte) (s : State) : Outcome := s.request .zset handleZset tag body

/-! ### ZENA (R107) and ZDIS (R108) -/

def handleZena (body : List Byte) (p : Part) : Handling :=
  match ZoneId.ofCode (field body 0 1) with
  | none => p.refuse .badField
  | some z =>
    let x := p.zone z
    if x.state = .disabled then
      let first := nextMultiple p.localTime x.tpf
      ((p.setZone z { x with state := .idle, port := some first }).raiseZoneState z).accept
        ([ZoneState.idle.code] ++ timeBytes first)
    else p.refuse .wrongState

/-- ZENA, R107. -/
def execZena (tag : Byte) (body : List Byte) (s : State) : Outcome := s.request .zena handleZena tag body

/-- The entries removed from each queue of a zone, from the zone before and the zone after: 2 bytes each. Section 12.3 gives that
width for ZDIS; for the overlay entries of a ZSTP, at most 128, it leaves 1 byte or 2 open, and 2 is the model's choice (log 14). -/
def removedBytes (before after : Zone) : List Byte :=
  leBytes 2 (before.mainQueue.length - after.mainQueue.length) ++
  leBytes 2 (before.overlayQueue.length - after.overlayQueue.length)

def handleZdis (body : List Byte) (p : Part) : Handling :=
  match ZoneId.ofCode (field body 0 1) with
  | none => p.refuse .badField
  | some z =>
    let r := if (p.zone z).state = .disabled then p else p.toDisabled z
    r.accept (removedBytes (p.zone z) (r.zone z) ++ leBytes 2 r.pool.freeCount)

/-- ZDIS, R108. -/
def execZdis (tag : Byte) (body : List Byte) (s : State) : Outcome := s.request .zdis handleZdis tag body

/-! ### ZRUN (R109) -/

/-- The state a taken ZRUN brings an IDLE zone to: ARMED on a timed domain, else HELD with resume state ARMED. -/
def ZoneState.afterRun (timed : Bool) : ZoneState := if timed then .armed else .held .armed

/-- The position a taken ZRUN gives: the target of the port's next frame, or, untimed, the start time or 0 under AUTO. -/
def Part.runPosition (p : Part) (z : ZoneId) (start : ZoneStart) (timed : Bool) : Position :=
  if timed then positionAt (p.target z (p.nextFrameTime z))
  else match start with
    | .at t => positionAt t
    | .auto => 0

/-- A taken ZRUN (R109). -/
def Part.runZone (p : Part) (z : ZoneId) (start : ZoneStart) : Part :=
  let timed := (p.zoneDomain z).state.timed
  (p.setZone z { p.zone z with
    state := .afterRun timed
    start := some start
    position := some (p.runPosition z start timed)
    lastFinal := false
    aligned := false }).raiseZoneState z

def handleZrun (body : List Byte) (p : Part) : Handling :=
  match ZoneId.ofCode (field body 0 1), ZoneStart.ofCodes (field body 1 1) (field body 2 8) with
  | some z, some start =>
    if (p.zone z).state = .idle ∧ (p.zoneDomain z).state ≠ .unbound then
      let r := p.runZone z start
      r.accept ([(r.zone z).state.code] ++ startBytes (some start) ++ positionBytes (r.zone z).pos)
    else p.refuse .wrongState
  | _, _ => p.refuse .badField

/-- ZRUN, R109. -/
def execZrun (tag : Byte) (body : List Byte) (s : State) : Outcome := s.request .zrun handleZrun tag body

/-! ### ZSTP (R121 to R124) -/

/-- The end point, in STOPPING only. -/
def ZoneState.endPoint : ZoneState → Option DomainTime
  | .stopping t => some t
  | .disabled | .idle | .armed | .playing | .starved | .drained | .held _ => none

def handleZstp (body : List Byte) (p : Part) : Handling :=
  match ZoneId.ofCode (field body 0 1), StopMode.ofCode (field body 1 1) with
  | some z, some mode =>
    if (p.zone z).state.unstarted then p.refuse .wrongState
    else
      let r := p.stopZone z mode
      r.accept ([(r.zone z).state.code] ++ optBytes 8 timeBytes (r.zone z).state.endPoint ++
        removedBytes (p.zone z) (r.zone z))
  | _, _ => p.refuse .badField

/-- ZSTP, R121. -/
def execZstp (tag : Byte) (body : List Byte) (s : State) : Outcome := s.request .zstp handleZstp tag body

/-! ### ZSTA (R129, R104, R146) -/

/-- E as a reply gives it, in ticks: an E with a fraction is sent as one of its two neighbours, a free choice (log 12). -/
def errorTicks (e : Int) : Int :=
  e / 65536 + (if e % 65536 ≠ 0 ∧ Config.errorRoundsUp e = true then 1 else 0)

/-- The zone's last frame: its local time, T and E. -/
def LastFrame.bytes (f : LastFrame) : List Byte :=
  timeBytes f.time ++ timeBytes f.target ++ signedBytes (errorTicks f.error)

/-- The head entry of a queue: slot, stream id, sequence, start and end (R104). -/
def BlockPool.headBytes (pool : BlockPool) (tpf n : Nat) : List Byte :=
  leBytes 2 n ++
  (match pool.find n with
   | some h => leBytes 4 h.block.stream.toNat ++ leBytes 4 h.block.sequence.toNat
   | none => leBytes 8 0) ++
  timeBytes (pool.entryStart n) ++ timeBytes (pool.entryEnd tpf n)

/-- The frames of an entry. -/
def BlockPool.entryFrames (pool : BlockPool) (n : Nat) : Nat :=
  match pool.find n with
  | some h => h.block.frames
  | none => 0

/-- The frames of all entries of a queue. -/
def BlockPool.covered (pool : BlockPool) (queue : List Nat) : Nat := (queue.map pool.entryFrames).foldl (· + ·) 0

/-- The summary of one queue (R104). -/
def BlockPool.queueBytes (pool : BlockPool) (tpf quota : Nat) (queue : List Nat) (pos : Option Position) : List Byte :=
  leBytes 2 queue.length ++ leBytes 2 quota ++ optBytes 26 (pool.headBytes tpf) queue.head? ++
  optBytes 8 timeBytes (queue.getLast?.map (pool.entryEnd tpf)) ++ leBytes 4 (pool.covered queue) ++
  flagBytes (pos.any (fun q => queue.any (pool.contains tpf q)))

/-- The present value of a ramp: whole part, then 16 fraction bits (section 12.3). -/
def rampValueBytes (v : Rat) : List Byte :=
  let n := (roundRat (v * 65536)).toNat
  leBytes 2 (n / 65536) ++ leBytes 2 (n % 65536)

/-- A ramp in a reply: value at the last frame, target, frames left (R146). -/
def Ramp.bytes (r : Ramp) : List Byte := rampValueBytes r.value ++ leBytes 2 r.target ++ leBytes 2 r.framesLeft

/-- Two lane values in a reply. -/
def Lanes.bytes (l : Lanes) : List Byte := laneBytes l.left ++ laneBytes l.right

/-- The present mixer values, R146. -/
def Mixer.bytes (m : Mixer) (globalSub : Substitution) : List Byte :=
  leBytes 2 m.zoneGain ++ m.mainGain.bytes ++ flagBytes m.overlayActive ++
  [m.substitution.code, globalSub.code, (effective globalSub m.substitution).code] ++
  m.programme.bytes ++ m.tone.bytes ++ optBytes 8 Lanes.bytes m.lastLanes

/-- The queue summaries with what R104 adds for the main queue and the zone. R104 and R129 leave open where the additions stand:
the low watermark and the last-block-was-final mark between the main and the overlay summary, and the last marker and the horizon
after both, is the model's choice (log 14). -/
def Part.summaryBytes (p : Part) (z : ZoneId) : List Byte :=
  let x := p.zone z
  p.pool.queueBytes x.tpf x.setup.mainQuota x.mainQueue x.position ++ leBytes 2 x.setup.lowWatermark ++
  flagBytes x.lastFinal ++
  p.pool.queueBytes x.tpf x.setup.overlayQuota x.overlayQueue x.position ++
  x.markerBytes ++ leBytes 2 x.setup.horizon ++ leBytes 4 (x.setup.horizon * Config.ticksPerMs)

/-- The report of R129, in its order. -/
def Part.zoneReport (p : Part) (z : ZoneId) : List Byte :=
  let x := p.zone z
  x.setup.bytes ++ [x.state.code, x.state.resumeCode] ++ startBytes x.start ++ optBytes 10 positionBytes x.position ++
  optBytes 8 timeBytes x.state.endPoint ++ [(p.zoneDomain z).state.code] ++ flagBytes (p.zoneDomain z).state.timed ++
  optBytes 24 LastFrame.bytes x.lastFrame ++ flagBytes x.aligned ++ p.summaryBytes z ++ x.mixer.bytes p.globalSubstitution

def handleZsta (body : List Byte) (p : Part) : Handling :=
  match ZoneId.ofCode (field body 0 1) with
  | none => p.refuse .badField
  | some z => p.accept (p.zoneReport z)

/-- ZSTA, R129. -/
def execZsta (tag : Byte) (body : List Byte) (s : State) : Outcome := s.request .zsta handleZsta tag body

/-! ### ZGAN (R142), ZSUB (R144), GSUB (R145) -/

def handleZgan (body : List Byte) (p : Part) : Handling :=
  match ZoneId.ofCode (field body 0 1) with
  | none => p.refuse .badField
  | some z =>
    let g := field body 1 2
    let x := (p.zone z).withGain g
    (p.setZone z x).accept (leBytes 2 g ++ leBytes 2 x.mixer.zoneGain ++ flagBytes (x.setup.mixer.gainCeiling < g) ++
      leBytes 2 x.setup.mixer.gainCeiling ++ rampValueBytes x.mixer.mainGain.value ++ leBytes 2 x.mixer.mainGain.target)

/-- ZGAN, R142. -/
def execZgan (tag : Byte) (body : List Byte) (s : State) : Outcome := s.request .zgan handleZgan tag body

def handleZsub (body : List Byte) (p : Part) : Handling :=
  match ZoneId.ofCode (field body 0 1), Substitution.ofCode (field body 1 1) with
  | some z, some sub =>
    let x := p.zone z
    (p.setZone z { x with mixer := { x.mixer with substitution := sub } }).accept
      [x.mixer.substitution.code, sub.code, p.globalSubstitution.code, (effective p.globalSubstitution sub).code]
  | _, _ => p.refuse .badField

/-- ZSUB, R144. -/
def execZsub (tag : Byte) (body : List Byte) (s : State) : Outcome := s.request .zsub handleZsub tag body

def handleGsub (body : List Byte) (p : Part) : Handling :=
  match Substitution.ofCode (field body 0 1) with
  | none => p.refuse .badField
  | some sub =>
    ({ p with globalSubstitution := sub } : Part).accept
      ([p.globalSubstitution.code, sub.code] ++
        allZones.flatMap (fun z => [(p.zone z).state.code, (effective sub (p.zone z).mixer.substitution).code]))

/-- GSUB, R145. -/
def execGsub (tag : Byte) (body : List Byte) (s : State) : Outcome := s.request .gsub handleGsub tag body

/-! ### OUTPUT_FRAME (R110) -/

/-- OUTPUT_FRAME, R110: the frame of a running port whose local time has come; no other is taken (log 4). -/
def execOutputFrame (z : ZoneId) (s : State) : Outcome :=
  s.complete (fun p =>
    match (p.zone z).port with
    | some t => if t ≤ p.localTime then p.frame z else p
    | none => p)

end Sys2Proof.Machine
end

