-- ==== Sys2Proof/Machine/LinkOps.lean ====
section
/-! DEFINITION. Chapter 11: the link requests LRAT, RSET and HELO, the resets, and the departure of a reply. -/

namespace Sys2Proof.Machine

/-! ### LRAT (R186) -/

/-- The baud rate of a divisor as a reply gives it: 24,576,000 / (8 × (n + 1)); one that is no whole number is sent as one of
its two neighbours, a free choice (log 12). -/
def baudRate (divisor : Byte) : Nat :=
  let d := 8 * (divisor.toNat + 1)
  Config.ticksPerSecond / d +
    (if Config.ticksPerSecond % d ≠ 0 ∧ Config.baudRoundsUp divisor.toNat = true then 1 else 0)

def handleLrat (body : List Byte) (p : Part) : Handling :=
  match p.link.mode with
  | .spi => p.refuse .wrongState
  | .uart =>
    let n : Byte := BitVec.ofNat 8 (field body 0 1)
    (p, some ⟨.ok, [p.link.divisor, n] ++ leBytes 4 (baudRate n), .rate n⟩)

/-- LRAT, R186. -/
def execLrat (tag : Byte) (body : List Byte) (s : State) : Outcome := s.request .lrat handleLrat tag body

/-! ### RSET (R187) -/

def handleRset (_body : List Byte) (p : Part) : Handling :=
  ({ p with link := { p.link with deaf := true } }, some ⟨.ok, [], .reset⟩)

/-- RSET, R187. -/
def execRset (tag : Byte) (body : List Byte) (s : State) : Outcome := s.request .rset handleRset tag body

/-! ### HELO (R188) -/

/-- The four characters "LT-4" (R188). -/
def partCode : List Byte := [0x4C#8, 0x54#8, 0x2D#8, 0x34#8]

/-- The capacities of R188 in its order. -/
def capacityBytes : List Byte :=
  leBytes 2 Config.poolSlots ++ leBytes 1 4 ++ leBytes 1 2 ++ leBytes 1 16 ++ leBytes 1 Config.scheduleCapacity ++
  leBytes 1 Config.ringCapacity ++ leBytes 1 Config.echoCapacity ++ leBytes 1 Config.replyCapacity

def handleHelo (_body : List Byte) (p : Part) : Handling :=
  p.accept (partCode ++ [Config.revision, p.link.mode.code, p.link.divisor] ++ timeBytes p.localTime ++ capacityBytes)

/-- HELO, R188. -/
def execHelo (tag : Byte) (body : List Byte) (s : State) : Outcome := s.request .helo handleHelo tag body

/-! ### The owner of each kind (R183, R184) -/

/-- The owner's rule for each request kind. -/
def RequestKind.handler : RequestKind → List Byte → Part → Handling
  | .helo => handleHelo
  | .rset => handleRset
  | .lrat => handleLrat
  | .indr => handleIndr
  | .inda => handleInda
  | .indc => handleIndc
  | .capc => handleCapc
  | .capl => handleCapl
  | .capd => handleCapd
  | .stmp => handleStmp
  | .dset => handleDset
  | .drun => handleDrun
  | .drel => handleDrel
  | .dsta => handleDsta
  | .beac => handleBeac
  | .lchg => handleLchg
  | .echs => handleEchs
  | .echa => handleEcha
  | .fset => handleFset
  | .fdef => handleFdef
  | .pblk => handlePblk
  | .pool => handlePool
  | .pwmk => handlePwmk
  | .zset => handleZset
  | .zena => handleZena
  | .zdis => handleZdis
  | .zrun => handleZrun
  | .zstp => handleZstp
  | .zflu => handleZflu
  | .zsta => handleZsta
  | .zgan => handleZgan
  | .zsub => handleZsub
  | .gsub => handleGsub
  | .sadd => handleSadd
  | .scan => handleScan
  | .slst => handleSlst
  | .tsnp => handleTsnp
  | .taut => handleTaut
  | .tred => handleTred

/-- The reply to an unknown kind (R184, R191): reply kind 0xFE, the status and the KIND byte received. -/
def unknownKindReply (kind tag : Byte) : Reply := ⟨0xFE#8, tag, [Status.unknownKind.code, kind], .nothing⟩

/-- The arrival of a sound frame of any kind (R183, R184). -/
def Part.frameArrival (p : Part) (kind tag : Byte) (body : List Byte) : Part :=
  match RequestKind.ofCode kind.toNat with
  | some k => p.request k k.handler tag body
  | none =>
    p.arrival (fun p => { p with link := p.link.enqueue p.localTime (unknownKindReply kind tag) })

/-- A complete frame meets its CRC check (R179): sound, it arrives; else it is discarded with the cause CRC. -/
def Part.frameComplete (p : Part) (kind tag : Byte) (body : List Byte) (crc : Word16) : Part :=
  if crc16 (frameCovered kind tag body) = crc then p.frameArrival kind tag body else p.toHunt.discard .crc

/-- The frame in progress is cut: discarded with the cause FRAMING, back to HUNT (R178, R180, R181). -/
def Part.cutFrame (p : Part) : Part := p.toHunt.discard .framing

/-- LEN is formed (R178): in range, its bytes follow; else the frame is discarded with the cause FRAMING. -/
def Part.lengthFormed (p : Part) (len : Nat) : Part :=
  if 2 ≤ len ∧ len ≤ Config.maxLen then { p with link := { p.link with receiver := .body len [] } } else p.cutFrame

/-- Is a frame in progress: has its SYNC been taken and its last CRC byte not (R178)? -/
def Receiver.inFrame : Receiver → Bool
  | .hunt => false
  | .lengthLow | .lengthHigh _ | .body _ _ | .checkLow _ | .checkHigh _ _ => true

/-- A byte at the receiver, R178. -/
def Part.receive (p : Part) (b : Byte) : Part :=
  let enter := fun r : Receiver => ({ p with link := { p.link with receiver := r } } : Part)
  match p.link.receiver with
  | .hunt => if b = Config.sync then enter .lengthLow else p
  | .lengthLow => enter (.lengthHigh b)
  | .lengthHigh low => p.lengthFormed (leNat [low, b])
  | .body len kept => enter (if kept.length + 1 < len then .body len (kept ++ [b]) else .checkLow (kept ++ [b]))
  | .checkLow bytes => enter (.checkHigh bytes b)
  | .checkHigh bytes low =>
    p.frameComplete (bytes.getD 0 0#8) (bytes.getD 1 0#8) (bytes.drop 2) (BitVec.ofNat 16 (leNat [low, b]))

/-- The in-frame silence deadline after a byte in UART mode, R181: set while the frame is unfinished, else stopped. -/
def Part.guardSilence (p : Part) : Part :=
  match p.link.mode with
  | .spi => p
  | .uart =>
    { p with link := { p.link with
        silence := if p.link.receiver.inFrame then some (p.localTime + Config.silenceLimit) else none } }

/-- Has local time reached the in-frame silence deadline of a frame in progress, in UART mode (R2, R181)? -/
def Part.silenceReached (p : Part) : Bool :=
  p.link.mode == .uart && p.link.receiver.inFrame && p.reached p.link.silence

/-- The start bit of the frame's next byte stops the in-frame silence deadline, and the frame continues (R181). -/
def Part.stopSilence (p : Part) : Part := { p with link := { p.link with silence := none } }

/-! ### Resets (R189) -/

/-- The mode that LSEL straps (R189). -/
def Level.mode : Level → LinkMode
  | .low => .spi
  | .high => .uart

/-- A reset that samples LSEL: divisor 7, every block as its chapter gives (R189). The level of nCS is the host's; it counts in
SPI mode alone (section 11.7, log 9). -/
def Part.strapReset (p : Part) (lsel : Level) : Part :=
  Part.reset (Level.mode lsel) Config.resetDivisor (p.link.selected && Level.mode lsel == .spi)

/-- The reset that RSET begins: mode and divisor are kept (R187, R189). -/
def Part.rsetReset (p : Part) : Part := Part.reset p.link.mode p.link.divisor p.link.selected

/-! ### The departure of a reply (R180, R182, R186, R187) -/

/-- What the departure of a reply leaves to be done: the rate change of an LRAT reply, the reset of an RSET reply. -/
def Link.mark (l : Link) : AfterReply → Link
  | .nothing => l
  | .rate n => { l with rateDue := some n }
  | .reset => { l with resetDue := true }

/-- The reply at the head leaves, and in UART mode the next one begins with no gap (R182). -/
def Link.depart (l : Link) (now : LocalTime) : Link :=
  match l.replies with
  | [] => l
  | r :: rest => ({ l with replies := rest, sent := 0, txEnd := rest.head?.bind (l.sendEnd now) } : Link).mark r.after

/-- Has the SPI host shifted out the whole reply at the head (R180)? -/
def Link.headShifted (l : Link) : Bool :=
  match l.mode, l.replies with
  | .spi, r :: _ => r.frame.length ≤ l.sent
  | _, _ => false

/-! ### What TXD carries (R182, section 11.3) -/

/-- Local ticks of one UART bit (section 11.3). -/
def bitTicks (divisor : Byte) : Nat := 8 * (divisor.toNat + 1)

/-- What TXD carries: a start bit, a data bit, or the stop level, at which it also rests (R182). -/
inductive TxdBit where
  | start | data (b : Bool) | stop
  deriving DecidableEq, Repr

/-- The ten bits of a byte in the order they are sent: start bit, data bits least significant first, stop bit (section 11.3). -/
def uartBits (b : Byte) : List TxdBit := .start :: (List.range 8).map (fun i => .data (b.getLsbD i)) ++ [.stop]

/-- The ticks for which the reply at the head has been on TXD, with its frame; nothing while TXD rests. The reply began as many
ticks before its end `txEnd` as its bytes take. -/
def Link.onTxd (l : Link) (now : LocalTime) : Option (List Byte × Nat) :=
  match l.replies, l.txEnd with
  | r :: _, some t => some (r.frame, now + r.frame.length * byteTicks l.divisor - t)
  | _, _ => none

/-- How many bytes of the reply at the head TXD has sent whole: the UART's counterpart of `sent`. -/
def Link.txSent (l : Link) (now : LocalTime) : Nat :=
  match l.onTxd now with
  | some (_, ticks) => ticks / byteTicks l.divisor
  | none => 0

/-- The byte that TXD carries, or nothing while TXD rests (R182). -/
def Link.txdByte (l : Link) (now : LocalTime) : Option Byte :=
  match l.onTxd now with
  | some (frame, ticks) => frame[ticks / byteTicks l.divisor]?
  | none => none

/-- What TXD carries at a local time, bit by bit. -/
def Link.txd (l : Link) (now : LocalTime) : TxdBit :=
  match l.onTxd now, l.txdByte now with
  | some (_, ticks), some b => (uartBits b).getD (ticks % byteTicks l.divisor / bitTicks l.divisor) .stop
  | _, _ => .stop

/-- The departure of the reply at the head. -/
def Part.depart (p : Part) : Part := { p with link := p.link.depart p.localTime }

/-- Before a SPI byte position: a reply that has been shifted out has left (R180), an RSET reply with its reset (R187, R189). -/
def Part.settleShifted (p : Part) : Part :=
  if p.link.headShifted then
    let p := p.depart
    if p.link.resetDue then p.rsetReset else p
  else p

/-- MISO's byte at a byte position, R180: the next byte of the reply at the head, or fill. -/
def Link.shiftOut (l : Link) : Link :=
  match l.replies with
  | [] => { l with miso := some Config.fill }
  | r :: _ => { l with miso := some (r.frame.getD l.sent Config.fill), sent := l.sent + 1 }

/-- The first LRAT change among replies that have not left, and the replies without it. -/
def takeRate : List Reply → Option (Byte × List Reply)
  | [] => none
  | r :: rs =>
    match r.after with
    | .rate n => some (n, { r with after := .nothing } :: rs)
    | .nothing | .reset => (takeRate rs).map (fun x => (x.1, r :: x.2))

/-- The end of the reply at the head under the divisor now held: a reply whose last byte has gone keeps its end, another begins
at this moment (R186). -/
def Link.restartSend (l : Link) (now : LocalTime) : Option LocalTime :=
  match l.txEnd with
  | some t => if t ≤ now then some t else l.replies.head?.bind (l.sendEnd now)
  | none => none

/-- The divisor takes a new value (R186): what the part sends from now on goes at the new rate. -/
def Link.setDivisor (l : Link) (now : LocalTime) (n : Byte) : Link :=
  let l := { l with divisor := n }
  { l with txEnd := l.restartSend now }

end Sys2Proof.Machine
end

