-- ==== Sys2Proof/Machine/LinkEvents.lean ====
section
/-! DEFINITION. Chapter 11, the events: whole-frame arrivals, bytes and line events, the transmitter, the resets. -/

namespace Sys2Proof.Machine

/-! ### Frame arrivals (R178, R179, R183, R184); the rule decides, whatever the command is called (log 6) -/

/-- UNKNOWN_KIND, R184: a sound frame arrives; a kind that is none of the 39 is answered under reply kind 0xFE. -/
def execUnknownKind (kind tag : Byte) (body : List Byte) (s : State) : Outcome :=
  s.complete (fun p => p.frameArrival kind tag body)

/-- OVERRUN, R183: a sound frame arrives; while 8 replies are unread it is discarded with the cause OVERRUN. -/
def execOverrun (kind tag : Byte) (body : List Byte) (s : State) : Outcome :=
  s.complete (fun p => p.frameArrival kind tag body)

/-- CRC_MISMATCH, R179: a frame is complete; a CRC that differs from the one received discards it with the cause CRC. -/
def execCrcMismatch (kind tag : Byte) (body : List Byte) (crc : Word16) (s : State) : Outcome :=
  s.complete (fun p => p.frameComplete kind tag body crc)

/-- LEN_OUT_OF_RANGE, R178: LEN is formed; outside 2..1,048 the frame is discarded with the cause FRAMING. -/
def execLenOutOfRange (len : Word16) (s : State) : Outcome :=
  s.complete (fun p => (p.lengthFormed len.toNat).guardSilence)

/-! ### Bytes and line events (R178, R180, R181) -/

/-- A SPI byte is completed in each direction (R180): MISO's byte, then the receiver; outside a transfer there is none (log 31).
Where the byte is the last of the head reply on MISO and completes a request on MOSI, the arrival is taken before that reply's
departure (R183, log 37). -/
def Part.spiByte (p : Part) (b : Byte) : Part :=
  if p.link.selected then
    let p := p.settleShifted
    ({ p with link := p.link.shiftOut } : Part).receive b
  else p

/-- BYTE_RECEIVED, R178 and R181: a good UART byte, or a SPI byte. -/
def execByteReceived (b : Byte) (s : State) : Outcome :=
  s.complete (fun p =>
    match p.link.mode with
    | .uart => (p.receive b).guardSilence
    | .spi => p.spiByte b)

/-- STOP_BIT_ERROR, R181: in UART mode it discards the frame in progress; in HUNT it is ignored. -/
def execStopBitError (s : State) : Outcome :=
  s.complete (fun p => if p.link.mode = .uart ∧ p.link.receiver.inFrame = true then p.cutFrame else p)

/-- IN_FRAME_SILENCE_EXPIRY, R181: in UART mode, with a frame in progress, at the deadline and not before (log 4). -/
def execInFrameSilenceExpiry (s : State) : Outcome :=
  s.complete (fun p => if p.silenceReached then p.cutFrame else p)

/-- SPI_TRANSFER_START, R180: nCS falls; it is ignored in UART mode (section 11.7). -/
def execSpiTransferStart (s : State) : Outcome :=
  s.complete (fun p => if p.link.mode = .spi then { p with link := { p.link with selected := true } } else p)

/-- nCS rises (R180): MISO is undriven, and a frame in progress is cut. -/
def Part.endTransfer (p : Part) : Part :=
  let p := { p with link := { p.link with selected := false, miso := none } }
  if p.link.receiver.inFrame then p.cutFrame else p

/-- SPI_TRANSFER_END, R180; it is ignored in UART mode, and nothing ends where no transfer runs. -/
def execSpiTransferEnd (s : State) : Outcome :=
  s.complete (fun p => if p.link.mode = .spi ∧ p.link.selected = true then p.endTransfer else p)

/-! ### The transmitter (R180, R182, R186, R187), on the sender's word (log 7) -/

/-- REPLY_LEAVES_QUEUE, R180 and R182: the last byte of the reply at the head has been sent; an empty queue has none. -/
def execReplyLeavesQueue (s : State) : Outcome := s.complete Part.depart

/-- The rate change of R186: that of an LRAT reply that has left, or else of the first LRAT reply in the queue. -/
def Part.rateChange (p : Part) : Part :=
  match p.link.rateDue with
  | some n => { p with link := ({ p.link with rateDue := none } : Link).setDivisor p.localTime n }
  | none =>
    match takeRate p.link.replies with
    | some (n, rs) => { p with link := ({ p.link with replies := rs } : Link).setDivisor p.localTime n }
    | none => p

/-- LRAT_RATE_CHANGE, R186. -/
def execLratRateChange (s : State) : Outcome := s.complete Part.rateChange

/-- RSET_RESET, R187: the reset of an RSET that has been taken; without one there is none. -/
def execRsetReset (s : State) : Outcome :=
  s.complete (fun p => if p.link.deaf then p.rsetReset else p)

/-! ### Resets (R189); waiting commands are kept (log 32) -/

/-- POWER_ON, R189. -/
def execPowerOn (lsel : Level) (s : State) : Outcome := s.complete (fun p => p.strapReset lsel)

/-- PIN_RESET, R189. -/
def execPinReset (lsel : Level) (s : State) : Outcome := s.complete (fun p => p.strapReset lsel)

end Sys2Proof.Machine
end

