-- ==== Sys2Proof/Machine/Dispatch.lean ====
section
/-! DEFINITION. The meaning of every command: one arm per row of spec/opcode_table.json. -/

namespace Sys2Proof.Machine

def exec (i : Instr) (s : State) : Host.Outcome State Fault Refusal :=
  match i with
  | .capc tag body => Sys2Proof.Machine.execCapc tag body s
  | .capl tag body => Sys2Proof.Machine.execCapl tag body s
  | .capd tag body => Sys2Proof.Machine.execCapd tag body s
  | .stmp tag body => Sys2Proof.Machine.execStmp tag body s
  | .dset tag body => Sys2Proof.Machine.execDset tag body s
  | .drun tag body => Sys2Proof.Machine.execDrun tag body s
  | .beac tag body => Sys2Proof.Machine.execBeac tag body s
  | .lchg tag body => Sys2Proof.Machine.execLchg tag body s
  | .drel tag body => Sys2Proof.Machine.execDrel tag body s
  | .dsta tag body => Sys2Proof.Machine.execDsta tag body s
  | .echs tag body => Sys2Proof.Machine.execEchs tag body s
  | .echa tag body => Sys2Proof.Machine.execEcha tag body s
  | .fset tag body => Sys2Proof.Machine.execFset tag body s
  | .fdef tag body => Sys2Proof.Machine.execFdef tag body s
  | .pblk tag body => Sys2Proof.Machine.execPblk tag body s
  | .pool tag body => Sys2Proof.Machine.execPool tag body s
  | .pwmk tag body => Sys2Proof.Machine.execPwmk tag body s
  | .zflu tag body => Sys2Proof.Machine.execZflu tag body s
  | .zset tag body => Sys2Proof.Machine.execZset tag body s
  | .zena tag body => Sys2Proof.Machine.execZena tag body s
  | .zdis tag body => Sys2Proof.Machine.execZdis tag body s
  | .zrun tag body => Sys2Proof.Machine.execZrun tag body s
  | .zstp tag body => Sys2Proof.Machine.execZstp tag body s
  | .zsta tag body => Sys2Proof.Machine.execZsta tag body s
  | .zgan tag body => Sys2Proof.Machine.execZgan tag body s
  | .zsub tag body => Sys2Proof.Machine.execZsub tag body s
  | .gsub tag body => Sys2Proof.Machine.execGsub tag body s
  | .sadd tag body => Sys2Proof.Machine.execSadd tag body s
  | .scan tag body => Sys2Proof.Machine.execScan tag body s
  | .slst tag body => Sys2Proof.Machine.execSlst tag body s
  | .indc tag body => Sys2Proof.Machine.execIndc tag body s
  | .indr tag body => Sys2Proof.Machine.execIndr tag body s
  | .inda tag body => Sys2Proof.Machine.execInda tag body s
  | .tsnp tag body => Sys2Proof.Machine.execTsnp tag body s
  | .taut tag body => Sys2Proof.Machine.execTaut tag body s
  | .tred tag body => Sys2Proof.Machine.execTred tag body s
  | .lrat tag body => Sys2Proof.Machine.execLrat tag body s
  | .rset tag body => Sys2Proof.Machine.execRset tag body s
  | .helo tag body => Sys2Proof.Machine.execHelo tag body s
  | .unknownKind kind tag body => Sys2Proof.Machine.execUnknownKind kind tag body s
  | .overrun kind tag body => Sys2Proof.Machine.execOverrun kind tag body s
  | .crcMismatch kind tag body crc => Sys2Proof.Machine.execCrcMismatch kind tag body crc s
  | .lenOutOfRange len => Sys2Proof.Machine.execLenOutOfRange len s
  | .stopBitError => Sys2Proof.Machine.execStopBitError s
  | .inFrameSilenceExpiry => Sys2Proof.Machine.execInFrameSilenceExpiry s
  | .spiTransferStart => Sys2Proof.Machine.execSpiTransferStart s
  | .spiTransferEnd => Sys2Proof.Machine.execSpiTransferEnd s
  | .replyLeavesQueue => Sys2Proof.Machine.execReplyLeavesQueue s
  | .lratRateChange => Sys2Proof.Machine.execLratRateChange s
  | .rsetReset => Sys2Proof.Machine.execRsetReset s
  | .powerOn lsel => Sys2Proof.Machine.execPowerOn lsel s
  | .pinReset lsel => Sys2Proof.Machine.execPinReset lsel s
  | .strobeEdge input => Sys2Proof.Machine.execStrobeEdge input s
  | .beaconWatchExpiry d => Sys2Proof.Machine.execBeaconWatchExpiry d s
  | .windowEnd d => Sys2Proof.Machine.execWindowEnd d s
  | .holdoverExpiry d => Sys2Proof.Machine.execHoldoverExpiry d s
  | .echoTimeout d sequence => Sys2Proof.Machine.execEchoTimeout d sequence s
  | .outputFrame z => Sys2Proof.Machine.execOutputFrame z s
  | .automaticSnapshot => Sys2Proof.Machine.execAutomaticSnapshot s
  | .byteReceived b => Sys2Proof.Machine.execByteReceived b s

end Sys2Proof.Machine
end

