-- ==== Sys2Proof/Machine/Timers.lean ====
section
/-! DEFINITION. The part's own clock: what is due at the present local time, and what an empty queue does (R2, R110; log 2). -/

namespace Sys2Proof.Machine

/-- One command if a condition holds. -/
def dueIf (b : Bool) (c : Instr) : List Instr := if b then [c] else []

/-- The timer events of a domain that are due (R30, R32, R35). -/
def Part.domainDue (p : Part) (d : DomainId) : List Instr :=
  dueIf (p.reached (p.domain d).watch) (.beaconWatchExpiry d) ++
  dueIf (p.reached (p.domain d).windowEnd) (.windowEnd d) ++
  dueIf (p.reached (p.domain d).holdover) (.holdoverExpiry d)

/-- The echo records that are due (R62). -/
def Part.echoDue (p : Part) : List Instr :=
  p.echo.records.flatMap (fun r => dueIf (p.reached (some r.deadline)) (.echoTimeout r.domain r.sequence))

/-- The output frame of a zone, if its port begins it now (R110). -/
def Part.frameDue (p : Part) (z : ZoneId) : List Instr := dueIf (p.reached (p.zone z).port) (.outputFrame z)

/-- What the transmitter is due to do (R180, R182, R186, R187). -/
def Part.linkDue (p : Part) : List Instr :=
  dueIf (p.reached p.link.txEnd || p.link.headShifted) .replyLeavesQueue ++
  dueIf p.link.rateDue.isSome .lratRateChange ++ dueIf p.link.resetDue .rsetReset

/-- Everything that is due at the present local time, in the model's fixed order (log 3). -/
def Part.dueEvents (p : Part) : List Instr :=
  allDomains.flatMap p.domainDue ++ p.echoDue ++ dueIf (p.reached p.tallies.deadline) .automaticSnapshot ++
  allZones.flatMap p.frameDue ++ dueIf p.silenceReached .inFrameSilenceExpiry ++ p.linkDue

/-- At a reached in-frame silence deadline the clock asks the free value whether the start bit that stops it has begun (log 8): a
start bit that has begun stops the deadline, else the deadline stands and its expiry is due. -/
def State.askStartBit (s : State) : State :=
  if s.part.silenceReached then
    { s with part := if Config.startBitBegun s.draws then s.part.stopSilence else s.part, draws := s.draws + 1 }
  else s

/-- What the block does when no command waits (log 2): the events that are due are put in the queue; when none is, local time
advances by one tick (R1). -/
def State.idle (s : State) : State :=
  let s := s.askStartBit
  match s.part.dueEvents with
  | [] => { s with part := { s.part with localTime := s.part.localTime + 1 } }
  | c :: cs => { s with pending := c :: cs }

end Sys2Proof.Machine
end

