-- ==== Sys2Proof/Safety.lean ====
section
/-! DEFINITION. What it means for the part to be within the limits the spec gives it: the capacities of its rings, lists and
queues, and the empty queues of zones at rest. -/

namespace Sys2Proof.Machine

/-- At most 32 captures, and no two of one number (R9). -/
def CaptureUnit.WithinRing (u : CaptureUnit) : Prop :=
  u.ring.length ≤ Config.ringCapacity ∧ (u.ring.map Capture.number).Nodup

/-- At most 8 echo records (R55), and at most 8 path samples for each domain (R56). -/
def EchoTable.WithinTable (t : EchoTable) : Prop :=
  t.records.length ≤ Config.echoCapacity ∧ ∀ d, (t.samples.get d).length ≤ Config.pathCapacity

/-- At most 32 live entries (R149) and at most 8 done records (R159). -/
def Schedule.WithinList (s : Schedule) : Prop :=
  s.entries.length ≤ Config.scheduleCapacity ∧ s.done.length ≤ Config.doneCapacity

/-- At most 8 unread replies (R183). -/
def Link.WithinQueue (l : Link) : Prop := l.replies.length ≤ Config.replyCapacity

/-- The pending set: pairs of section 10.1 alone, each once, in report order, every raise count 1 to 255 (R165, R169). -/
def IndicationUnit.WithinSet (u : IndicationUnit) : Prop :=
  u.pending.Pairwise (fun a b => a.pair.rank < b.pair.rank) ∧
  ∀ q ∈ u.pending, q.pair.valid = true ∧ 1 ≤ q.raises ∧ q.raises ≤ 255

/-- The capture ring, the echo table with its path lists, the schedule with its done list, the reply queue and the pending set are
within their capacities. -/
def Part.WithinCapacities (p : Part) : Prop :=
  p.capture.WithinRing ∧ p.echo.WithinTable ∧ p.schedule.WithinList ∧ p.link.WithinQueue ∧ p.indications.WithinSet

/-- In DISABLED and IDLE both queues of a zone are empty (R98). -/
def Zone.Resting (x : Zone) : Prop := x.state.unstarted = true → x.mainQueue = [] ∧ x.overlayQueue = []

/-- R98 for all four zones. -/
def Part.RestingZonesEmpty (p : Part) : Prop := ∀ z, (p.zone z).Resting

/-- The slots that a zone's queues refer to. -/
def Zone.queued (x : Zone) : List Nat := x.mainQueue ++ x.overlayQueue

/-- In how many zone queues a slot stands (R67). -/
def Part.references (p : Part) (n : Nat) : Nat := (allZones.map (fun z => (p.zone z).queued.count n)).sum

/-- The holder count of a slot, 0 for a free one (R67). -/
def BlockPool.holdersOf (pool : BlockPool) (n : Nat) : Nat :=
  match pool.find n with
  | some h => h.holders
  | none => 0

/-- The held slots are numbered 0..511, ascending, and each has a holder. -/
def BlockPool.WellKept (pool : BlockPool) : Prop :=
  (pool.held.map HeldSlot.number).Pairwise (· < ·) ∧ ∀ h ∈ pool.held, h.number < Config.poolSlots ∧ 1 ≤ h.holders

/-- R67: the holder count of every slot is the number of zone queues that contain it, and no zone refers to a slot twice. -/
def Part.PoolLaw (p : Part) : Prop :=
  p.pool.WellKept ∧ (∀ n, p.references n = p.pool.holdersOf n) ∧ ∀ z n, (p.zone z).queued.count n ≤ 1

/-- Each queue of a zone is within its quota (R89). -/
def Zone.WithinQuotas (x : Zone) : Prop :=
  x.mainQueue.length ≤ x.setup.mainQuota ∧ x.overlayQueue.length ≤ x.setup.overlayQuota

/-- The block a slot holds. -/
def BlockPool.blockOf (pool : BlockPool) (n : Nat) : Option Block := (pool.find n).map HeldSlot.block

/-- May the block `b` stand after the block `a` in a queue (R88): it starts later, their spans do not meet, and they do not share
stream id and sequence? -/
def Block.Before (tpf : Nat) (a b : Block) : Prop :=
  a.time < b.time ∧ a.time + a.frames * tpf ≤ b.time ∧ ¬(a.stream = b.stream ∧ a.sequence = b.sequence)

/-- One queue under R88 and R89: every entry is a held block of the zone's rate with a frame or more, and each stands before all
that follow it. -/
def BlockPool.InOrder (pool : BlockPool) (rate : Rate) (queue : List Nat) : Prop :=
  (∀ n ∈ queue, ∃ b, pool.blockOf n = some b ∧ b.rate = rate ∧ 1 ≤ b.frames) ∧
  queue.Pairwise (fun m n => ∀ a b, pool.blockOf m = some a → pool.blockOf n = some b → a.Before rate.tpf b)

/-- What holds of the zone queues and the pool together: the pool law (R67), R98, the quotas (R89) and the order of every queue
(R88). -/
structure Part.QueueLaw (p : Part) : Prop where
  pool : p.PoolLaw
  resting : p.RestingZonesEmpty
  quotas : ∀ z, (p.zone z).WithinQuotas
  order : ∀ z t, p.pool.InOrder (p.zone z).setup.rate ((p.zone z).queue t)

/-- A step that keeps a property of the part. -/
def KeptByStep (P : Part → Prop) : Prop :=
  ∀ s t : State, P s.part → step s = .next t → P t.part

/-! ### The shape of an accepted and of a refused request -/

/-- The link takes the next request: no RSET has been taken (R187) and fewer than 8 replies are unread (R183). -/
def Part.TakesRequests (p : Part) : Prop := p.link.deaf = false ∧ p.link.replies.length < Config.replyCapacity

/-- The fields of a lane map at an offset (section 12.3): CHANNEL c, SUM (a, b) or SILENCE, channels 0 to 7, unused bytes 0. -/
def laneMapInRange (body : List Byte) (off : Nat) : Prop :=
  (field body off 1 = 0 ∧ field body (off + 1) 1 ≤ 7 ∧ field body (off + 2) 1 = 0) ∨
  (field body off 1 = 1 ∧ field body (off + 1) 1 ≤ 7 ∧ field body (off + 2) 1 ≤ 7) ∨
  (field body off 1 = 2 ∧ field body (off + 1) 1 = 0 ∧ field body (off + 2) 1 = 0)

/-- The field checks that a request's rule makes first (R192), kind by kind: the offsets of section 12.4, the codes of section
12.3, the ranges of each request's own rule and table. -/
def RequestKind.FieldsInRange (k : RequestKind) (body : List Byte) : Prop :=
  let f := field body
  match k with
  | .helo | .rset | .lrat | .capl | .capd | .scan | .tsnp => True
  | .indr => f 0 1 ≤ 2
  | .inda => 1 ≤ f 0 1 ∧ f 0 1 ≤ 39 ∧ ∀ i < f 0 1,
      (f (2 * i + 1) 1 ≤ 4 ∧ f (2 * i + 2) 1 = 0) ∨
      (5 ≤ f (2 * i + 1) 1 ∧ f (2 * i + 1) 1 ≤ 7 ∧ 1 ≤ f (2 * i + 2) 1 ∧ f (2 * i + 2) 1 ≤ 2) ∨
      (8 ≤ f (2 * i + 1) 1 ∧ f (2 * i + 1) 1 ≤ 14 ∧ 3 ≤ f (2 * i + 2) 1 ∧ f (2 * i + 2) 1 ≤ 6)
  | .indc => (f 0 1 ≤ 14 ∨ f 0 1 = 255) ∧ f 1 1 ≤ 1 ∧ f 2 1 ≤ 1
  | .capc => f 0 1 ≤ 1 ∧ f 1 1 ≤ 1
  | .stmp => f 0 1 ≤ 1 ∧ f 2 1 ≤ 1
  | .dset => f 0 1 ≤ 1 ∧ f 1 1 ≤ 1 ∧ (20 ≤ f 6 2 ∧ f 6 2 ≤ 1000) ∧ f 8 1 ≤ 1 ∧ (2 ≤ f 9 1 ∧ f 9 1 ≤ 16) ∧
      (1 ≤ f 10 2 ∧ f 10 2 ≤ 600) ∧ (100 ≤ f 12 4 ∧ f 12 4 ≤ 2000000) ∧ (2 ≤ f 16 1 ∧ f 16 1 ≤ 16) ∧ f 17 1 ≤ 1 ∧
      f 18 1 ≤ 4 ∧ f 19 2 ≤ 1000 ∧ (2 ≤ f 21 1 ∧ f 21 1 ≤ 16) ∧ f 22 1 ≤ 15 ∧ f 23 4 ≤ 2457600 ∧
      (50 ≤ f 27 2 ∧ f 27 2 ≤ 2000)
  | .drun => f 0 1 ≤ 1 ∧ ((f 1 1 = 0 ∧ f 2 8 = 0) ∨ (f 1 1 = 1 ∧ f 2 8 ≤ 65535) ∨ f 1 1 = 2 ∨ (f 1 1 = 3 ∧ f 2 8 ≤ 1))
  | .drel | .dsta | .beac | .lchg | .echs | .echa => f 0 1 ≤ 1
  | .fset => f 0 1 ≤ 15 ∧ f 1 1 ≤ 1 ∧ f 10 1 ≤ 2 ∧ f 11 1 ≤ 15
  | .fdef => (f 0 1 = 0 ∨ f 0 1 = 2) ∧ f 1 1 ≤ 15
  | .pblk => f 16 1 ≤ 1 ∧ f 17 1 ≤ 2 ∧ (1 ≤ f 18 1 ∧ f 18 1 ≤ 8) ∧ (1 ≤ f 19 2 ∧ f 19 2 ≤ 256) ∧ f 21 1 ≤ 7 ∧
      body.length - 22 = f 19 2 * f 18 1 * (if f 17 1 = 0 then 2 else 4) ∧ body.length - 22 ≤ 1024
  | .pool => f 0 2 ≤ 511 ∨ f 0 2 = 65535
  | .pwmk => f 0 2 ≤ 512
  | .zset => f 0 1 ≤ 3 ∧ f 1 1 ≤ 1 ∧ f 2 1 ≤ 1 ∧ f 3 2 ≤ 4095 ∧ (100 ≤ f 5 2 ∧ f 5 2 ≤ 10000) ∧ f 7 2 ≤ 1000 ∧
      (1000 ≤ f 9 4 ∧ f 9 4 ≤ 2457600) ∧ (10 ≤ f 13 2 ∧ f 13 2 ≤ 24576) ∧ (1 ≤ f 15 2 ∧ f 15 2 ≤ 512) ∧
      (1 ≤ f 17 2 ∧ f 17 2 ≤ 128) ∧ f 19 2 ≤ 512 ∧ laneMapInRange body 21 ∧ laneMapInRange body 24 ∧ f 33 1 ≤ 1 ∧
      f 38 2 ≤ 4800
  | .zena | .zdis | .zsta | .zgan => f 0 1 ≤ 3
  | .zrun => f 0 1 ≤ 3 ∧ (f 1 1 = 0 ∨ (f 1 1 = 1 ∧ f 2 8 = 0))
  | .zstp => f 0 1 ≤ 3 ∧ f 1 1 ≤ 1
  | .zflu => f 0 1 ≤ 3 ∧ f 1 1 ≤ 2
  | .zsub => f 0 1 ≤ 3 ∧ f 1 1 ≤ 2
  | .gsub => f 0 1 ≤ 2
  | .sadd => f 8 1 ≤ 1 ∧ (1 ≤ f 9 1 ∧ f 9 1 ≤ 15) ∧ f 15 1 ≤ 1 ∧
      ((f 10 1 = 0 ∧ f 13 2 = 0) ∨ (f 10 1 = 1 ∧ f 11 1 ≤ 2 ∧ f 12 3 = 0) ∨ (f 10 1 = 2 ∧ f 11 1 ≤ 1 ∧ f 14 1 = 0) ∨
       (f 10 1 = 3 ∧ f 11 2 ≤ 4095 ∧ f 13 2 = 0) ∨ (f 10 1 = 4 ∧ f 11 1 ≤ 1 ∧ f 12 3 = 0) ∨ (f 10 1 = 5 ∧ f 11 4 = 0))
  | .slst => f 0 1 ≤ 1
  | .taut => f 0 1 ≤ 1
  | .tred => f 0 1 ≤ 7

/-- The state after a request whose rule has made `q` of the part and is answered OK with these contents: `q`, the receiver in
HUNT, and the reply at the tail of the reply queue (R183, R191). -/
def State.replied (s : State) (q : Part) (k : RequestKind) (tag : Byte) (content : List Byte) : State :=
  { s with part := q.toHunt.answer k.code tag (.ok content) }

/-- The state after a request that is refused: nothing but the receiver in HUNT and the reply at the tail. -/
def State.refusedWith (s : State) (k : RequestKind) (tag : Byte) (status : Status) (additions : List Byte) : State :=
  { s with part := s.part.toHunt.answer k.code tag (.refusalWith status additions) }

/-- The command that is the arrival of a request of a kind. -/
def RequestKind.command (k : RequestKind) (tag : Byte) (body : List Byte) : Instr :=
  match k with
  | .helo => .helo tag body
  | .rset => .rset tag body
  | .lrat => .lrat tag body
  | .indr => .indr tag body
  | .inda => .inda tag body
  | .indc => .indc tag body
  | .capc => .capc tag body
  | .capl => .capl tag body
  | .capd => .capd tag body
  | .stmp => .stmp tag body
  | .dset => .dset tag body
  | .drun => .drun tag body
  | .drel => .drel tag body
  | .dsta => .dsta tag body
  | .beac => .beac tag body
  | .lchg => .lchg tag body
  | .echs => .echs tag body
  | .echa => .echa tag body
  | .fset => .fset tag body
  | .fdef => .fdef tag body
  | .pblk => .pblk tag body
  | .pool => .pool tag body
  | .pwmk => .pwmk tag body
  | .zset => .zset tag body
  | .zena => .zena tag body
  | .zdis => .zdis tag body
  | .zrun => .zrun tag body
  | .zstp => .zstp tag body
  | .zflu => .zflu tag body
  | .zsta => .zsta tag body
  | .zgan => .zgan tag body
  | .zsub => .zsub tag body
  | .gsub => .gsub tag body
  | .sadd => .sadd tag body
  | .scan => .scan tag body
  | .slst => .slst tag body
  | .tsnp => .tsnp tag body
  | .taut => .taut tag body
  | .tred => .tred tag body

end Sys2Proof.Machine
end

