-- ==== Sys2Proof/Certificates/Slice0/Obligations.lean ====
section
/-! DEFINITION. The statements about the LT-4. In most of them the conclusion is the whole next state: what is not written there
is unchanged. `State.replied s q k tag content` is `q` with the receiver in HUNT and the OK reply queued (Safety.lean). -/

open Sys2Proof Sys2Proof.Machine

/-! ### The block -/

/-- A step on a queue with a command in front executes that command on the state with the queue's rest. -/
def Obligations.StepExecutesFrontCommand : Prop :=
  ∀ (c : Instr) (rest : List Instr) (s : State), step { s with pending := c :: rest } = exec c { s with pending := rest }

/-- A step on an empty queue. While no in-frame silence deadline has been reached: local time advances by one when nothing is
due, else the due events are queued and nothing else changes. At a reached one its expiry is due, and a free value, asked once,
says whether the start bit that stops it has begun: then the deadline is stopped and the clock runs on without it, else what is
due is queued, the expiry among it. The model's own clock (logs 2, 3 and 8), no rule of the spec. -/
def Obligations.EmptyQueueRunsTheClock : Prop :=
  ∀ s : State, s.pending = [] →
    let l := s.part.link
    let reached := l.mode = .uart ∧ l.receiver ≠ .hunt ∧ ∃ d, l.silence = some d ∧ d ≤ s.part.localTime
    (¬reached →
      (s.part.dueEvents = [] → step s = .next { s with part := { s.part with localTime := s.part.localTime + 1 } }) ∧
      (∀ c cs, s.part.dueEvents = c :: cs → step s = .next { s with pending := c :: cs })) ∧
    (reached → .inFrameSilenceExpiry ∈ s.part.dueEvents ∧
      step s =
        if Config.startBitBegun s.draws = true
        then step { s with part := { s.part with link := { l with silence := none } }, draws := s.draws + 1 }
        else .next { s with pending := s.part.dueEvents, draws := s.draws + 1 })

/-- No command stops the block: every one answers a next state, and leaves the waiting commands, and the free values asked so
far, as they are. That this holds in states no run reaches, and of the three resets, is the model's choice (logs 20, 32). -/
def Obligations.EveryCommandAnswersNext : Prop :=
  ∀ (c : Instr) (s : State), ∃ t, exec c s = .next t ∧ t.pending = s.pending ∧ t.draws = s.draws

/-! ### Frames (chapter 11) -/

/-- R178: the nine bytes "123456789" have the CRC 0x29B1 (R179), and from HUNT the bytes of a whole frame, however long its
body, come to the arrival of that frame. -/
def Obligations.FrameBytesAreAnArrival : Prop :=
  crc16 [0x31#8, 0x32#8, 0x33#8, 0x34#8, 0x35#8, 0x36#8, 0x37#8, 0x38#8, 0x39#8] = 0x29B1#16 ∧
  ∀ (p : Part) (kind tag : Byte) (body : List Byte), p.link.receiver = .hunt → body.length + 2 ≤ Config.maxLen →
    (frameBytes kind tag body).foldl Part.receive p = p.frameArrival kind tag body

/-- R178, R181: a good byte in UART mode, by hunt state; the silence deadline is set while the frame is unfinished. That a byte
in a frame continues it whatever the deadline, even one that has been reached, is the model's choice (log 8). -/
def Obligations.UartByteMovesTheReceiver : Prop :=
  ∀ (s : State) (b : Byte), s.part.link.mode = .uart →
    let at' := fun (r : Receiver) (d : Option LocalTime) =>
      ({ s with part := { s.part with link := { s.part.link with receiver := r, silence := d } } } : State)
    let guard := some (s.part.localTime + 245760)
    (s.part.link.receiver = .hunt → b = 0xD5#8 → exec (.byteReceived b) s = .next (at' .lengthLow guard)) ∧
    (s.part.link.receiver = .hunt → b ≠ 0xD5#8 → exec (.byteReceived b) s = .next (at' .hunt none)) ∧
    (s.part.link.receiver = .lengthLow → exec (.byteReceived b) s = .next (at' (.lengthHigh b) guard)) ∧
    (∀ low, s.part.link.receiver = .lengthHigh low → 2 ≤ low.toNat + 256 * b.toNat → low.toNat + 256 * b.toNat ≤ 1048 →
      exec (.byteReceived b) s = .next (at' (.body (low.toNat + 256 * b.toNat) []) guard)) ∧
    (∀ low, s.part.link.receiver = .lengthHigh low → ¬(2 ≤ low.toNat + 256 * b.toNat ∧ low.toNat + 256 * b.toNat ≤ 1048) →
      exec (.byteReceived b) s = .next { s with part := s.part.toHunt.discard .framing }) ∧
    (∀ len kept, s.part.link.receiver = .body len kept → kept.length + 1 < len →
      exec (.byteReceived b) s = .next (at' (.body len (kept ++ [b])) guard)) ∧
    (∀ len kept, s.part.link.receiver = .body len kept → len ≤ kept.length + 1 →
      exec (.byteReceived b) s = .next (at' (.checkLow (kept ++ [b])) guard)) ∧
    (∀ bytes, s.part.link.receiver = .checkLow bytes → exec (.byteReceived b) s = .next (at' (.checkHigh bytes b) guard)) ∧
    (∀ bytes low, s.part.link.receiver = .checkHigh bytes low → exec (.byteReceived b) s = .next { s with
      part := (s.part.frameComplete (bytes.getD 0 0#8) (bytes.getD 1 0#8) (bytes.drop 2) (b.append low)).guardSilence })

/-- R180: a SPI byte position carries the next byte of the head reply, or 0xFF, and the receiver takes MOSI's byte; a reply
whose bytes have all gone leaves first, an RSET reply with its reset (log 7). Where the byte that goes out is the head reply's
last, the receiver judges MOSI's byte while that reply still waits in the queue: the arrival before the departure is the
model's choice (log 37), R180 and R183 give no order. Outside a transfer there is no byte (log 31). -/
def Obligations.SpiByteIsFullDuplex : Prop :=
  ∀ (s : State) (b : Byte), s.part.link.mode = .spi →
    (s.part.link.selected = false → exec (.byteReceived b) s = .next s) ∧
    (s.part.link.selected = true → s.part.link.replies = [] →
      exec (.byteReceived b) s =
        .next { s with part := ({ s.part with link := { s.part.link with miso := some 0xFF#8 } } : Part).receive b }) ∧
    (∀ r rest, s.part.link.selected = true → s.part.link.replies = r :: rest → s.part.link.sent < r.frame.length →
      exec (.byteReceived b) s =
        .next { s with part := ({ s.part with link := { s.part.link with
          miso := some (r.frame.getD s.part.link.sent 0xFF#8), sent := s.part.link.sent + 1 } } : Part).receive b }) ∧
    (∀ r rest, s.part.link.selected = true → s.part.link.replies = r :: rest → r.frame.length ≤ s.part.link.sent →
      s.part.link.resetDue = false →
      (r.after = .nothing → exec (.byteReceived b) s = exec (.byteReceived b)
        { s with part := { s.part with link := { s.part.link with replies := rest, sent := 0, txEnd := none } } }) ∧
      (r.after = .reset → exec (.byteReceived b) s = exec (.byteReceived b)
        { s with part := Part.reset s.part.link.mode s.part.link.divisor s.part.link.selected }))

/-- R183, R184: a request command is the arrival of a frame of its kind's code, for all 39 kinds. R184: a known kind
whose body has the wrong length is answered BAD_LENGTH under its own reply kind, and nothing else changes. R192: a body of
the right length with a field out of its range is answered BAD_FIELD, whatever the state, and nothing else changes; with every
field in range, no kind is answered so, but for DRUN, whose check of the form against the role comes later. R184: an unknown
KIND, reply kinds included, is answered under reply kind 0xFE with the TAG and the KIND byte, and nothing else changes. -/
def Obligations.RequestsAreJudged : Prop :=
  (∀ (k : RequestKind) (s : State) (tag : Byte) (body : List Byte),
     exec (k.command tag body) s = .next { s with part := s.part.frameArrival k.code tag body }) ∧
  (∀ (k : RequestKind) (s : State) (tag : Byte) (body : List Byte), s.part.TakesRequests → k.lengthOk body = false →
     exec (k.command tag body) s = .next (s.refusedWith k tag .badLength [])) ∧
  (∀ (k : RequestKind) (s : State) (tag : Byte) (body : List Byte), s.part.TakesRequests → k.lengthOk body = true →
     (¬k.FieldsInRange body → exec (k.command tag body) s = .next (s.refusedWith k tag .badField [])) ∧
     (k.FieldsInRange body → k ≠ .drun → exec (k.command tag body) s ≠ .next (s.refusedWith k tag .badField []))) ∧
  (∀ (s : State) (kind tag : Byte) (body : List Byte), s.part.TakesRequests → RequestKind.ofCode kind.toNat = none →
     exec (.unknownKind kind tag body) s =
       .next { s with
         part := { s.part.toHunt with
           link := s.part.toHunt.link.enqueue s.part.localTime ⟨0xFE#8, tag, [0x01#8, kind], .nothing⟩ } })

/-- R183, R185: while 8 replies are unread, a frame of any kind is discarded with the cause OVERRUN: no reply, nothing
executed, LINK raised and one link error. R187: once an RSET has been taken, a frame that arrives, sound or not,
changes nothing but the receiver, and raises no LINK. -/
def Obligations.FramesTheLinkDoesNotTake : Prop :=
  (∀ (s : State) (kind tag : Byte) (body : List Byte), s.part.link.deaf = false → 8 ≤ s.part.link.replies.length →
     let t : State := { s with part := (s.part.toHunt.raiseLink .overrun).tally (.part .linkErrors) }
     exec (.overrun kind tag body) s = .next t ∧ exec (.unknownKind kind tag body) s = .next t ∧
     ∀ k : RequestKind, exec (k.command tag body) s = .next t) ∧
  (∀ (s : State) (kind tag : Byte) (body : List Byte) (crc : Word16) (len : Word16), s.part.link.deaf = true →
     let t : State := { s with part := s.part.toHunt }
     (∀ k : RequestKind, exec (k.command tag body) s = .next t) ∧ exec (.unknownKind kind tag body) s = .next t ∧
     exec (.overrun kind tag body) s = .next t ∧ exec (.crcMismatch kind tag body crc) s = .next t ∧
     (¬(2 ≤ len.toNat ∧ len.toNat ≤ 1048) → exec (.lenOutOfRange len) s = .next t))

/-- R178, R179, R185: a frame whose CRC agrees arrives; one whose CRC differs, and a LEN outside 2..1,048, are discarded: the
receiver in HUNT, LINK with its cause, one link error, and nothing else; a LEN in range begins the body. R180, R181: what cuts
a frame in progress, a stop-bit error, the silence deadline and the rise of nCS, discards it with FRAMING; in HUNT, before the
deadline and with the deadline stopped none of them raises anything. nCS going low begins a transfer, its rise ends it and
undrives MISO. A line event of the other mode changes nothing. R187: once an RSET has been taken, a discarded frame leaves no
trace but HUNT. The model's choices, not the spec's: a CRC_MISMATCH whose CRC agrees arrives and a LEN_OUT_OF_RANGE whose LEN
is in range begins the body, both ill-formed commands (Instr.wellFormed), by log 6; an nCS edge in UART mode, and a
SPI_TRANSFER_END outside a transfer, do nothing, by log 9; a cut frame too is dropped after an RSET, by log 38; an expiry acts
at its deadline alone, by log 4. -/
def Obligations.FramesAreDiscarded : Prop :=
  ∀ s : State,
    let l := s.part.link
    let discarded := fun (p : Part) (c : LinkCause) => ({ s with
      part := if l.deaf = true then p.toHunt else (p.toHunt.raiseLink c).tally (.part .linkErrors) } : State)
    (∀ (kind tag : Byte) (body : List Byte) (crc : Word16),
      (crc16 (frameCovered kind tag body) ≠ crc → exec (.crcMismatch kind tag body crc) s = .next (discarded s.part .crc)) ∧
      (crc16 (frameCovered kind tag body) = crc →
        exec (.crcMismatch kind tag body crc) s = .next { s with part := s.part.frameArrival kind tag body })) ∧
    (∀ len : Word16,
      (¬(2 ≤ len.toNat ∧ len.toNat ≤ 1048) → exec (.lenOutOfRange len) s = .next (discarded s.part .framing)) ∧
      (2 ≤ len.toNat → len.toNat ≤ 1048 →
        exec (.lenOutOfRange len) s = .next { s with part := { s.part with link := { l with
          receiver := .body len.toNat []
          silence := if l.mode = .uart then some (s.part.localTime + 245760) else l.silence } } })) ∧
    ((l.mode = .uart → l.receiver ≠ .hunt → exec .stopBitError s = .next (discarded s.part .framing)) ∧
     (l.mode = .spi ∨ l.receiver = .hunt → exec .stopBitError s = .next s)) ∧
    ((∀ d, l.mode = .uart → l.receiver ≠ .hunt → l.silence = some d → d ≤ s.part.localTime →
       exec .inFrameSilenceExpiry s = .next (discarded s.part .framing)) ∧
     (l.mode = .spi ∨ l.receiver = .hunt ∨ l.silence = none → exec .inFrameSilenceExpiry s = .next s) ∧
     (∀ d, l.silence = some d → s.part.localTime < d → exec .inFrameSilenceExpiry s = .next s)) ∧
    ((l.mode = .spi →
       exec .spiTransferStart s = .next { s with part := { s.part with link := { l with selected := true } } }) ∧
     (l.mode = .uart → exec .spiTransferStart s = .next s)) ∧
    (let raised : Part := { s.part with link := { l with selected := false, miso := none } }
     (l.mode = .spi → l.selected = true → l.receiver ≠ .hunt →
       exec .spiTransferEnd s = .next (discarded raised .framing)) ∧
     (l.mode = .spi → l.selected = true → l.receiver = .hunt → exec .spiTransferEnd s = .next { s with part := raised }) ∧
     (l.mode = .uart ∨ l.selected = false → exec .spiTransferEnd s = .next s))

/-- R166, R185: a discard while LINK is not pending makes it pending with its own cause alone, raised once, now. R165, R166:
while LINK is pending it stays one pair: its raise count rises by one, stopping at 255, its latest-raise time is now, its first
is kept, and the cause joins the set, the causes that stand there staying. Either way no other pair changes, the kinds'
settings stay, the link-errors counter rises, and nothing else changes. -/
def Obligations.DiscardRaisesLink : Prop :=
  ∀ (p : Part) (c : LinkCause), p.link.deaf = false → p.tallies.live.part.linkErrors.value < 4294967295 →
    let u := p.indications
    let q := p.discard c
    (u.isPending ⟨.link, .part⟩ = false →
      (⟨⟨.link, .part⟩, 1, p.localTime, p.localTime⟩ : PendingPair) ∈ q.indications.pending ∧
      q.indications.causes = ⟨decide (c = .crc), decide (c = .framing), decide (c = .overrun)⟩ ∧
      ∀ x : PendingPair, x.pair ≠ ⟨.link, .part⟩ → (x ∈ q.indications.pending ↔ x ∈ u.pending)) ∧
    (u.isPending ⟨.link, .part⟩ = true → u.WithinSet →
      q.indications.pending = u.pending.map (fun x =>
        if x.pair = ⟨.link, .part⟩ then { x with raises := min 255 (x.raises + 1), latest := p.localTime } else x) ∧
      q.indications.causes = ⟨u.causes.crc || decide (c = .crc), u.causes.framing || decide (c = .framing),
        u.causes.overrun || decide (c = .overrun)⟩) ∧
    q.indications.settings = u.settings ∧
    q.tallies.live = { p.tallies.live with part := { p.tallies.live.part with linkErrors :=
      { p.tallies.live.part.linkErrors with value := p.tallies.live.part.linkErrors.value + 1 } } } ∧
    q = { p with indications := q.indications, tallies := { p.tallies with live := q.tallies.live } }

/-- R180, R182, R186, R187: the reply at the head leaves, the next begins at once in UART mode, and an LRAT or RSET reply
leaves its mark. R186: when the LRAT reply has gone the divisor takes its value, and the reply that begins then goes at the
new rate. The departure and the change are taken on the sender's word (log 7). R182: TXD carries the head reply's bytes in
order without a gap, ten bits of 8 × (n + 1) ticks each: the start bit, the data bits least significant first, the stop bit;
with an empty queue it rests at the stop level. -/
def Obligations.RepliesLeaveTheQueue : Prop :=
  (∀ (s : State) (r : Reply) (rest : List Reply), s.part.link.replies = r :: rest →
     exec .replyLeavesQueue s = .next { s with part := { s.part with link := { s.part.link with
       replies := rest
       sent := 0
       txEnd := match s.part.link.mode, rest with
         | .uart, n :: _ => some (s.part.localTime + n.frame.length * (80 * (s.part.link.divisor.toNat + 1)))
         | _, _ => none
       rateDue := match r.after with | .rate n => some n | _ => s.part.link.rateDue
       resetDue := match r.after with | .reset => true | _ => s.part.link.resetDue } } }) ∧
  (∀ (s : State) (n : Byte), s.part.link.rateDue = some n →
     ∃ t, exec .lratRateChange s = .next t ∧
       t = { s with part := { s.part with link := { s.part.link with
         rateDue := none, divisor := n, txEnd := t.part.link.txEnd } } } ∧
       (∀ r rest e, s.part.link.mode = .uart → s.part.link.replies = r :: rest → s.part.link.txEnd = some e →
         s.part.localTime < e → t.part.link.txEnd = some (s.part.localTime + r.frame.length * (80 * (n.toNat + 1))))) ∧
  (∀ (l : Link) (r : Reply) (rest : List Reply) (begun k i j : Nat), l.replies = r :: rest →
     let tick := 8 * (l.divisor.toNat + 1)
     l.txEnd = some (begun + r.frame.length * (10 * tick)) → k < r.frame.length → i < 10 → j < tick →
     let now := begun + k * (10 * tick) + i * tick + j
     let b := r.frame.getD k 0#8
     l.txSent now = k ∧ l.txdByte now = some b ∧
     (i = 0 → l.txd now = .start) ∧ (1 ≤ i → i ≤ 8 → l.txd now = .data (b.getLsbD (i - 1))) ∧ (i = 9 → l.txd now = .stop)) ∧
  (∀ (l : Link) (now : LocalTime), l.replies = [] → l.txd now = .stop ∧ l.txdByte now = none)

/-- What the three resets leave. R1, R16: local time 0, no capture, counter 0, both enables clear. R42, R43: both domains UNBOUND
with the default setup, no anchor, sequence or step error, code 32768, COLD, counts 0, deadlines stopped, alarms clear; a free
engine and no queue. R66: no echo record, path sample or timeout. R87: all 512 slots free, watermark 32, sixteen disabled
entries, REJECT to no zone. R105, R131, R135, R147: four DISABLED zones with the default setup, empty queues, no port, gain
16,384, levels at rest at 0. R164: no entry, handle 0, no done record. R171: nothing pending, no cause, every kind disabled on
line 0, both lines released. R177: every counter and the snapshot 0, NONE, OFF. R189: HUNT, no reply; power-on and pin reset
take the mode that LSEL straps and divisor 7, the reset of a taken RSET keeps both. The model's choices: RSET_RESET resets
whenever an RSET has been taken, its reply sent or not (log 7); nCS keeps its level in SPI mode and MISO is undriven (log 9); no
tick of a latest capture (log 23); no emitted lanes (log 25); no slot of a last marker (log 33); waiting commands stay (log 32). -/
def Obligations.ResetsResetThePart : Prop :=
  let setup : DomainSetup := {
    role := .follow, leaderId := 0#32, beaconInterval := 125, lossCriterion := .consec, nLoss := 3, holdoverLimit := 30
    stepThreshold := 4915, nStep := 4, stepAction := .step, filterShift := 2, deadband := 25, window := 4, warmWidth := 7
    initialPathDelay := 0, echoTimeout := 250 }
  let unbound : Domain := {
    setup := setup, state := .unbound, startKind := .cold, anchor := none, code := 32768, lastSequence := none
    newLeader := false, outlierRun := 0, missed := 0, sparseCurrent := 0, sparsePrevious := 0
    watch := none, windowEnd := none, holdover := none, loss := false, path := false, range := false, lastStepError := none }
  let mixerSetup : MixerSetup := {
    mapL := .channel 0, mapR := .channel 1, trimL := 16384, trimR := 16384, gainCeiling := 65535
    overlayMode := .duck, duckGain := 4096, overlayGain := 16384, rampLength := 480 }
  let zoneSetup : ZoneSetup := {
    domain := .d0, rate := .r48000, latency := 0, horizon := 4000, slewLimit := 100, reseekThreshold := 24576, tolerance := 123
    mainQuota := 128, overlayQuota := 32, lowWatermark := 8, mixer := mixerSetup }
  let mixer : Mixer := {
    zoneGain := 16384, substitution := .none, mainGain := ⟨16384, 16384, 0, 0⟩, programme := ⟨0, 0, 0, 0⟩, tone := ⟨0, 0, 0, 0⟩
    overlayActive := false, lastLanes := none }
  let disabled : Zone := {
    setup := zoneSetup, state := .disabled, start := none, position := none, aligned := false, lastFrame := none
    lastFinal := false, lastMarker := none, lastMarkerSlot := none, mainQueue := [], overlayQueue := [], port := none
    emitted := none, mixer := mixer }
  let zero : Counter := ⟨0, false⟩
  let zoneTallies : ZoneTallies := ⟨zero, zero, zero, zero, zero, zero⟩
  let domainTallies : DomainTallies := ⟨zero, zero, zero, zero, zero, zero⟩
  let counters : TallySet := {
    zones := ⟨zoneTallies, zoneTallies, zoneTallies, zoneTallies⟩, domains := ⟨domainTallies, domainTallies⟩
    part := ⟨zero, zero, zero, zero⟩ }
  let noZone : ZoneSet := ⟨false, false, false, false⟩
  let fresh := fun (mode : LinkMode) (divisor : Byte) (selected : Bool) => ({
    localTime := 0
    capture := { rxEnabled := false, txEnabled := false, counter := 0#8, ring := [], lastRx := none, lastTx := none }
    domains := ⟨unbound, unbound⟩
    engine := { served := none, queue := [] }
    echo := { records := [], samples := ⟨[], []⟩, timeouts := ⟨0, 0⟩ }
    pool := { held := [], watermark := 32 }
    filter := { entries := Vector.replicate 16 ⟨false, 0#32, 0#32, .reject, noZone⟩
                defaultAction := .reject, defaultZones := noZone }
    zones := ⟨disabled, disabled, disabled, disabled⟩
    globalSubstitution := .none
    schedule := { entries := [], counter := 0#16, done := [] }
    indications := { pending := [], causes := ⟨false, false, false⟩, settings := Vector.replicate 15 ⟨false, .line0⟩ }
    tallies := { live := counters, snapshot := ⟨counters, 0#32, none, none⟩, automatic := false, deadline := none }
    link := { mode := mode, divisor := divisor, receiver := .hunt, silence := none, replies := [], sent := 0, txEnd := none
              rateDue := none, deaf := false, resetDue := false, selected := selected, miso := none } } : Part)
  (∀ s : State,
    exec (.powerOn .low) s = .next { s with part := fresh .spi 7#8 s.part.link.selected } ∧
    exec (.powerOn .high) s = .next { s with part := fresh .uart 7#8 false } ∧
    exec (.pinReset .low) s = .next { s with part := fresh .spi 7#8 s.part.link.selected } ∧
    exec (.pinReset .high) s = .next { s with part := fresh .uart 7#8 false } ∧
    (s.part.link.deaf = true →
      exec .rsetReset s = .next { s with part := fresh s.part.link.mode s.part.link.divisor s.part.link.selected })) ∧
  (∀ mode divisor selected,
    let p := fresh mode divisor selected
    p.pool.freeCount = 512 ∧ p.pool.freeList = List.range 512 ∧ (∀ d, p.pathDelay d = 0) ∧
    (∀ line, p.indications.asserted line = false) ∧ Part.reset mode divisor selected = p)

/-- R186, R187: LRAT in UART mode answers the divisor in force, the one carried and its baud rate, and carries the change in
its reply; in SPI mode it is refused. A baud rate that is no whole number is sent as the model chooses (log 12). RSET answers
OK, and from then on the link takes no request. -/
def Obligations.LinkRequests : Prop :=
  ∀ (s : State) (tag n : Byte), s.part.TakesRequests →
    (s.part.link.mode = .uart →
      exec (.lrat tag [n]) s = .next { s with
        part := s.part.toHunt.answer 0x03#8 tag ⟨.ok, [s.part.link.divisor, n] ++ leBytes 4 (baudRate n), .rate n⟩ }) ∧
    (s.part.link.mode = .spi → exec (.lrat tag [n]) s = .next (s.refusedWith .lrat tag .wrongState [])) ∧
    exec (.rset tag []) s =
      .next { s with
        part := ({ s.part.toHunt with link := { s.part.toHunt.link with deaf := true } } : Part).answer 0x02#8 tag
          ⟨.ok, [], .reset⟩ } ∧
    (24576000 % (8 * (n.toNat + 1)) = 0 → baudRate n * (8 * (n.toNat + 1)) = 24576000)

/-- R12, R41, R73, R129, R169, R176, R188: the status requests answer OK with their report and change nothing else. DSTA in
order: the setup, state, phase and start kind, search place, anchor, code and its offset, local time and, while timed, its G,
last sequence, new-leader pending, outlier run, missed and sparse counts, the three deadlines, LOSS, PATH, RANGE, path delay
and list length, last step error. ZSTA: the setup, state and resume state, start, P, end point, the domain's state and whether
it is timed, last frame, aligned flag, both queue summaries (R104), the last marker with its slot, horizon, the mixer values
(R146). INDR: total, listed, ATTN0 and ATTN1, the fifteen settings, and each pair the selector lists with its counts, times and
attachment. TRED: number, time and cause of the snapshot, then the counters of the objects named. Where chapter 12 does not lay
a reply out byte by byte, its layout is the model's (log 14); so are the slot's place after a marker's three values (log 33)
and the rounding of E (log 12). -/
def Obligations.StatusRequestsChangeNothing : Prop :=
  ∀ (s : State) (tag : Byte), s.part.TakesRequests →
    exec (.capl tag []) s = .next (s.replied s.part .capl tag
      (leBytes 1 s.part.capture.ring.length ++ [s.part.capture.counter] ++ flagBytes s.part.capture.rxEnabled ++
        flagBytes s.part.capture.txEnabled ++
        s.part.capture.ring.flatMap (fun c => [c.number, c.input.code] ++ timeBytes c.time))) ∧
    (∀ d : DomainId,
      let x := s.part.domain d
      let u := x.setup
      let waiting := if s.part.engine.queue.contains d then [0#8] ++ leBytes 1 (s.part.engine.queue.idxOf d + 1) else [0xFF#8]
      exec (.dsta tag [d.code]) s = .next (s.replied s.part .dsta tag
        ([u.role.code] ++ leBytes 4 u.leaderId.toNat ++ leBytes 2 u.beaconInterval ++ [u.lossCriterion.code] ++
          leBytes 1 u.nLoss ++ leBytes 2 u.holdoverLimit ++ leBytes 4 u.stepThreshold ++ leBytes 1 u.nStep ++
          [u.stepAction.code] ++ leBytes 1 u.filterShift ++ leBytes 2 u.deadband ++ leBytes 1 u.window ++
          leBytes 1 u.warmWidth ++ leBytes 4 u.initialPathDelay ++ leBytes 2 u.echoTimeout ++
          [x.state.code, x.state.phaseCode, x.startKind.code] ++
          (match s.part.engine.served with
           | some r => if r.domain = d then [1#8] ++ leBytes 2 r.entryCode ++ leBytes 1 r.bit ++ leBytes 1 r.windowCount
             else waiting
           | none => waiting) ++
          optBytes 16 (fun a => timeBytes a.localTime ++ timeBytes a.domainTime) x.anchor ++
          leBytes 2 x.code ++ leBytes 2 (BitVec.ofInt 16 ((x.code : Int) - 32768)).toNat ++ timeBytes s.part.localTime ++
          optBytes 8 timeBytes (if x.state.timed = true then x.anchor.map (fun a => convert a x.code s.part.localTime) else none) ++
          optBytes 2 (fun n => leBytes 2 n.toNat) x.lastSequence ++ flagBytes x.newLeader ++ leBytes 1 x.outlierRun ++
          leBytes 1 x.missed ++ leBytes 1 x.sparseCurrent ++ leBytes 1 x.sparsePrevious ++
          deadlineBytes x.watch ++ deadlineBytes x.windowEnd ++ deadlineBytes x.holdover ++
          flagBytes x.loss ++ flagBytes x.path ++ flagBytes x.range ++
          leBytes 4 (s.part.pathDelay d) ++ leBytes 1 (s.part.echo.samples.get d).length ++
          optBytes 8 signedBytes x.lastStepError))) ∧
    (∀ z : ZoneId,
      let x := s.part.zone z
      let u := x.setup
      let m := x.mixer
      let home := s.part.domain u.domain
      let pool := s.part.pool
      let summary := fun (quota : Nat) (queue : List Nat) =>
        leBytes 2 queue.length ++ leBytes 2 quota ++
        optBytes 26 (fun n => leBytes 2 n ++
          (match pool.find n with
           | some h => leBytes 4 h.block.stream.toNat ++ leBytes 4 h.block.sequence.toNat
           | none => leBytes 8 0) ++ timeBytes (pool.entryStart n) ++ timeBytes (pool.entryEnd x.tpf n)) queue.head? ++
        optBytes 8 timeBytes (queue.getLast?.map (pool.entryEnd x.tpf)) ++ leBytes 4 (pool.covered queue) ++
        flagBytes (x.position.any (fun p => queue.any (pool.contains x.tpf p)))
      let ramp := fun r : Ramp => rampValueBytes r.value ++ leBytes 2 r.target ++ leBytes 2 r.framesLeft
      exec (.zsta tag [z.code]) s = .next (s.replied s.part .zsta tag
        ([u.domain.code, u.rate.code] ++ leBytes 2 u.latency ++ leBytes 2 u.horizon ++ leBytes 2 u.slewLimit ++
          leBytes 4 u.reseekThreshold ++ leBytes 2 u.tolerance ++ leBytes 2 u.mainQuota ++ leBytes 2 u.overlayQuota ++
          leBytes 2 u.lowWatermark ++ u.mixer.mapL.bytes ++ u.mixer.mapR.bytes ++ leBytes 2 u.mixer.trimL ++
          leBytes 2 u.mixer.trimR ++ leBytes 2 u.mixer.gainCeiling ++ [u.mixer.overlayMode.code] ++
          leBytes 2 u.mixer.duckGain ++ leBytes 2 u.mixer.overlayGain ++ leBytes 2 u.mixer.rampLength ++
          [x.state.code, x.state.resumeCode] ++ startBytes x.start ++ optBytes 10 positionBytes x.position ++
          optBytes 8 timeBytes (match x.state with | .stopping stop => some stop | _ => none) ++
          [home.state.code] ++ flagBytes home.state.timed ++
          optBytes 24 (fun f => timeBytes f.time ++ timeBytes f.target ++ signedBytes (errorTicks f.error)) x.lastFrame ++
          flagBytes x.aligned ++
          summary u.mainQuota x.mainQueue ++ leBytes 2 u.lowWatermark ++ flagBytes x.lastFinal ++
          summary u.overlayQuota x.overlayQueue ++
          optBytes 16 (fun k => leBytes 4 k.stream.toNat ++ leBytes 4 k.sequence.toNat ++ timeBytes k.time) x.lastMarker ++
          optBytes 2 (leBytes 2) x.lastMarkerSlot ++ leBytes 2 u.horizon ++ leBytes 4 (u.horizon * 24576) ++
          leBytes 2 m.zoneGain ++ ramp m.mainGain ++ flagBytes m.overlayActive ++
          [m.substitution.code, s.part.globalSubstitution.code, (effective s.part.globalSubstitution m.substitution).code] ++
          ramp m.programme ++ ramp m.tone ++ optBytes 8 (fun l => laneBytes l.left ++ laneBytes l.right) m.lastLanes))) ∧
    (let pool := s.part.pool
     let counts := leBytes 2 pool.freeCount ++ leBytes 2 pool.held.length ++ leBytes 2 pool.watermark ++
       optBytes 2 (leBytes 2) pool.lowestFree ++ [1, 2, 3, 4].flatMap (fun k => leBytes 2 (pool.countHolders k))
     exec (.pool tag [0xFF#8, 0xFF#8]) s = .next (s.replied s.part .pool tag counts) ∧
     ∀ a b : Byte, a.toNat + 256 * b.toNat < 512 → exec (.pool tag [a, b]) s = .next (s.replied s.part .pool tag (counts ++
       match pool.find (a.toNat + 256 * b.toNat) with
       | none => [0#8]
       | some h => [1#8] ++ leBytes 1 h.holders ++ leBytes 4 h.block.stream.toNat ++ leBytes 4 h.block.sequence.toNat ++
         timeBytes h.block.time ++ [h.block.rate.code, h.block.format.code] ++ leBytes 1 h.block.channels ++
         leBytes 2 h.block.frames ++ flagBytes h.block.final ++ flagBytes h.block.mark))) ∧
    (∀ (a : Byte) sel, IndicationSelector.ofCode a.toNat = some sel →
      let u := s.part.indications
      let listed := match sel with
        | .all => u.pending
        | .line l => u.pending.filter (fun q => (u.setting q.pair.kind).enabled && (u.setting q.pair.kind).line == l)
      let attachment := fun q : Pair => match q.kind, q.object with
        | .link, _ => flagBytes u.causes.crc ++ flagBytes u.causes.framing ++ flagBytes u.causes.overrun
        | .domainStep, .domain d => optBytes 8 signedBytes (s.part.domain d).lastStepError
        | .marker, .zone z =>
          optBytes 16 (fun k => leBytes 4 k.stream.toNat ++ leBytes 4 k.sequence.toNat ++ timeBytes k.time)
            (s.part.zone z).lastMarker ++ optBytes 2 (leBytes 2) (s.part.zone z).lastMarkerSlot
        | .actionDone, _ => leBytes 1 s.part.schedule.done.length
        | _, _ => []
      exec (.indr tag [a]) s = .next (s.replied s.part .indr tag
        (leBytes 1 u.pending.length ++ leBytes 1 listed.length ++
          (flagBytes (u.asserted .line0) ++ flagBytes (u.asserted .line1)) ++
          allKinds.flatMap (fun k => flagBytes (u.setting k).enabled ++ [(u.setting k).line.code]) ++
          listed.flatMap (fun q => [q.pair.kind.code, q.pair.object.code] ++ leBytes 1 q.raises ++ timeBytes q.first ++
            timeBytes q.latest ++ attachment q.pair)))) ∧
    (∀ (a : Byte) (objects : List IndicationObject),
      (a = 0#8 ∧ objects = [.part, .domain .d0, .domain .d1, .zone .z0, .zone .z1, .zone .z2, .zone .z3]) ∨
        (∃ o : IndicationObject, a.toNat = o.index + 1 ∧ objects = [o]) →
      let n := s.part.tallies.snapshot
      let counters := fun o : IndicationObject => match o with
        | .part => [n.tallies.part.filterRejects, n.tallies.part.poolExhausted, n.tallies.part.captureOverwrites,
            n.tallies.part.linkErrors]
        | .domain d =>
          let x := n.tallies.domains.get d
          [x.samplesHeard, x.outliers, x.beaconsMissed, x.steps, x.echoAnswers, x.echoTimeouts]
        | .zone z =>
          let x := n.tallies.zones.get z
          [x.blocksPlayed, x.droppedLate, x.framesConcealed, x.underruns, x.reseeks, x.blocksRefused]
      exec (.tred tag [a]) s = .next (s.replied s.part .tred tag
        (leBytes 4 n.number.toNat ++ optBytes 8 timeBytes n.time ++
          [match n.cause with | some .request => 0#8 | some .auto => 1#8 | none => 0xFF#8] ++ leBytes 1 objects.length ++
          objects.flatMap (fun o => (counters o).flatMap (fun c => leBytes 4 c.value ++ flagBytes c.overflow))))) ∧
    exec (.helo tag []) s = .next (s.replied s.part .helo tag
      ([0x4C#8, 0x54#8, 0x2D#8, 0x34#8, 1#8, s.part.link.mode.code, s.part.link.divisor] ++ timeBytes s.part.localTime ++
        [0#8, 2#8, 4#8, 2#8, 16#8, 32#8, 32#8, 8#8, 8#8]))

/-! ### Captures (chapter 1) -/

/-- R7, R8, R9: a rising edge on an enabled input, the first of its tick, appends the capture with the counter's number and the
tick's time, and the counter advances modulo 256; if the number still stands in the ring, or 32 other captures do, one capture
goes and CAPTURE_OVERWRITE is raised and counted. On a disabled input nothing happens. The input's latest capture tick, which
tells the first edge of a tick, is the model's field (log 23). -/
def Obligations.EdgeMakesCapture : Prop :=
  ∀ (s : State) (i : StrobeInput),
    let u := s.part.capture
    let new : Capture := ⟨u.counter, i, s.part.localTime⟩
    let appended := fun ring : List Capture =>
      ({ s.part with
         capture := ({ u with ring := ring ++ [new], counter := u.counter + 1 } : CaptureUnit).setLast i s.part.localTime } :
        Part)
    let overwritten := fun p : Part => (p.raise .captureOverwrite .part).tally (.part .captureOverwrites)
    (u.enabled i = false → exec (.strobeEdge i) s = .next s) ∧
    (u.enabled i = true → u.last i ≠ some s.part.localTime →
      ((∀ c ∈ u.ring, c.number ≠ u.counter) → u.ring.length < 32 →
        exec (.strobeEdge i) s = .next { s with part := appended u.ring }) ∧
      ((∀ c ∈ u.ring, c.number ≠ u.counter) → u.ring.length = 32 →
        exec (.strobeEdge i) s = .next { s with part := overwritten (appended u.ring.tail) }) ∧
      (∀ c ∈ u.ring, c.number = u.counter → u.ring.length ≤ 32 →
        exec (.strobeEdge i) s =
          .next { s with part := overwritten (appended (u.ring.filter (fun c => c.number != u.counter))) }))

/-- R11, R13: CAPC writes both input enables; CAPD empties the ring and answers how many captures it removed. Neither
touches the counter, raises anything or counts anything. R14, R15: STMP of a timed domain converts the capture's local
time by the domain's anchor and code, answers both times and the input, and claims the capture; it is refused, and the
ring kept, when the domain is untimed, the capture is gone or its input is the other one. -/
def Obligations.CaptureRequests : Prop :=
  (∀ (s : State) (tag a b : Byte) (rx tx : Bool), s.part.TakesRequests →
     (flagOf a.toNat = some rx → flagOf b.toNat = some tx →
       exec (.capc tag [a, b]) s = .next (s.replied
         { s.part with capture := { s.part.capture with rxEnabled := rx, txEnabled := tx } } .capc tag [a, b])) ∧
     exec (.capd tag []) s = .next (s.replied { s.part with capture := { s.part.capture with ring := [] } } .capd tag
       (leBytes 1 s.part.capture.ring.length))) ∧
  (∀ (s : State) (tag n : Byte) (d : DomainId) (i : StrobeInput), s.part.TakesRequests →
     ((s.part.domain d).state.timed = false →
       exec (.stmp tag [d.code, n, i.code]) s = .next (s.refusedWith .stmp tag .untimed [])) ∧
     (∀ a, (s.part.domain d).state.timed = true → (s.part.domain d).anchor = some a →
       (s.part.capture.find n = none →
         exec (.stmp tag [d.code, n, i.code]) s = .next (s.refusedWith .stmp tag .captureGone [])) ∧
       (∀ c, s.part.capture.find n = some c → c.input ≠ i →
         exec (.stmp tag [d.code, n, i.code]) s = .next (s.refusedWith .stmp tag .wrongInput [])) ∧
       (∀ c, s.part.capture.find n = some c → c.input = i →
         exec (.stmp tag [d.code, n, i.code]) s = .next (s.replied
           { s.part with capture := { s.part.capture with ring := s.part.capture.ring.filter (fun x => x.number != n) } }
           .stmp tag (timeBytes (convert a (s.part.domain d).code c.time) ++ timeBytes c.time ++ [i.code])))))

/-! ### Time domains (chapters 2 and 3) -/

/-- R5: G(t) of an anchor and a code is anchor_domain + d + c, with d signed and c the exact correction rounded once to the
nearest whole tick, a value halfway away from zero; below 0 it is given as 0. Beyond 64 bits the model reads a free value
(log 10), of which nothing is said. -/
def Obligations.ConversionIsRoundedOnce : Prop :=
  ∀ (a : Anchor) (code : Nat) (t : LocalTime),
    let d : Int := (t : Int) - (a.localTime : Int)
    let n : Int := d * ((code : Int) - 32768)
    ∃ c : Int, 2 * (64000000 * c - n).natAbs ≤ 64000000 ∧
      (2 * (64000000 * c - n).natAbs = 64000000 → n.natAbs < (64000000 * c).natAbs) ∧
      ((a.domainTime : Int) + d + c < 0 → convert a code t = 0) ∧
      (0 ≤ (a.domainTime : Int) + d + c → (a.domainTime : Int) + d + c < 2 ^ 64 →
        ((convert a code t : Nat) : Int) = (a.domainTime : Int) + d + c)

/-- R17: DSET of an UNBOUND domain with every field in its range writes the whole setup and answers it; in any other state it
is refused and changes nothing. -/
def Obligations.DomainSetupIsWritten : Prop :=
  ∀ (s : State) (tag : Byte) (body : List Byte) (d : DomainId) (setup : DomainSetup), s.part.TakesRequests →
    body.length = 29 → DomainId.ofCode (field body 0 1) = some d → DomainSetup.ofBody body = some setup →
    ((s.part.domain d).state = .unbound →
      exec (.dset tag body) s = .next (s.replied
        (s.part.setDomain d { s.part.domain d with setup := setup }) .dset tag setup.bytes)) ∧
    ((s.part.domain d).state ≠ .unbound → exec (.dset tag body) s = .next (s.refusedWith .dset tag .wrongState []))

/-- R18: a follow DRUN of an UNBOUND following domain goes to ACQUIRE, WAITING, with no anchor, the code 32768 or the hint,
every count at 0, the beacon watch 1.5 BI ahead and under SPARSE the window end 8 BI ahead; DOMAIN_STATE is raised. -/
def Obligations.FollowDrunBeginsAcquisition : Prop :=
  ∀ (s : State) (tag : Byte) (body : List Byte) (d : DomainId) (form : RunForm) (kind : StartKind) (code : Nat),
    s.part.TakesRequests → body.length = 10 → DomainId.ofCode (field body 0 1) = some d →
    RunForm.ofCodes (field body 1 1) (field body 2 8) = some form →
    (form = .followCold ∧ kind = .cold ∧ code = 32768 ∨ form = .followWarm code ∧ kind = .warm) →
    (s.part.domain d).state = .unbound → (s.part.domain d).setup.role = .follow →
    let x := s.part.domain d
    exec (.drun tag body) s = .next (s.replied
      ((s.part.setDomain d { x with
        state := .acquire .waiting
        startKind := kind
        anchor := none
        code := code
        lastSequence := none
        newLeader := false
        outlierRun := 0
        missed := 0
        sparseCurrent := 0
        sparsePrevious := 0
        watch := some (s.part.localTime + x.setup.beaconInterval * 36864)
        windowEnd := if x.setup.lossCriterion = .sparse then some (s.part.localTime + 8 * (x.setup.beaconInterval * 24576))
          else none
        holdover := none }).raise .domainState (.domain d)) .drun tag ([1#8, 0#8] ++ leBytes 2 code))

/-- R19, R127: a lead DRUN goes to LEAD with the anchor (local time, T0) and code 32768, or with anchor and code of the
following domain it inherits from; DOMAIN_STATE is raised and the zones held on the domain resume. R18: DRUN's later checks in
their order: the state, the form against the role, the domain inherited from. R127: what a resume does. From resume state ARMED
the zone is ARMED, P the target of its port's next frame. From RUNNING it moves to that target: late entries drop, the low
watermark is tested once, RESEEK is raised only from outside −R..R, the due entries apply; unless one of them stopped the zone,
it takes the state its content gives, without UNDERRUN or END_OF_STREAM. ZONE_STATE is raised. That the zones of a domain
resume in the order Z0 to Z3 is the model's choice (log 35). -/
def Obligations.LeadDrunRunsFromAnAnchor : Prop :=
  (∀ (s : State) (tag : Byte) (body : List Byte) (d : DomainId) (form : RunForm) (a : Anchor) (code : Nat),
    s.part.TakesRequests → body.length = 10 → DomainId.ofCode (field body 0 1) = some d →
    RunForm.ofCodes (field body 1 1) (field body 2 8) = some form →
    ((∃ t0, form = .leadFrom t0 ∧ a = ⟨s.part.localTime, t0⟩ ∧ code = 32768) ∨
      (∃ x, form = .leadInherit x ∧ (s.part.domain x).setup.role = .follow ∧
        ((s.part.domain x).state = .track ∨ (s.part.domain x).state = .holdover) ∧
        (s.part.domain x).anchor = some a ∧ code = (s.part.domain x).code)) →
    (s.part.domain d).state = .unbound → (s.part.domain d).setup.role = .lead →
    exec (.drun tag body) s = .next (s.replied
      (((s.part.toHunt.setDomain d { s.part.domain d with state := .lead, anchor := some a, code := code }).raise
        .domainState (.domain d)).resumeZones d) .drun tag (timeBytes a.localTime ++ timeBytes a.domainTime ++ leBytes 2 code))) ∧
  (∀ (s : State) (tag : Byte) (body : List Byte) (d : DomainId) (form : RunForm), s.part.TakesRequests → body.length = 10 →
    DomainId.ofCode (field body 0 1) = some d → RunForm.ofCodes (field body 1 1) (field body 2 8) = some form →
    let x := s.part.domain d
    let follows := form = .followCold ∨ ∃ hint, form = .followWarm hint
    (x.state ≠ .unbound → exec (.drun tag body) s = .next (s.refusedWith .drun tag .wrongState [])) ∧
    (x.state = .unbound → ¬(x.setup.role = .follow ↔ follows) →
      exec (.drun tag body) s = .next (s.refusedWith .drun tag .badField [])) ∧
    (∀ y, x.state = .unbound → x.setup.role = .lead → form = .leadInherit y →
      ¬((s.part.domain y).setup.role = .follow ∧ ((s.part.domain y).state = .track ∨ (s.part.domain y).state = .holdover)) →
      exec (.drun tag body) s = .next (s.refusedWith .drun tag .wrongState []))) ∧
  (∀ (p : Part) (d : DomainId),
    let resume := fun (q : Part) (z : ZoneId) => if (q.zone z).setup.domain = d then q.resumeZone z else q
    p.resumeZones d = resume (resume (resume (resume p .z0) .z1) .z2) .z3) ∧
  (∀ (p : Part) (z : ZoneId),
    let x := p.zone z
    let pos : Position := p.target z (x.port.getD p.localTime) * 65536
    (x.state = .held .armed →
      p.resumeZone z = (p.setZone z { x with state := .armed, position := some pos }).raise .zoneState (.zone z)) ∧
    (x.state = .held .running →
      let dropped := ((p.setZone z { x with position := some pos }).dropLate z pos).tally (.zone z .reseeks)
      let tested := dropped.testLowWatermark z x.mainQueue.length
      let far := x.setup.reseekThreshold * 65536 < (((x.position.getD 0 : Nat) : Int) - (pos : Nat)).natAbs
      let q := (if far then tested.raise .reseek (.zone z) else tested).applyDue z pos
      ((q.zone z).state = .held .running →
        p.resumeZone z = (q.setZone z { q.zone z with state := if (q.mainAt z pos).isSome then .playing
          else if (q.zone z).lastFinal then .drained else .starved }).raise .zoneState (.zone z)) ∧
      ((q.zone z).state ≠ .held .running → p.resumeZone z = q)) ∧
    (x.state ≠ .held .armed → x.state ≠ .held .running → p.resumeZone z = p))

/-- R22: the effects of every heard sample: the watch 1.5 BI from now, no miss, the last sequence, LOSS cleared under CONSEC or
one more in the window under SPARSE, and nothing else of the domain; DOMAIN_ALARM is raised exactly when a declared LOSS is
cleared, and the domain's samples-heard tally rises by one. The other domain, the zones and the captures are unchanged. -/
def Obligations.HeardSampleEffects : Prop :=
  ∀ (p : Part) (d : DomainId) (n : Word16),
    let x := p.domain d
    let q := p.heardEffects d n
    (x.setup.lossCriterion = .consec →
      q.domain d = { x with lastSequence := some n, watch := some (p.localTime + x.setup.beaconInterval * 36864),
                            missed := 0, loss := false }) ∧
    (x.setup.lossCriterion = .sparse →
      q.domain d = { x with lastSequence := some n, watch := some (p.localTime + x.setup.beaconInterval * 36864),
                            missed := 0, sparseCurrent := min 255 (x.sparseCurrent + 1) }) ∧
    (∀ e, e ≠ d → q.domain e = p.domain e) ∧
    q = { p with domains := q.domains, indications := q.indications, tallies := q.tallies } ∧
    (let cleared := x.setup.lossCriterion = .consec ∧ x.loss = true
     let heard := (p.tallies.live.get (.domain d .samplesHeard)).value
     q = ({ (if cleared then p.raise .domainAlarm (.domain d) else p) with domains := q.domains } : Part).tally
       (.domain d .samplesHeard) ∧
     (heard < 4294967295 →
       (q.tallies.live.get (.domain d .samplesHeard)).value = heard + 1 ∧
       q.indications = (if cleared then p.raise .domainAlarm (.domain d) else p).indications))

/-- R21: the refusals of BEAC in their order; the capture stays in the ring and the domain record is unchanged. -/
def Obligations.BeaconRefusals : Prop :=
  ∀ (s : State) (tag : Byte) (body : List Byte) (d : DomainId), s.part.TakesRequests → body.length = 16 →
    DomainId.ofCode (field body 0 1) = some d →
    let x := s.part.domain d
    let n : Byte := BitVec.ofNat 8 (field body 1 1)
    let follows := x.setup.role = .follow ∧ x.state ≠ .unbound
    (¬follows → exec (.beac tag body) s = .next (s.refusedWith .beac tag .wrongState [])) ∧
    (follows → s.part.capture.find n = none → exec (.beac tag body) s = .next (s.refusedWith .beac tag .captureGone [])) ∧
    (∀ c, follows → s.part.capture.find n = some c →
      (c.input = .tx → exec (.beac tag body) s = .next (s.refusedWith .beac tag .wrongInput [])) ∧
      (c.input = .rx → x.setup.leaderId ≠ BitVec.ofNat 32 (field body 2 4) →
        exec (.beac tag body) s = .next (s.refusedWith .beac tag .leaderMismatch [])) ∧
      (∀ last, c.input = .rx → x.setup.leaderId = BitVec.ofNat 32 (field body 2 4) → x.lastSequence = some last →
        ¬(1 ≤ (BitVec.ofNat 16 (field body 6 2) - last).toNat ∧ (BitVec.ofNat 16 (field body 6 2) - last).toNat ≤ 32767) →
        exec (.beac tag body) s = .next (s.refusedWith .beac tag .stale [])))

/-- R22, R23, R26: a BEAC in TRACK whose phase error lies within −S..S: the capture is claimed, the heard sample's effects
happen, the anchor moves to G(arrival) + e / 2^k, the code by one step outside the deadband. R26, R39: RANGE is then declared
at code 0 or 65535 and cleared at any other, and DOMAIN_ALARM is raised exactly on a change. R34, R37: in HOLDOVER, new-leader
pending or not, the same, and the domain returns to TRACK: the holdover deadline stops and DOMAIN_STATE is raised. Either way
new-leader pending is cleared. The reply's layout is the model's (log 14); a sample time or an error beyond 64 bits is a
free value (logs 10, 11). -/
def Obligations.BeaconTracks : Prop :=
  ∀ (s : State) (tag : Byte) (body : List Byte) (d : DomainId) (c : Capture) (a : Anchor), s.part.TakesRequests →
    body.length = 16 → DomainId.ofCode (field body 0 1) = some d →
    let x := s.part.domain d
    let seq : Word16 := BitVec.ofNat 16 (field body 6 2)
    x.setup.role = .follow → x.state = .track ∨ x.state = .holdover → x.anchor = some a →
    s.part.capture.find (BitVec.ofNat 8 (field body 1 1)) = some c → c.input = .rx →
    x.setup.leaderId = BitVec.ofNat 32 (field body 2 4) → x.accepts seq = true →
    let g := convert a x.code c.time
    let e : Int := (toDomainTime ((field body 8 8 : Int) + s.part.pathDelay d) : Int) - g
    e.natAbs ≤ x.setup.stepThreshold →
    let q := (s.part.toHunt.claim c.number).heardEffects d seq
    let code := if (x.setup.deadband : Int) < e then min 65535 (x.code + 1)
      else if e < -(x.setup.deadband : Int) then x.code - 1 else x.code
    let updated : Domain := { q.domain d with
      newLeader := false, outlierRun := 0, code := code
      anchor := some ⟨c.time, toDomainTime (g + e.tdiv (2 ^ x.setup.filterShift))⟩ }
    let atEnd := decide (code = 0 ∨ code = 65535)
    let tracked := if x.range = atEnd then q.setDomain d updated
      else (q.setDomain d { updated with range := atEnd }).raise .domainAlarm (.domain d)
    exec (.beac tag body) s = .next (s.replied
      (if x.state = .holdover then
        (tracked.setDomain d { tracked.domain d with state := .track, holdover := none }).raise .domainState (.domain d)
       else tracked)
      .beac tag ([2#8] ++ optBytes 8 signedBytes (some e) ++
        [2#8, 0xFF#8] ++ leBytes 2 code))

/-- R27: an outlier in TRACK or HOLDOVER short of N_step leaves the anchor and the code: only the run and the outliers tally
rise. R27, R37: the outlier that reaches N_step, or the one judged alone while new-leader pending is set, takes the step action
at once: the run is 0, new-leader pending cleared, outliers and steps rise. R28: STEP, and REACQUIRE with w = 0: the anchor is
the sample, the code stays, the error is the last step error, DOMAIN_STEP is raised, and from HOLDOVER the domain returns to
TRACK, its deadline stopped, with DOMAIN_STATE. R29: REACQUIRE: ACQUIRE, QUEUED, WARM, the sample as anchor, the error
recorded, no deadline, DOMAIN_STATE; the domain joins the search queue, and its zones are held, in the order that log 35 chooses.
The reply's layout is the model's (log 14); a sample time or an error beyond 64 bits is a free value (logs 10, 11). -/
def Obligations.OutliersAndSteps : Prop :=
  (∀ (s : State) (tag : Byte) (body : List Byte) (d : DomainId) (c : Capture) (a : Anchor), s.part.TakesRequests →
     body.length = 16 → DomainId.ofCode (field body 0 1) = some d →
     let x := s.part.domain d
     let seq : Word16 := BitVec.ofNat 16 (field body 6 2)
     x.setup.role = .follow → x.state = .track ∨ x.state = .holdover → x.anchor = some a →
     s.part.capture.find (BitVec.ofNat 8 (field body 1 1)) = some c → c.input = .rx →
     x.setup.leaderId = BitVec.ofNat 32 (field body 2 4) → x.accepts seq = true →
     let sample := toDomainTime ((field body 8 8 : Int) + s.part.pathDelay d)
     let e : Int := (sample : Int) - convert a x.code c.time
     x.setup.stepThreshold < e.natAbs →
     let q := ((s.part.toHunt.claim c.number).heardEffects d seq).tally (.domain d .outliers)
     (x.newLeader = false → x.outlierRun + 1 < x.setup.nStep →
       exec (.beac tag body) s = .next (s.replied
         (q.setDomain d { q.domain d with outlierRun := x.outlierRun + 1 })
         .beac tag ([3#8] ++ optBytes 8 signedBytes (some e) ++ [x.state.code, 0xFF#8] ++ leBytes 2 x.code))) ∧
     (x.newLeader = true ∨ x.setup.nStep ≤ x.outlierRun + 1 →
       let r := (q.setDomain d { q.domain d with outlierRun := 0, newLeader := false }).tally (.domain d .steps)
       let stepped :=
         (r.setDomain d { r.domain d with anchor := some ⟨c.time, sample⟩, lastStepError := some e }).raise .domainStep (.domain d)
       let queued := (r.setDomain d { r.domain d with
         anchor := some ⟨c.time, sample⟩, lastStepError := some e,
         state := .acquire .queued, startKind := .warm, holdover := none }).raise .domainState (.domain d)
       let acquiring :=
         (({ queued with engine := { queued.engine with queue := queued.engine.queue ++ [d] } } : Part).engineTake).holdZones d
       let answered := fun t : Part => Host.Outcome.next (s.replied t .beac tag
         ([4#8] ++ optBytes 8 signedBytes (some e) ++ [(t.domain d).state.code, (t.domain d).state.phaseCode] ++
           leBytes 2 (t.domain d).code))
       (x.setup.stepAction = .step ∨ x.setup.warmWidth = 0 → x.state = .track → exec (.beac tag body) s = answered stepped) ∧
       (x.setup.stepAction = .step ∨ x.setup.warmWidth = 0 → x.state = .holdover → exec (.beac tag body) s = answered
         ((stepped.setDomain d { stepped.domain d with state := .track, holdover := none }).raise .domainState (.domain d))) ∧
       (x.setup.stepAction = .reacquire → x.setup.warmWidth ≠ 0 → exec (.beac tag body) s = answered acquiring))) ∧
  (∀ (p : Part) (d : DomainId) (a : Anchor) (e : Int), (p.domain d).state = .track →
     p.stepTo d a e =
       (p.setDomain d { p.domain d with anchor := some a, lastStepError := some e }).raise .domainStep (.domain d))

/-- R23: in every state of a following domain a BEAC that passes its checks claims the capture, has the heard sample's effects
(O21), and hands the sample to the rule of the state; it answers the outcome of that handling, the phase error by the anchor
and code held before, absent without an anchor, and the state, phase and code held after. R24, R35: the first sample of
WAITING and of LOST becomes the anchor; warm with w = 0 the domain is in TRACK and its zones resume, else it joins the search queue, from LOST warm and with
DOMAIN_STATE. In QUEUED a sample only moves the anchor. R45, R46: the free engine takes the front of the queue at once:
ANCHORED, settled code 0 and bit 15 cold, the w low bits cleared and bit w − 1 warm, the first candidate in the code. R47: the
next sample anchors the first window, SEARCHING. R48, R49, R50: below W a sample is only counted; the W-th decides the bit,
kept when e is above 0, and anchors the next window at the next bit down. R51: the decision at bit 0 leaves the final code and
the sample as anchor, judges RANGE as the tracking update does, frees the engine for the waiting domain, and the domain is in
TRACK with DOMAIN_STATE and its zones resumed. R37: in ACQUIRE and LOST the sample clears new-leader pending. That the first
sample in LOST with w = 0 keeps the start kind and the outlier run is the model's choice (log 18): R35 names neither. So is the
order in which the zones resume (log 35); a sample time or an error beyond 64 bits is a free value (logs 10, 11). -/
def Obligations.SearchTakesSamples : Prop :=
  (∀ (s : State) (tag : Byte) (body : List Byte) (d : DomainId) (c : Capture), s.part.TakesRequests →
     body.length = 16 → DomainId.ofCode (field body 0 1) = some d →
     let x := s.part.domain d
     let seq : Word16 := BitVec.ofNat 16 (field body 6 2)
     x.setup.role = .follow → x.state ≠ .unbound →
     s.part.capture.find (BitVec.ofNat 8 (field body 1 1)) = some c → c.input = .rx →
     x.setup.leaderId = BitVec.ofNat 32 (field body 2 4) → x.accepts seq = true →
     let sample := toDomainTime ((field body 8 8 : Int) + s.part.pathDelay d)
     let g := x.anchor.map (fun a => convert a x.code c.time)
     let e : Option Int := g.map (fun t : Nat => (sample : Int) - (t : Int))
     let handled := ((s.part.toHunt.claim c.number).heardEffects d seq).handleSample d ⟨c.time, sample⟩ g e
     let y := handled.1.domain d
     exec (.beac tag body) s = .next (s.replied handled.1 .beac tag ([handled.2.code] ++
       (match e with | none => 0#8 :: List.replicate 8 0#8 | some v => 1#8 :: signedBytes v) ++
       [y.state.code, y.state.phaseCode] ++ leBytes 2 y.code))) ∧
  (BeaconOutcome.anchored.code = 0#8 ∧ BeaconOutcome.window.code = 1#8) ∧
  (∀ (p : Part) (d : DomainId) (a : Anchor) (g : Option DomainTime) (e : Option Int),
     let x := p.domain d
     let w := x.setup.warmWidth
     let join := fun q : Part => ({ q with engine := { q.engine with queue := q.engine.queue ++ [d] } } : Part).engineTake
     let kept := { x with newLeader := false, anchor := some a }
     let tracking := ((p.setDomain d { kept with state := .track, holdover := none }).raise .domainState (.domain d)).resumeZones d
     (x.state = .acquire .waiting → x.startKind = .warm → w = 0 → p.handleSample d a g e = (tracking, .anchored)) ∧
     (x.state = .acquire .waiting → x.startKind = .cold ∨ w ≠ 0 →
       p.handleSample d a g e = (join (p.setDomain d { kept with state := .acquire .queued }), .anchored)) ∧
     (x.state = .acquire .queued → p.handleSample d a g e = (p.setDomain d kept, .anchored)) ∧
     (x.state = .acquire .anchored →
       p.handleSample d a g e = (p.setDomain d { kept with state := .acquire .searching }, .anchored)) ∧
     (∀ err, x.state = .acquire .searching → e = some err →
       p.handleSample d a g e = ((p.setDomain d { x with newLeader := false }).windowSample d a err, .window)) ∧
     (x.state = .lost → w = 0 → p.handleSample d a g e = (tracking, .anchored)) ∧
     (x.state = .lost → w ≠ 0 → p.handleSample d a g e =
       (join ((p.setDomain d { kept with
         state := .acquire .queued, startKind := .warm, outlierRun := 0, holdover := none }).raise .domainState (.domain d)),
         .anchored))) ∧
  (∀ (p : Part) (d : DomainId) (rest : List DomainId), p.engine.served = none → p.engine.queue = d :: rest →
     let x := p.domain d
     let w := x.setup.warmWidth
     let settled := if x.startKind = .cold then 0 else x.code / 2 ^ w * 2 ^ w
     let bit := if x.startKind = .cold then 15 else w - 1
     p.engineTake = { p with
       engine := ⟨some ⟨d, x.code, settled, bit, 0⟩, rest⟩
       domains := p.domains.set d { x with state := .acquire .anchored, code := settled + 2 ^ bit } }) ∧
  (∀ p : Part, p.engine.served ≠ none ∨ p.engine.queue = [] → p.engineTake = p) ∧
  (∀ (p : Part) (d : DomainId) (a : Anchor) (e : Int) (r : Search), p.engine.served = some r →
     let settled := if 0 < e then r.settledCode + 2 ^ r.bit else r.settledCode
     (r.windowCount + 1 < (p.domain d).setup.window →
       p.windowSample d a e =
         { p with engine := { p.engine with served := some { r with windowCount := r.windowCount + 1 } } }) ∧
     ((p.domain d).setup.window ≤ r.windowCount + 1 → r.bit ≠ 0 →
       p.windowSample d a e =
         { p with engine := { p.engine with served := some { r with settledCode := settled, bit := r.bit - 1, windowCount := 0 } },
                  domains := p.domains.set d { p.domain d with anchor := some a, code := settled + 2 ^ (r.bit - 1) } }) ∧
     ((p.domain d).setup.window ≤ r.windowCount + 1 → r.bit = 0 →
       let freed : Part := { p with engine := { p.engine with served := none },
                                    domains := p.domains.set d { p.domain d with code := settled, anchor := some a, outlierRun := 0 } }
       let atEnd := decide (settled = 0 ∨ settled = 65535)
       let judged := if (p.domain d).range = atEnd then freed
         else (freed.setDomain d { freed.domain d with range := atEnd }).raise .domainAlarm (.domain d)
       let taken := judged.engineTake
       p.windowSample d a e =
         ((taken.setDomain d { taken.domain d with state := .track, holdover := none }).raise .domainState (.domain d)).resumeZones
           d))

/-- R36: LCHG of a following domain in TRACK: the new leader id, no last sequence, no outlier run, new-leader pending, no echo
record and no path sample of the domain, and HOLDOVER with its deadline; DOMAIN_STATE is raised. In HOLDOVER and LOST the state
stays; in ACQUIRE the domain goes back to WAITING. R36, R44, R45, R52: back to WAITING: the anchor is absent, the phase
WAITING, the start kind kept, and a place in the search queue left; a served domain's search is abandoned: the entry code is
written back, and the engine takes the domain that waits at once, or is free. A domain that leads or is UNBOUND refuses LCHG.
R38, R52, R125, R160: DREL of a domain that is not UNBOUND: UNBOUND with its setup kept and every running field at its reset
value, no search or queue place, no echo record, path sample or timeout, no schedule entry of the domain; the freed engine
takes the waiting domain; DOMAIN_STATE is raised and its zones are held. In UNBOUND it changes nothing. The empty contents of
the DREL reply (log 14) and the order in which the zones are held (log 35) are the model's. -/
def Obligations.LeaderChangeAndRelease : Prop :=
  (∀ (s : State) (tag : Byte) (body : List Byte) (d : DomainId), s.part.TakesRequests → body.length = 5 →
     DomainId.ofCode (field body 0 1) = some d → (s.part.domain d).setup.role = .follow →
     let x := s.part.domain d
     let y : Domain := { x with setup := { x.setup with leaderId := BitVec.ofNat 32 (field body 1 4) }, lastSequence := none,
                                outlierRun := 0, newLeader := true }
     let emptied : EchoTable := { s.part.echo with records := s.part.echo.records.filter (fun r => r.domain != d),
                                                   samples := s.part.echo.samples.set d [] }
     (x.state = .track → exec (.lchg tag body) s = .next (s.replied
       ((({ s.part with echo := emptied } : Part).setDomain d
         { y with state := .holdover, holdover := some (s.part.localTime + x.setup.holdoverLimit * 24576000) }).raise
         .domainState (.domain d)) .lchg tag [3#8, 0xFF#8])) ∧
     (x.state = .holdover ∨ x.state = .lost → exec (.lchg tag body) s = .next (s.replied
       (({ s.part with echo := emptied } : Part).setDomain d y) .lchg tag [x.state.code, 0xFF#8])) ∧
     (∀ phase, x.state = .acquire phase → exec (.lchg tag body) s = .next (s.replied
       ((({ s.part.toHunt with echo := emptied } : Part).setDomain d y).backToWaiting d) .lchg tag [1#8, 0#8]))) ∧
  (∀ (p : Part) (d : DomainId),
     let x := p.domain d
     let queue := p.engine.queue.filter (fun q => q != d)
     let back := fun code => p.domains.set d { x with code := code, anchor := none, state := .acquire .waiting }
     (∀ r, p.engine.served = some r → r.domain ≠ d →
       p.backToWaiting d = { p with engine := ⟨some r, queue⟩, domains := back x.code }) ∧
     (∀ code, (∃ r, p.engine.served = some r ∧ r.domain = d ∧ code = r.entryCode) ∨ (p.engine.served = none ∧ code = x.code) →
       (queue = [] → p.backToWaiting d = { p with engine := ⟨none, []⟩, domains := back code }) ∧
       (∀ e rest, queue = e :: rest →
         let y := p.domain e
         let w := y.setup.warmWidth
         let settled := if y.startKind = .cold then 0 else y.code / 2 ^ w * 2 ^ w
         let bit := if y.startKind = .cold then 15 else w - 1
         p.backToWaiting d = { p with
           engine := ⟨some ⟨e, y.code, settled, bit, 0⟩, rest⟩
           domains := (back code).set e { y with state := .acquire .anchored, code := settled + 2 ^ bit } }))) ∧
  (∀ (s : State) (tag : Byte) (body : List Byte) (d : DomainId), s.part.TakesRequests → body.length = 5 →
     DomainId.ofCode (field body 0 1) = some d → (s.part.domain d).setup.role = .lead ∨ (s.part.domain d).state = .unbound →
     exec (.lchg tag body) s = .next (s.refusedWith .lchg tag .wrongState [])) ∧
  (∀ (s : State) (tag : Byte) (d : DomainId), s.part.TakesRequests →
     ((s.part.domain d).state = .unbound → exec (.drel tag [d.code]) s = .next (s.replied s.part .drel tag [])) ∧
     ((s.part.domain d).state ≠ .unbound →
       let queue := s.part.engine.queue.filter (fun q => q != d)
       let released : Part := { s.part.toHunt with
         engine := if s.part.engine.serves d then ⟨none, queue⟩ else { s.part.engine with queue := queue }
         echo := { records := s.part.echo.records.filter (fun r => r.domain != d),
                   samples := s.part.echo.samples.set d [], timeouts := s.part.echo.timeouts.set d 0 }
         schedule := { s.part.schedule with entries := s.part.schedule.entries.filter (fun e => e.domain != d) }
         domains := s.part.domains.set d { Domain.reset with setup := (s.part.domain d).setup } }
       exec (.drel tag [d.code]) s =
         .next (s.replied ((released.engineTake.raise .domainState (.domain d)).holdZones d) .drel tag [])))

/-- R30, R33: at the beacon watch deadline the missed count rises, stopping at 16, the tally rises and the deadline moves on by
BI; the expiry that reaches N_loss under CONSEC is a loss event. R33: a loss event declares a LOSS that is clear, with
DOMAIN_ALARM, and raises nothing over one declared; TRACK goes to HOLDOVER with its deadline and DOMAIN_STATE; QUEUED, ANCHORED
and SEARCHING go back to WAITING (as O26 writes out); WAITING, HOLDOVER and LOST stay. R32: at the window end the counts roll
over and the deadline moves on by 8 BI; with 3 or more samples a declared LOSS is cleared; with fewer than 3 in this window and
the last it is a loss event first. R35, R125: at the holdover deadline the domain is LOST, the deadline stopped, anchor and
code kept; DOMAIN_STATE is raised and the domain's zones are held. Before it nothing happens. R125: an ARMED zone is held with
resume state ARMED, one in PLAYING, STARVED or DRAINED with RUNNING: not aligned, the mixer at rest, P, queues, start and
pending entries kept, ZONE_STATE; one in STOPPING goes to IDLE, its queues and pending bits gone, with ZONE_STATE. That nothing
happens before a deadline, and that the zones are held in the order Z0 to Z3, are the model's (logs 4, 35). -/
def Obligations.DomainDeadlinesExpire : Prop :=
  (∀ (s : State) (d : DomainId) (t : LocalTime), (s.part.domain d).watch = some t → t ≤ s.part.localTime →
     let x := s.part.domain d
     let q := (s.part.setDomain d { x with missed := min 16 (x.missed + 1),
                                           watch := some (t + x.setup.beaconInterval * 24576) }).tally (.domain d .beaconsMissed)
     (¬(x.setup.lossCriterion = .consec ∧ x.missed + 1 = x.setup.nLoss) →
       exec (.beaconWatchExpiry d) s = .next { s with part := q }) ∧
     (x.setup.lossCriterion = .consec → x.missed + 1 = x.setup.nLoss →
       exec (.beaconWatchExpiry d) s = .next { s with part := q.lossEvent d })) ∧
  (∀ (p : Part) (d : DomainId),
     let x := p.domain d
     let lost : Domain := { x with loss := true }
     let declared := if x.loss = true then p else (p.setDomain d lost).raise .domainAlarm (.domain d)
     (x.state = .track → p.lossEvent d = (declared.setDomain d { lost with
       state := .holdover, holdover := some (p.localTime + x.setup.holdoverLimit * 24576000) }).raise .domainState (.domain d)) ∧
     (x.state = .acquire .queued ∨ x.state = .acquire .anchored ∨ x.state = .acquire .searching →
       p.lossEvent d = declared.backToWaiting d) ∧
     (x.state = .acquire .waiting ∨ x.state = .holdover ∨ x.state = .lost → p.lossEvent d = declared)) ∧
  (∀ (s : State) (d : DomainId) (t : LocalTime), (s.part.domain d).windowEnd = some t → t ≤ s.part.localTime →
     let x := s.part.domain d
     let rolled := fun p : Part => p.setDomain d { p.domain d with
       sparsePrevious := x.sparseCurrent, sparseCurrent := 0, windowEnd := some (t + 8 * (x.setup.beaconInterval * 24576)) }
     (x.sparseCurrent < 3 → x.sparsePrevious < 3 →
       exec (.windowEnd d) s = .next { s with part := rolled (s.part.lossEvent d) }) ∧
     (x.sparseCurrent < 3 → 3 ≤ x.sparsePrevious → exec (.windowEnd d) s = .next { s with part := rolled s.part }) ∧
     (3 ≤ x.sparseCurrent → x.loss = false → exec (.windowEnd d) s = .next { s with part := rolled s.part }) ∧
     (3 ≤ x.sparseCurrent → x.loss = true →
       exec (.windowEnd d) s = .next { s with
         part := rolled ((s.part.setDomain d { x with loss := false }).raise .domainAlarm (.domain d)) })) ∧
  (∀ (s : State) (d : DomainId) (t : LocalTime), (s.part.domain d).holdover = some t →
     (t ≤ s.part.localTime → exec (.holdoverExpiry d) s = .next { s with
       part := ((s.part.setDomain d { s.part.domain d with state := .lost, holdover := none }).raise .domainState
         (.domain d)).holdZones d }) ∧
     (s.part.localTime < t → exec (.holdoverExpiry d) s = .next s)) ∧
  (∀ (p : Part) (d : DomainId),
     let hold := fun (q : Part) (z : ZoneId) => if (q.zone z).setup.domain = d then q.holdZone z else q
     p.holdZones d = hold (hold (hold (hold p .z0) .z1) .z2) .z3) ∧
  (∀ (p : Part) (z : ZoneId),
     let x := p.zone z
     let held := fun r : ResumeState =>
       (p.setZone z { x with state := .held r, aligned := false, mixer := x.mixer.quiet }).raise .zoneState (.zone z)
     (x.state = .armed → p.holdZone z = held .armed) ∧
     (x.state = .playing ∨ x.state = .starved ∨ x.state = .drained → p.holdZone z = held .running) ∧
     (∀ n, x.state = .stopping n →
       let q := p.holdZone z
       q.zone z = { x with state := .idle, start := none, position := none, aligned := false, lastFrame := none,
                           mainQueue := [], overlayQueue := [], mixer := x.mixer.quiet } ∧
       (∀ w, w ≠ z → q.zone w = p.zone w) ∧ (∀ e ∈ q.schedule.entries, e.pending.get z = false) ∧
       q.pool = (x.mainQueue ++ x.overlayQueue).foldl BlockPool.release p.pool ∧ q.domains = p.domains ∧ q.tallies = p.tallies ∧
       q.indications.isPending ⟨.zoneState, .zone z⟩ = true ∧
       q = { p with zones := q.zones, pool := q.pool, schedule := q.schedule, indications := q.indications }) ∧
     (x.state.unstarted = true ∨ (∃ r, x.state = .held r) → p.holdZone z = p))

/-! ### Echo exchanges (chapter 4) -/

/-- R57, R58: an ECHS that passes its checks claims the TX capture and makes a record whose deadline is the departure plus the
echo timeout. R58, R64: a deadline local time has already reached expires at once, after the answer: no record stays, the echo
timeouts and their run rise, and at 4 PATH is declared (an alarm as O30 writes it out). R57: the refusals in their order change
nothing. -/
def Obligations.EchoStartMakesARecord : Prop :=
  (∀ (s : State) (tag : Byte) (body : List Byte) (d : DomainId) (c : Capture), s.part.TakesRequests → body.length = 4 →
    DomainId.ofCode (field body 0 1) = some d →
    let x := s.part.domain d
    let seq : Word16 := BitVec.ofNat 16 (field body 1 2)
    x.setup.role = .follow → x.state ≠ .unbound → s.part.echo.find d seq = none → s.part.echo.records.length < 8 →
    s.part.capture.find (BitVec.ofNat 8 (field body 3 1)) = some c → c.input = .tx →
    let r : EchoRecord := ⟨d, seq, c.time, c.time + x.setup.echoTimeout * 24576⟩
    let answered := fun q : Part => Host.Outcome.next (s.replied q .echs tag
      (leBytes 2 seq.toNat ++ timeBytes c.time ++ timeBytes r.deadline ++ leBytes 1 (s.part.echo.records.length + 1)))
    let run := min 4 (s.part.echo.timeouts.get d + 1)
    let expired := ({ s.part.toHunt.claim c.number with
      echo := { s.part.echo with timeouts := s.part.echo.timeouts.set d run } } : Part).tally (.domain d .echoTimeouts)
    (s.part.localTime < r.deadline → exec (.echs tag body) s = answered
      { s.part.claim c.number with echo := { s.part.echo with records := s.part.echo.records ++ [r] } }) ∧
    (r.deadline ≤ s.part.localTime → run < 4 → exec (.echs tag body) s = answered expired) ∧
    (r.deadline ≤ s.part.localTime → run = 4 → exec (.echs tag body) s = answered (expired.setAlarm d .path true))) ∧
  (∀ (s : State) (tag : Byte) (body : List Byte) (d : DomainId), s.part.TakesRequests → body.length = 4 →
    DomainId.ofCode (field body 0 1) = some d →
    let x := s.part.domain d
    let refused := fun status => exec (.echs tag body) s = .next (s.refusedWith .echs tag status [])
    let follows := x.setup.role = .follow ∧ x.state ≠ .unbound
    let found := s.part.echo.find d (BitVec.ofNat 16 (field body 1 2))
    let capture := s.part.capture.find (BitVec.ofNat 8 (field body 3 1))
    (¬follows → refused .wrongState) ∧
    (follows → found ≠ none → refused .duplicate) ∧
    (follows → found = none → 8 ≤ s.part.echo.records.length → refused .tableFull) ∧
    (follows → found = none → s.part.echo.records.length < 8 → capture = none → refused .captureGone) ∧
    (∀ c, follows → found = none → s.part.echo.records.length < 8 → capture = some c → c.input = .rx → refused .wrongInput))

/-- R60, R61: an ECHA that passes its checks claims the capture and removes the record. A negative turnaround or round trip is
answered BAD_ECHO with both and changes nothing more; else half the round trip joins the path list of at most 8, the timeouts
are 0, PATH is cleared (an alarm as O30 writes it out) and the tally rises, and the reply lists the turnaround, the round trip,
the sample, the path delay after it (O31) and the length of the list. R59: the refusals in their order change nothing. A
turnaround or round trip beyond 64 bits is sent as a free value (log 11). -/
def Obligations.EchoAnswerLearnsThePath : Prop :=
  (∀ (s : State) (tag : Byte) (body : List Byte) (d : DomainId) (r : EchoRecord) (c : Capture), s.part.TakesRequests →
    body.length = 20 → DomainId.ofCode (field body 0 1) = some d →
    (s.part.domain d).setup.role = .follow → (s.part.domain d).state ≠ .unbound →
    s.part.echo.find d (BitVec.ofNat 16 (field body 1 2)) = some r →
    s.part.capture.find (BitVec.ofNat 8 (field body 19 1)) = some c → c.input = .rx →
    let turnaround : Int := (field body 11 8 : Int) - field body 3 8
    let trip : Int := ((c.time : Int) - r.departure) - turnaround
    let closed : Part := { s.part.claim c.number with echo := s.part.echo.remove d r.sequence }
    (turnaround < 0 ∨ trip < 0 → exec (.echa tag body) s = .next { s with
      part := closed.toHunt.answer 0x21#8 tag (.refusalWith .badEcho (signedBytes turnaround ++ signedBytes trip)) }) ∧
    (0 ≤ turnaround → 0 ≤ trip →
      let sample := trip.toNat / 2
      let held := s.part.echo.samples.get d
      let path := (if 8 ≤ held.length then held.tail else held) ++ [sample]
      let learned : Part := { closed with echo := { closed.echo with
        samples := closed.echo.samples.set d path, timeouts := closed.echo.timeouts.set d 0 } }
      exec (.echa tag body) s = .next (s.replied
        ((learned.toHunt.setAlarm d .path false).tally (.domain d .echoAnswers)) .echa tag
        (signedBytes turnaround ++ signedBytes trip ++ leBytes 4 sample ++ leBytes 4 (learned.pathDelay d) ++
          leBytes 1 path.length)))) ∧
  (∀ (s : State) (tag : Byte) (body : List Byte) (d : DomainId), s.part.TakesRequests → body.length = 20 →
    DomainId.ofCode (field body 0 1) = some d →
    let x := s.part.domain d
    let refused := fun status => exec (.echa tag body) s = .next (s.refusedWith .echa tag status [])
    let follows := x.setup.role = .follow ∧ x.state ≠ .unbound
    let found := s.part.echo.find d (BitVec.ofNat 16 (field body 1 2))
    let capture := s.part.capture.find (BitVec.ofNat 8 (field body 19 1))
    (¬follows → refused .wrongState) ∧
    (follows → found = none → refused .noEntry) ∧
    (follows → found ≠ none → capture = none → refused .captureGone) ∧
    (∀ c, follows → found ≠ none → capture = some c → c.input = .tx → refused .wrongInput))

/-- R62, R63: at a record's deadline it is removed, echo timeouts rise, and the consecutive timeouts rise, stopping at 4, where
PATH is declared; before it nothing happens. R39: an alarm that is declared or cleared is written, and DOMAIN_ALARM raised,
exactly on a change. That nothing happens before a deadline is the model's reading (log 4). -/
def Obligations.EchoRecordExpires : Prop :=
  (∀ (s : State) (d : DomainId) (n : Word16) (r : EchoRecord), s.part.echo.find d n = some r →
    let q := fun k => ({ s.part with echo := { s.part.echo.remove d n with timeouts := s.part.echo.timeouts.set d k } } :
      Part).tally (.domain d .echoTimeouts)
    (s.part.localTime < r.deadline → exec (.echoTimeout d n) s = .next s) ∧
    (r.deadline ≤ s.part.localTime → s.part.echo.timeouts.get d + 1 < 4 →
      exec (.echoTimeout d n) s = .next { s with part := q (s.part.echo.timeouts.get d + 1) }) ∧
    (r.deadline ≤ s.part.localTime → 4 ≤ s.part.echo.timeouts.get d + 1 →
      exec (.echoTimeout d n) s = .next { s with part := (q 4).setAlarm d .path true })) ∧
  (∀ (p : Part) (d : DomainId) (on : Bool),
    let x := p.domain d
    let changed := fun y : Domain => (p.setDomain d y).raise .domainAlarm (.domain d)
    p.setAlarm d .loss on = (if x.loss = on then p else changed { x with loss := on }) ∧
    p.setAlarm d .path on = (if x.path = on then p else changed { x with path := on }) ∧
    p.setAlarm d .range on = (if x.range = on then p else changed { x with range := on }))

/-- R56: the path delay in force is the smallest sample of a path list that holds one, and a member of it; else the initial
path delay. A sample joining a list of 8 pushes the oldest out. -/
def Obligations.PathDelayIsTheMinimum : Prop :=
  (∀ (p : Part) (d : DomainId), p.echo.samples.get d = [] → p.pathDelay d = (p.domain d).setup.initialPathDelay) ∧
  (∀ (p : Part) (d : DomainId), p.echo.samples.get d ≠ [] →
    p.pathDelay d ∈ p.echo.samples.get d ∧ ∀ x ∈ p.echo.samples.get d, p.pathDelay d ≤ x) ∧
  (∀ (l : List Nat) (x : Nat), l.length < 8 → joinPath l x = l ++ [x]) ∧
  (∀ (l : List Nat) (x : Nat), l.length = 8 → joinPath l x = l.tail ++ [x])

/-! ### The pool, the filter and the queues (chapters 5 and 6) -/

/-- R74: a filter entry matches a stream exactly when it is enabled and the stream agrees with the match value in every bit
where the mask has a 1. All ones match one stream, all zeros every stream, and 0xFFFF0000 with 0x00A10000 exactly the streams
0x00A10000..0x00A1FFFF. -/
def Obligations.FilterEntryMatches : Prop :=
  (∀ (e : FilterEntry) (stream : Word32), e.matchesStream stream = true ↔
    e.enabled = true ∧ ∀ i < 32, e.mask.getLsbD i = true → stream.getLsbD i = e.matchValue.getLsbD i) ∧
  (∀ (e : FilterEntry) (stream : Word32), e.enabled = true → e.mask = 0xFFFFFFFF#32 →
    (e.matchesStream stream = true ↔ stream = e.matchValue)) ∧
  (∀ (e : FilterEntry) (stream : Word32), e.enabled = true → e.mask = 0#32 → e.matchesStream stream = true) ∧
  (∀ (e : FilterEntry) (stream : Word32), e.enabled = true → e.mask = 0xFFFF0000#32 → e.matchValue = 0x00A10000#32 →
    (e.matchesStream stream = true ↔ 0x00A10000 ≤ stream.toNat ∧ stream.toNat ≤ 0x00A1FFFF))

/-- R75: the lowest-numbered entry that matches gives the route; when none does, the default. -/
def Obligations.FirstMatchingEntryDecides : Prop :=
  ∀ (f : StreamFilter) (stream : Word32),
    (∀ (i : Nat) (h : i < 16), f.entries[i].matchesStream stream = true →
      (∀ (j : Nat) (hj : j < i), f.entries[j].matchesStream stream = false) →
      f.route stream = ⟨some i, f.entries[i].action, f.entries[i].zones⟩) ∧
    ((∀ (i : Nat) (h : i < 16), f.entries[i].matchesStream stream = false) →
      f.route stream = ⟨none, f.defaultAction, f.defaultZones⟩)

/-- R72, R76, R77: PWMK writes the watermark and raises nothing; FSET replaces one entry whole; FDEF writes the default, answers it
and the default before, and refuses OVERLAY. -/
def Obligations.PoolAndFilterWrites : Prop :=
  ∀ (s : State) (tag a b : Byte) (body : List Byte), s.part.TakesRequests →
    (a.toNat + 256 * b.toNat ≤ 512 → exec (.pwmk tag [a, b]) s = .next (s.replied
      { s.part with pool := { s.part.pool with watermark := a.toNat + 256 * b.toNat } } .pwmk tag
      ([a, b] ++ leBytes 2 s.part.pool.freeCount))) ∧
    (512 < a.toNat + 256 * b.toNat → exec (.pwmk tag [a, b]) s = .next (s.refusedWith .pwmk tag .badField [])) ∧
    (∀ (h : field body 0 1 < 16) e, body.length = 12 → FilterEntry.ofBody body = some e →
      exec (.fset tag body) s = .next (s.replied
        { s.part with filter := { s.part.filter with entries := s.part.filter.entries.set (field body 0 1) e } } .fset tag
        (e.bytes ++ s.part.filter.entries[field body 0 1].bytes))) ∧
    (∀ action zones, FilterAction.ofCode a.toNat = some action → ZoneSet.ofCode b.toNat = some zones →
      (action ≠ .overlay → exec (.fdef tag [a, b]) s = .next (s.replied
        { s.part with filter := { s.part.filter with defaultAction := action, defaultZones := zones } } .fdef tag
        [a, b, s.part.filter.defaultAction.code, ZoneSet.code s.part.filter.defaultZones])) ∧
      (action = .overlay → exec (.fdef tag [a, b]) s = .next (s.refusedWith .fdef tag .badField [])))

/-- R78, R79: a PBLK whose fields fail is refused and changes nothing; one whose route is REJECT is answered REJECTED, and
only the filter-rejects tally rises. R82, R83, R85: a block that a zone of its route accepts while a slot is free is stored
in the lowest free slot with the accepting zones as holders and queued in each of them; each refusing zone counts it. The
reply is left out exactly when the delivery is quiet and every zone accepted. R81: with no slot free every passing zone's
result is NO_SLOT, and the pool-exhausted tally rises by one. R84: with no zone accepting the answer is REFUSED. R80, R88, R89,
R90, R91: the seven checks of a zone in their order, the first that fails giving the result; a block's end beyond 64 bits is
compared exactly (log 28). The reply's layout is the model's (log 14). -/
def Obligations.BlocksAreDelivered : Prop :=
  (∀ (s : State) (tag : Byte) (body : List Byte), s.part.TakesRequests → 22 ≤ body.length →
     (Delivery.ofBody body = none → exec (.pblk tag body) s = .next (s.refusedWith .pblk tag .badField [])) ∧
     (∀ dl, Delivery.ofBody body = some dl → (s.part.filter.route dl.block.stream).action = .reject →
       exec (.pblk tag body) s = .next { s with
         part := (s.part.toHunt.tally (.part .filterRejects)).answer 0x2A#8 tag (.refusalWith .rejected
           (deliveryBytes dl.block (s.part.filter.route dl.block.stream) none none s.part.pool.freeCount [])) })) ∧
  (∀ (s : State) (tag : Byte) (body : List Byte) (dl : Delivery) (t : Target) (slot : Nat), s.part.TakesRequests →
     22 ≤ body.length → Delivery.ofBody body = some dl →
     let r := s.part.filter.route dl.block.stream
     (r.action = .main ∧ t = .main ∨ r.action = .overlay ∧ t = .overlay) →
     let results := (ZoneSet.members r.zones).map (fun z => (z, s.part.pool.judge (s.part.zone z) t dl.block))
     let passing := (results.filter (fun x => x.2 == .accepted)).map Prod.fst
     passing ≠ [] → s.part.pool.lowestFree = some slot →
     let q := (s.part.toHunt.storeBlock dl.block t slot passing).countRefused results
     exec (.pblk tag body) s = .next
       (if dl.quiet = true ∧ passing.length = results.length then { s with part := q }
        else s.replied q .pblk tag (deliveryBytes dl.block r (some t) (some slot) q.pool.freeCount results))) ∧
  (∀ (s : State) (tag : Byte) (body : List Byte) (dl : Delivery) (t : Target), s.part.TakesRequests →
     22 ≤ body.length → Delivery.ofBody body = some dl →
     let r := s.part.filter.route dl.block.stream
     (r.action = .main ∧ t = .main ∨ r.action = .overlay ∧ t = .overlay) →
     let results := (ZoneSet.members r.zones).map (fun z => (z, s.part.pool.judge (s.part.zone z) t dl.block))
     let refused := fun (q : Part) (results : List (ZoneId × ZoneResult)) => Host.Outcome.next { s with
       part := q.answer 0x2A#8 tag (.refusalWith .refused (deliveryBytes dl.block r (some t) none q.pool.freeCount results)) }
     ((∀ x ∈ results, x.2 ≠ .accepted) → exec (.pblk tag body) s = refused (s.part.toHunt.countRefused results) results) ∧
     ((∃ x ∈ results, x.2 = .accepted) → s.part.pool.lowestFree = none →
       let short := results.map (fun x => if x.2 = .accepted then (x.1, .noSlot) else x)
       exec (.pblk tag body) s = refused ((s.part.toHunt.tally (.part .poolExhausted)).countRefused short) short)) ∧
  (∀ (p : Part) (results : List (ZoneId × ZoneResult)), p.countRefused results =
     results.foldl (fun q x => if x.2 = .accepted then q else q.tally (.zone x.1 .blocksRefused)) p) ∧
  (∀ (pool : BlockPool) (x : Zone) (t : Target) (b : Block),
     let tpf := x.setup.rate.tpf
     let stop := b.time + b.frames * tpf
     let pos : Nat := x.position.getD 0
     let off := x.state = .disabled ∨ x.state = .idle ∨ ∃ n, x.state = .stopping n
     let held := ∃ n ∈ x.queue t, ∃ c, pool.blockOf n = some c ∧ c.stream = b.stream ∧ c.sequence = b.sequence
     let late := stop * 65536 ≤ pos
     let early := pos + x.setup.horizon * 24576 * 65536 < b.time * 65536
     let overlap := ∃ n ∈ x.queue t, b.time < pool.entryEnd tpf n ∧ pool.entryStart n < stop
     let result := pool.judge x t b
     (off → result = .zoneOff) ∧
     (¬off → b.rate ≠ x.setup.rate → result = .rate) ∧
     (¬off → b.rate = x.setup.rate → held → result = .duplicate) ∧
     (¬off → b.rate = x.setup.rate → ¬held → late → result = .late) ∧
     (¬off → b.rate = x.setup.rate → ¬held → ¬late → early → result = .early) ∧
     (¬off → b.rate = x.setup.rate → ¬held → ¬late → ¬early → overlap → result = .overlap) ∧
     (¬off → b.rate = x.setup.rate → ¬held → ¬late → ¬early → ¬overlap → x.setup.quota t ≤ (x.queue t).length →
       result = .quota) ∧
     (¬off → b.rate = x.setup.rate → ¬held → ¬late → ¬early → ¬overlap → (x.queue t).length < x.setup.quota t →
       result = .accepted))

/-- R68, R82, R88: what storing a block does: the slot holds it with the accepting zones as holders, every other slot is as it
was, and each accepting zone's target queue gains exactly this slot, at the place of its presentation time: after every entry
that starts earlier, and, in a queue of ascending starts, before every other. POOL_LOW is raised exactly on the fall through
the watermark. -/
def Obligations.StoringABlock : Prop :=
  ∀ (p : Part) (b : Block) (t : Target) (slot : Nat) (zs : List ZoneId), zs.Nodup → p.pool.find slot = none →
    let q := p.storeBlock b t slot zs
    q.pool.find slot = some ⟨slot, zs.length, b⟩ ∧
    (∀ n, n ≠ slot → q.pool.find n = p.pool.find n) ∧
    (∀ z ∈ zs, ∃ front back, (p.zone z).queue t = front ++ back ∧
      (∀ n ∈ front, q.pool.entryStart n < b.time) ∧ (∀ n, back.head? = some n → b.time ≤ q.pool.entryStart n) ∧
      (((p.zone z).queue t).Pairwise (fun m n => q.pool.entryStart m < q.pool.entryStart n) →
        ∀ n ∈ back, b.time ≤ q.pool.entryStart n) ∧
      (q.zone z).queue t = front ++ slot :: back ∧
      q.zone z = (p.zone z).setQueue t (front ++ slot :: back)) ∧
    (∀ z, z ∉ zs → q.zone z = p.zone z) ∧
    q.indications = (if p.pool.watermark ≤ p.pool.freeCount ∧ q.pool.freeCount < p.pool.watermark
      then p.raise .poolLow .part else p).indications

/-- R69: a removal lowers the holder count of its slot by one and frees the slot at 0; no other slot changes. R93, R94: the
entries of a queue whose end is at or before P leave as played, in queue order: each is released, a main block counts as played
and sets the last-block-was-final mark to its FINAL flag, and a block with MARK becomes the last marker, its slot kept beside
it for the marker reports (R68, log 33), and raises MARKER. R95: what a jump leaves wholly behind is dropped late, counted,
with no marker and no mark. -/
def Obligations.ReleaseLowersTheHolderCount : Prop :=
  (∀ (pool : BlockPool) (n : Nat) (h : HeldSlot), (pool.held.map HeldSlot.number).Nodup → pool.find n = some h →
    (h.holders ≤ 1 → (pool.release n).find n = none) ∧
    (1 < h.holders → (pool.release n).find n = some { h with holders := h.holders - 1 }) ∧
    ∀ m, m ≠ n → (pool.release n).find m = pool.find m) ∧
  (∀ (p : Part) (z : ZoneId) (n : Nat) (h : HeldSlot), p.pool.find n = some h →
    let marked := fun q : Part =>
      if h.block.mark = true then
        (q.setZone z { q.zone z with
          lastMarker := some ⟨h.block.stream, h.block.sequence, p.localTime⟩, lastMarkerSlot := some n }).raise .marker (.zone z)
      else q
    let counted := p.tally (.zone z .blocksPlayed)
    p.playedMain z n = (marked (counted.setZone z { counted.zone z with lastFinal := h.block.final })).release n ∧
    p.playedOverlay z n = (marked p).release n) ∧
  (∀ (p : Part) (z : ZoneId) (pos : Position),
    let x := p.zone z
    let ended := fun n : Nat => decide (p.pool.entryEnd x.setup.rate.tpf n * 65536 ≤ pos)
    let left := p.setZone z { x with mainQueue := x.mainQueue.filter (fun n => !ended n) }
    let leftOverlay := p.setZone z { x with overlayQueue := x.overlayQueue.filter (fun n => !ended n) }
    p.playMain z pos = (x.mainQueue.filter ended).foldl (fun q n => q.playedMain z n) left ∧
    p.playOverlay z pos = (x.overlayQueue.filter ended).foldl (fun q n => q.playedOverlay z n) leftOverlay ∧
    p.dropLateMain z pos =
      (left.releaseAll (x.mainQueue.filter ended)).tallyTimes (.zone z .droppedLate) (x.mainQueue.filter ended).length ∧
    p.dropLateOverlay z pos =
      (leftOverlay.releaseAll (x.overlayQueue.filter ended)).tallyTimes (.zone z .droppedLate)
        (x.overlayQueue.filter ended).length ∧
    p.dropLate z pos = (p.dropLateMain z pos).dropLateOverlay z pos)

/-- R99: ZFLU removes from the queues it names the entries that start at F or later, releases their slots, and tests the low
watermark on a fall of the main queue; the zone's state, position and everything else stay. The reply lists the entries removed
from each queue, the length of each after, the slots freed and the free count after. R102: the test raises QUEUE_LOW exactly
when the main queue fell from the low watermark or above to below it. -/
def Obligations.FlushRemovesFromF : Prop :=
  (∀ (s : State) (tag : Byte) (body : List Byte) (z : ZoneId) (sel : QueueSelector), s.part.TakesRequests → body.length = 10 →
    ZoneId.ofCode (field body 0 1) = some z → QueueSelector.ofCode (field body 1 1) = some sel →
    let f := field body 2 8
    let x := s.part.zone z
    let late := fun n : Nat => decide (f ≤ s.part.pool.entryStart n)
    let main := sel = .main ∨ sel = .both
    let overlay := sel = .overlay ∨ sel = .both
    let mainGone := if main then x.mainQueue.filter late else []
    let overlayGone := if overlay then x.overlayQueue.filter late else []
    let mainLeft := if main then x.mainQueue.filter (fun n => !late n) else x.mainQueue
    let overlayLeft := if overlay then x.overlayQueue.filter (fun n => !late n) else x.overlayQueue
    let freed := (mainGone ++ overlayGone).foldl BlockPool.release s.part.pool
    let q : Part := { s.part.setZone z { x with mainQueue := mainLeft, overlayQueue := overlayLeft } with pool := freed }
    exec (.zflu tag body) s = .next (s.replied (if main then q.testLowWatermark z x.mainQueue.length else q) .zflu tag
      (leBytes 2 mainGone.length ++ leBytes 2 overlayGone.length ++ leBytes 2 mainLeft.length ++ leBytes 2 overlayLeft.length ++
        leBytes 2 (freed.freeCount - s.part.pool.freeCount) ++ leBytes 2 freed.freeCount))) ∧
  (∀ (p : Part) (z : ZoneId) (before : Nat),
    let x := p.zone z
    let fell := x.setup.lowWatermark ≤ before ∧ x.mainQueue.length < x.setup.lowWatermark
    (fell → p.testLowWatermark z before = p.raise .queueLow (.zone z)) ∧ (¬fell → p.testLowWatermark z before = p))

/-! ### Zones and mixers (chapters 7 and 8) -/

/-- R106, R135: ZSET of an unstarted zone writes the whole setup, moves a running port to the grid of a changed rate, and
lowers the zone gain to a lower ceiling; a started zone refuses it. That the resting main gain follows a lowered ceiling is
the model's reading (log 21). -/
def Obligations.ZoneSetupIsWritten : Prop :=
  ∀ (s : State) (tag : Byte) (body : List Byte) (z : ZoneId) (setup : ZoneSetup), s.part.TakesRequests → body.length = 40 →
    ZoneId.ofCode (field body 0 1) = some z → ZoneSetup.ofBody body = some setup →
    let x := s.part.zone z
    (x.state = .disabled ∨ x.state = .idle →
      let gain := min x.mixer.zoneGain setup.mixer.gainCeiling
      exec (.zset tag body) s = .next (s.replied (s.part.setZone z { x with
        setup := setup
        port := if setup.rate = x.setup.rate then x.port
          else x.port.map (fun _ => nextMultiple s.part.localTime setup.rate.tpf)
        mixer := { x.mixer with zoneGain := gain, mainGain := .rest gain } }) .zset tag setup.bytes)) ∧
    (x.state ≠ .disabled → x.state ≠ .idle → exec (.zset tag body) s = .next (s.refusedWith .zset tag .wrongState []))

/-- R107: ZENA of a DISABLED zone: IDLE, ZONE_STATE, and the port's first frame at the first whole multiple of tpf after now;
in any other state it is refused. The next whole multiple is after now, at most tpf after it, and a multiple. -/
def Obligations.EnableStartsThePort : Prop :=
  (∀ (s : State) (tag : Byte) (z : ZoneId), s.part.TakesRequests →
    let x := s.part.zone z
    let first := nextMultiple s.part.localTime x.setup.rate.tpf
    (x.state = .disabled → exec (.zena tag [z.code]) s = .next (s.replied
      ((s.part.setZone z { x with state := .idle, port := some first }).raise .zoneState (.zone z)) .zena tag
      ([1#8] ++ timeBytes first))) ∧
    (x.state ≠ .disabled → exec (.zena tag [z.code]) s = .next (s.refusedWith .zena tag .wrongState []))) ∧
  (∀ now tpf : Nat, 0 < tpf →
    now < nextMultiple now tpf ∧ nextMultiple now tpf ≤ now + tpf ∧ tpf ∣ nextMultiple now tpf)

/-- R96, R108, R141, R158: ZDIS of a zone that is not DISABLED: DISABLED with empty queues, no port, start, position or last
frame, not aligned, the mixer at rest at the zone gain; its setup, marks and tallies kept. Each removed entry releases its slot
(R92), the zone leaves every pending set (as O43 writes out), ZONE_STATE is raised, and nothing else changes. The reply counts
the entries removed and the free slots. In DISABLED nothing changes; R108 gives no contents of that OK, and that it counts 0 and
0 entries and the free slots is the model's choice (log 14). So is it that the lanes of the frame the stopped port is emitting
are kept (log 25). -/
def Obligations.DisableEmptiesTheZone : Prop :=
  (∀ (s : State) (tag : Byte) (z : ZoneId), s.part.TakesRequests →
    let x := s.part.zone z
    (x.state = .disabled → exec (.zdis tag [z.code]) s =
      .next (s.replied s.part .zdis tag ([0#8, 0#8] ++ [0#8, 0#8] ++ leBytes 2 s.part.pool.freeCount))) ∧
    (x.state ≠ .disabled →
      let freed := (x.mainQueue ++ x.overlayQueue).foldl BlockPool.release s.part.pool
      let q := ((({ s.part with pool := freed } : Part).leaveSchedule z).setZone z { x with
        state := .disabled, start := none, position := none, aligned := false, lastFrame := none,
        mainQueue := [], overlayQueue := [], port := none, mixer := x.mixer.quiet }).raise .zoneState (.zone z)
      exec (.zdis tag [z.code]) s = .next (s.replied q .zdis tag
        (leBytes 2 x.mainQueue.length ++ leBytes 2 x.overlayQueue.length ++ leBytes 2 freed.freeCount)) ∧
      q.zone z = { x with state := .disabled, start := none, position := none, aligned := false, lastFrame := none,
                          mainQueue := [], overlayQueue := [], port := none, mixer := x.mixer.quiet } ∧
      (∀ w, w ≠ z → q.zone w = s.part.zone w) ∧
      (∀ e ∈ q.schedule.entries, e.pending.get z = false) ∧ q.pool = freed ∧
      q.indications.isPending ⟨.zoneState, .zone z⟩ = true ∧ q.link = s.part.link ∧
      q.domains = s.part.domains ∧ q.capture = s.part.capture ∧ q.echo = s.part.echo ∧ q.engine = s.part.engine ∧
      q.filter = s.part.filter ∧ q.tallies = s.part.tallies ∧ q.localTime = s.part.localTime ∧
      q.globalSubstitution = s.part.globalSubstitution)) ∧
  (∀ m : Mixer, m.quiet = { m with
    mainGain := ⟨m.zoneGain, m.zoneGain, 0, 0⟩, programme := ⟨0, 0, 0, 0⟩, tone := ⟨0, 0, 0, 0⟩, overlayActive := false })

/-- R109: ZRUN of an IDLE zone whose domain is not UNBOUND: ARMED at the target of the port's next frame on a timed domain,
else HELD, resume ARMED, at the start time or 0; the start recorded, the final mark clear, not aligned, ZONE_STATE raised. The
reply is the state, the start and P. -/
def Obligations.RunArmsTheZone : Prop :=
  ∀ (s : State) (tag : Byte) (body : List Byte) (z : ZoneId) (start : ZoneStart), s.part.TakesRequests → body.length = 10 →
    ZoneId.ofCode (field body 0 1) = some z → ZoneStart.ofCodes (field body 1 1) (field body 2 8) = some start →
    let x := s.part.zone z
    let d := s.part.domain x.setup.domain
    (x.state = .idle → d.state ≠ .unbound →
      let pos : Position := if d.state.timed then positionAt (s.part.target z (s.part.nextFrameTime z))
        else match start with | .at t => positionAt t | .auto => 0
      exec (.zrun tag body) s = .next (s.replied
        ((s.part.setZone z { x with
          state := if d.state.timed then .armed else .held .armed
          start := some start
          position := some pos
          lastFinal := false
          aligned := false }).raise .zoneState (.zone z)) .zrun tag
        ([if d.state.timed then 2#8 else 7#8] ++ (match start with | .at t => 0#8 :: timeBytes t | .auto => 1#8 :: leBytes 8 0) ++
          (leBytes 8 (pos / 65536) ++ leBytes 2 (pos % 65536))))) ∧
    (x.state ≠ .idle ∨ d.state = .unbound → exec (.zrun tag body) s = .next (s.refusedWith .zrun tag .wrongState []))

/-- R121, R122: ZSTP GRACEFUL in PLAYING with a main entry containing P: STOPPING with the entry's end as end point, queues
kept, pending bits gone. Any other ZSTP of a started zone: IDLE with empty queues, each removed entry releasing its slot (R92,
R96). Either way ZONE_STATE is raised and nothing else changes. The reply gives the state, the end point and the entries
removed. An unstarted zone refuses it. The same two ends are those of a STOP action and of every entry into IDLE. R158: the
zone leaves every pending set at once; an entry this empties retires in list order, and with notify ACTION_DONE is raised and a
done record joins with the applied count it had. An end point beyond 64 bits is a free value (log 10), and the
2 bytes of the overlay entries removed by a ZSTP are the model's choice (log 14). -/
def Obligations.StopZone : Prop :=
  let stopping := fun (p : Part) (z : ZoneId) (n : Nat) => ((p.setZone z { p.zone z with
    state := .stopping (toDomainTime (p.pool.entryEnd (p.zone z).tpf n)) }).raise .zoneState (.zone z)).leaveSchedule z
  let ended := fun (p : Part) (z : ZoneId) =>
    let x := p.zone z
    ((({ p with pool := (x.mainQueue ++ x.overlayQueue).foldl BlockPool.release p.pool } : Part).leaveSchedule z).setZone z { x with
      state := .idle, start := none, position := none, aligned := false, lastFrame := none,
      mainQueue := [], overlayQueue := [], mixer := x.mixer.quiet }).raise .zoneState (.zone z)
  (∀ (s : State) (tag : Byte) (z : ZoneId) (mode : StopMode), s.part.TakesRequests →
    let x := s.part.zone z
    let inside := x.position.bind (s.part.mainAt z)
    let rest := fun q : Part =>
      (∀ w, w ≠ z → q.zone w = s.part.zone w) ∧ (∀ e ∈ q.schedule.entries, e.pending.get z = false) ∧
      q.indications.isPending ⟨.zoneState, .zone z⟩ = true ∧ q.link = s.part.link ∧
      q.domains = s.part.domains ∧ q.capture = s.part.capture ∧ q.echo = s.part.echo ∧ q.engine = s.part.engine ∧
      q.filter = s.part.filter ∧ q.tallies = s.part.tallies ∧ q.localTime = s.part.localTime ∧
      q.globalSubstitution = s.part.globalSubstitution
    (x.state.unstarted = true →
      exec (.zstp tag [z.code, mode.code]) s = .next (s.refusedWith .zstp tag .wrongState [])) ∧
    (∀ n, mode = .graceful → x.state = .playing → inside = some n →
      let stop := toDomainTime (s.part.pool.entryEnd x.tpf n)
      let q := stopping s.part z n
      exec (.zstp tag [z.code, mode.code]) s = .next (s.replied q .zstp tag
        ([6#8] ++ optBytes 8 timeBytes (some stop) ++ ([0#8, 0#8] ++ [0#8, 0#8]))) ∧
      q.zone z = { x with state := .stopping stop } ∧ q.pool = s.part.pool ∧ rest q) ∧
    (x.state.unstarted = false → ¬(mode = .graceful ∧ x.state = .playing ∧ inside ≠ none) →
      let q := ended s.part z
      exec (.zstp tag [z.code, mode.code]) s = .next (s.replied q .zstp tag
        ([1#8] ++ optBytes 8 timeBytes none ++ (leBytes 2 x.mainQueue.length ++ leBytes 2 x.overlayQueue.length))) ∧
      q.zone z = { x with state := .idle, start := none, position := none, aligned := false, lastFrame := none,
                          mainQueue := [], overlayQueue := [], mixer := x.mixer.quiet } ∧
      q.pool = (x.mainQueue ++ x.overlayQueue).foldl BlockPool.release s.part.pool ∧ rest q)) ∧
  (∀ (p : Part) (z : ZoneId), p.toIdle z = ended p z) ∧
  (∀ (p : Part) (z : ZoneId) (mode : StopMode),
    let inside := (p.zone z).position.bind (p.mainAt z)
    (∀ n, mode = .graceful → (p.zone z).state = .playing → inside = some n → p.stopZone z mode = stopping p z n) ∧
    (¬(mode = .graceful ∧ (p.zone z).state = .playing ∧ inside ≠ none) → p.stopZone z mode = ended p z)) ∧
  (∀ (p : Part) (z : ZoneId),
    let without := fun e : ScheduleEntry => ({ e with pending := e.pending.set z false } : ScheduleEntry)
    let emptied := fun e : ScheduleEntry => e.pending.get z && ZoneSet.isEmpty (without e).pending
    let told := (p.schedule.entries.filter emptied).filter ScheduleEntry.notify
    p.leaveSchedule z = { p with
      schedule := { p.schedule with
        entries := (p.schedule.entries.filter (fun e => !emptied e)).map without
        done := told.foldl (fun l e => keepDone (l ++ [⟨e.handle, e.action.kind, e.zones, e.applied, p.localTime⟩]))
          p.schedule.done }
      indications := (told.foldl (fun (q : Part) _ => q.raise .actionDone .part) p).indications })

/-- R142, R144, R145: ZGAN writes the zone gain, at most the ceiling, which outside the running states the resting main gain
takes, and answers the gain carried, the gain held, whether it was clamped, the ceiling, and the main gain's value and target;
ZSUB writes the zone substitution and GSUB the global one, and neither touches a ramp; GSUB answers the global substitution
before and after and each zone's state and effective substitution, without a count (log 14). A ramp's value is sent in units of
1/65,536, rounded to the nearest, halfway away from zero (section 12.3). R139: the global substitution, when it is not NONE,
overrides the zone's, and the effective one gives the targets of the two levels. -/
def Obligations.GainAndSubstitutionWrites : Prop :=
  (∀ (s : State) (tag a b : Byte) (z : ZoneId), s.part.TakesRequests →
     let x := s.part.zone z
     let ceiling := x.setup.mixer.gainCeiling
     let gain := min (a.toNat + 256 * b.toNat) ceiling
     let told := fun main : Ramp => [a, b] ++ leBytes 2 gain ++ [if ceiling < a.toNat + 256 * b.toNat then 1#8 else 0#8] ++
       leBytes 2 ceiling ++ rampValueBytes main.value ++ leBytes 2 main.target
     (x.state.running = true → exec (.zgan tag [z.code, a, b]) s = .next (s.replied
       (s.part.setZone z { x with mixer := { x.mixer with zoneGain := gain } }) .zgan tag (told x.mixer.mainGain))) ∧
     (x.state.running = false → exec (.zgan tag [z.code, a, b]) s = .next (s.replied
       (s.part.setZone z { x with mixer := { x.mixer with zoneGain := gain, mainGain := ⟨gain, gain, 0, 0⟩ } }) .zgan tag
       (told ⟨gain, gain, 0, 0⟩))) ∧
     (∀ sub, Substitution.ofCode a.toNat = some sub →
       exec (.zsub tag [z.code, a]) s = .next (s.replied
         (s.part.setZone z { x with mixer := { x.mixer with substitution := sub } }) .zsub tag
         [x.mixer.substitution.code, sub.code, s.part.globalSubstitution.code,
           (effective s.part.globalSubstitution sub).code]) ∧
       exec (.gsub tag [a]) s = .next (s.replied { s.part with globalSubstitution := sub } .gsub tag
         ([s.part.globalSubstitution.code, sub.code] ++ [ZoneId.z0, .z1, .z2, .z3].flatMap (fun w =>
           [(s.part.zone w).state.code, (effective sub (s.part.zone w).mixer.substitution).code]))))) ∧
  (∀ v : Rat, 0 ≤ v → ∃ n : Nat, rampValueBytes v = leBytes 2 (n / 65536) ++ leBytes 2 (n % 65536) ∧
     -1 < 2 * ((n : Rat) - v * 65536) ∧ 2 * ((n : Rat) - v * 65536) ≤ 1) ∧
  ((∀ z, effective .none z = z) ∧ (∀ g z, g ≠ .none → effective g z = g) ∧
   (Substitution.none.programmeTarget = 16384 ∧ Substitution.none.toneTarget = 0) ∧
   (Substitution.silence.programmeTarget = 0 ∧ Substitution.silence.toneTarget = 0) ∧
   (Substitution.tone.programmeTarget = 0 ∧ Substitution.tone.toneTarget = 16384))

/-- R133: the conversion of a source sample to 24 bits, by the block's format, on every payload; it always lies in the 24-bit
range, and interpolation across abutting blocks takes each sample by its own block's format. -/
def Obligations.SamplesBecome24Bit : Prop :=
  (∀ a b : Byte, toSample24 .s16 [a, b] = (b.append a).toInt * 256) ∧
  (∀ a b c d : Byte, toSample24 .s24 [a, b, c, d] = ((c.append b).append a).toInt) ∧
  (∀ a b c d : Byte, toSample24 .s32 [a, b, c, d] = (((d.append c).append b).append a).toInt / 256) ∧
  (∀ f bytes, -8388608 ≤ toSample24 f bytes ∧ toSample24 f bytes ≤ 8388607) ∧
  (∀ (b : Block) (i c : Nat), b.sample i c =
    toSample24 b.format ((b.payload.drop ((i * b.channels + c) * b.format.size)).take b.format.size)) ∧
  (∀ (b nb : Block) (c : Nat), c < nb.channels → b.following (some nb) (b.frames - 1) c = nb.sample 0 c)

/-- R138: a ramp of N frames toward a target: at its n-th frame its value is v0 + (u − v0) n / N, and from the N-th on it is
the target; N = 0 gives the target at once. A target equal to the one held lets the ramp run on. R136: a lane is
((m × g / 16,384 + o × h / 16,384) × c / 16,384 + x × t / 16,384) × q / 16,384, exact until it is rounded once to the nearest
whole number, halfway away from zero, and then saturated to −8,388,608..8,388,607; so without overlay and tone at unity it is
the main value. R134 to R140: the frame a mixer makes: the lanes are the lane maps of the channels of the main and the overlay
entry that contain P, a queue without one giving 0, and the main queue read only where R112 and R120 have it read; the ramps
take the frame toward the targets of the settings with which the frame was taken (R154, R155); overlay-active says whether an
overlay entry contains P. R118: a channel is interpolated between the two source frames that straddle P and rounded to the
nearest; past the block's last frame the abutting entry's first stands in, if it carries the channel, else the last frame is
held. R140: the tone depends on P alone, with a period of 24,576 ticks and the symmetries of a sine (computed as log 24 says),
and lies within ±838,861, its value at a quarter and at three quarters. R132, R190: a frame on the port is 64 bit clock periods,
the frame clock low for 32 and high for 32; each lane's 24 bits follow, most significant first, from the second period of its
slot, and its 8 zero bits from the 26th to the first period of the next slot; a port's very first period carries 0 too
(log 34). -/
def Obligations.RampsAndTheMix : Prop :=
  ((∀ (r : Ramp) (target length : Nat), r.target ≠ target → 0 < length →
     (r.frame target length).value = r.value + ((target : Rat) - r.value) / length) ∧
   (∀ (r : Ramp) (target : Nat), r.target ≠ target → (r.frame target 0).value = target) ∧
   (∀ (r : Ramp) (length : Nat), r.count < r.length →
     (r.frame r.target length).value = r.start + ((r.target : Rat) - r.start) * (r.count + 1 : Nat) / r.length) ∧
   (∀ (r : Ramp) (length : Nat), r.length ≤ r.count → (r.frame r.target length).value = r.target)) ∧
  ((∀ m o g h c t x q : Rat,
     let programme := m * g / 16384 + o * h / 16384
     let exact := (programme * c / 16384 + x * t / 16384) * q / 16384
     ∃ n : Int, mixLane m o g h c t x q = (if 8388607 < n then 8388607 else if n < -8388608 then -8388608 else n) ∧
       (let off := 2 * ((n : Rat) - exact)
        (-1 ≤ off ∧ off ≤ 1) ∧ (off = 1 → 0 < exact) ∧ (off = -1 → exact < 0))) ∧
   (∀ m o g h c t x q : Rat, -8388608 ≤ mixLane m o g h c t x q ∧ mixLane m o g h c t x q ≤ 8388607) ∧
   (∀ m : Int, -8388608 ≤ m → m ≤ 8388607 → mixLane m 0 16384 16384 16384 0 0 16384 = m)) ∧
  (∀ (p : Part) (z : ZoneId) (taken : Zone) (pos : Position) (readMain : Bool),
    let x := p.zone z
    let c := taken.setup.mixer
    let active := (p.overlayAt z pos).isSome
    let target := if active = true then (match c.overlayMode with | .duck => c.duckGain | .replace => 0) else taken.mixer.zoneGain
    let shown := if p.globalSubstitution = .none then taken.mixer.substitution else p.globalSubstitution
    let main := x.mixer.mainGain.frame target c.rampLength
    let programme := x.mixer.programme.frame shown.programmeTarget c.rampLength
    let tone := x.mixer.tone.frame shown.toneTarget c.rampLength
    let mains : Nat → Int := fun i => if readMain = true then p.pool.channelAt x.setup.rate.tpf x.mainQueue pos i else 0
    let overlays : Nat → Int := p.pool.channelAt x.setup.rate.tpf x.overlayQueue pos
    let lane := fun (m : LaneMap) (trim : Nat) => mixLane (m.apply mains) (m.apply overlays) main.value c.overlayGain
      programme.value tone.value (toneValue pos) trim
    let lanes : Lanes := ⟨lane c.mapL c.trimL, lane c.mapR c.trimR⟩
    p.mixFrame z taken pos readMain = p.setZone z { x with
      emitted := some lanes
      mixer := { x.mixer with mainGain := main, programme := programme, tone := tone, overlayActive := active,
                              lastLanes := some lanes } }) ∧
  (∀ (pool : BlockPool) (tpf : Nat) (queue : List Nat) (pos : Position) (i : Nat),
    ((∀ n ∈ queue, ¬(pool.entryStart n * 65536 ≤ pos ∧ pos < pool.entryEnd tpf n * 65536)) → pool.channelAt tpf queue pos i = 0) ∧
    (∀ front n back b, queue = front ++ n :: back → pool.blockOf n = some b →
      (∀ m ∈ front, ¬(pool.entryStart m * 65536 ≤ pos ∧ pos < pool.entryEnd tpf m * 65536)) →
      pool.entryStart n * 65536 ≤ pos → pos < pool.entryEnd tpf n * 65536 →
      pool.channelAt tpf queue pos i = b.read (pool.abutting tpf queue n) tpf pos i)) ∧
  (∀ (b : Block) (next : Option Block) (tpf : Nat) (pos : Position) (i : Nat), 0 < tpf →
    (b.channels ≤ i → b.read next tpf pos i = 0) ∧
    (∀ (j r : Nat), i < b.channels → pos = (b.time + j * tpf) * 65536 + r → r < tpf * 65536 →
      let here := b.sample j i
      let there := if j + 1 < b.frames then b.sample (j + 1) i else
        match next with | some nb => if i < nb.channels then nb.sample 0 i else here | none => here
      let ideal := here * (tpf * 65536 : Nat) + (r : Int) * (there - here)
      let given := b.read next tpf pos i * (tpf * 65536 : Nat)
      2 * (given - ideal).natAbs ≤ tpf * 65536 ∧ (2 * (given - ideal).natAbs = tpf * 65536 → ideal.natAbs < given.natAbs))) ∧
  (∀ channel : Nat → Int, (∀ i, LaneMap.apply (.channel i) channel = channel i) ∧
    (∀ i j, 2 * LaneMap.apply (.sum i j) channel = channel i + channel j) ∧ LaneMap.apply .silence channel = 0) ∧
  ((∀ pos : Position, -838861 ≤ toneValue pos ∧ toneValue pos ≤ 838861) ∧
   (∀ pos : Position, toneValue (pos + 24576 * 65536) = toneValue pos ∧ toneValue (pos + 12288 * 65536) = -toneValue pos) ∧
   (∀ pos : Position, pos ≤ 12288 * 65536 → toneValue (12288 * 65536 - pos) = toneValue pos) ∧
   toneValue (6144 * 65536) = 838861 ∧ toneValue (12288 * 65536) = 0 ∧ toneValue (18432 * 65536) = -838861) ∧
  (∀ f : Lanes, (portPeriods f).length = 64 ∧
    ∀ i clock data, (portPeriods f)[i]? = some (clock, data) →
      (clock = true ↔ 32 ≤ i) ∧
      (1 ≤ i → i ≤ 24 → data = (BitVec.ofInt 24 f.left).getLsbD (24 - i)) ∧
      (33 ≤ i → i ≤ 56 → data = (BitVec.ofInt 24 f.right).getLsbD (56 - i)) ∧
      (i = 0 ∨ (25 ≤ i ∧ i ≤ 32) ∨ 57 ≤ i → data = false))

/-- R110, R132, R136: an output frame in IDLE or HELD emits 0 in both lanes and moves nothing but the port's time, to the next
whole multiple of tpf. R112: a frame in ARMED: P takes the frame's target with fraction 0, the frame is recorded with E = 0,
the flag is judged on 0. A start time is met when P is at or after it, AUTO when P is at or after the start of the main head.
Unmet, the overlay entries passed leave as played, the mixer makes the frame without the main queue, due entries apply, and
with none due and no overlay entry passed the zone, its queues and the schedule stay. R113: met, late main entries drop with
one watermark test, the zone is PLAYING or, with no main entry at P, STARVED with UNDERRUN; ZONE_STATE, the start is none, and
the frame is completed in the new state; R94: the overlay entries its move passed leave there, after the main ones. That the
completion makes a second watermark test, from the queue's length after those drops, is the model's reading (log 22). -/
def Obligations.FramesBeforeTheStart : Prop :=
  (∀ (s : State) (z : ZoneId) (t : LocalTime), (s.part.zone z).port = some t → t ≤ s.part.localTime →
     ((s.part.zone z).state = .idle ∨ (s.part.zone z).state = .held .armed ∨ (s.part.zone z).state = .held .running) →
     exec (.outputFrame z) s = .next { s with part := s.part.setZone z { s.part.zone z with
       port := some (nextMultiple s.part.localTime (s.part.zone z).setup.rate.tpf), emitted := some ⟨0, 0⟩ } }) ∧
  (∀ (s : State) (z : ZoneId) (t : LocalTime), (s.part.zone z).port = some t → t ≤ s.part.localTime →
     (s.part.zone z).state = .armed →
     let x := s.part.zone z
     let target := s.part.target z s.part.localTime
     let pos : Position := target * 65536
     let moved := s.part.setZone z { x with port := some (nextMultiple s.part.localTime x.setup.rate.tpf), position := some pos,
                                            lastFrame := some ⟨s.part.localTime, target, 0⟩ }
     let met := (∃ start, x.start = some (.at start) ∧ start ≤ target) ∨
       (x.start = some .auto ∧ ∃ n rest, x.mainQueue = n :: rest ∧ s.part.pool.entryStart n ≤ target)
     (¬met → exec (.outputFrame z) s = .next { s with
       part := (((moved.playOverlay z pos).judgeAligned z 0).mixFrame z x pos false).applyDue z pos }) ∧
     (met →
       let late := ((moved.judgeAligned z 0).dropLateMain z pos).testLowWatermark z x.mainQueue.length
       let playing := (late.mainAt z pos).isSome
       let started := (late.setZone z { late.zone z with state := if playing then .playing else .starved, start := none }).raise
         .zoneState (.zone z)
       let begun := if playing then started else (started.raise .underrun (.zone z)).tally (.zone z .underruns)
       exec (.outputFrame z) s =
         .next { s with part := begun.completeFrame z x 0 (some pos) (begun.zone z).mainQueue.length }) ∧
     (¬met → (∀ n ∈ x.overlayQueue, pos < s.part.pool.entryEnd x.setup.rate.tpf n * 65536) →
       (∀ e ∈ s.part.schedule.entries, e.pending.get z = true → target < e.time) →
       ∃ u, exec (.outputFrame z) s = .next u ∧
         (u.part.zone z).position = some pos ∧ (u.part.zone z).lastFrame = some ⟨s.part.localTime, target, 0⟩ ∧
         (u.part.zone z).state = .armed ∧ (u.part.zone z).aligned = true ∧ (u.part.zone z).start = x.start ∧
         (u.part.zone z).mainQueue = x.mainQueue ∧ (u.part.zone z).overlayQueue = x.overlayQueue ∧
         u.part.pool = s.part.pool ∧ u.part.schedule = s.part.schedule))

/-- R110, R114: a frame in PLAYING, STARVED, DRAINED or STOPPING with E within −R..R is recorded and completed; R115: outside,
P jumps to T, late entries of both queues drop, the reseeks tally rises, RESEEK, due entries apply, and unless one of them
stopped the zone the frame is completed with E = 0; stopped, its lanes are a free value (log 13). That a reseek frame records E
= 0 (log 17), and that a frame its catch-up's STOP ends tests no watermark (log 16), are the model's choices. R114, R116, R120:
completion: the mix at P, without the main queue in DRAINED, a frame with no main entry at P counted as concealed in PLAYING,
STARVED and STOPPING; P advances by tpf × (1 + (r + c) × 10⁻⁶), rounded once to the nearest 1/65,536 tick, halfway away from
zero, with r = (code − 32768) / 64 and c = −E / 24.576 clamped to the slew limit; entries passed leave as played, main before
overlay (R94), of the overlay first those that a starting frame's move passed, with one watermark test; due entries apply; and
unless one of them stopped the zone, R123: a stop whose end point P has reached sends the zone to IDLE, a stop short of it
judges the aligned flag, R119: any other zone its content, then the flag. R119: main entry at P: PLAYING; else final mark:
DRAINED with END_OF_STREAM, else STARVED with UNDERRUN, each only on a change, with ZONE_STATE. R117: the flag says whether E
lies in −A..A; a change raises ALIGN. R111: the target is G(t) + L × tpf on a domain with an anchor, as every timed one has
one; beyond 64 bits a free value (log 10), of which nothing is said. R120: a frame in STARVED with empty queues and no schedule
entry, in all its effects. -/
def Obligations.StarvedFrameConceals : Prop :=
  (∀ (s : State) (z : ZoneId) (t : LocalTime) (pos : Position), (s.part.zone z).port = some t → t ≤ s.part.localTime →
    (s.part.zone z).position = some pos →
    let x := s.part.zone z
    (x.state = .playing ∨ x.state = .starved ∨ x.state = .drained ∨ ∃ n, x.state = .stopping n) →
    let target := s.part.target z s.part.localTime
    let e : Int := (pos : Int) - (target * 65536 : Nat)
    let recorded := fun e : Int => s.part.setZone z { x with
      port := some (nextMultiple s.part.localTime x.setup.rate.tpf), lastFrame := some ⟨s.part.localTime, target, e⟩ }
    (e.natAbs ≤ x.setup.reseekThreshold * 65536 →
      exec (.outputFrame z) s = .next { s with part := (recorded e).completeFrame z x e none x.mainQueue.length }) ∧
    (x.setup.reseekThreshold * 65536 < e.natAbs →
      let jumped := (recorded 0).setZone z { (recorded 0).zone z with position := some (target * 65536) }
      let dropped := (jumped.dropLate z (target * 65536)).tally (.zone z .reseeks)
      let caught := (dropped.raise .reseek (.zone z)).applyDue z (target * 65536)
      ((caught.zone z).state = x.state →
        exec (.outputFrame z) s = .next { s with part := caught.completeFrame z x 0 none x.mainQueue.length }) ∧
      ((caught.zone z).state ≠ x.state → ∃ lanes, exec (.outputFrame z) s = .next { s with
        part := caught.setZone z { caught.zone z with
          emitted := some lanes, mixer := { (caught.zone z).mixer with lastLanes := some lanes } } }))) ∧
  (∀ (p : Part) (z : ZoneId) (taken : Zone) (e : Int) (move : Option Position) (before : Nat),
    let x := p.zone z
    let mixed := p.mixFrame z taken (x.position.getD 0) (x.state != .drained)
    let concealed := (x.state = .playing ∨ x.state = .starved ∨ ∃ n, x.state = .stopping n) ∧
      p.mainAt z (x.position.getD 0) = none
    let new := toPosition (((x.position.getD 0 : Nat) : Int) +
      advanceUnits x.setup.rate.tpf (p.zoneDomain z).code e x.setup.slewLimit).toNat
    let moved := fun q : Part => q.setZone z { q.zone z with position := some new }
    let passed := fun q : Part => match move with
      | some start => ((moved q).playMain z new).playOverlay z start
      | none => (moved q).playMain z new
    let played := fun q : Part => ((passed q).playOverlay z new).testLowWatermark z before
    ∃ read : Part, (concealed → read = mixed.tally (.zone z .framesConcealed)) ∧ (¬concealed → read = mixed) ∧
      let applied := (played read).applyDue z new
      let at' := (applied.zone z).position.getD 0
      ((applied.zone z).state ≠ x.state → p.completeFrame z taken e move before = applied) ∧
      (∀ stop, (applied.zone z).state = x.state → x.state = .stopping stop → stop * 65536 ≤ at' →
        p.completeFrame z taken e move before = applied.toIdle z) ∧
      (∀ stop, (applied.zone z).state = x.state → x.state = .stopping stop → at' < stop * 65536 →
        p.completeFrame z taken e move before = applied.judgeAligned z e) ∧
      ((applied.zone z).state = x.state → (∀ stop, x.state ≠ .stopping stop) →
        p.completeFrame z taken e move before = (applied.judgeContent z at').judgeAligned z e)) ∧
  (Rate.tpf .r48000 = 512 ∧ Rate.tpf .r96000 = 256 ∧
   (∀ (p : Part) (z : ZoneId) (t : LocalTime) (a : Anchor),
     let x := p.zone z
     let home := p.domain x.setup.domain
     let target : Nat := convert a home.code t + x.setup.latency * x.setup.rate.tpf
     home.anchor = some a → target < 2 ^ 64 → p.target z t = target) ∧
   (∀ (tpf code : Nat) (e : Int) (limit : Nat),
     let r : Rat := ((code : Rat) - 32768) / 64
     let wanted : Rat := -((e : Rat) / 65536) / (24576 / 1000)
     let c : Rat := if wanted < -(limit : Rat) then -(limit : Rat) else if (limit : Rat) < wanted then limit else wanted
     let exact : Rat := (tpf * 65536 : Nat) * (1 + (r + c) / 1000000)
     let off : Rat := 2 * ((advanceUnits tpf code e limit : Rat) - exact)
     (-1 ≤ off ∧ off ≤ 1) ∧ (off = 1 → 0 < exact) ∧ (off = -1 → exact < 0))) ∧
  (∀ (p : Part) (z : ZoneId) (pos : Position) (e : Int),
    let x := p.zone z
    let found := p.mainAt z pos ≠ none
    let enter := fun state => (p.setZone z { x with state := state }).raise .zoneState (.zone z)
    let aligned := decide (e.natAbs ≤ x.setup.tolerance * 65536)
    (found → x.state = .playing → p.judgeContent z pos = p) ∧
    (found → x.state ≠ .playing → p.judgeContent z pos = enter .playing) ∧
    (¬found → x.lastFinal = true → x.state = .drained → p.judgeContent z pos = p) ∧
    (¬found → x.lastFinal = true → x.state ≠ .drained →
      p.judgeContent z pos = (enter .drained).raise .endOfStream (.zone z)) ∧
    (¬found → x.lastFinal = false → x.state = .starved → p.judgeContent z pos = p) ∧
    (¬found → x.lastFinal = false → x.state ≠ .starved →
      p.judgeContent z pos = ((enter .starved).raise .underrun (.zone z)).tally (.zone z .underruns)) ∧
    (x.aligned = aligned → p.judgeAligned z e = p) ∧
    (x.aligned ≠ aligned → p.judgeAligned z e = (p.setZone z { x with aligned := aligned }).raise .align (.zone z))) ∧
  (∀ (s : State) (z : ZoneId) (t : LocalTime) (pos : Position), (s.part.zone z).port = some t → t ≤ s.part.localTime →
    (s.part.zone z).state = .starved → (s.part.zone z).position = some pos → (s.part.zone z).lastFinal = false →
    (s.part.zone z).mainQueue = [] → (s.part.zone z).overlayQueue = [] → s.part.schedule.entries = [] →
    let x := s.part.zone z
    let target := s.part.target z s.part.localTime
    let e : Int := (pos : Int) - (target * 65536 : Nat)
    e.natAbs ≤ x.setup.reseekThreshold * 65536 →
    ∃ u, exec (.outputFrame z) s = .next u ∧
      (u.part.zone z).state = .starved ∧
      (u.part.zone z).lastFrame = some ⟨s.part.localTime, target, e⟩ ∧
      (u.part.zone z).aligned = decide (e.natAbs ≤ x.setup.tolerance * 65536) ∧
      (u.part.zone z).position = some (toPosition ((pos : Int) + advanceUnits x.tpf (s.part.zoneDomain z).code e
        x.setup.slewLimit).toNat) ∧
      u.part.tallies.live.get (.zone z .framesConcealed) = (s.part.tallies.live.get (.zone z .framesConcealed)).rise.1 ∧
      u.part.pool = s.part.pool ∧ u.part.schedule = s.part.schedule)

/-- R110, R114, R148: an output frame of one zone leaves the other zones, the domains, the engine, the captures, the echo
table, the filter, the global substitution, the link and local time as they were. -/
def Obligations.OutputFrameTouchesItsZone : Prop :=
  ∀ (s u : State) (z : ZoneId), exec (.outputFrame z) s = .next u →
    (∀ w, w ≠ z → u.part.zone w = s.part.zone w) ∧ u.part.domains = s.part.domains ∧ u.part.engine = s.part.engine ∧
    u.part.capture = s.part.capture ∧ u.part.echo = s.part.echo ∧ u.part.filter = s.part.filter ∧
    u.part.globalSubstitution = s.part.globalSubstitution ∧ u.part.link = s.part.link ∧
    u.part.localTime = s.part.localTime ∧ u.pending = s.pending

/-! ### The action schedule (chapter 9) -/

/-- R150, R151, R152: a SADD that passes its checks adds one entry with its zone set pending, applied by none, at the
handle given, after every live entry of its time or earlier; the counter is one past the handle. R150: while a place
is free, the handle given is held by no live entry; it is the counter's own value when that is free. R149: an entry
joins a list in ascending time after the entries of its own time, and the list stays ascending. R151: the refusals in their
order: the domain UNBOUND; zone by zone, ascending, the zone off or bound to the other domain, each naming the zone; the
schedule full. They change nothing. R152: the reply lists the handle, the entry's place in the list, from 1, the live entries
now held, and the zones of the set whose P is at or after the entry's time. -/
def Obligations.EntriesJoinTheSchedule : Prop :=
  (∀ (s : State) (tag : Byte) (body : List Byte) (n : NewEntry), s.part.TakesRequests → body.length = 16 →
     NewEntry.ofBody body = some n → (s.part.domain n.domain).state ≠ .unbound →
     (∀ z ∈ ZoneSet.members n.zones, (s.part.zone z).state.takesEntries = true ∧ (s.part.zone z).setup.domain = n.domain) →
     s.part.schedule.entries.length < 32 →
     let h := s.part.schedule.nextHandle
     let e : ScheduleEntry := ⟨h, n.time, n.domain, n.zones, n.zones, n.action, n.notify, 0⟩
     let earlier := s.part.schedule.entries.takeWhile (fun x => decide (x.time ≤ n.time))
     let past := fun z => n.zones.get z && (s.part.zone z).position.any (fun pos => decide (n.time * 65536 ≤ pos))
     exec (.sadd tag body) s = .next (s.replied
       { s.part with schedule := { s.part.schedule with entries := insertByTime e s.part.schedule.entries, counter := h + 1 } }
       .sadd tag (leBytes 2 h.toNat ++ leBytes 1 (earlier.length + 1) ++ leBytes 1 (s.part.schedule.entries.length + 1) ++
         [BitVec.ofNat 8 ((past .z0).toNat + 2 * (past .z1).toNat + 4 * (past .z2).toNat + 8 * (past .z3).toNat)]))) ∧
  (∀ (s : State) (tag : Byte) (body : List Byte) (n : NewEntry), s.part.TakesRequests → body.length = 16 →
     NewEntry.ofBody body = some n →
     let fits := fun z => (s.part.zone z).state.takesEntries = true ∧ (s.part.zone z).setup.domain = n.domain
     let refused := fun status content => exec (.sadd tag body) s = .next (s.refusedWith .sadd tag status content)
     let bound := (s.part.domain n.domain).state ≠ .unbound
     (¬bound → refused .wrongState []) ∧
     (∀ front z back, bound → ZoneSet.members n.zones = front ++ z :: back → (∀ w ∈ front, fits w) →
       ((s.part.zone z).state.takesEntries = false → refused .zoneOff [z.code]) ∧
       ((s.part.zone z).state.takesEntries = true → (s.part.zone z).setup.domain ≠ n.domain →
         refused .zoneMismatch [z.code])) ∧
     (bound → (∀ z ∈ ZoneSet.members n.zones, fits z) → 32 ≤ s.part.schedule.entries.length → refused .tableFull [])) ∧
  (∀ s : Schedule, s.entries.length < 32 →
     s.find s.nextHandle = none ∧ (s.find s.counter = none → s.nextHandle = s.counter)) ∧
  (∀ (e : ScheduleEntry) (l : List ScheduleEntry), l.Pairwise (fun a b => a.time ≤ b.time) →
     (insertByTime e l).Pairwise (fun a b => a.time ≤ b.time) ∧
     ∃ front back, l = front ++ back ∧ insertByTime e l = front ++ e :: back ∧
       (∀ x ∈ front, x.time ≤ e.time) ∧ (∀ x ∈ back, e.time < x.time))

/-- R161, R162: SCAN removes the entry with the handle and answers it, with no report of retirement, or is refused NO_ENTRY;
SLST answers the report and, with its flag set, empties the done list. The field order of the report is the model's (log 14).
-/
def Obligations.CancelAndList : Prop :=
  ∀ (s : State) (tag a b : Byte), s.part.TakesRequests →
    let h : Word16 := BitVec.ofNat 16 (a.toNat + 256 * b.toNat)
    (s.part.schedule.find h = none → exec (.scan tag [a, b]) s = .next (s.refusedWith .scan tag .noEntry [])) ∧
    (∀ e, s.part.schedule.find h = some e → exec (.scan tag [a, b]) s = .next (s.replied
      { s.part with schedule := { s.part.schedule with
        entries := s.part.schedule.entries.filter (fun e => e.handle != h) } } .scan tag e.bytes)) ∧
    exec (.slst tag [0#8]) s = .next (s.replied s.part .slst tag s.part.schedule.report) ∧
    exec (.slst tag [1#8]) s = .next (s.replied
      { s.part with schedule := { s.part.schedule with done := [] } } .slst tag s.part.schedule.report)

/-- R153, R155, R159: a zone that comes to a due entry of its own with a GAIN action, the last zone pending: the zone gain
takes the gain within the ceiling, and the entry leaves the list; with notify, ACTION_DONE is raised and a done record joins.
R153: every action acts once the zone's bit is cleared and the applied count has risen; with zones left the entry stays so. An
entry that is gone, not due, or not pending for the zone does nothing. R153, R154: a zone applies, one after another in list
order, every live entry that holds it pending and whose time is at or before P. R155, R156, R157: what each action does: GAIN,
SUBST and LATENCY write their one value, OVERLAY the mode and the duck gain, STOP stops the zone as ZSTP does (O43), NOTE
nothing. A GAIN applied in the catch-up of a resume moves the resting main gain at once, as log 36 says. That a STOP entry's
own done record stands after those of the entries its stop emptied is the model's reading (log 19). -/
def Obligations.DueEntryActsAndRetires : Prop :=
  (∀ (p : Part) (z : ZoneId) (pos : Position) (e : ScheduleEntry) (g : Nat), p.schedule.find e.handle = some e →
    e.pending.get z = true → ZoneSet.isEmpty (e.pending.set z false) = true → e.time * 65536 ≤ pos → e.action = .gain g →
    let q := p.applyEntry z pos e.handle
    q.zone z = (p.zone z).withGain g ∧
    q.schedule.entries = (p.schedule.entries.filter (fun x => x.handle != e.handle)) ∧
    (e.notify = false → q.schedule.done = p.schedule.done ∧ q.indications = p.indications) ∧
    (e.notify = true →
      q.schedule.done = keepDone (p.schedule.done ++ [⟨e.handle, e.action.kind, e.zones, e.applied + 1, p.localTime⟩]) ∧
      q.indications = (p.raise .actionDone .part).indications)) ∧
  (∀ (p : Part) (z : ZoneId) (pos : Position) (e : ScheduleEntry), p.schedule.find e.handle = some e →
    let e' : ScheduleEntry := { e with pending := e.pending.set z false, applied := e.applied + 1 }
    let cleared : Part := { p with schedule := { p.schedule with
      entries := p.schedule.entries.map (fun x => if x.handle = e.handle then e' else x) } }
    let acted := cleared.act z e.action
    (e.pending.get z = true → e.time * 65536 ≤ pos → ZoneSet.isEmpty e'.pending = false → p.applyEntry z pos e.handle = acted) ∧
    (e.pending.get z = true → e.time * 65536 ≤ pos → ZoneSet.isEmpty e'.pending = true →
      let removed : Part := { acted with schedule := { acted.schedule with
        entries := acted.schedule.entries.filter (fun x => x.handle != e.handle) } }
      (e.notify = false → p.applyEntry z pos e.handle = removed) ∧
      (e.notify = true →
        let told := removed.raise .actionDone .part
        p.applyEntry z pos e.handle = { told with schedule := { told.schedule with done := keepDone (told.schedule.done ++
          [⟨e.handle, e.action.kind, e.zones, e.applied + 1, acted.localTime⟩]) } })) ∧
    (e.pending.get z = false ∨ pos < e.time * 65536 → p.applyEntry z pos e.handle = p)) ∧
  (∀ (p : Part) (z : ZoneId) (pos : Position) (h : Word16), p.schedule.find h = none → p.applyEntry z pos h = p) ∧
  (∀ (p : Part) (z : ZoneId) (pos : Position),
    let due := fun h : Word16 => (p.schedule.find h).any (fun e => e.pending.get z && decide (e.time * 65536 ≤ pos))
    p.applyDue z pos =
      ((p.schedule.entries.map ScheduleEntry.handle).filter due).foldl (fun q h => q.applyEntry z pos h) p) ∧
  (∀ (p : Part) (z : ZoneId),
    let x := p.zone z
    (∀ g, let gain := min g x.setup.mixer.gainCeiling
      p.act z (.gain g) = p.setZone z { x with mixer := if x.state.running = true then { x.mixer with zoneGain := gain }
        else { x.mixer with zoneGain := gain, mainGain := .rest gain } }) ∧
    (∀ sub, p.act z (.subst sub) = p.setZone z { x with mixer := { x.mixer with substitution := sub } }) ∧
    (∀ m duck, p.act z (.overlay m duck) = p.setZone z { x with
      setup := { x.setup with mixer := { x.setup.mixer with overlayMode := m, duckGain := duck } } }) ∧
    (∀ l, p.act z (.latency l) = p.setZone z { x with setup := { x.setup with latency := l } }) ∧
    (∀ mode, p.act z (.stop mode) = p.stopZone z mode) ∧
    p.act z .note = p)

/-! ### Indications and tallies (chapter 10) -/

/-- R165: a raise of a pair that is not pending brings it into the set with count 1 and both times now; of a pending
pair it adds one, stopping at 255, moves the latest time and keeps the first. No other pair changes. R168: ATTNn is
asserted exactly while a pending pair belongs to an enabled kind routed to line n. -/
def Obligations.PendingPairsAndLines : Prop :=
  (∀ (pair : Pair) (now : LocalTime) (l : List PendingPair), (l.map PendingPair.pair).Nodup →
     l.Pairwise (fun a b => a.pair.rank < b.pair.rank) →
     ((∀ q ∈ l, q.pair ≠ pair) → (⟨pair, 1, now, now⟩ : PendingPair) ∈ raiseIn pair now l) ∧
     (∀ q ∈ l, q.pair = pair → ({ q with raises := min 255 (q.raises + 1), latest := now } : PendingPair) ∈ raiseIn pair now l) ∧
     (∀ q, q.pair ≠ pair → (q ∈ raiseIn pair now l ↔ q ∈ l))) ∧
  (∀ (u : IndicationUnit) (line : Line), u.asserted line = true ↔
     ∃ q ∈ u.pending, (u.setting q.pair.kind).enabled = true ∧ (u.setting q.pair.kind).line = line)

/-- R167, R168, R170: INDC writes the enable and the line of the kind it names, or of all fifteen, every other kind keeps its
setting, and the pending pairs and the causes stay; it answers what each kind written had before and has after, and the levels
of both lines. INDA removes the pairs it names, LINK with its causes, and nothing else; it answers how many it removed, how
many it listed beside those, how many are left, and the levels. The layout of the INDC reply and the count of duplicates in
INDA are the model's (logs 14, 15). -/
def Obligations.ConfigureAndAcknowledge : Prop :=
  ∀ (s : State) (tag a b c : Byte) (body : List Byte), s.part.TakesRequests →
    let u := s.part.indications
    let levels := fun v : IndicationUnit => flagBytes (v.asserted .line0) ++ flagBytes (v.asserted .line1)
    (∀ kinds enabled line, (a = 0xFF#8 ∧ kinds = allKinds) ∨ (∃ k : IndicationKind, a = k.code ∧ kinds = [k]) →
      flagOf b.toNat = some enabled → Line.ofCode c.toNat = some line →
      ∃ v : IndicationUnit,
        exec (.indc tag [a, b, c]) s = .next (s.replied { s.part with indications := v } .indc tag
          (leBytes 1 kinds.length ++ kinds.flatMap (fun k => (flagBytes (u.setting k).enabled ++ [(u.setting k).line.code]) ++
            (flagBytes enabled ++ [line.code])) ++ levels v)) ∧
        (∀ k ∈ kinds, v.setting k = ⟨enabled, line⟩) ∧ (∀ k, k ∉ kinds → v.setting k = u.setting k) ∧
        v.pending = u.pending ∧ v.causes = u.causes) ∧
    (∀ k : IndicationKind, k ∈ allKinds) ∧
    (∀ pairs, RequestKind.lengthOk .inda body = true → acknowledgedPairs body = some pairs →
      ∃ v : IndicationUnit,
        let removed := u.pending.length - v.pending.length
        exec (.inda tag body) s = .next (s.replied { s.part with indications := v } .inda tag
          (leBytes 1 removed ++ leBytes 1 (pairs.length - removed) ++ leBytes 1 v.pending.length ++ levels v)) ∧
        v.pending = u.pending.filter (fun q => !pairs.contains q.pair) ∧ v.settings = u.settings ∧
        v.causes = (if pairs.any (fun q => q.kind == .link) then CauseSet.empty else u.causes))

/-- R172: a rise adds one below the ceiling; at 4,294,967,295 it leaves the counter there and sets the overflow flag, and TALLY
is raised exactly when it was clear. -/
def Obligations.CountersStopAtTheCeiling : Prop :=
  ∀ (p : Part) (i : TallyId),
    let c := p.tallies.live.get i
    let q := p.tally i
    (c.value < 4294967295 → q.tallies.live.get i = { c with value := c.value + 1 } ∧ q.indications = p.indications) ∧
    (4294967295 ≤ c.value → c.overflow = false →
      q.tallies.live.get i = { c with overflow := true } ∧ q.indications = (p.raise .tally .part).indications) ∧
    (4294967295 ≤ c.value → c.overflow = true → q = p) ∧
    (∀ j, j ≠ i → q.tallies.live.get j = p.tallies.live.get j)

/-- R173, R174, R175: TSNP copies the live counters with the next number, the time and REQUEST, and zeroes them; the automatic
snapshot does so with AUTO at its deadline, raises TALLY and moves the deadline by one second; TAUT ON sets the deadline, TAUT
OFF stops it, and a TAUT of the setting in force changes nothing; each answers the setting and the deadline after it. -/
def Obligations.Snapshots : Prop :=
  ∀ (s : State) (tag : Byte),
    let u := s.part.tallies
    let taken := fun cause => ({ u with
      live := TallySet.zero, snapshot := ⟨u.live, u.snapshot.number + 1, some s.part.localTime, some cause⟩ } : TallyUnit)
    (s.part.TakesRequests → exec (.tsnp tag []) s = .next (s.replied { s.part with tallies := taken .request } .tsnp tag
      (leBytes 4 (u.snapshot.number + 1).toNat ++ timeBytes s.part.localTime))) ∧
    (∀ t, u.deadline = some t → t ≤ s.part.localTime → exec .automaticSnapshot s = .next { s with
      part := { s.part.raise .tally .part with tallies := { taken .auto with deadline := some (t + 24576000) } } }) ∧
    (s.part.TakesRequests → u.automatic = false → exec (.taut tag [1#8]) s = .next (s.replied
      { s.part with tallies := { u with automatic := true, deadline := some (s.part.localTime + 24576000) } }
      .taut tag ([1#8] ++ deadlineBytes (some (s.part.localTime + 24576000))))) ∧
    (s.part.TakesRequests → u.automatic = true → exec (.taut tag [0#8]) s = .next (s.replied
      { s.part with tallies := { u with automatic := false, deadline := none } } .taut tag ([0#8] ++ deadlineBytes none))) ∧
    (s.part.TakesRequests → ∀ on : Bool, u.automatic = on → exec (.taut tag (flagBytes on)) s =
      .next (s.replied s.part .taut tag (flagBytes on ++ deadlineBytes u.deadline)))

/-! ### Invariants -/

/-- R9, R55, R56, R149, R159, R165, R183: every step keeps the capture ring within 32 captures of distinct numbers, the echo
table within 8 records and its path lists within 8 samples, the schedule within 32 entries and 8 done records, the reply queue
within 8, and the pending set a set of pairs of section 10.1 in report order, each raised 1 to 255 times; such a set holds at
most 39. -/
def Obligations.CapacitiesAreKept : Prop :=
  KeptByStep Part.WithinCapacities ∧ ∀ u : IndicationUnit, u.WithinSet → u.pending.length ≤ 39

/-- R98: in DISABLED and IDLE both queues of a zone are empty; every step keeps it so, the reset leaves it so, and such a zone
refuses every block with ZONE_OFF. -/
def Obligations.RestingZonesStayEmpty : Prop :=
  KeptByStep Part.RestingZonesEmpty ∧
  (∀ (pool : BlockPool) (x : Zone) (t : Target) (b : Block), x.state = .disabled ∨ x.state = .idle →
    pool.judge x t b = .zoneOff) ∧
  (∀ mode divisor selected, (Part.reset mode divisor selected).RestingZonesEmpty)

/-- R67, R69: every step keeps the pool law, by which the holder count of every slot is the number of zone queues that contain
it and no zone refers to a slot twice; under it the free and the held slots number 512 and every holder count is 1 to 4. The
reset leaves it so. R88, R89, R98: beside it, every step keeps each queue within its quota and in order: every entry a held
block of the zone's rate, each starting later than the one before, their spans apart, no stream id and sequence twice; queues
of zones at rest are empty. -/
def Obligations.HolderCountsAreQueuePlaces : Prop :=
  KeptByStep Part.PoolLaw ∧
  (∀ p : Part, p.PoolLaw → p.pool.freeCount + p.pool.held.length = 512 ∧
    ∀ h ∈ p.pool.held, 1 ≤ h.holders ∧ h.holders ≤ 4 ∧ h.holders = p.references h.number) ∧
  (∀ mode divisor selected, (Part.reset mode divisor selected).PoolLaw) ∧
  KeptByStep Part.QueueLaw ∧ (∀ mode divisor selected, (Part.reset mode divisor selected).QueueLaw)

/-- R98, R189: the state after reset is within every capacity, with every zone DISABLED and its queues empty, and after any of
the three resets. State.reset is what a pin reset with LSEL low leaves (O12), with nCS high (log 9), no command waiting, and no
free value asked (log 8). -/
def Obligations.ResetIsWithinLimits : Prop :=
  State.reset = { part := Part.reset .spi 7#8 false, pending := [], draws := 0 } ∧ exec (.pinReset .low) State.reset = .next State.reset ∧
  ∀ mode divisor selected, (Part.reset mode divisor selected).WithinCapacities ∧
    (Part.reset mode divisor selected).RestingZonesEmpty ∧
    (∀ z, ((Part.reset mode divisor selected).zone z).state = .disabled) ∧
    (∀ d, ((Part.reset mode divisor selected).domain d).state = .unbound)
end

