-- ==== Sys2Proof/Laws/State.lean ====
section
/-! SUPPORT. One lemma per field for every named update of the part, so that no later proof unfolds a record update. -/

namespace Sys2Proof.Machine

/-! ### Per-domain and per-zone maps -/

@[simp] theorem PerDomain.get_set {α : Type} (m : PerDomain α) (d e : DomainId) (a : α) :
    (m.set d a).get e = if e = d then a else m.get e := by cases d <;> cases e <;> rfl

@[simp] theorem PerDomain.set_get {α : Type} (m : PerDomain α) (d : DomainId) : m.set d (m.get d) = m := by
  cases d <;> rfl

@[simp] theorem PerDomain.set_set {α : Type} (m : PerDomain α) (d : DomainId) (a b : α) :
    (m.set d a).set d b = m.set d b := by cases d <;> rfl

@[simp] theorem PerZone.get_set {α : Type} (m : PerZone α) (z w : ZoneId) (a : α) :
    (m.set z a).get w = if w = z then a else m.get w := by cases z <;> cases w <;> rfl

@[simp] theorem PerZone.set_get {α : Type} (m : PerZone α) (z : ZoneId) : m.set z (m.get z) = m := by
  cases z <;> rfl

@[simp] theorem PerZone.set_set {α : Type} (m : PerZone α) (z : ZoneId) (a b : α) :
    (m.set z a).set z b = m.set z b := by cases z <;> rfl

/-! ### Domain and zone records -/

@[simp] theorem Part.domain_setDomain (p : Part) (d e : DomainId) (x : Domain) :
    (p.setDomain d x).domain e = if e = d then x else p.domain e := PerDomain.get_set _ _ _ _

@[simp] theorem Part.zone_setZone (p : Part) (z w : ZoneId) (x : Zone) :
    (p.setZone z x).zone w = if w = z then x else p.zone w := PerZone.get_set _ _ _ _

@[simp] theorem Part.zone_setDomain (p : Part) (d : DomainId) (x : Domain) (z : ZoneId) :
    (p.setDomain d x).zone z = p.zone z := rfl

@[simp] theorem Part.domain_setZone (p : Part) (z : ZoneId) (x : Zone) (d : DomainId) :
    (p.setZone z x).domain d = p.domain d := rfl

@[simp] theorem Part.setZone_setZone (p : Part) (z : ZoneId) (x y : Zone) :
    (p.setZone z x).setZone z y = p.setZone z y := by simp [Part.setZone]

@[simp] theorem Part.setZone_zone (p : Part) (z : ZoneId) : p.setZone z (p.zone z) = p := by
  simp [Part.setZone, Part.zone]

@[simp] theorem Part.setDomain_domain (p : Part) (d : DomainId) : p.setDomain d (p.domain d) = p := by
  simp [Part.setDomain, Part.domain]


/-! ### Updates of a domain -/

@[simp] theorem Part.localTime_setDomain (p : Part) (d : DomainId) (x : Domain) : (p.setDomain d x).localTime = p.localTime := rfl
@[simp] theorem Part.capture_setDomain (p : Part) (d : DomainId) (x : Domain) : (p.setDomain d x).capture = p.capture := rfl
@[simp] theorem Part.engine_setDomain (p : Part) (d : DomainId) (x : Domain) : (p.setDomain d x).engine = p.engine := rfl
@[simp] theorem Part.echo_setDomain (p : Part) (d : DomainId) (x : Domain) : (p.setDomain d x).echo = p.echo := rfl
@[simp] theorem Part.pool_setDomain (p : Part) (d : DomainId) (x : Domain) : (p.setDomain d x).pool = p.pool := rfl
@[simp] theorem Part.filter_setDomain (p : Part) (d : DomainId) (x : Domain) : (p.setDomain d x).filter = p.filter := rfl
@[simp] theorem Part.zones_setDomain (p : Part) (d : DomainId) (x : Domain) : (p.setDomain d x).zones = p.zones := rfl
@[simp] theorem Part.globalSubstitution_setDomain (p : Part) (d : DomainId) (x : Domain) : (p.setDomain d x).globalSubstitution = p.globalSubstitution := rfl
@[simp] theorem Part.schedule_setDomain (p : Part) (d : DomainId) (x : Domain) : (p.setDomain d x).schedule = p.schedule := rfl
@[simp] theorem Part.indications_setDomain (p : Part) (d : DomainId) (x : Domain) : (p.setDomain d x).indications = p.indications := rfl
@[simp] theorem Part.tallies_setDomain (p : Part) (d : DomainId) (x : Domain) : (p.setDomain d x).tallies = p.tallies := rfl
@[simp] theorem Part.link_setDomain (p : Part) (d : DomainId) (x : Domain) : (p.setDomain d x).link = p.link := rfl

/-! ### Updates of a zone -/

@[simp] theorem Part.localTime_setZone (p : Part) (z : ZoneId) (x : Zone) : (p.setZone z x).localTime = p.localTime := rfl
@[simp] theorem Part.capture_setZone (p : Part) (z : ZoneId) (x : Zone) : (p.setZone z x).capture = p.capture := rfl
@[simp] theorem Part.domains_setZone (p : Part) (z : ZoneId) (x : Zone) : (p.setZone z x).domains = p.domains := rfl
@[simp] theorem Part.engine_setZone (p : Part) (z : ZoneId) (x : Zone) : (p.setZone z x).engine = p.engine := rfl
@[simp] theorem Part.echo_setZone (p : Part) (z : ZoneId) (x : Zone) : (p.setZone z x).echo = p.echo := rfl
@[simp] theorem Part.pool_setZone (p : Part) (z : ZoneId) (x : Zone) : (p.setZone z x).pool = p.pool := rfl
@[simp] theorem Part.filter_setZone (p : Part) (z : ZoneId) (x : Zone) : (p.setZone z x).filter = p.filter := rfl
@[simp] theorem Part.globalSubstitution_setZone (p : Part) (z : ZoneId) (x : Zone) : (p.setZone z x).globalSubstitution = p.globalSubstitution := rfl
@[simp] theorem Part.schedule_setZone (p : Part) (z : ZoneId) (x : Zone) : (p.setZone z x).schedule = p.schedule := rfl
@[simp] theorem Part.indications_setZone (p : Part) (z : ZoneId) (x : Zone) : (p.setZone z x).indications = p.indications := rfl
@[simp] theorem Part.tallies_setZone (p : Part) (z : ZoneId) (x : Zone) : (p.setZone z x).tallies = p.tallies := rfl
@[simp] theorem Part.link_setZone (p : Part) (z : ZoneId) (x : Zone) : (p.setZone z x).link = p.link := rfl

/-! ### Raises -/

@[simp] theorem Part.localTime_raise (p : Part) (k : IndicationKind) (o : IndicationObject) : (p.raise k o).localTime = p.localTime := rfl
@[simp] theorem Part.capture_raise (p : Part) (k : IndicationKind) (o : IndicationObject) : (p.raise k o).capture = p.capture := rfl
@[simp] theorem Part.domains_raise (p : Part) (k : IndicationKind) (o : IndicationObject) : (p.raise k o).domains = p.domains := rfl
@[simp] theorem Part.engine_raise (p : Part) (k : IndicationKind) (o : IndicationObject) : (p.raise k o).engine = p.engine := rfl
@[simp] theorem Part.echo_raise (p : Part) (k : IndicationKind) (o : IndicationObject) : (p.raise k o).echo = p.echo := rfl
@[simp] theorem Part.pool_raise (p : Part) (k : IndicationKind) (o : IndicationObject) : (p.raise k o).pool = p.pool := rfl
@[simp] theorem Part.filter_raise (p : Part) (k : IndicationKind) (o : IndicationObject) : (p.raise k o).filter = p.filter := rfl
@[simp] theorem Part.zones_raise (p : Part) (k : IndicationKind) (o : IndicationObject) : (p.raise k o).zones = p.zones := rfl
@[simp] theorem Part.globalSubstitution_raise (p : Part) (k : IndicationKind) (o : IndicationObject) : (p.raise k o).globalSubstitution = p.globalSubstitution := rfl
@[simp] theorem Part.schedule_raise (p : Part) (k : IndicationKind) (o : IndicationObject) : (p.raise k o).schedule = p.schedule := rfl
@[simp] theorem Part.tallies_raise (p : Part) (k : IndicationKind) (o : IndicationObject) : (p.raise k o).tallies = p.tallies := rfl
@[simp] theorem Part.link_raise (p : Part) (k : IndicationKind) (o : IndicationObject) : (p.raise k o).link = p.link := rfl
@[simp] theorem Part.domain_raise (p : Part) (k : IndicationKind) (o : IndicationObject) (e : DomainId) : (p.raise k o).domain e = p.domain e := rfl
@[simp] theorem Part.zone_raise (p : Part) (k : IndicationKind) (o : IndicationObject) (w : ZoneId) : (p.raise k o).zone w = p.zone w := rfl

/-! ### Raises of LINK -/

@[simp] theorem Part.localTime_raiseLink (p : Part) (c : LinkCause) : (p.raiseLink c).localTime = p.localTime := rfl
@[simp] theorem Part.capture_raiseLink (p : Part) (c : LinkCause) : (p.raiseLink c).capture = p.capture := rfl
@[simp] theorem Part.domains_raiseLink (p : Part) (c : LinkCause) : (p.raiseLink c).domains = p.domains := rfl
@[simp] theorem Part.engine_raiseLink (p : Part) (c : LinkCause) : (p.raiseLink c).engine = p.engine := rfl
@[simp] theorem Part.echo_raiseLink (p : Part) (c : LinkCause) : (p.raiseLink c).echo = p.echo := rfl
@[simp] theorem Part.pool_raiseLink (p : Part) (c : LinkCause) : (p.raiseLink c).pool = p.pool := rfl
@[simp] theorem Part.filter_raiseLink (p : Part) (c : LinkCause) : (p.raiseLink c).filter = p.filter := rfl
@[simp] theorem Part.zones_raiseLink (p : Part) (c : LinkCause) : (p.raiseLink c).zones = p.zones := rfl
@[simp] theorem Part.globalSubstitution_raiseLink (p : Part) (c : LinkCause) : (p.raiseLink c).globalSubstitution = p.globalSubstitution := rfl
@[simp] theorem Part.schedule_raiseLink (p : Part) (c : LinkCause) : (p.raiseLink c).schedule = p.schedule := rfl
@[simp] theorem Part.tallies_raiseLink (p : Part) (c : LinkCause) : (p.raiseLink c).tallies = p.tallies := rfl
@[simp] theorem Part.link_raiseLink (p : Part) (c : LinkCause) : (p.raiseLink c).link = p.link := rfl
@[simp] theorem Part.domain_raiseLink (p : Part) (c : LinkCause) (e : DomainId) : (p.raiseLink c).domain e = p.domain e := rfl
@[simp] theorem Part.zone_raiseLink (p : Part) (c : LinkCause) (w : ZoneId) : (p.raiseLink c).zone w = p.zone w := rfl

/-! ### Releases -/

@[simp] theorem Part.localTime_release (p : Part) (n : Nat) : (p.release n).localTime = p.localTime := rfl
@[simp] theorem Part.capture_release (p : Part) (n : Nat) : (p.release n).capture = p.capture := rfl
@[simp] theorem Part.domains_release (p : Part) (n : Nat) : (p.release n).domains = p.domains := rfl
@[simp] theorem Part.engine_release (p : Part) (n : Nat) : (p.release n).engine = p.engine := rfl
@[simp] theorem Part.echo_release (p : Part) (n : Nat) : (p.release n).echo = p.echo := rfl
@[simp] theorem Part.filter_release (p : Part) (n : Nat) : (p.release n).filter = p.filter := rfl
@[simp] theorem Part.zones_release (p : Part) (n : Nat) : (p.release n).zones = p.zones := rfl
@[simp] theorem Part.globalSubstitution_release (p : Part) (n : Nat) : (p.release n).globalSubstitution = p.globalSubstitution := rfl
@[simp] theorem Part.schedule_release (p : Part) (n : Nat) : (p.release n).schedule = p.schedule := rfl
@[simp] theorem Part.indications_release (p : Part) (n : Nat) : (p.release n).indications = p.indications := rfl
@[simp] theorem Part.tallies_release (p : Part) (n : Nat) : (p.release n).tallies = p.tallies := rfl
@[simp] theorem Part.link_release (p : Part) (n : Nat) : (p.release n).link = p.link := rfl
@[simp] theorem Part.domain_release (p : Part) (n : Nat) (e : DomainId) : (p.release n).domain e = p.domain e := rfl
@[simp] theorem Part.zone_release (p : Part) (n : Nat) (w : ZoneId) : (p.release n).zone w = p.zone w := rfl

/-! ### Claims -/

@[simp] theorem Part.localTime_claim (p : Part) (n : Byte) : (p.claim n).localTime = p.localTime := rfl
@[simp] theorem Part.domains_claim (p : Part) (n : Byte) : (p.claim n).domains = p.domains := rfl
@[simp] theorem Part.engine_claim (p : Part) (n : Byte) : (p.claim n).engine = p.engine := rfl
@[simp] theorem Part.echo_claim (p : Part) (n : Byte) : (p.claim n).echo = p.echo := rfl
@[simp] theorem Part.pool_claim (p : Part) (n : Byte) : (p.claim n).pool = p.pool := rfl
@[simp] theorem Part.filter_claim (p : Part) (n : Byte) : (p.claim n).filter = p.filter := rfl
@[simp] theorem Part.zones_claim (p : Part) (n : Byte) : (p.claim n).zones = p.zones := rfl
@[simp] theorem Part.globalSubstitution_claim (p : Part) (n : Byte) : (p.claim n).globalSubstitution = p.globalSubstitution := rfl
@[simp] theorem Part.schedule_claim (p : Part) (n : Byte) : (p.claim n).schedule = p.schedule := rfl
@[simp] theorem Part.indications_claim (p : Part) (n : Byte) : (p.claim n).indications = p.indications := rfl
@[simp] theorem Part.tallies_claim (p : Part) (n : Byte) : (p.claim n).tallies = p.tallies := rfl
@[simp] theorem Part.link_claim (p : Part) (n : Byte) : (p.claim n).link = p.link := rfl
@[simp] theorem Part.domain_claim (p : Part) (n : Byte) (e : DomainId) : (p.claim n).domain e = p.domain e := rfl
@[simp] theorem Part.zone_claim (p : Part) (n : Byte) (w : ZoneId) : (p.claim n).zone w = p.zone w := rfl

/-! ### The receiver back in HUNT -/

@[simp] theorem Part.localTime_toHunt (p : Part)  : (p.toHunt).localTime = p.localTime := rfl
@[simp] theorem Part.capture_toHunt (p : Part)  : (p.toHunt).capture = p.capture := rfl
@[simp] theorem Part.domains_toHunt (p : Part)  : (p.toHunt).domains = p.domains := rfl
@[simp] theorem Part.engine_toHunt (p : Part)  : (p.toHunt).engine = p.engine := rfl
@[simp] theorem Part.echo_toHunt (p : Part)  : (p.toHunt).echo = p.echo := rfl
@[simp] theorem Part.pool_toHunt (p : Part)  : (p.toHunt).pool = p.pool := rfl
@[simp] theorem Part.filter_toHunt (p : Part)  : (p.toHunt).filter = p.filter := rfl
@[simp] theorem Part.zones_toHunt (p : Part)  : (p.toHunt).zones = p.zones := rfl
@[simp] theorem Part.globalSubstitution_toHunt (p : Part)  : (p.toHunt).globalSubstitution = p.globalSubstitution := rfl
@[simp] theorem Part.schedule_toHunt (p : Part)  : (p.toHunt).schedule = p.schedule := rfl
@[simp] theorem Part.indications_toHunt (p : Part)  : (p.toHunt).indications = p.indications := rfl
@[simp] theorem Part.tallies_toHunt (p : Part)  : (p.toHunt).tallies = p.tallies := rfl
@[simp] theorem Part.domain_toHunt (p : Part)  (e : DomainId) : (p.toHunt).domain e = p.domain e := rfl
@[simp] theorem Part.zone_toHunt (p : Part)  (w : ZoneId) : (p.toHunt).zone w = p.zone w := rfl

/-! ### Answers -/

@[simp] theorem Part.localTime_answer (p : Part) (k t : Byte) (a : Answer) : (p.answer k t a).localTime = p.localTime := rfl
@[simp] theorem Part.capture_answer (p : Part) (k t : Byte) (a : Answer) : (p.answer k t a).capture = p.capture := rfl
@[simp] theorem Part.domains_answer (p : Part) (k t : Byte) (a : Answer) : (p.answer k t a).domains = p.domains := rfl
@[simp] theorem Part.engine_answer (p : Part) (k t : Byte) (a : Answer) : (p.answer k t a).engine = p.engine := rfl
@[simp] theorem Part.echo_answer (p : Part) (k t : Byte) (a : Answer) : (p.answer k t a).echo = p.echo := rfl
@[simp] theorem Part.pool_answer (p : Part) (k t : Byte) (a : Answer) : (p.answer k t a).pool = p.pool := rfl
@[simp] theorem Part.filter_answer (p : Part) (k t : Byte) (a : Answer) : (p.answer k t a).filter = p.filter := rfl
@[simp] theorem Part.zones_answer (p : Part) (k t : Byte) (a : Answer) : (p.answer k t a).zones = p.zones := rfl
@[simp] theorem Part.globalSubstitution_answer (p : Part) (k t : Byte) (a : Answer) : (p.answer k t a).globalSubstitution = p.globalSubstitution := rfl
@[simp] theorem Part.schedule_answer (p : Part) (k t : Byte) (a : Answer) : (p.answer k t a).schedule = p.schedule := rfl
@[simp] theorem Part.indications_answer (p : Part) (k t : Byte) (a : Answer) : (p.answer k t a).indications = p.indications := rfl
@[simp] theorem Part.tallies_answer (p : Part) (k t : Byte) (a : Answer) : (p.answer k t a).tallies = p.tallies := rfl
@[simp] theorem Part.domain_answer (p : Part) (k t : Byte) (a : Answer) (e : DomainId) : (p.answer k t a).domain e = p.domain e := rfl
@[simp] theorem Part.zone_answer (p : Part) (k t : Byte) (a : Answer) (w : ZoneId) : (p.answer k t a).zone w = p.zone w := rfl

/-! ### Snapshots -/

@[simp] theorem Part.localTime_snapshot (p : Part) (c : SnapshotCause) : (p.snapshot c).localTime = p.localTime := rfl
@[simp] theorem Part.capture_snapshot (p : Part) (c : SnapshotCause) : (p.snapshot c).capture = p.capture := rfl
@[simp] theorem Part.domains_snapshot (p : Part) (c : SnapshotCause) : (p.snapshot c).domains = p.domains := rfl
@[simp] theorem Part.engine_snapshot (p : Part) (c : SnapshotCause) : (p.snapshot c).engine = p.engine := rfl
@[simp] theorem Part.echo_snapshot (p : Part) (c : SnapshotCause) : (p.snapshot c).echo = p.echo := rfl
@[simp] theorem Part.pool_snapshot (p : Part) (c : SnapshotCause) : (p.snapshot c).pool = p.pool := rfl
@[simp] theorem Part.filter_snapshot (p : Part) (c : SnapshotCause) : (p.snapshot c).filter = p.filter := rfl
@[simp] theorem Part.zones_snapshot (p : Part) (c : SnapshotCause) : (p.snapshot c).zones = p.zones := rfl
@[simp] theorem Part.globalSubstitution_snapshot (p : Part) (c : SnapshotCause) : (p.snapshot c).globalSubstitution = p.globalSubstitution := rfl
@[simp] theorem Part.schedule_snapshot (p : Part) (c : SnapshotCause) : (p.snapshot c).schedule = p.schedule := rfl
@[simp] theorem Part.indications_snapshot (p : Part) (c : SnapshotCause) : (p.snapshot c).indications = p.indications := rfl
@[simp] theorem Part.link_snapshot (p : Part) (c : SnapshotCause) : (p.snapshot c).link = p.link := rfl
@[simp] theorem Part.domain_snapshot (p : Part) (c : SnapshotCause) (e : DomainId) : (p.snapshot c).domain e = p.domain e := rfl
@[simp] theorem Part.zone_snapshot (p : Part) (c : SnapshotCause) (w : ZoneId) : (p.snapshot c).zone w = p.zone w := rfl

/-! ### Rises of a counter -/

@[simp] theorem Part.localTime_tally (p : Part) (i : TallyId) : (p.tally i).localTime = p.localTime := by
  simp only [Part.tally]; split <;> rfl
@[simp] theorem Part.capture_tally (p : Part) (i : TallyId) : (p.tally i).capture = p.capture := by
  simp only [Part.tally]; split <;> rfl
@[simp] theorem Part.domains_tally (p : Part) (i : TallyId) : (p.tally i).domains = p.domains := by
  simp only [Part.tally]; split <;> rfl
@[simp] theorem Part.engine_tally (p : Part) (i : TallyId) : (p.tally i).engine = p.engine := by
  simp only [Part.tally]; split <;> rfl
@[simp] theorem Part.echo_tally (p : Part) (i : TallyId) : (p.tally i).echo = p.echo := by
  simp only [Part.tally]; split <;> rfl
@[simp] theorem Part.pool_tally (p : Part) (i : TallyId) : (p.tally i).pool = p.pool := by
  simp only [Part.tally]; split <;> rfl
@[simp] theorem Part.filter_tally (p : Part) (i : TallyId) : (p.tally i).filter = p.filter := by
  simp only [Part.tally]; split <;> rfl
@[simp] theorem Part.zones_tally (p : Part) (i : TallyId) : (p.tally i).zones = p.zones := by
  simp only [Part.tally]; split <;> rfl
@[simp] theorem Part.globalSubstitution_tally (p : Part) (i : TallyId) : (p.tally i).globalSubstitution = p.globalSubstitution := by
  simp only [Part.tally]; split <;> rfl
@[simp] theorem Part.schedule_tally (p : Part) (i : TallyId) : (p.tally i).schedule = p.schedule := by
  simp only [Part.tally]; split <;> rfl
@[simp] theorem Part.link_tally (p : Part) (i : TallyId) : (p.tally i).link = p.link := by
  simp only [Part.tally]; split <;> rfl
@[simp] theorem Part.domain_tally (p : Part) (i : TallyId) (e : DomainId) : (p.tally i).domain e = p.domain e := by
  simp only [Part.tally]; split <;> rfl
@[simp] theorem Part.zone_tally (p : Part) (i : TallyId) (w : ZoneId) : (p.tally i).zone w = p.zone w := by
  simp only [Part.tally]; split <;> rfl

/-! ### The link -/

@[simp] theorem Part.receiver_toHunt (p : Part) : p.toHunt.link.receiver = .hunt := rfl
@[simp] theorem Part.silence_toHunt (p : Part) : p.toHunt.link.silence = none := rfl
@[simp] theorem Part.replies_toHunt (p : Part) : p.toHunt.link.replies = p.link.replies := rfl
@[simp] theorem Part.deaf_toHunt (p : Part) : p.toHunt.link.deaf = p.link.deaf := rfl
@[simp] theorem Part.mode_toHunt (p : Part) : p.toHunt.link.mode = p.link.mode := rfl
@[simp] theorem Part.divisor_toHunt (p : Part) : p.toHunt.link.divisor = p.link.divisor := rfl

@[simp] theorem Part.replies_answer (p : Part) (k t : Byte) (a : Answer) :
    (p.answer k t a).link.replies = p.link.replies ++ [a.reply k t] := rfl

/-! ### The queue of commands -/

@[simp] theorem State.part_withPending (s : State) (q : List Instr) : ({ s with pending := q } : State).part = s.part := rfl
@[simp] theorem State.pending_withPart (s : State) (p : Part) : ({ s with part := p } : State).pending = s.pending := rfl

end Sys2Proof.Machine
end

