-- ==== Sys2Proof/Laws/PoolLaw.lean ====
section
/-! SUPPORT. The pool's own operations under the pool law (R67): taking the lowest free slot, releasing one reference, and the
references that queues hold. `Owes z d p` is the law while `d` are slots that zone `z` has removed and not yet released. -/

namespace Sys2Proof.Machine

/-! ### Held slots -/

theorem insertSlot_mem (h : HeldSlot) (l : List HeldSlot) (k : HeldSlot) : k ∈ insertSlot h l ↔ k = h ∨ k ∈ l := by
  induction l with
  | nil => simp [insertSlot]
  | cons a l ih =>
    simp only [insertSlot]; split
    · simp
    · simp only [List.mem_cons, ih]; exact or_left_comm

theorem insertSlot_find_ne (h : HeldSlot) (l : List HeldSlot) (n : Nat) (hn : n ≠ h.number) :
    (insertSlot h l).find? (fun k => k.number == n) = l.find? (fun k => k.number == n) := by
  have hb : (h.number == n) = false := by simpa using Ne.symm hn
  induction l with
  | nil => simp [insertSlot, hb]
  | cons a l ih =>
    simp only [insertSlot]; split
    · rw [List.find?_cons, hb]
    · rw [List.find?_cons, List.find?_cons, ih]

theorem insertSlot_find (h : HeldSlot) (l : List HeldSlot) (hn : l.find? (fun k => k.number == h.number) = none) :
    (insertSlot h l).find? (fun k => k.number == h.number) = some h := by
  induction l with
  | nil => simp [insertSlot]
  | cons a l ih =>
    rw [List.find?_cons] at hn
    cases ha : (a.number == h.number) with
    | true => rw [ha] at hn; cases hn
    | false =>
      rw [ha] at hn
      simp only [insertSlot]; split
      · simp
      · rw [List.find?_cons, ha]; exact ih hn

/-- A slot that is not held joins an ascending list. -/
theorem insertSlot_ascending (h : HeldSlot) (l : List HeldSlot) (hl : (l.map HeldSlot.number).Pairwise (· < ·))
    (hn : ∀ k ∈ l, k.number ≠ h.number) : ((insertSlot h l).map HeldSlot.number).Pairwise (· < ·) := by
  induction l with
  | nil => simp [insertSlot]
  | cons a l ih =>
    rw [List.map_cons, List.pairwise_cons] at hl
    simp only [insertSlot]; split
    · rename_i hlt
      rw [List.map_cons, List.map_cons, List.pairwise_cons, List.pairwise_cons]
      refine ⟨?_, hl⟩
      intro b hb
      rcases List.mem_cons.mp hb with rfl | hb
      · exact hlt
      · exact Nat.lt_trans hlt (hl.1 b hb)
    · rename_i hnl
      rw [List.map_cons, List.pairwise_cons]
      refine ⟨?_, ih hl.2 (fun k hk => hn k (List.mem_cons_of_mem _ hk))⟩
      intro b hb
      obtain ⟨k, hk, rfl⟩ := List.mem_map.mp hb
      rcases (insertSlot_mem _ _ _).mp hk with rfl | hk
      · have := hn a (List.mem_cons_self ..); omega
      · exact hl.1 _ (List.mem_map_of_mem hk)

theorem lowestFrom_spec (l : List HeldSlot) : ∀ n, (l.map HeldSlot.number).Pairwise (· < ·) →
    (∀ k ∈ l, n ≤ k.number) → ∀ k ∈ l, k.number ≠ lowestFrom n l := by
  induction l with
  | nil => intro n _ _ k hk; cases hk
  | cons a l ih =>
    intro n hl hm k hk
    rw [List.map_cons, List.pairwise_cons] at hl
    have above : ∀ j ∈ l, a.number < j.number := fun j hj => hl.1 _ (List.mem_map_of_mem hj)
    have low : ∀ n l, n ≤ lowestFrom n l := by
      intro n l
      induction l generalizing n with
      | nil => exact Nat.le_refl _
      | cons b l ih => simp only [lowestFrom]; split; exact Nat.le_trans (Nat.le_succ _) (ih _); exact Nat.le_refl _
    simp only [lowestFrom]; split
    · rename_i he
      rcases List.mem_cons.mp hk with rfl | hk
      · have := low (n + 1) l; omega
      · exact ih (n + 1) hl.2 (fun j hj => by have := above j hj; omega) k hk
    · rename_i he
      rcases List.mem_cons.mp hk with rfl | hk
      · exact he
      · have := above k hk; have := hm a (List.mem_cons_self ..); omega

/-- The lowest free slot is a slot, and is not held (R68). -/
theorem BlockPool.lowestFree_spec (pool : BlockPool) (hw : pool.WellKept) (n : Nat) (h : pool.lowestFree = some n) :
    n < Config.poolSlots ∧ ∀ k ∈ pool.held, k.number ≠ n := by
  unfold BlockPool.lowestFree at h; dsimp only at h
  split at h
  · rename_i hl
    cases h
    exact ⟨hl, lowestFrom_spec _ 0 hw.1 (fun _ _ => Nat.zero_le _)⟩
  · cases h

theorem find?_number_none (l : List HeldSlot) (n : Nat) (h : ∀ k ∈ l, k.number ≠ n) :
    l.find? (fun k => k.number == n) = none := by
  rw [List.find?_eq_none]; intro k hk; simpa using h k hk

theorem BlockPool.find_none (pool : BlockPool) (n : Nat) (h : ∀ k ∈ pool.held, k.number ≠ n) : pool.find n = none :=
  find?_number_none _ _ h

/-- What a release does to the holder counts of an ascending list (R69). -/
theorem release_find (l : List HeldSlot) (n m : Nat) (hl : (l.map HeldSlot.number).Pairwise (· < ·)) :
    (l.filterMap (fun h => if h.number = n then (if h.holders ≤ 1 then none else some { h with holders := h.holders - 1 })
      else some h)).find? (fun k => k.number == m) =
    if m = n then (l.find? (fun k => k.number == n)).bind
      (fun h => if h.holders ≤ 1 then none else some { h with holders := h.holders - 1 })
    else l.find? (fun k => k.number == m) := by
  induction l with
  | nil => split <;> rfl
  | cons a l ih =>
    rw [List.map_cons, List.pairwise_cons] at hl
    have ih := ih hl.2
    by_cases ha : a.number = n
    · have rest : l.find? (fun k => k.number == n) = none := by
        refine find?_number_none _ _ (fun k hk => ?_)
        have := hl.1 _ (List.mem_map_of_mem hk); omega
      rw [List.filterMap_cons]; simp only [ha, if_true]
      by_cases hh : a.holders ≤ 1
      · simp only [hh, if_true]; rw [ih]
        by_cases hm : m = n
        · simp [hm, rest, ha, hh]
        · have : (a.number == m) = false := by rw [ha]; simpa using Ne.symm hm
          simp [hm, this]
      · simp only [hh, if_false]
        rw [List.find?_cons, ih]
        by_cases hm : m = n
        · simp [hm, ha, hh]
        · have h2 : (n == m) = false := by simpa using Ne.symm hm
          simp [hm, ha, h2]
    · have hb : (a.number == n) = false := by simpa using ha
      rw [List.filterMap_cons]; simp only [ha, if_false]
      rw [List.find?_cons, ih]
      by_cases hm : m = n
      · subst hm; simp [hb]
      · simp only [hm, if_false, List.find?_cons]

theorem BlockPool.find_release (pool : BlockPool) (hw : pool.WellKept) (n m : Nat) :
    (pool.release n).find m = if m = n then (pool.find n).bind
      (fun h => if h.holders ≤ 1 then none else some { h with holders := h.holders - 1 }) else pool.find m :=
  release_find _ _ _ hw.1

theorem BlockPool.find_holders (pool : BlockPool) (hw : pool.WellKept) (n : Nat) (h : HeldSlot) (hf : pool.find n = some h) :
    1 ≤ h.holders := (hw.2 h (List.mem_of_find?_eq_some hf)).2

/-- A release lowers the holder count by one (R69). -/
theorem BlockPool.holdersOf_release (pool : BlockPool) (hw : pool.WellKept) (n m : Nat) :
    (pool.release n).holdersOf m = if m = n then pool.holdersOf n - 1 else pool.holdersOf m := by
  unfold BlockPool.holdersOf
  rw [pool.find_release hw]
  by_cases hm : m = n
  · simp only [hm, if_true]
    cases hf : pool.find n with
    | none => rfl
    | some h =>
      have := pool.find_holders hw n h hf
      simp only [Option.bind_some]
      by_cases hh : h.holders ≤ 1
      · simp only [hh, if_true]; omega
      · simp only [hh, if_false]
  · simp only [hm, if_false]

theorem BlockPool.wellKept_release (pool : BlockPool) (hw : pool.WellKept) (n : Nat) : (pool.release n).WellKept := by
  have sub : ∀ l : List HeldSlot, ((l.filterMap (fun h => if h.number = n then
      (if h.holders ≤ 1 then none else some { h with holders := h.holders - 1 }) else some h)).map HeldSlot.number).Sublist
      (l.map HeldSlot.number) := by
    intro l
    induction l with
    | nil => exact List.Sublist.refl _
    | cons a l ih =>
      rw [List.filterMap_cons]
      by_cases ha : a.number = n
      · by_cases hh : a.holders ≤ 1
        · simp only [ha, hh, if_true]; exact ih.trans (List.sublist_cons_self _ _)
        · simp only [ha, hh, if_true, if_false]; simpa [ha] using ih
      · simp only [ha, if_false]; simpa using ih
  refine ⟨hw.1.sublist (sub _), ?_⟩
  intro h hh
  obtain ⟨k, hk, he⟩ := List.mem_filterMap.mp hh
  have := hw.2 k hk
  split at he
  · split at he
    · cases he
    · cases he; exact ⟨this.1, by dsimp only; omega⟩
  · cases he; exact this

/-- A held pool has at most 512 slots. -/
theorem BlockPool.held_le (pool : BlockPool) (hw : pool.WellKept) : pool.held.length ≤ Config.poolSlots := by
  have bound : ∀ (l : List Nat) (k : Nat), l.Pairwise (· < ·) → (∀ n ∈ l, k ≤ n ∧ n < Config.poolSlots) → k ≤ Config.poolSlots →
      l.length + k ≤ Config.poolSlots := by
    intro l
    induction l with
    | nil => intro k _ _ hk; simpa using hk
    | cons a l ih =>
      intro k hp hb hk
      rw [List.pairwise_cons] at hp
      have ha := hb a (List.mem_cons_self ..)
      have := ih (a + 1) hp.2 (fun n hn => ⟨hp.1 n hn, (hb n (List.mem_cons_of_mem _ hn)).2⟩) ha.2
      simp only [List.length_cons]; omega
  have := bound _ 0 hw.1 (fun n hn => by
    obtain ⟨h, hh, rfl⟩ := List.mem_map.mp hn
    exact ⟨Nat.zero_le _, (hw.2 h hh).1⟩) (Nat.zero_le _)
  simpa using this

/-! ### References -/

theorem Part.references_congr {p q : Part} (h : ∀ w, (q.zone w).queued = (p.zone w).queued) (n : Nat) :
    q.references n = p.references n := by
  unfold Part.references; simp only [h]

theorem Part.references_eq (p : Part) (n : Nat) : p.references n =
    (p.zone .z0).queued.count n + (p.zone .z1).queued.count n + (p.zone .z2).queued.count n + (p.zone .z3).queued.count n := by
  simp [Part.references, allZones, Nat.add_assoc]

/-- A write of one zone changes the references by its queues. -/
theorem Part.references_setZone (p : Part) (z : ZoneId) (x : Zone) (n : Nat) :
    (p.setZone z x).references n + (p.zone z).queued.count n = p.references n + x.queued.count n := by
  rw [Part.references_eq, Part.references_eq]
  cases z <;> simp [Part.setZone, Part.zone, PerZone.set, PerZone.get] <;> omega

/-- At most four queues refer to a slot. -/
theorem Part.references_le (p : Part) (h : ∀ z n, (p.zone z).queued.count n ≤ 1) (n : Nat) : p.references n ≤ 4 := by
  rw [Part.references_eq]
  have := h .z0 n; have := h .z1 n; have := h .z2 n; have := h .z3 n; omega

/-! ### The law with a debt -/

/-- The pool law while zone `z` has removed the entries `d` from its queues and not yet released them. -/
def Owes (z : ZoneId) (d : List Nat) (p : Part) : Prop :=
  p.pool.WellKept ∧ (∀ n, p.references n + d.count n = p.pool.holdersOf n) ∧
  (∀ n, (p.zone z).queued.count n + d.count n ≤ 1) ∧ ∀ w n, (p.zone w).queued.count n ≤ 1

theorem owes_nil (z : ZoneId) (p : Part) : Owes z [] p ↔ p.PoolLaw := by
  constructor
  · intro h; exact ⟨h.1, fun n => by simpa using h.2.1 n, h.2.2.2⟩
  · intro h; exact ⟨h.1, fun n => by simpa using h.2.1 n, fun n => by simpa using h.2.2 z n, h.2.2⟩

/-- What leaves the pool and every queue as they were keeps the debt. -/
theorem Owes.congr {z : ZoneId} {d : List Nat} {p q : Part} (h : Owes z d p) (hp : q.pool.held = p.pool.held)
    (hq : ∀ w, (q.zone w).queued = (p.zone w).queued) : Owes z d q := by
  have hf : ∀ n, q.pool.holdersOf n = p.pool.holdersOf n := by
    intro n; unfold BlockPool.holdersOf BlockPool.find; rw [hp]
  refine ⟨?_, fun n => ?_, fun n => ?_, fun w n => ?_⟩
  · unfold BlockPool.WellKept; rw [hp]; exact h.1
  · rw [Part.references_congr hq, hf]; exact h.2.1 n
  · rw [hq]; exact h.2.2.1 n
  · rw [hq]; exact h.2.2.2 w n

/-- A write of the zone whose entries move between its queues and the debt. -/
theorem Owes.setZone {z : ZoneId} {d d' : List Nat} {p : Part} (h : Owes z d p) (x : Zone)
    (hd : ∀ n, x.queued.count n + d'.count n = (p.zone z).queued.count n + d.count n) : Owes z d' (p.setZone z x) := by
  refine ⟨h.1, fun n => ?_, fun n => ?_, fun w n => ?_⟩
  · have h1 := p.references_setZone z x n
    have h2 := h.2.1 n
    have h3 := hd n
    show _ = p.pool.holdersOf n
    omega
  · rw [Part.zone_setZone, if_pos rfl, hd n]; exact h.2.2.1 n
  · rw [Part.zone_setZone]; split
    · have h3 := hd n; have h4 := h.2.2.1 n; omega
    · exact h.2.2.2 w n

/-- A release pays one entry of the debt. -/
theorem Owes.release {z : ZoneId} {d : List Nat} {p : Part} {n : Nat} (h : Owes z (n :: d) p) : Owes z d (p.release n) := by
  refine ⟨p.pool.wellKept_release h.1 n, fun m => ?_, fun m => ?_, h.2.2.2⟩
  · show p.references m + d.count m = (p.pool.release n).holdersOf m
    rw [p.pool.holdersOf_release h.1]
    have h2 := h.2.1 m
    rw [List.count_cons] at h2
    split
    · rename_i hm; subst hm; simp at h2; omega
    · rename_i hm; have : (n == m) = false := by simpa using Ne.symm hm
      simp [this] at h2; omega
  · have h3 := h.2.2.1 m
    rw [List.count_cons] at h3
    show (p.zone z).queued.count m + d.count m ≤ 1
    omega

/-- A slot that is not held is in no debt. -/
theorem Owes.void {z : ZoneId} {d : List Nat} {p : Part} {n : Nat} (h : Owes z (n :: d) p) (hf : p.pool.find n = none) :
    Owes z d p := by
  exfalso
  have h2 := h.2.1 n
  unfold BlockPool.holdersOf at h2
  rw [hf, List.count_cons] at h2
  simp at h2

/-- Entries that leave a queue by a filter. -/
theorem count_filter_not (l : List Nat) (keep gone : Nat → Bool) (hg : ∀ n, gone n = !keep n) (n : Nat) :
    (l.filter keep).count n + (l.filter gone).count n = l.count n := by
  induction l with
  | nil => rfl
  | cons a l ih =>
    simp only [List.filter_cons, hg]
    cases keep a <;> simp [List.count_cons] <;> omega

/-! ### Storing a block (R68, R82) -/

/-- Insertion puts one entry into a queue and keeps the others in their order (R88). -/
theorem insertEntry_split (pool : BlockPool) (n : Nat) (t : DomainTime) (l : List Nat) :
    ∃ front back, l = front ++ back ∧ pool.insertEntry n t l = front ++ n :: back := by
  induction l with
  | nil => exact ⟨[], [], rfl, rfl⟩
  | cons a l ih =>
    simp only [BlockPool.insertEntry]; split
    · obtain ⟨f, b, h1, h2⟩ := ih
      exact ⟨a :: f, b, by rw [h1]; rfl, by rw [h2]; rfl⟩
    · exact ⟨[], a :: l, rfl, rfl⟩

theorem count_insertEntry (pool : BlockPool) (n : Nat) (t : DomainTime) (l : List Nat) (m : Nat) :
    (pool.insertEntry n t l).count m = l.count m + (if m = n then 1 else 0) := by
  obtain ⟨f, b, h1, h2⟩ := insertEntry_split pool n t l
  rw [h2, h1, List.count_append, List.count_append, List.count_cons]
  by_cases hm : m = n
  · subst hm; simp; omega
  · have : (n == m) = false := by simpa using Ne.symm hm
    simp [hm, this]

/-- A zone that takes a block refers to its slot once more. -/
theorem Zone.count_queued_insert (x : Zone) (pool : BlockPool) (t : Target) (n : Nat) (time : DomainTime) (m : Nat) :
    (x.setQueue t (pool.insertEntry n time (x.queue t))).queued.count m = x.queued.count m + (if m = n then 1 else 0) := by
  cases t <;> simp only [Zone.queued, Zone.setQueue, Zone.queue, List.count_append, count_insertEntry] <;> omega

/-- What the insertion of one slot into the queues of several zones does. -/
theorem foldl_insertBlock (t : Target) (slot : Nat) (time : DomainTime) (zs : List ZoneId) (p : Part) (hn : zs.Nodup) :
    let q := zs.foldl (fun p z => p.insertBlock t slot time z) p
    q = { p with zones := q.zones } ∧
    (∀ z ∈ zs, q.zone z = (p.zone z).setQueue t (p.pool.insertEntry slot time ((p.zone z).queue t))) ∧
    (∀ z, z ∉ zs → q.zone z = p.zone z) ∧
    ∀ m, q.references m = p.references m + (if m = slot then zs.length else 0) := by
  induction zs generalizing p with
  | nil => simp
  | cons a zs ih =>
    rw [List.nodup_cons] at hn
    obtain ⟨h1, h2, h3, h4⟩ := ih (p.insertBlock t slot time a) hn.2
    simp only [List.foldl_cons]
    refine ⟨h1, fun z hz => ?_, fun z hz => ?_, fun m => ?_⟩
    · rcases List.mem_cons.mp hz with rfl | hz
      · rw [h3 _ hn.1]; simp [Part.insertBlock]
      · have : z ≠ a := fun e => hn.1 (e ▸ hz)
        rw [h2 z hz]; simp [Part.insertBlock, this]
    · simp only [List.mem_cons, not_or] at hz
      rw [h3 z hz.2]; simp [Part.insertBlock, hz.1]
    · have hs := p.references_setZone a ((p.zone a).setQueue t (p.pool.insertEntry slot time ((p.zone a).queue t))) m
      rw [Zone.count_queued_insert] at hs
      rw [h4 m]
      unfold Part.insertBlock
      rw [List.length_cons]
      by_cases hm : m = slot
      · simp only [hm, if_true] at hs ⊢; omega
      · simp only [hm, if_false] at hs ⊢; omega

/-- What storing a block does to the part: the pool with the block in its slot, the zones, perhaps a raise. -/
theorem Part.storeBlock_eq (p : Part) (b : Block) (t : Target) (slot : Nat) (zs : List ZoneId) (hn : zs.Nodup) :
    let q := p.storeBlock b t slot zs
    q = { p with pool := q.pool, zones := q.zones, indications := q.indications } ∧
    q.pool = { p.pool with held := insertSlot ⟨slot, zs.length, b⟩ p.pool.held } ∧
    (∀ z, q.zone z = if z ∈ zs then (p.zone z).setQueue t (q.pool.insertEntry slot b.time ((p.zone z).queue t)) else p.zone z) ∧
    ∀ m, q.references m = p.references m + (if m = slot then zs.length else 0) := by
  obtain ⟨p', hp'⟩ : ∃ p' : Part, p' = { p with pool := { p.pool with held := insertSlot ⟨slot, zs.length, b⟩ p.pool.held } } :=
    ⟨_, rfl⟩
  have hq : p.storeBlock b t slot zs =
      (let r := zs.foldl (fun p z => p.insertBlock t slot b.time z) p'
       if r.pool.watermark ≤ p.pool.freeCount ∧ r.pool.freeCount < r.pool.watermark then r.raise .poolLow .part else r) := by
    rw [hp']; rfl
  obtain ⟨h1, h2, h3, h4⟩ := foldl_insertBlock t slot b.time zs p' hn
  rw [hq]
  generalize zs.foldl (fun p z => p.insertBlock t slot b.time z) p' = r at *
  have hp : r.pool = { p.pool with held := insertSlot ⟨slot, zs.length, b⟩ p.pool.held } := by rw [h1, hp']
  have hz : ∀ z, r.zone z = if z ∈ zs then (p.zone z).setQueue t (r.pool.insertEntry slot b.time ((p.zone z).queue t))
      else p.zone z := by
    intro z; split
    · rename_i hm; rw [h2 z hm, hp, hp']; rfl
    · rename_i hm; rw [h3 z hm, hp']; rfl
  have h4 : ∀ m, r.references m = p.references m + (if m = slot then zs.length else 0) := by
    intro m; rw [h4 m, hp']; rfl
  dsimp only
  split
  · refine ⟨?_, hp, hz, h4⟩
    rw [h1, hp']; rfl
  · refine ⟨?_, hp, hz, h4⟩
    rw [h1, hp']

/-- What storing a block does to the indications: POOL_LOW, or nothing (R71). -/
theorem Part.indications_storeBlock (p : Part) (b : Block) (t : Target) (slot : Nat) (zs : List ZoneId) (hn : zs.Nodup) :
    (p.storeBlock b t slot zs).indications = p.indications ∨
    (p.storeBlock b t slot zs).indications = (p.raise .poolLow .part).indications := by
  obtain ⟨h1, -⟩ := foldl_insertBlock t slot b.time zs
    { p with pool := { p.pool with held := insertSlot ⟨slot, zs.length, b⟩ p.pool.held } } hn
  unfold Part.storeBlock; dsimp only; split
  · right; rw [h1]; rfl
  · left; rw [h1]

/-- Storing a block in the lowest free slot, for at least one zone, keeps the pool law. -/
theorem Part.poolLaw_storeBlock (p : Part) (b : Block) (t : Target) (slot : Nat) (zs : List ZoneId) (hn : zs.Nodup)
    (hne : zs ≠ []) (hs : p.pool.lowestFree = some slot) (h : p.PoolLaw) : (p.storeBlock b t slot zs).PoolLaw := by
  obtain ⟨h1, hp, hz, hr⟩ := p.storeBlock_eq b t slot zs hn
  obtain ⟨hlt, hnot⟩ := p.pool.lowestFree_spec h.1 slot hs
  have hfree : p.pool.find slot = none := p.pool.find_none slot hnot
  have hzero : p.references slot = 0 := by rw [h.2.1 slot]; unfold BlockPool.holdersOf; rw [hfree]
  have hnone : ∀ z, (p.zone z).queued.count slot = 0 := by
    intro z; rw [Part.references_eq] at hzero
    cases z <;> omega
  refine ⟨⟨?_, ?_⟩, fun m => ?_, fun z m => ?_⟩
  · rw [hp]; exact insertSlot_ascending _ _ h.1.1 hnot
  · rw [hp]; intro k hk
    rcases (insertSlot_mem _ _ _).mp hk with rfl | hk
    · exact ⟨hlt, List.length_pos_iff.mpr hne⟩
    · exact h.1.2 k hk
  · rw [hr m, hp]
    unfold BlockPool.holdersOf BlockPool.find
    by_cases hm : m = slot
    · subst hm
      have := insertSlot_find ⟨m, zs.length, b⟩ p.pool.held hfree
      dsimp only at this ⊢
      rw [this, hzero]; simp
    · have := insertSlot_find_ne ⟨slot, zs.length, b⟩ p.pool.held m hm
      dsimp only at this ⊢
      rw [this, if_neg hm, Nat.add_zero]; exact h.2.1 m
  · rw [hz z]; split
    · rw [Zone.count_queued_insert]; split
      · rename_i hm; rw [hm]; have := hnone z; omega
      · exact h.2.2 z m
    · exact h.2.2 z m

end Sys2Proof.Machine
end

