-- ==== Sys2Proof/Laws/OrderLaw.lean ====
section
/-! SUPPORT. The order of the pending set (R165, R169) and of the zone queues (R88) under the operations that write them. -/

namespace Sys2Proof.Machine

/-! ### The pending set -/

theorem IndicationKind.index_inj {a b : IndicationKind} (h : a.index.val = b.index.val) : a = b := by
  cases a <;> cases b <;> first | rfl | exact absurd h (by decide)

theorem IndicationObject.index_inj {a b : IndicationObject} (h : a.index = b.index) : a = b := by
  rcases a with _ | (_ | _) | (_ | _ | _ | _) <;> rcases b with _ | (_ | _) | (_ | _ | _ | _) <;>
    first | rfl | exact absurd h (by decide)

/-- The report order tells two pairs apart. -/
theorem Pair.rank_inj {a b : Pair} (h : a.rank = b.rank) : a = b := by
  have ha := a.kind.index.isLt
  have hb := b.kind.index.isLt
  unfold Pair.rank at h
  have h1 : a.object.index = b.object.index := by omega
  have h2 : a.kind.index.val = b.kind.index.val := by omega
  cases a; cases b
  cases IndicationObject.index_inj h1; cases IndicationKind.index_inj h2; rfl

/-- The pairs of a set after a raise are the raised pair and those of the set before. -/
theorem raiseIn_pair {pair : Pair} {now : LocalTime} {l : List PendingPair} {q : PendingPair} (h : q ∈ raiseIn pair now l) :
    q.pair = pair ∨ ∃ r ∈ l, r.pair = q.pair := by
  induction l with
  | nil => left; simp only [raiseIn, List.mem_singleton] at h; rw [h]
  | cons a l ih =>
    simp only [raiseIn] at h
    split at h
    · rcases List.mem_cons.mp h with rfl | h
      · left; assumption
      · exact .inr ⟨q, List.mem_cons_of_mem _ h, rfl⟩
    · split at h
      · rcases List.mem_cons.mp h with rfl | h
        · exact .inl rfl
        · exact .inr ⟨q, h, rfl⟩
      · rcases List.mem_cons.mp h with rfl | h
        · exact .inr ⟨q, List.mem_cons_self .., rfl⟩
        · rcases ih h with h | ⟨r, hr, he⟩
          · exact .inl h
          · exact .inr ⟨r, List.mem_cons_of_mem _ hr, he⟩

/-- A raise of a pair of section 10.1 keeps the pending set (R165). -/
theorem raiseIn_withinSet {pair : Pair} (hv : pair.valid = true) (now : LocalTime) (l : List PendingPair)
    (h : l.Pairwise (fun a b => a.pair.rank < b.pair.rank) ∧ ∀ q ∈ l, q.pair.valid = true ∧ 1 ≤ q.raises ∧ q.raises ≤ 255) :
    (raiseIn pair now l).Pairwise (fun a b => a.pair.rank < b.pair.rank) ∧
    ∀ q ∈ raiseIn pair now l, q.pair.valid = true ∧ 1 ≤ q.raises ∧ q.raises ≤ 255 := by
  induction l with
  | nil => exact ⟨by simp [raiseIn], by simp [raiseIn, hv]⟩
  | cons a l ih =>
    obtain ⟨h1, h2⟩ := h
    rw [List.pairwise_cons] at h1
    have ha := h2 a (List.mem_cons_self ..)
    obtain ⟨i1, i2⟩ := ih ⟨h1.2, fun q hq => h2 q (List.mem_cons_of_mem _ hq)⟩
    simp only [raiseIn]; split
    · refine ⟨List.pairwise_cons.mpr ⟨h1.1, h1.2⟩, fun q hq => ?_⟩
      rcases List.mem_cons.mp hq with rfl | hq
      · exact ⟨ha.1, by dsimp only; omega, Nat.min_le_left _ _⟩
      · exact h2 q (List.mem_cons_of_mem _ hq)
    · rename_i hne
      split
      · rename_i hlt
        refine ⟨List.pairwise_cons.mpr ⟨fun b hb => ?_, List.pairwise_cons.mpr h1⟩, fun q hq => ?_⟩
        · rcases List.mem_cons.mp hb with rfl | hb
          · exact hlt
          · exact Nat.lt_trans hlt (h1.1 b hb)
        · rcases List.mem_cons.mp hq with rfl | hq
          · exact ⟨hv, Nat.le_refl _, by dsimp only; omega⟩
          · exact h2 q hq
      · rename_i hnl
        have hlt : a.pair.rank < pair.rank := by
          have : a.pair.rank ≠ pair.rank := fun e => hne (Pair.rank_inj e)
          omega
        refine ⟨List.pairwise_cons.mpr ⟨fun b hb => ?_, i1⟩, fun q hq => ?_⟩
        · rcases raiseIn_pair hb with he | ⟨r, hr, he⟩
          · rw [he]; exact hlt
          · rw [← he]; exact h1.1 r hr
        · rcases List.mem_cons.mp hq with rfl | hq
          · exact ha
          · exact i2 q hq

theorem Part.withinSet_raise {p : Part} {k : IndicationKind} {o : IndicationObject} (hv : Pair.valid ⟨k, o⟩ = true)
    (h : p.indications.WithinSet) : (p.raise k o).indications.WithinSet := raiseIn_withinSet hv _ _ h

theorem Part.withinSet_tally {p : Part} {i : TallyId} (h : p.indications.WithinSet) : (p.tally i).indications.WithinSet := by
  unfold Part.tally; dsimp only; split
  · exact Part.withinSet_raise rfl h
  · exact h

theorem Part.withinSet_raiseLink {p : Part} {c : LinkCause} (h : p.indications.WithinSet) :
    (p.raiseLink c).indications.WithinSet := Part.withinSet_raise (p := p) (k := .link) (o := .part) rfl h

/-! ### Queues (R88) -/

/-- Of two spans that do not meet, the one that starts earlier ends before the other starts. -/
theorem span_ends {s e t u : Nat} (h1 : s < e) (h2 : t < u) (h : e ≤ t ∨ u ≤ s) : (s < t → e ≤ t) ∧ (¬ s < t → u ≤ s) := by
  omega

namespace BlockPool

variable {pool pool' : BlockPool} {rate : Rate}

theorem InOrder.nil : pool.InOrder rate [] := ⟨by simp, List.Pairwise.nil⟩

/-- What is left of a queue stays in order. -/
theorem InOrder.sublist {l m : List Nat} (h : pool.InOrder rate m) (hs : l.Sublist m) : pool.InOrder rate l :=
  ⟨fun n hn => h.1 n (hs.subset hn), h.2.sublist hs⟩

/-- The order of a queue rests on the blocks of its own slots alone. -/
theorem InOrder.congr {l : List Nat} (h : pool.InOrder rate l) (hb : ∀ n ∈ l, pool'.blockOf n = pool.blockOf n) :
    pool'.InOrder rate l :=
  ⟨fun n hn => by rw [hb n hn]; exact h.1 n hn,
    h.2.imp_of_mem (fun hm hn hab a b ha hb' => hab a b (by rw [← hb _ hm]; exact ha) (by rw [← hb _ hn]; exact hb'))⟩

/-- A block that passes the checks of R80 in a queue in order stands in order there (R88). -/
theorem InOrder.insert {l : List Nat} {n : Nat} {b : Block} (h : pool.InOrder rate l) (hn : pool.blockOf n = some b)
    (hr : b.rate = rate) (hf : 1 ≤ b.frames)
    (hd : ∀ m ∈ l, ∀ a, pool.blockOf m = some a → ¬(a.stream = b.stream ∧ a.sequence = b.sequence))
    (ho : ∀ m ∈ l, ∀ a, pool.blockOf m = some a → a.time + a.frames * rate.tpf ≤ b.time ∨ b.time + b.frames * rate.tpf ≤ a.time) :
    pool.InOrder rate (pool.insertEntry n b.time l) := by
  have hpos : 0 < rate.tpf := by cases rate <;> decide
  have start : ∀ m a, pool.blockOf m = some a → pool.entryStart m = a.time := by
    intro m a ha
    unfold BlockPool.blockOf at ha
    obtain ⟨s, hs, rfl⟩ := Option.map_eq_some_iff.mp ha
    unfold BlockPool.entryStart; rw [hs]
  have span : ∀ a : Block, 1 ≤ a.frames → a.time < a.time + a.frames * rate.tpf := fun a ha =>
    Nat.lt_add_of_pos_right (Nat.mul_pos ha hpos)
  have memIns : ∀ m l, m ∈ pool.insertEntry n b.time l → m = n ∨ m ∈ l := by
    intro m l hm
    obtain ⟨f, k, h1, h2⟩ := insertEntry_split pool n b.time l
    rw [h2] at hm; rw [h1]
    rcases List.mem_append.mp hm with hm | hm
    · exact .inr (List.mem_append_left _ hm)
    · rcases List.mem_cons.mp hm with rfl | hm
      · exact .inl rfl
      · exact .inr (List.mem_append_right _ hm)
  refine ⟨fun m hm => ?_, ?_⟩
  · rcases memIns m l hm with rfl | hm
    · exact ⟨b, hn, hr, hf⟩
    · exact h.1 m hm
  · obtain ⟨h1, h2⟩ := h
    induction l with
    | nil => exact List.pairwise_singleton _ _
    | cons a l ih =>
      rw [List.pairwise_cons] at h2
      obtain ⟨ba, hba, hra, hfa⟩ := h1 a (List.mem_cons_self ..)
      have hoa := ho a (List.mem_cons_self ..) ba hba
      have hda := hd a (List.mem_cons_self ..) ba hba
      have ends := span_ends (span ba hfa) (span b hf) hoa
      simp only [BlockPool.insertEntry, start a ba hba]
      split
      · rename_i hlt
        refine List.pairwise_cons.mpr ⟨fun m hm => ?_, ih (fun m hm => hd m (List.mem_cons_of_mem _ hm))
          (fun m hm => ho m (List.mem_cons_of_mem _ hm)) (fun m hm => h1 m (List.mem_cons_of_mem _ hm)) h2.2⟩
        rcases memIns m l hm with rfl | hm
        · intro x y hx hy
          rw [hba] at hx; rw [hn] at hy; cases hx; cases hy
          exact ⟨hlt, ends.1 hlt, hda⟩
        · exact h2.1 m hm
      · rename_i hnl
        have hend := ends.2 hnl
        have hbefore := Nat.lt_of_lt_of_le (span b hf) hend
        refine List.pairwise_cons.mpr ⟨fun m hm => ?_, List.pairwise_cons.mpr h2⟩
        intro x y hx hy
        rw [hn] at hx; cases hx
        rcases List.mem_cons.mp hm with rfl | hm'
        · rw [hba] at hy; cases hy
          exact ⟨hbefore, hend, fun e => hda ⟨e.1.symm, e.2.symm⟩⟩
        · have hlt := (h2.1 m hm' ba y hba hy).1
          exact ⟨Nat.lt_trans hbefore hlt, Nat.le_trans hend (Nat.le_of_lt hlt), fun e => hd m hm y hy ⟨e.1.symm, e.2.symm⟩⟩

/-- What an accepted block has passed (R80). -/
theorem judge_accepted_spec {x : Zone} {t : Target} {b : Block} (h : pool.judge x t b = .accepted) :
    x.state.unstarted = false ∧ b.rate = x.setup.rate ∧
    (∀ m ∈ x.queue t, ∀ a, pool.blockOf m = some a → ¬(a.stream = b.stream ∧ a.sequence = b.sequence)) ∧
    (∀ m ∈ x.queue t, ∀ a, pool.blockOf m = some a →
      a.time + a.frames * x.setup.rate.tpf ≤ b.time ∨ b.time + b.frames * x.setup.rate.tpf ≤ a.time) ∧
    (x.queue t).length < x.setup.quota t := by
  unfold BlockPool.judge at h; dsimp only at h
  split at h
  · cases h
  · rename_i hs
    split at h
    · cases h
    · rename_i hr
      split at h
      · cases h
      · rename_i hd
        split at h
        · cases h
        · split at h
          · cases h
          · split at h
            · cases h
            · rename_i ho
              split at h
              · cases h
              · rename_i hq
                refine ⟨?_, by simpa using hr, fun m hm a ha => ?_, fun m hm a ha => ?_, Nat.lt_of_not_le hq⟩
                · cases hx : x.state <;> simp_all [ZoneState.takesBlocks, ZoneState.unstarted]
                · obtain ⟨s, hs, rfl⟩ := Option.map_eq_some_iff.mp ha
                  intro he
                  refine hd (List.any_eq_true.mpr ⟨m, hm, ?_⟩)
                  rw [hs]; simp [he.1, he.2]
                · obtain ⟨s, hs, rfl⟩ := Option.map_eq_some_iff.mp ha
                  have hno : ¬(b.time < pool.entryEnd x.setup.rate.tpf m ∧
                      pool.entryStart m < b.time + b.frames * x.setup.rate.tpf) := fun he =>
                    ho (List.any_eq_true.mpr ⟨m, hm, by simpa using he⟩)
                  unfold BlockPool.entryEnd BlockPool.entryStart at hno
                  rw [hs] at hno
                  rcases Nat.lt_or_ge b.time (s.block.time + s.block.frames * x.setup.rate.tpf) with h1 | h1
                  · exact .inr (Nat.le_of_not_lt (fun h2 => hno ⟨h1, h2⟩))
                  · exact .inl h1

end BlockPool

/-- A release leaves the blocks of the slots that a queue still refers to (R69). -/
theorem Owes.blockOf_release {z : ZoneId} {d : List Nat} {p : Part} {n m : Nat} {w : ZoneId} (h : Owes z (n :: d) p)
    (hm : m ∈ (p.zone w).queued) : (p.pool.release n).blockOf m = p.pool.blockOf m := by
  unfold BlockPool.blockOf
  rw [p.pool.find_release h.1]
  by_cases he : m = n
  · subst he
    have hc : 1 ≤ (p.zone w).queued.count m := List.count_pos_iff.mpr hm
    have hr : 1 ≤ p.references m := by
      rw [Part.references_eq]; cases w <;> omega
    have h2 := h.2.1 m
    rw [List.count_cons_self] at h2
    unfold BlockPool.holdersOf at h2
    cases hf : p.pool.find m with
    | none => rw [hf] at h2; dsimp only at h2; omega
    | some k =>
      rw [hf] at h2; dsimp only at h2
      have : ¬ k.holders ≤ 1 := by omega
      simp [this]
  · simp [he]

end Sys2Proof.Machine
end

