-- ==== Sys2Proof/Laws/ZoneEffects.lean ====
section
/-! SUPPORT. What the operations on one zone can do: `ZoneEffect z p d q` says that `q` is reached from `p` by raises, counts,
writes of zone `z`, releases and writes of the schedule, and by nothing else, and that `d` are the entries that have left
the zone's queues and are not yet released. One lemma for each operation of chapters 6 to 9 says that it is such an effect
with nothing owed; what follows from that is said once. (Elab.async is off to keep Lean's memory low.) -/

set_option Elab.async false

namespace Sys2Proof.Machine

/-- A zone whose queues hold nothing, and in no order, that those of another zone of the same rate and quotas do not. -/
def Zone.Within (x y : Zone) : Prop :=
  (x.setup.rate = y.setup.rate ∧ x.setup.mainQuota = y.setup.mainQuota ∧ x.setup.overlayQuota = y.setup.overlayQuota) ∧
  x.mainQueue.Sublist y.mainQueue ∧ x.overlayQueue.Sublist y.overlayQueue

/-- The effects of one zone's own operations. A raise is of a pair of section 10.1. A write of the zone keeps R98, adds nothing to
its queues and leaves rate and quotas, its entries stay or are owed, a release pays what is owed, a write of the schedule keeps
its capacities. -/
inductive ZoneEffect (z : ZoneId) (p : Part) : List Nat → Part → Prop
  | refl : ZoneEffect z p [] p
  | raise {d : List Nat} {q : Part} (k : IndicationKind) (o : IndicationObject) (h : ZoneEffect z p d q)
      (hv : Pair.valid ⟨k, o⟩ = true := by rfl) : ZoneEffect z p d (q.raise k o)
  | tally {d : List Nat} {q : Part} (i : TallyId) (h : ZoneEffect z p d q) : ZoneEffect z p d (q.tally i)
  | setZone {d d' : List Nat} {q : Part} (x : Zone) (h : ZoneEffect z p d q) (hx : (q.zone z).Resting → x.Resting)
      (hd : ∀ n, x.queued.count n + d'.count n = (q.zone z).queued.count n + d.count n) (hw : x.Within (q.zone z)) :
      ZoneEffect z p d' (q.setZone z x)
  | release {d : List Nat} {q : Part} (n : Nat) (h : ZoneEffect z p (n :: d) q) : ZoneEffect z p d (q.release n)
  | void {d : List Nat} {q : Part} (n : Nat) (h : ZoneEffect z p (n :: d) q) (hf : q.pool.find n = none) : ZoneEffect z p d q
  | schedule {d : List Nat} {q : Part} (s : Schedule) (h : ZoneEffect z p d q)
      (hn : s.entries.length ≤ q.schedule.entries.length)
      (hd : q.schedule.done.length ≤ Config.doneCapacity → s.done.length ≤ Config.doneCapacity) :
      ZoneEffect z p d { q with schedule := s }

namespace ZoneEffect

variable {z : ZoneId} {p q r : Part} {d : List Nat}

theorem trans (h : ZoneEffect z p [] q) (k : ZoneEffect z q d r) : ZoneEffect z p d r := by
  induction k with
  | refl => exact h
  | raise k o _ _ ih => exact .raise k o ih ‹_›
  | tally i _ ih => exact .tally i ih
  | setZone x _ hx hd hw ih => exact .setZone x ih hx hd hw
  | release n _ ih => exact .release n ih
  | void n _ hf ih => exact .void n ih hf
  | schedule s _ hn hd ih => exact .schedule s ih hn hd

/-- A fold of effects is an effect. -/
theorem foldl {α : Type} (f : Part → α → Part) (hf : ∀ q a, ZoneEffect z p [] q → ZoneEffect z p [] (f q a)) (l : List α)
    (h : ZoneEffect z p [] q) : ZoneEffect z p [] (l.foldl f q) := by
  induction l generalizing q with
  | nil => exact h
  | cons a l ih => exact ih (hf q a h)

/-- A fold that pays, one after another, the entries owed. -/
theorem foldlOwed (f : Part → Nat → Part) (hf : ∀ q n d, ZoneEffect z p (n :: d) q → ZoneEffect z p d (f q n)) (l : List Nat)
    (h : ZoneEffect z p l q) : ZoneEffect z p [] (l.foldl f q) := by
  induction l generalizing q with
  | nil => exact h
  | cons a l ih => exact ih (hf q a l h)

/-- A write of the zone that keeps state, queues, rate and quotas. -/
theorem touch (x : Zone) (h : ZoneEffect z p d q) (hs : x.state = (q.zone z).state) (hm : x.mainQueue = (q.zone z).mainQueue)
    (ho : x.overlayQueue = (q.zone z).overlayQueue) (hr : x.setup.rate = (q.zone z).setup.rate := by rfl)
    (h1 : x.setup.mainQuota = (q.zone z).setup.mainQuota := by rfl)
    (h2 : x.setup.overlayQuota = (q.zone z).setup.overlayQuota := by rfl) : ZoneEffect z p d (q.setZone z x) :=
  .setZone x h (by intro hr; unfold Zone.Resting; rw [hs, hm, ho]; exact hr) (fun n => by unfold Zone.queued; rw [hm, ho])
    ⟨⟨hr, h1, h2⟩, hm ▸ List.Sublist.refl _, ho ▸ List.Sublist.refl _⟩

/-- A write of the zone that keeps its queues and its setup and leaves it started. -/
theorem started (x : Zone) (h : ZoneEffect z p d q) (hs : x.state.unstarted = false)
    (hm : x.mainQueue = (q.zone z).mainQueue := by rfl) (ho : x.overlayQueue = (q.zone z).overlayQueue := by rfl)
    (hr : x.setup = (q.zone z).setup := by rfl) : ZoneEffect z p d (q.setZone z x) :=
  .setZone x h (by intro _ hu; rw [hs] at hu; cases hu) (fun n => by unfold Zone.queued; rw [hm, ho])
    ⟨by rw [hr]; exact ⟨rfl, rfl, rfl⟩, hm ▸ List.Sublist.refl _, ho ▸ List.Sublist.refl _⟩

/-! ### Queues and the pool -/

theorem raiseZoneState (h : ZoneEffect z p [] q) (w : ZoneId) : ZoneEffect z p [] (q.raiseZoneState w) := .raise _ _ h

theorem releaseAll (ns : List Nat) (h : ZoneEffect z p ns q) : ZoneEffect z p [] (q.releaseAll ns) :=
  foldlOwed _ (fun _ n _ h => h.release n) ns h

theorem tallyTimes (h : ZoneEffect z p [] q) (i : TallyId) (n : Nat) : ZoneEffect z p [] (q.tallyTimes i n) := by
  induction n generalizing q with
  | zero => exact h
  | succ n ih => exact ih (.tally i h)

theorem testLowWatermark (h : ZoneEffect z p [] q) (w : ZoneId) (n : Nat) : ZoneEffect z p [] (q.testLowWatermark w n) := by
  unfold Part.testLowWatermark; split
  · exact .raise _ _ h
  · exact h

end ZoneEffect

@[simp] theorem Part.zone_releaseAll (p : Part) (ns : List Nat) (w : ZoneId) : (p.releaseAll ns).zone w = p.zone w := by
  unfold Part.releaseAll
  induction ns generalizing p with
  | nil => rfl
  | cons n ns ih => exact (ih _).trans (Part.zone_release p n w)

@[simp] theorem Part.schedule_releaseAll (p : Part) (ns : List Nat) : (p.releaseAll ns).schedule = p.schedule := by
  unfold Part.releaseAll
  induction ns generalizing p with
  | nil => rfl
  | cons n ns ih => exact (ih _).trans (Part.schedule_release p n)

@[simp] theorem Part.zone_raiseZoneState (p : Part) (z w : ZoneId) : (p.raiseZoneState z).zone w = p.zone w := rfl

@[simp] theorem Part.schedule_raiseZoneState (p : Part) (z : ZoneId) : (p.raiseZoneState z).schedule = p.schedule := rfl

@[simp] theorem Part.zone_reportDone (p : Part) (e : ScheduleEntry) (w : ZoneId) : (p.reportDone e).zone w = p.zone w := by
  unfold Part.reportDone; split <;> rfl

@[simp] theorem Part.zone_foldl_reportDone (p : Part) (es : List ScheduleEntry) (w : ZoneId) :
    (es.foldl Part.reportDone p).zone w = p.zone w := by
  induction es generalizing p with
  | nil => rfl
  | cons e es ih => exact (ih _).trans (Part.zone_reportDone p e w)

@[simp] theorem Part.zone_leaveSchedule (p : Part) (z w : ZoneId) : (p.leaveSchedule z).zone w = p.zone w := by
  unfold Part.leaveSchedule; exact Part.zone_foldl_reportDone _ _ _

/-- The emptying of R96 empties both queues and changes nothing else of the zone. -/
@[simp] theorem Part.zone_emptyQueues (p : Part) (z w : ZoneId) :
    (p.emptyQueues z).zone w = if w = z then { p.zone z with mainQueue := [], overlayQueue := [] } else p.zone w := by
  simp [Part.emptyQueues]

theorem keepDone_length (l : List DoneRecord) : (keepDone l).length ≤ Config.doneCapacity := by
  unfold keepDone; rw [List.length_drop]; omega

namespace ZoneEffect

variable {z : ZoneId} {p q r : Part}

theorem emptyQueues (h : ZoneEffect z p [] q) : ZoneEffect z p [] (q.emptyQueues z) := by
  unfold Part.emptyQueues
  refine (setZone { q.zone z with mainQueue := [], overlayQueue := [] } h (fun _ _ => ⟨rfl, rfl⟩) ?_
    ⟨⟨rfl, rfl, rfl⟩, List.nil_sublist _, List.nil_sublist _⟩).releaseAll _
  intro n; simp [Zone.queued]

theorem recordMarker (h : ZoneEffect z p d q) (n : Nat) (b : Block) : ZoneEffect z p d (q.recordMarker z n b) := by
  unfold Part.recordMarker; split
  · exact .raise _ _ (h.touch _ rfl rfl rfl)
  · exact h

theorem playedMain (n : Nat) (h : ZoneEffect z p (n :: d) q) : ZoneEffect z p d (q.playedMain z n) := by
  unfold Part.playedMain; split
  · rename_i hf; exact h.void n hf
  · refine release n (recordMarker (touch _ (.tally _ h) ?_ ?_ ?_) _ _) <;> rfl

theorem playedOverlay (n : Nat) (h : ZoneEffect z p (n :: d) q) : ZoneEffect z p d (q.playedOverlay z n) := by
  unfold Part.playedOverlay; split
  · rename_i hf; exact h.void n hf
  · exact (h.recordMarker _ _).release n

/-- Entries that leave the main queue by a filter are owed, and leave an empty queue empty. -/
theorem filterMain (h : ZoneEffect z p [] q) (keep gone : Nat → Bool) (hg : ∀ n, gone n = !keep n) :
    ZoneEffect z p ((q.zone z).mainQueue.filter gone)
      (q.setZone z { q.zone z with mainQueue := (q.zone z).mainQueue.filter keep }) := by
  refine .setZone _ h (fun hr hu => ?_) (fun n => ?_) ⟨⟨rfl, rfl, rfl⟩, List.filter_sublist, List.Sublist.refl _⟩
  · obtain ⟨h1, h2⟩ := hr hu
    exact ⟨by simp [h1], h2⟩
  · have := count_filter_not (q.zone z).mainQueue keep gone hg n
    simp only [Zone.queued, List.count_append, List.count_nil]; omega

/-- Entries that leave the overlay queue by a filter are owed, and leave an empty queue empty. -/
theorem filterOverlay (h : ZoneEffect z p [] q) (keep gone : Nat → Bool) (hg : ∀ n, gone n = !keep n) :
    ZoneEffect z p ((q.zone z).overlayQueue.filter gone)
      (q.setZone z { q.zone z with overlayQueue := (q.zone z).overlayQueue.filter keep }) := by
  refine .setZone _ h (fun hr hu => ?_) (fun n => ?_) ⟨⟨rfl, rfl, rfl⟩, List.Sublist.refl _, List.filter_sublist⟩
  · obtain ⟨h1, h2⟩ := hr hu
    exact ⟨h1, by simp [h2]⟩
  · have := count_filter_not (q.zone z).overlayQueue keep gone hg n
    simp only [Zone.queued, List.count_append, List.count_nil]; omega

theorem playMain (h : ZoneEffect z p [] q) (pos : Position) : ZoneEffect z p [] (q.playMain z pos) :=
  foldlOwed _ (fun _ n _ h => h.playedMain n) _ (h.filterMain _ _ (fun _ => by simp))

theorem playOverlay (h : ZoneEffect z p [] q) (pos : Position) : ZoneEffect z p [] (q.playOverlay z pos) :=
  foldlOwed _ (fun _ n _ h => h.playedOverlay n) _ (h.filterOverlay _ _ (fun _ => by simp))

theorem dropLateMain (h : ZoneEffect z p [] q) (pos : Position) : ZoneEffect z p [] (q.dropLateMain z pos) :=
  ((h.filterMain _ _ (fun _ => by simp)).releaseAll _).tallyTimes _ _

theorem dropLateOverlay (h : ZoneEffect z p [] q) (pos : Position) : ZoneEffect z p [] (q.dropLateOverlay z pos) :=
  ((h.filterOverlay _ _ (fun _ => by simp)).releaseAll _).tallyTimes _ _

theorem dropLate (h : ZoneEffect z p [] q) (pos : Position) : ZoneEffect z p [] (q.dropLate z pos) :=
  (h.dropLateMain pos).dropLateOverlay pos

/-! ### The schedule -/

theorem reportDone (h : ZoneEffect z p [] q) (e : ScheduleEntry) : ZoneEffect z p [] (q.reportDone e) := by
  unfold Part.reportDone; split
  · exact .schedule _ (.raise _ _ h) (Nat.le_refl _) (fun _ => keepDone_length _)
  · exact h

theorem retire (h : ZoneEffect z p [] q) (e : ScheduleEntry) : ZoneEffect z p [] (q.retire e) :=
  reportDone (.schedule (q.schedule.remove e.handle) h (List.length_filter_le _ _) id) e

theorem updateEntry (h : ZoneEffect z p [] q) (n : Word16) (f : ScheduleEntry → ScheduleEntry) :
    ZoneEffect z p [] { q with schedule := q.schedule.update n f } :=
  .schedule _ h (by simp [Schedule.update]) id

theorem leaveSchedule (h : ZoneEffect z p [] q) : ZoneEffect z p [] (q.leaveSchedule z) := by
  unfold Part.leaveSchedule
  refine foldl _ (fun _ e h => h.reportDone e) _ (.schedule _ h ?_ id)
  simpa using List.length_filter_le _ _

theorem toIdle (h : ZoneEffect z p [] q) : ZoneEffect z p [] (q.toIdle z) := by
  unfold Part.toIdle
  dsimp only
  refine (setZone _ h.emptyQueues.leaveSchedule ?_ ?_ ?_).raiseZoneState z
  · intro _ _; simp
  · intro _; rfl
  · exact ⟨⟨rfl, rfl, rfl⟩, List.Sublist.refl _, List.Sublist.refl _⟩

theorem toDisabled (h : ZoneEffect z p [] q) : ZoneEffect z p [] (q.toDisabled z) := by
  unfold Part.toDisabled
  dsimp only
  refine (setZone _ h.emptyQueues.leaveSchedule ?_ ?_ ?_).raiseZoneState z
  · intro _ _; simp
  · intro _; rfl
  · exact ⟨⟨rfl, rfl, rfl⟩, List.Sublist.refl _, List.Sublist.refl _⟩

theorem toStopping (h : ZoneEffect z p [] q) (t : DomainTime) : ZoneEffect z p [] (q.toStopping z t) :=
  ((h.started _ rfl).raiseZoneState z).leaveSchedule

theorem stopZone (h : ZoneEffect z p [] q) (m : StopMode) : ZoneEffect z p [] (q.stopZone z m) := by
  unfold Part.stopZone; dsimp only; split
  · exact h.toStopping _
  · exact h.toIdle

theorem toHeld (h : ZoneEffect z p [] q) (r : ResumeState) : ZoneEffect z p [] (q.toHeld z r) :=
  (h.started _ rfl).raiseZoneState z

theorem act (h : ZoneEffect z p [] q) (a : Action) : ZoneEffect z p [] (q.act z a) := by
  cases a with
  | gain g => exact h.touch _ rfl rfl rfl
  | subst s => exact h.touch _ rfl rfl rfl
  | overlay m d => exact h.touch _ rfl rfl rfl
  | latency l => exact h.touch _ rfl rfl rfl
  | stop m => exact h.stopZone m
  | note => exact h

theorem applyEntry (h : ZoneEffect z p [] q) (pos : Position) (n : Word16) : ZoneEffect z p [] (q.applyEntry z pos n) := by
  unfold Part.applyEntry; split
  · exact h
  · split
    · dsimp only; split
      · exact ((h.updateEntry n _).act _).retire _
      · exact (h.updateEntry n _).act _
    · exact h

theorem applyDue (h : ZoneEffect z p [] q) (pos : Position) : ZoneEffect z p [] (q.applyDue z pos) :=
  foldl _ (fun _ n h => h.applyEntry pos n) _ h

/-! ### Frames -/

theorem underrun (h : ZoneEffect z p [] q) : ZoneEffect z p [] (q.underrun z) := .tally _ (.raise _ _ h)

theorem contentState_started (q : Part) (z : ZoneId) (pos : Position) : (q.contentState z pos).unstarted = false := by
  unfold Part.contentState; split
  · rfl
  · split <;> rfl

theorem judgeContent (h : ZoneEffect z p [] q) (pos : Position) :
    ZoneEffect z p [] (q.judgeContent z pos) := by
  have hc := contentState_started q z pos
  unfold Part.judgeContent; dsimp only; split
  · exact h
  · have h' := (h.started { q.zone z with state := q.contentState z pos } hc).raiseZoneState z
    split
    · exact h'.underrun
    · exact .raise _ _ h'
    · exact h'

theorem judgeAligned (h : ZoneEffect z p [] q) (e : Int) : ZoneEffect z p [] (q.judgeAligned z e) := by
  unfold Part.judgeAligned; dsimp only; split
  · exact h
  · exact .raise _ _ (h.touch _ rfl rfl rfl)

theorem mixFrame (h : ZoneEffect z p [] q) (x : Zone) (pos : Position) (b : Bool) :
    ZoneEffect z p [] (q.mixFrame z x pos b) :=
  h.touch _ rfl rfl rfl

theorem silentFrame (h : ZoneEffect z p [] q) : ZoneEffect z p [] (q.silentFrame z) := h.touch _ rfl rfl rfl

theorem readAndMix (h : ZoneEffect z p [] q) (x : Zone) : ZoneEffect z p [] (q.readAndMix z x) := by
  unfold Part.readAndMix; dsimp only; split
  · exact .tally _ (h.mixFrame _ _ _)
  · exact h.mixFrame _ _ _

theorem advance (h : ZoneEffect z p [] q) (e : Int) : ZoneEffect z p [] (q.advance z e) := h.touch _ rfl rfl rfl

theorem playOut (h : ZoneEffect z p [] q) (move : Option Position) (n : Nat) : ZoneEffect z p [] (q.playOut z move n) := by
  have h' := h.playMain (q.zone z).pos
  unfold Part.playOut; dsimp only; cases move with
  | none => exact (h'.playOverlay _).testLowWatermark z n
  | some pos => exact ((h'.playOverlay pos).playOverlay _).testLowWatermark z n

theorem judge (h : ZoneEffect z p [] q) (e : Int) : ZoneEffect z p [] (q.judge z e) := by
  unfold Part.judge; dsimp only; split
  · split
    · exact h.toIdle
    · exact h.judgeAligned e
  · exact (h.judgeContent _).judgeAligned e

theorem completeFrame (h : ZoneEffect z p [] q) (x : Zone) (e : Int) (move : Option Position) (n : Nat) :
    ZoneEffect z p [] (q.completeFrame z x e move n) := by
  unfold Part.completeFrame; dsimp only
  have h' := (((h.readAndMix x).advance e).playOut move n).applyDue
    ((((q.readAndMix z x).advance z e).playOut z move n).zone z).pos
  split
  · exact h'.judge e
  · exact h'

theorem jump (h : ZoneEffect z p [] q) (t : DomainTime) : ZoneEffect z p [] (q.jump z t) :=
  .tally _ ((h.touch { q.zone z with position := some (positionAt t) } rfl rfl rfl).dropLate _)

theorem unmixedFrame (h : ZoneEffect z p [] q) : ZoneEffect z p [] (q.unmixedFrame z) := h.touch _ rfl rfl rfl

theorem recordFrame (h : ZoneEffect z p [] q) (t : DomainTime) (e : Int) : ZoneEffect z p [] (q.recordFrame z t e) :=
  h.touch _ rfl rfl rfl

theorem playingFrame (h : ZoneEffect z p [] q) : ZoneEffect z p [] (q.playingFrame z) := by
  unfold Part.playingFrame; dsimp only; split
  · exact (h.recordFrame _ _).completeFrame _ _ _ _
  · have h' := (ZoneEffect.raise .reseek (.zone z) ((h.recordFrame (q.target z q.localTime) 0).jump (q.target z q.localTime))).applyDue
      (positionAt (q.target z q.localTime))
    split
    · exact h'.completeFrame _ _ _ _
    · exact h'.unmixedFrame

theorem startZone (h : ZoneEffect z p [] q) (pos : Position) : ZoneEffect z p [] (q.startZone z pos) := by
  unfold Part.startZone; dsimp only
  have h' := (h.dropLateMain pos).testLowWatermark z (q.zone z).mainQueue.length
  split
  · exact (h'.started _ rfl).raiseZoneState z
  · exact ((h'.started _ rfl).raiseZoneState z).underrun

theorem armedFrame (h : ZoneEffect z p [] q) : ZoneEffect z p [] (q.armedFrame z) := by
  unfold Part.armedFrame; dsimp only
  have h' := (h.touch { q.zone z with position := some (positionAt (q.target z q.localTime)) } rfl rfl rfl).recordFrame
    (q.target z q.localTime) 0
  split
  · exact ((h'.judgeAligned 0).startZone _).completeFrame _ _ _ _
  · exact (((h'.playOverlay _).judgeAligned 0).mixFrame _ _ _).applyDue _

theorem frame (h : ZoneEffect z p [] q) : ZoneEffect z p [] (q.frame z) := by
  have h' : ZoneEffect z p [] (q.setZone z { q.zone z with port := some (nextMultiple q.localTime (q.zone z).tpf) }) :=
    h.touch _ rfl rfl rfl
  unfold Part.frame; dsimp only; split
  · exact h'.silentFrame
  · exact h'.silentFrame
  · exact h'.silentFrame
  · exact h'.armedFrame
  · exact h'.playingFrame
  · exact h'.playingFrame
  · exact h'.playingFrame
  · exact h'.playingFrame

/-! ### Holds and resumes -/

theorem holdZone (h : ZoneEffect z p [] q) : ZoneEffect z p [] (q.holdZone z) := by
  unfold Part.holdZone; split
  all_goals first | exact h.toHeld _ | exact h.toIdle | exact h

theorem resumeArmed (h : ZoneEffect z p [] q) : ZoneEffect z p [] (q.resumeArmed z) :=
  (h.started _ rfl).raiseZoneState z

theorem resumeRunning (h : ZoneEffect z p [] q) : ZoneEffect z p [] (q.resumeRunning z) := by
  unfold Part.resumeRunning; dsimp only
  generalize hj : (q.jump z (q.target z (q.nextFrameTime z))).testLowWatermark z (q.zone z).mainQueue.length = j
  have h' : ZoneEffect z p [] j := hj ▸ (h.jump _).testLowWatermark z _
  have resumed : ∀ r, ZoneEffect z p [] r → ∀ t, ZoneEffect z p []
      ((r.setZone z { r.zone z with state := r.contentState z t }).raiseZoneState z) := fun r hr t =>
    (hr.started { r.zone z with state := r.contentState z t } (contentState_started r z t)).raiseZoneState z
  split
  all_goals split
  · exact resumed _ ((ZoneEffect.raise _ _ h').applyDue _) _
  · exact (ZoneEffect.raise _ _ h').applyDue _
  · exact resumed _ (h'.applyDue _) _
  · exact h'.applyDue _

theorem resumeZone (h : ZoneEffect z p [] q) : ZoneEffect z p [] (q.resumeZone z) := by
  unfold Part.resumeZone; split
  all_goals first | exact h.resumeArmed | exact h.resumeRunning | exact h

/-! ### What follows for every one of them -/

/-- What an effect on a zone leaves as it was. -/
theorem unchanged (h : ZoneEffect z p d q) :
    q.localTime = p.localTime ∧ q.capture = p.capture ∧ q.domains = p.domains ∧ q.engine = p.engine ∧ q.echo = p.echo ∧
    q.filter = p.filter ∧ q.globalSubstitution = p.globalSubstitution ∧ q.link = p.link := by
  induction h with
  | refl => exact ⟨rfl, rfl, rfl, rfl, rfl, rfl, rfl, rfl⟩
  | raise k o _ _ ih => exact ih
  | tally i _ ih => simpa using ih
  | setZone x _ _ _ _ ih => exact ih
  | release n _ ih => exact ih
  | void n _ _ ih => exact ih
  | schedule s _ _ _ ih => exact ih

/-- The other zones are as they were. -/
theorem zone_ne (h : ZoneEffect z p d q) {w : ZoneId} (hw : w ≠ z) : q.zone w = p.zone w := by
  induction h with
  | refl => rfl
  | raise k o _ _ ih => exact ih
  | tally i _ ih => simpa using ih
  | setZone x _ _ _ _ ih => simpa [hw] using ih
  | release n _ ih => exact ih
  | void n _ _ ih => exact ih
  | schedule s _ _ _ ih => exact ih

/-- R98 is kept for the zone. -/
theorem resting (h : ZoneEffect z p d q) (hr : (p.zone z).Resting) : (q.zone z).Resting := by
  induction h with
  | refl => exact hr
  | raise k o _ _ ih => exact ih
  | tally i _ ih => simpa using ih
  | setZone x _ hx _ _ ih => simpa using hx ih
  | release n _ ih => exact ih
  | void n _ _ ih => exact ih
  | schedule s _ _ _ ih => exact ih

/-- No live entry is added (R149). -/
theorem entries_le (h : ZoneEffect z p d q) : q.schedule.entries.length ≤ p.schedule.entries.length := by
  induction h with
  | refl => exact Nat.le_refl _
  | raise k o _ _ ih => exact ih
  | tally i _ ih => simpa using ih
  | setZone x _ _ _ _ ih => exact ih
  | release n _ ih => exact ih
  | void n _ _ ih => exact ih
  | schedule s _ hn _ ih => exact Nat.le_trans hn ih

/-- The done list keeps its bound (R159). -/
theorem done_le (h : ZoneEffect z p d q) (hd : p.schedule.done.length ≤ Config.doneCapacity) :
    q.schedule.done.length ≤ Config.doneCapacity := by
  induction h with
  | refl => exact hd
  | raise k o _ _ ih => exact ih
  | tally i _ ih => simpa using ih
  | setZone x _ _ _ _ ih => exact ih
  | release n _ ih => exact ih
  | void n _ _ ih => exact ih
  | schedule s _ _ hd' ih => exact hd' ih

theorem withinList (h : ZoneEffect z p d q) (hs : p.schedule.WithinList) : q.schedule.WithinList :=
  ⟨Nat.le_trans h.entries_le hs.1, h.done_le hs.2⟩

/-- R98 is kept for all zones. -/
theorem restingZonesEmpty (h : ZoneEffect z p d q) (hr : p.RestingZonesEmpty) : q.RestingZonesEmpty := by
  intro w
  by_cases hw : w = z
  · exact hw ▸ h.resting (hr z)
  · rw [h.zone_ne hw]; exact hr w

/-- The pool law is kept, but for what is owed (R67, R69). -/
theorem owes (h : ZoneEffect z p d q) (hp : p.PoolLaw) : Owes z d q := by
  induction h with
  | refl => exact (owes_nil z p).mpr hp
  | raise k o _ _ ih => exact ih.congr rfl (fun _ => rfl)
  | tally i _ ih => exact ih.congr (by simp) (fun _ => by simp)
  | setZone x _ _ hd _ ih => exact ih.setZone x hd
  | release n _ ih => exact ih.release
  | void n _ hf ih => exact ih.void hf
  | schedule s _ _ _ ih => exact ih.congr rfl (fun _ => rfl)

/-- The pool law is kept (R67). -/
theorem poolLaw (h : ZoneEffect z p [] q) (hp : p.PoolLaw) : q.PoolLaw := (owes_nil z q).mp (h.owes hp)

/-- The pending set keeps its form (R165). -/
theorem withinSet (h : ZoneEffect z p d q) (hp : p.indications.WithinSet) : q.indications.WithinSet := by
  induction h with
  | refl => exact hp
  | raise k o _ hv ih => exact Part.withinSet_raise hv ih
  | tally i _ ih => exact Part.withinSet_tally ih
  | setZone x _ _ _ _ ih => exact ih
  | release n _ ih => exact ih
  | void n _ _ ih => exact ih
  | schedule s _ _ _ ih => exact ih

/-- Every queue stays within its quota (R89). -/
theorem withinQuotas (h : ZoneEffect z p d q) (hp : ∀ w, (p.zone w).WithinQuotas) : ∀ w, (q.zone w).WithinQuotas := by
  induction h with
  | refl => exact hp
  | raise k o _ _ ih => exact ih
  | tally i _ ih => intro w; simpa using ih w
  | setZone x _ _ _ hw ih =>
    intro w; rw [Part.zone_setZone]; split
    · obtain ⟨⟨_, h1, h2⟩, h3, h4⟩ := hw
      unfold Zone.WithinQuotas
      rw [h1, h2]
      exact ⟨Nat.le_trans h3.length_le (ih z).1, Nat.le_trans h4.length_le (ih z).2⟩
    · exact ih w
  | release n _ ih => exact ih
  | void n _ _ ih => exact ih
  | schedule s _ _ _ ih => exact ih

/-- Every queue stays in order (R88). -/
theorem inOrder (h : ZoneEffect z p d q) (hl : p.PoolLaw)
    (hp : ∀ w t, p.pool.InOrder (p.zone w).setup.rate ((p.zone w).queue t)) :
    ∀ w t, q.pool.InOrder (q.zone w).setup.rate ((q.zone w).queue t) := by
  induction h with
  | refl => exact hp
  | raise k o _ _ ih => exact ih
  | tally i _ ih => intro w t; simpa using ih w t
  | setZone x _ _ _ hw ih =>
    intro w t; rw [Part.zone_setZone, Part.pool_setZone]; split
    · obtain ⟨⟨h1, _, _⟩, h3, h4⟩ := hw
      rw [h1]
      cases t with
      | main => exact (ih z .main).sublist h3
      | overlay => exact (ih z .overlay).sublist h4
    · exact ih w t
  | release n h ih =>
    intro w t
    refine (ih w t).congr (fun m hm => (h.owes hl).blockOf_release (w := w) ?_)
    cases t with
    | main => exact List.mem_append_left _ hm
    | overlay => exact List.mem_append_right _ hm
  | void n _ _ ih => exact ih
  | schedule s _ _ _ ih => exact ih

/-- Pool and queues keep their law (R67, R88, R89, R98). -/
theorem queueLaw (h : ZoneEffect z p [] q) (hp : p.QueueLaw) : q.QueueLaw :=
  ⟨h.poolLaw hp.pool, h.restingZonesEmpty hp.resting, h.withinQuotas hp.quotas, h.inOrder hp.pool hp.order⟩

end ZoneEffect
end Sys2Proof.Machine
end

