-- ==== Sys2Proof/Laws/PartEffects.lean ====
section
/-! SUPPORT. What a request's rule or a timer's rule can do: `PartEffect p q` says that `q` is reached from `p` by effects that
leave local time and the link alone and keep every capacity, R98 and the pool law. One lemma for each operation of chapters 1 to 10 and
for each request kind. -/

namespace Sys2Proof.Machine

inductive PartEffect (p : Part) : Part → Prop
  | refl : PartEffect p p
  | raise {q : Part} (k : IndicationKind) (o : IndicationObject) (h : PartEffect p q) (hv : Pair.valid ⟨k, o⟩ = true := by rfl) :
      PartEffect p (q.raise k o)
  | tally {q : Part} (i : TallyId) (h : PartEffect p q) : PartEffect p (q.tally i)
  | setDomain {q : Part} (d : DomainId) (x : Domain) (h : PartEffect p q) : PartEffect p (q.setDomain d x)
  | engine {q : Part} (e : SearchEngine) (h : PartEffect p q) : PartEffect p { q with engine := e }
  | zone {q r : Part} {z : ZoneId} (h : PartEffect p q) (hz : ZoneEffect z q [] r) : PartEffect p r
  | watermark {q : Part} (w : Nat) (h : PartEffect p q) : PartEffect p { q with pool := { q.pool with watermark := w } }
  | store {q : Part} (b : Block) (t : Target) (slot : Nat) (zs : List ZoneId) (h : PartEffect p q)
      (hz : ∀ z ∈ zs, q.pool.judge (q.zone z) t b = .accepted) (hb : 1 ≤ b.frames) (hn : zs.Nodup) (hne : zs ≠ [])
      (hs : q.pool.lowestFree = some slot) : PartEffect p (q.storeBlock b t slot zs)
  | setup {q : Part} {z : ZoneId} (x : Zone) (h : PartEffect p q) (hu : (q.zone z).state.unstarted = true)
      (hx : x.state = (q.zone z).state) (hq : ∀ t, x.queue t = (q.zone z).queue t) : PartEffect p (q.setZone z x)
  | filter {q : Part} (f : StreamFilter) (h : PartEffect p q) : PartEffect p { q with filter := f }
  | substitution {q : Part} (s : Substitution) (h : PartEffect p q) : PartEffect p { q with globalSubstitution := s }
  | schedule {q : Part} (s : Schedule) (h : PartEffect p q) (hs : q.schedule.WithinList → s.WithinList) :
      PartEffect p { q with schedule := s }
  | capture {q : Part} (u : CaptureUnit) (h : PartEffect p q) (hu : q.capture.WithinRing → u.WithinRing) :
      PartEffect p { q with capture := u }
  | echo {q : Part} (t : EchoTable) (h : PartEffect p q) (ht : q.echo.WithinTable → t.WithinTable) :
      PartEffect p { q with echo := t }
  | indications {q : Part} (u : IndicationUnit) (h : PartEffect p q) (hu : q.indications.WithinSet → u.WithinSet) :
      PartEffect p { q with indications := u }
  | tallies {q : Part} (u : TallyUnit) (h : PartEffect p q) : PartEffect p { q with tallies := u }

/-- A zone with the two queues of another refers to the same slots. -/
theorem Zone.queued_of_queue {x y : Zone} (h : ∀ t, x.queue t = y.queue t) : x.queued = y.queued := by
  have hm : x.mainQueue = y.mainQueue := h .main
  have ho : x.overlayQueue = y.overlayQueue := h .overlay
  unfold Zone.queued; rw [hm, ho]

namespace PartEffect

variable {p q r : Part}

theorem trans (h : PartEffect p q) (k : PartEffect q r) : PartEffect p r := by
  induction k with
  | refl => exact h
  | raise k o _ _ ih => exact .raise k o ih ‹_›
  | tally i _ ih => exact .tally i ih
  | setDomain d x _ ih => exact .setDomain d x ih
  | engine e _ ih => exact .engine e ih
  | zone _ hz ih => exact .zone ih hz
  | watermark w _ ih => exact .watermark w ih
  | store b t slot zs _ hz hb hn hne hs ih => exact .store b t slot zs ih hz hb hn hne hs
  | setup x _ hu hx hr ih => exact .setup x ih hu hx hr
  | filter f _ ih => exact .filter f ih
  | substitution s _ ih => exact .substitution s ih
  | schedule s _ hs ih => exact .schedule s ih hs
  | capture u _ hu ih => exact .capture u ih hu
  | echo t _ ht ih => exact .echo t ih ht
  | indications u _ hu ih => exact .indications u ih hu
  | tallies u _ ih => exact .tallies u ih

/-- A fold of effects is an effect. -/
theorem foldl {α : Type} (f : Part → α → Part) (hf : ∀ q a, PartEffect p q → PartEffect p (f q a)) (l : List α)
    (h : PartEffect p q) : PartEffect p (l.foldl f q) := by
  induction l generalizing q with
  | nil => exact h
  | cons a l ih => exact ih (hf q a h)

/-! ### What follows for every one of them -/

/-- Local time and the link are as they were. -/
theorem unchanged (h : PartEffect p q) : q.localTime = p.localTime ∧ q.link = p.link := by
  induction h with
  | refl => exact ⟨rfl, rfl⟩
  | raise k o _ _ ih => exact ih
  | tally i _ ih => simpa using ih
  | setDomain d x _ ih => exact ih
  | engine e _ ih => exact ih
  | zone _ hz ih =>
    have hu := hz.unchanged
    exact ⟨hu.1.trans ih.1, hu.2.2.2.2.2.2.2.trans ih.2⟩
  | watermark w _ ih => exact ih
  | store b t slot zs _ _ _ hn _ _ ih => rw [(Part.storeBlock_eq _ b t slot zs hn).1]; exact ih
  | setup x _ _ _ _ ih => exact ih
  | filter f _ ih => exact ih
  | substitution s _ ih => exact ih
  | schedule s _ hs ih => exact ih
  | capture u _ hu ih => exact ih
  | echo t _ ht ih => exact ih
  | indications u _ hu ih => exact ih
  | tallies u _ ih => exact ih

theorem withinRing (h : PartEffect p q) (hr : p.capture.WithinRing) : q.capture.WithinRing := by
  induction h with
  | refl => exact hr
  | tally i _ ih => simpa using ih
  | zone _ hz ih => exact hz.unchanged.2.1 ▸ ih
  | capture u _ hu ih => exact hu ih
  | store b t slot zs _ _ _ hn _ _ ih => rw [(Part.storeBlock_eq _ b t slot zs hn).1]; exact ih
  | _ => assumption

theorem withinTable (h : PartEffect p q) (hr : p.echo.WithinTable) : q.echo.WithinTable := by
  induction h with
  | refl => exact hr
  | tally i _ ih => simpa using ih
  | zone _ hz ih => exact hz.unchanged.2.2.2.2.1 ▸ ih
  | echo t _ ht ih => exact ht ih
  | store b t slot zs _ _ _ hn _ _ ih => rw [(Part.storeBlock_eq _ b t slot zs hn).1]; exact ih
  | _ => assumption

theorem withinList (h : PartEffect p q) (hr : p.schedule.WithinList) : q.schedule.WithinList := by
  induction h with
  | refl => exact hr
  | tally i _ ih => simpa using ih
  | zone _ hz ih => exact hz.withinList ih
  | schedule s _ hs ih => exact hs ih
  | store b t slot zs _ _ _ hn _ _ ih => rw [(Part.storeBlock_eq _ b t slot zs hn).1]; exact ih
  | _ => assumption

theorem withinSet (h : PartEffect p q) (hr : p.indications.WithinSet) : q.indications.WithinSet := by
  induction h with
  | refl => exact hr
  | raise k o _ hv ih => exact Part.withinSet_raise hv ih
  | tally i _ ih => exact Part.withinSet_tally ih
  | zone _ hz ih => exact hz.withinSet ih
  | indications u _ hu ih => exact hu ih
  | store b t slot zs _ _ _ hn _ _ ih =>
    rcases Part.indications_storeBlock _ b t slot zs hn with h | h
    · rw [h]; exact ih
    · rw [h]; exact Part.withinSet_raise rfl ih
  | _ => assumption

/-- Every capacity is kept. -/
theorem withinCapacities (h : PartEffect p q) (hp : p.WithinCapacities) : q.WithinCapacities :=
  ⟨h.withinRing hp.1, h.withinTable hp.2.1, h.withinList hp.2.2.1, h.unchanged.2 ▸ hp.2.2.2.1, h.withinSet hp.2.2.2.2⟩

/-- R98 is kept. -/
theorem restingZonesEmpty (h : PartEffect p q) (hp : p.RestingZonesEmpty) : q.RestingZonesEmpty := by
  induction h with
  | refl => exact hp
  | tally i _ ih => intro w; simpa using ih w
  | zone _ hz ih => exact hz.restingZonesEmpty ih
  | store b t slot zs _ hz _ hn _ _ ih =>
    intro w hw
    rw [(Part.storeBlock_eq _ b t slot zs hn).2.2.1 w] at hw ⊢
    split at hw
    · rename_i hm
      have hs : ∀ x : Zone, ∀ l, (x.setQueue t l).state = x.state := by intro x l; cases t <;> rfl
      rw [hs, (BlockPool.judge_accepted_spec (hz w hm)).1] at hw; cases hw
    · rename_i hm; rw [if_neg hm]; exact ih w hw
  | setup x _ hu hx hq ih =>
    intro w; rw [Part.zone_setZone]; split
    · intro _
      have he := ih _ hu
      exact ⟨(hq .main).trans he.1, (hq .overlay).trans he.2⟩
    · exact ih w
  | _ => assumption

/-- The pool law is kept (R67). -/
theorem poolLaw (h : PartEffect p q) (hp : p.PoolLaw) : q.PoolLaw := by
  have same : ∀ {q r : Part}, q.PoolLaw → r.pool.held = q.pool.held → (∀ w, (r.zone w).queued = (q.zone w).queued) → r.PoolLaw :=
    fun hq h1 h2 => (owes_nil .z0 _).mp (((owes_nil .z0 _).mpr hq).congr h1 h2)
  induction h with
  | refl => exact hp
  | tally i _ ih => exact same ih (by simp) (fun _ => by simp)
  | zone _ hz ih => exact hz.poolLaw ih
  | store b t slot zs _ _ _ hn hne hs ih => exact Part.poolLaw_storeBlock _ b t slot zs hn hne hs ih
  | watermark w _ ih => exact same ih rfl (fun _ => rfl)
  | setup x _ _ _ hq ih =>
    refine same ih rfl (fun w => ?_)
    rw [Part.zone_setZone]; split
    · rename_i hw; rw [hw]; exact Zone.queued_of_queue hq
    · rfl
  | _ => exact same (by assumption) rfl (fun _ => rfl)

/-- A block stored for zones that accept it keeps every queue within its quota and in order (R88, R89). -/
theorem storeBlock_queues {p : Part} {b : Block} {t : Target} {slot : Nat} {zs : List ZoneId}
    (hz : ∀ z ∈ zs, p.pool.judge (p.zone z) t b = .accepted) (hb : 1 ≤ b.frames) (hn : zs.Nodup)
    (hs : p.pool.lowestFree = some slot) (hp : p.QueueLaw) :
    (∀ w, ((p.storeBlock b t slot zs).zone w).WithinQuotas) ∧
    ∀ w u, (p.storeBlock b t slot zs).pool.InOrder ((p.storeBlock b t slot zs).zone w).setup.rate
      (((p.storeBlock b t slot zs).zone w).queue u) := by
  obtain ⟨-, hpool, hzone, -⟩ := p.storeBlock_eq b t slot zs hn
  have hfree : p.pool.find slot = none := p.pool.find_none slot (p.pool.lowestFree_spec hp.pool.1 slot hs).2
  generalize p.storeBlock b t slot zs = q at *
  have hnew : q.pool.blockOf slot = some b := by
    unfold BlockPool.blockOf BlockPool.find
    rw [hpool, insertSlot_find ⟨slot, zs.length, b⟩ p.pool.held hfree]; rfl
  have hold : ∀ m, m ≠ slot → q.pool.blockOf m = p.pool.blockOf m := by
    intro m hm
    unfold BlockPool.blockOf BlockPool.find
    rw [hpool, insertSlot_find_ne ⟨slot, zs.length, b⟩ p.pool.held m hm]
  have hmem : ∀ w u, ∀ m ∈ (p.zone w).queue u, m ≠ slot := by
    intro w u m hm he
    obtain ⟨c, hc, -⟩ := (hp.order w u).1 m hm
    unfold BlockPool.blockOf at hc
    rw [he, hfree] at hc; cases hc
  have order : ∀ w u, q.pool.InOrder (p.zone w).setup.rate ((p.zone w).queue u) := fun w u =>
    (hp.order w u).congr (fun m hm => hold m (hmem w u m hm))
  have rates : ∀ (x : Zone) l, (x.setQueue t l).setup = x.setup := by intro x l; cases t <;> rfl
  refine ⟨fun w => ?_, fun w u => ?_⟩
  · rw [hzone w]; split
    · rename_i hw
      have hj := (BlockPool.judge_accepted_spec (hz w hw)).2.2.2.2
      have hq := hp.quotas w
      have hlen : (q.pool.insertEntry slot b.time ((p.zone w).queue t)).length ≤ (p.zone w).setup.quota t := by
        obtain ⟨f, k, h1, h2⟩ := insertEntry_split q.pool slot b.time ((p.zone w).queue t)
        rw [h1] at hj
        rw [h2]
        simp only [List.length_append, List.length_cons] at hj ⊢
        exact hj
      cases t with
      | main => exact ⟨hlen, hq.2⟩
      | overlay => exact ⟨hq.1, hlen⟩
    · exact hp.quotas w
  · rw [hzone w]; split
    · rename_i hw
      obtain ⟨-, hr, hd, ho, -⟩ := BlockPool.judge_accepted_spec (hz w hw)
      rw [rates]
      have hin : q.pool.InOrder (p.zone w).setup.rate (q.pool.insertEntry slot b.time ((p.zone w).queue t)) :=
        (order w t).insert hnew hr hb (fun m hm a ha => hd m hm a (by rw [← hold m (hmem w t m hm)]; exact ha))
          (fun m hm a ha => ho m hm a (by rw [← hold m (hmem w t m hm)]; exact ha))
      have hother := order w u
      cases t <;> cases u <;> first | exact hin | exact hother
    · exact order w u

/-- Pool and queues keep their law (R67, R88, R89, R98). -/
theorem queueLaw (h : PartEffect p q) (hp : p.QueueLaw) : q.QueueLaw := by
  have same : ∀ {q r : Part}, q.QueueLaw → r.PoolLaw → r.RestingZonesEmpty → r.pool.held = q.pool.held →
      (∀ w, r.zone w = q.zone w) → r.QueueLaw := fun hq h1 h2 h3 h4 =>
    ⟨h1, h2, fun w => by rw [h4 w]; exact hq.quotas w, fun w t => by
      rw [h4 w]
      exact (hq.order w t).congr (fun m _ => by unfold BlockPool.blockOf BlockPool.find; rw [h3])⟩
  have key : ∀ {r : Part}, PartEffect p r → r.PoolLaw ∧ r.RestingZonesEmpty := fun hr =>
    ⟨hr.poolLaw hp.pool, hr.restingZonesEmpty hp.resting⟩
  induction h with
  | refl => exact hp
  | raise k o h hv ih => exact same ih (key (.raise k o h hv)).1 (key (.raise k o h hv)).2 rfl (fun _ => rfl)
  | tally i h ih => exact same ih (key (.tally i h)).1 (key (.tally i h)).2 (by simp) (fun _ => by simp)
  | zone _ hz ih => exact hz.queueLaw ih
  | store b t slot zs h hz hb hn hne hs ih =>
    have hk := key (.store b t slot zs h hz hb hn hne hs)
    have hq := storeBlock_queues hz hb hn hs ih
    exact ⟨hk.1, hk.2, hq.1, hq.2⟩
  | setup x h hu hx hq ih =>
    have hk := key (.setup x h hu hx hq)
    have he := ih.resting _ hu
    have hm : x.mainQueue = [] := (hq .main).trans he.1
    have ho : x.overlayQueue = [] := (hq .overlay).trans he.2
    refine ⟨hk.1, hk.2, fun w => ?_, fun w t => ?_⟩
    · rw [Part.zone_setZone]; split
      · unfold Zone.WithinQuotas; rw [hm, ho]; exact ⟨Nat.zero_le _, Nat.zero_le _⟩
      · exact ih.quotas w
    · rw [Part.zone_setZone]; split
      · cases t with
        | main => rw [show x.queue .main = [] from hm]; exact .nil
        | overlay => rw [show x.queue .overlay = [] from ho]; exact .nil
      · exact ih.order w t
  | setDomain d x _ ih => exact same ih ih.pool ih.resting rfl (fun _ => rfl)
  | engine e _ ih => exact same ih ih.pool ih.resting rfl (fun _ => rfl)
  | watermark w _ ih => exact same ih ⟨ih.pool.1, ih.pool.2⟩ ih.resting rfl (fun _ => rfl)
  | filter f _ ih => exact same ih ih.pool ih.resting rfl (fun _ => rfl)
  | substitution s _ ih => exact same ih ih.pool ih.resting rfl (fun _ => rfl)
  | schedule s _ hs ih => exact same ih ih.pool ih.resting rfl (fun _ => rfl)
  | capture u _ hu ih => exact same ih ih.pool ih.resting rfl (fun _ => rfl)
  | echo t _ ht ih => exact same ih ih.pool ih.resting rfl (fun _ => rfl)
  | indications u _ hu ih => exact same ih ih.pool ih.resting rfl (fun _ => rfl)
  | tallies u _ ih => exact same ih ih.pool ih.resting rfl (fun _ => rfl)

/-! ### Operations -/

theorem raiseDomainState (h : PartEffect p q) (d : DomainId) : PartEffect p (q.raiseDomainState d) := .raise _ _ h

theorem setAlarm (h : PartEffect p q) (d : DomainId) (a : Alarm) (b : Bool) : PartEffect p (q.setAlarm d a b) := by
  unfold Part.setAlarm; split
  · exact h
  · exact .raise _ _ (.setDomain _ _ h)

theorem holdZones (h : PartEffect p q) (d : DomainId) : PartEffect p (q.holdZones d) :=
  foldl _ (fun q z h => by split; exact .zone h (ZoneEffect.refl (z := z)).holdZone; exact h) _ h

theorem resumeZones (h : PartEffect p q) (d : DomainId) : PartEffect p (q.resumeZones d) :=
  foldl _ (fun q z h => by split; exact .zone h (ZoneEffect.refl (z := z)).resumeZone; exact h) _ h

theorem claim (h : PartEffect p q) (n : Byte) : PartEffect p (q.claim n) :=
  .capture _ h (fun hr => ⟨Nat.le_trans (List.length_filter_le _ _) hr.1, hr.2.sublist (List.filter_sublist.map _)⟩)

theorem engineTake (h : PartEffect p q) : PartEffect p q.engineTake := by
  unfold Part.engineTake; split
  · exact .setDomain _ _ (.engine _ h)
  · exact h

theorem joinQueue (h : PartEffect p q) (d : DomainId) : PartEffect p (q.joinQueue d) := engineTake (.engine _ h)

theorem giveUpSearch (h : PartEffect p q) (d : DomainId) : PartEffect p (q.giveUpSearch d) := by
  unfold Part.giveUpSearch; dsimp only; split
  · split
    · exact .setDomain _ _ (.engine _ h)
    · exact .engine _ h
  · exact .engine _ h

theorem backToWaiting (h : PartEffect p q) (d : DomainId) : PartEffect p (q.backToWaiting d) :=
  engineTake (.setDomain _ _ (h.giveUpSearch d))

theorem enterHoldover (h : PartEffect p q) (d : DomainId) : PartEffect p (q.enterHoldover d) :=
  raiseDomainState (.setDomain _ _ h) d

theorem becomeTracked (h : PartEffect p q) (d : DomainId) : PartEffect p (q.becomeTracked d) :=
  (raiseDomainState (.setDomain _ _ h) d).resumeZones d

theorem returnToTrack (h : PartEffect p q) (d : DomainId) : PartEffect p (q.returnToTrack d) := by
  unfold Part.returnToTrack; split
  · exact raiseDomainState (.setDomain _ _ h) d
  · exact h

theorem reacquire (h : PartEffect p q) (d : DomainId) (a : Anchor) : PartEffect p (q.reacquire d a) :=
  (raiseDomainState (.setDomain _ _ h) d).joinQueue d

theorem lossEvent (h : PartEffect p q) (d : DomainId) : PartEffect p (q.lossEvent d) := by
  have h' := h.setAlarm d .loss true
  unfold Part.lossEvent; dsimp only; split
  all_goals first | exact h'.enterHoldover d | exact h'.backToWaiting d | exact h'

theorem judgeRange (h : PartEffect p q) (d : DomainId) : PartEffect p (q.judgeRange d) := h.setAlarm _ _ _

theorem trackingUpdate (h : PartEffect p q) (d : DomainId) (t : LocalTime) (g : DomainTime) (e : Int) :
    PartEffect p (q.trackingUpdate d t g e) := judgeRange (.setDomain _ _ h) d

theorem stepTo (h : PartEffect p q) (d : DomainId) (a : Anchor) (e : Int) : PartEffect p (q.stepTo d a e) :=
  returnToTrack (.raise _ _ (.setDomain _ _ h)) d

theorem stepAction (h : PartEffect p q) (d : DomainId) (a : Anchor) (e : Int) : PartEffect p (q.stepAction d a e) := by
  unfold Part.stepAction; dsimp only; split
  · exact h.stepTo d a e
  · split
    · exact h.stepTo d a e
    · exact (reacquire (.setDomain _ _ h) d a).holdZones d

theorem outlier (h : PartEffect p q) (d : DomainId) (a : Anchor) (e : Int) (b : Bool) :
    PartEffect p (q.outlier d a e b).1 := by
  unfold Part.outlier; dsimp only; split
  · exact stepAction (.tally _ (.setDomain _ _ (.tally _ h))) d a e
  · exact .setDomain _ _ (.tally _ h)

theorem timedSample (h : PartEffect p q) (d : DomainId) (a : Anchor) (g : DomainTime) (e : Int) :
    PartEffect p (q.timedSample d a g e).1 := by
  unfold Part.timedSample; dsimp only; split
  · exact (trackingUpdate (.setDomain _ _ h) d _ _ _).returnToTrack d
  · exact h.outlier d a e _

theorem completeSearch (h : PartEffect p q) (d : DomainId) (a : Anchor) (c : Nat) :
    PartEffect p (q.completeSearch d a c) :=
  ((judgeRange (.setDomain _ _ (.engine _ h)) d).engineTake).becomeTracked d

theorem windowSample (h : PartEffect p q) (d : DomainId) (a : Anchor) (e : Int) : PartEffect p (q.windowSample d a e) := by
  unfold Part.windowSample; dsimp only; split
  · exact h
  · split
    · exact .engine _ h
    · split
      · exact h.completeSearch _ _ _
      · exact .setDomain _ _ (.engine _ h)

theorem heardEffects (h : PartEffect p q) (d : DomainId) (n : Word16) : PartEffect p (q.heardEffects d n) := by
  unfold Part.heardEffects; dsimp only; split
  · exact .tally _ (.setDomain _ _ h)
  · exact .tally _ (setAlarm (.setDomain _ _ h) _ _ _)

theorem waitingSample (h : PartEffect p q) (d : DomainId) (a : Anchor) : PartEffect p (q.waitingSample d a) := by
  unfold Part.waitingSample; dsimp only; split
  · exact becomeTracked (.setDomain _ _ h) d
  · exact joinQueue (.setDomain _ _ (.setDomain _ _ h)) d

theorem lostSample (h : PartEffect p q) (d : DomainId) (a : Anchor) : PartEffect p (q.lostSample d a) := by
  unfold Part.lostSample; dsimp only; split
  · exact becomeTracked (.setDomain _ _ h) d
  · exact h.reacquire d a

theorem handleSample (h : PartEffect p q) (d : DomainId) (a : Anchor) (g : Option DomainTime) (e : Option Int) :
    PartEffect p (q.handleSample d a g e).1 := by
  have hc : PartEffect p (q.clearNewLeader d) := .setDomain _ _ h
  unfold Part.handleSample; split
  · exact hc.waitingSample d a
  · exact .setDomain _ _ hc
  · exact .setDomain _ _ hc
  · exact hc.windowSample d a _
  · exact hc.lostSample d a
  all_goals exact h.timedSample d a _ _

theorem countRefused (h : PartEffect p q) (rs : List (ZoneId × ZoneResult)) : PartEffect p (q.countRefused rs) :=
  foldl _ (fun q r h => by split; exact h; exact .tally _ h) _ h

end PartEffect
end Sys2Proof.Machine
end

