-- ==== Sys2Proof/Laws/Handlers.lean ====
section
/-! SUPPORT. Every request's rule, and every timer's, is a `PartEffect`; RSET alone writes the link. -/

namespace Sys2Proof.Machine

variable (body : List Byte) (p : Part)

/-! ### Chapter 1 -/

theorem handleCapc_effect : PartEffect p (handleCapc body p).1 := by
  unfold handleCapc; split
  · exact .capture _ .refl id
  · exact .refl

theorem handleCapl_effect : PartEffect p (handleCapl body p).1 := .refl

theorem handleCapd_effect : PartEffect p (handleCapd body p).1 :=
  .capture _ .refl (fun _ => ⟨Nat.zero_le _, List.nodup_nil⟩)

theorem handleStmp_effect : PartEffect p (handleStmp body p).1 := by
  unfold handleStmp; split
  · dsimp only; split
    · split
      · exact .refl
      · exact PartEffect.refl.claim _
    · exact .refl
  · exact .refl

/-- The room an append makes: at most 31 captures, none of the new number (R9). -/
theorem makeRoom_spec (n : Byte) (ring : List Capture) (h : ring.length ≤ Config.ringCapacity) :
    (makeRoom n ring).length < Config.ringCapacity ∧ (∀ c ∈ makeRoom n ring, c.number ≠ n) ∧
    (makeRoom n ring).Sublist ring := by
  have hf : (ring.filter (fun c => c.number != n)).length ≤ ring.length := List.length_filter_le _ _
  have hm : ∀ c ∈ ring.filter (fun c => c.number != n), c.number ≠ n := by
    intro c hc; simpa using (List.mem_filter.mp hc).2
  unfold makeRoom; dsimp only; split
  · refine ⟨?_, fun c hc => hm c (List.mem_of_mem_tail hc), (List.tail_sublist _).trans List.filter_sublist⟩
    rw [List.length_tail]; simp only [Config.ringCapacity] at *; omega
  · exact ⟨by omega, hm, List.filter_sublist⟩

theorem Part.makeCapture_effect (i : StrobeInput) : PartEffect p (p.makeCapture i) := by
  have h : PartEffect p { p with capture :=
      (({ p.capture with ring := makeRoom p.capture.counter p.capture.ring ++ [⟨p.capture.counter, i, p.localTime⟩],
                         counter := p.capture.counter + 1 } : CaptureUnit).setLast i p.localTime) } := by
    refine .capture _ .refl (fun hr => ?_)
    obtain ⟨hl, hn, hs⟩ := makeRoom_spec p.capture.counter p.capture.ring hr.1
    have hring : ∀ u : CaptureUnit, ∀ t, (u.setLast i t).ring = u.ring := by intro u t; cases i <;> rfl
    constructor
    · rw [hring]; simp only [List.length_append, List.length_singleton]; omega
    · rw [hring]
      rw [List.map_append, List.nodup_append]
      refine ⟨hr.2.sublist (hs.map _), by simp, ?_⟩
      intro a ha b hb
      simp only [List.map_cons, List.map_nil, List.mem_singleton] at hb
      obtain ⟨c, hc, rfl⟩ := List.mem_map.mp ha
      exact hb ▸ hn c hc
  unfold Part.makeCapture; dsimp only; split
  · exact .tally _ (.raise _ _ h)
  · exact h

/-! ### Chapter 2 -/

theorem handleDset_effect : PartEffect p (handleDset body p).1 := by
  unfold handleDset; split
  · split
    · exact .setDomain _ _ .refl
    · exact .refl
  · exact .refl

theorem Part.runFollow_effect (d : DomainId) (k : StartKind) (c : Nat) : PartEffect p (p.runFollow d k c) :=
  PartEffect.raiseDomainState (.setDomain _ _ .refl) d

theorem Part.runLead_effect (d : DomainId) (a : Anchor) (c : Nat) : PartEffect p (p.runLead d a c) :=
  (PartEffect.raiseDomainState (.setDomain _ _ .refl) d).resumeZones d

theorem Part.acceptFollow_fst (d : DomainId) : (p.acceptFollow d).1 = p := rfl

theorem Part.acceptLead_fst (d : DomainId) (a : Anchor) (c : Nat) : (p.acceptLead d a c).1 = p.runLead d a c := rfl

theorem Part.run_effect (d : DomainId) (f : RunForm) : PartEffect p (p.run d f).1 := by
  unfold Part.run
  split <;> try simp only [Part.acceptFollow_fst, Part.acceptLead_fst]
  · exact p.runFollow_effect _ _ _
  · exact p.runFollow_effect _ _ _
  · exact p.runLead_effect _ _ _
  · split <;> try simp only [Part.acceptLead_fst]
    · exact p.runLead_effect _ _ _
    · exact p.runLead_effect _ _ _
    · exact .refl
  · exact .refl

theorem handleDrun_effect : PartEffect p (handleDrun body p).1 := by
  unfold handleDrun; split
  · split
    · exact p.run_effect ..
    · exact .refl
  · exact .refl

theorem Part.beacon_effect (d : DomainId) (c : Capture) (n : Word16) (t : DomainTime) :
    PartEffect p (p.beacon d c n t).1 :=
  ((PartEffect.refl.claim _).heardEffects d n).handleSample d _ _ _

theorem handleBeac_effect : PartEffect p (handleBeac body p).1 := by
  unfold handleBeac; split
  · exact .refl
  · dsimp only; split
    · exact .refl
    · split
      · exact .refl
      · split
        · exact .refl
        · split
          · exact .refl
          · exact p.beacon_effect ..

theorem EchoTable.clearDomain_within (t : EchoTable) (d : DomainId) (h : t.WithinTable) : (t.clearDomain d).WithinTable := by
  refine ⟨Nat.le_trans (List.length_filter_le _ _) h.1, fun e => ?_⟩
  simp only [EchoTable.clearDomain, PerDomain.get_set]
  split
  · exact Nat.zero_le _
  · exact h.2 e

theorem Part.changeLeader_effect (d : DomainId) (n : Word32) : PartEffect p (p.changeLeader d n) := by
  unfold Part.changeLeader; dsimp only
  generalize hq : ({ p.setDomain d _ with echo := _ } : Part) = q
  have h : PartEffect p q := hq ▸ .echo _ (.setDomain _ _ .refl) (EchoTable.clearDomain_within _ d)
  split
  · exact h.enterHoldover d
  · exact h.backToWaiting d
  all_goals exact h

theorem handleLchg_effect : PartEffect p (handleLchg body p).1 := by
  unfold handleLchg; split
  · exact .refl
  · split
    · exact p.changeLeader_effect ..
    · exact .refl

/-- The echo records and the schedule entries of a released domain go (R38, R65, R160). -/
theorem PartEffect.dropDomain {q : Part} (h : PartEffect p q) (d : DomainId) (n : PerDomain Nat) :
    PartEffect p { q with echo := { q.echo.clearDomain d with timeouts := n }, schedule := q.schedule.dropDomain d } :=
  .schedule (q := { q with echo := { q.echo.clearDomain d with timeouts := n } }) (q.schedule.dropDomain d)
    (.echo (q := q) { q.echo.clearDomain d with timeouts := n } h (fun ht => EchoTable.clearDomain_within _ d ht))
    (fun hs => ⟨Nat.le_trans (List.length_filter_le _ _) hs.1, hs.2⟩)

theorem Part.releaseDomain_effect (d : DomainId) : PartEffect p (p.releaseDomain d) := by
  unfold Part.releaseDomain
  have h := (PartEffect.refl (p := p)).giveUpSearch d
  generalize p.giveUpSearch d = q at h ⊢
  exact (((h.dropDomain p d _).setDomain _ _).engineTake.raiseDomainState d).holdZones d

theorem handleDrel_effect : PartEffect p (handleDrel body p).1 := by
  unfold handleDrel; split
  · exact .refl
  · split
    · exact .refl
    · rename_i d _ _; dsimp only [Part.accept]; exact p.releaseDomain_effect d

theorem handleDsta_effect : PartEffect p (handleDsta body p).1 := by unfold handleDsta; split <;> exact .refl

theorem Part.watchExpiry_effect (d : DomainId) (t : LocalTime) : PartEffect p (p.watchExpiry d t) := by
  unfold Part.watchExpiry; dsimp only; split
  · exact PartEffect.lossEvent (.tally _ (.setDomain _ _ .refl)) d
  · exact .tally _ (.setDomain _ _ .refl)

theorem Part.windowExpiry_effect (d : DomainId) (t : LocalTime) : PartEffect p (p.windowExpiry d t) := by
  unfold Part.windowExpiry; dsimp only; split
  · exact .setDomain _ _ (PartEffect.refl.lossEvent d)
  · split
    · exact .setDomain _ _ (PartEffect.refl.setAlarm _ _ _)
    · exact .setDomain _ _ .refl

theorem Part.holdoverExpiry_effect (d : DomainId) : PartEffect p (p.holdoverExpiry d) :=
  (PartEffect.raiseDomainState (.setDomain _ _ .refl) d).holdZones d

/-! ### Chapter 4 -/

theorem Part.echoExpiry_effect (d : DomainId) (n : Word16) : PartEffect p (p.echoExpiry d n) := by
  unfold Part.echoExpiry; dsimp only
  have h : ∀ k, PartEffect p { p with echo := { p.echo.remove d n with timeouts := p.echo.timeouts.set d k } } :=
    fun k => .echo _ .refl (fun ht => ⟨Nat.le_trans (List.length_filter_le _ _) ht.1, ht.2⟩)
  split
  · exact PartEffect.setAlarm (.tally _ (h _)) _ _ _
  · exact .tally _ (h _)

theorem Part.startEcho_effect (n : Byte) (r : EchoRecord) (hn : p.echo.records.length < Config.echoCapacity) :
    PartEffect p (p.startEcho n r).1 := by
  have h : PartEffect p { p.claim n with echo := { (p.claim n).echo with records := (p.claim n).echo.records ++ [r] } } := by
    refine .echo _ (PartEffect.refl.claim _) (fun ht => ⟨?_, ht.2⟩)
    simp only [Part.echo_claim, List.length_append, List.length_singleton]
    exact hn
  unfold Part.startEcho; dsimp only; split
  · exact h.trans (Part.echoExpiry_effect ..)
  · exact h

theorem handleEchs_effect : PartEffect p (handleEchs body p).1 := by
  unfold handleEchs; split
  · exact .refl
  · dsimp only; split
    · exact .refl
    · split
      · exact .refl
      · split
        · exact .refl
        · rename_i hn
          split
          · exact .refl
          · exact p.startEcho_effect _ _ (Nat.lt_of_not_le hn)

theorem joinPath_length (l : List Nat) (x : Nat) (h : l.length ≤ Config.pathCapacity) :
    (joinPath l x).length ≤ Config.pathCapacity := by
  unfold joinPath; rw [List.length_append]
  split
  · rw [List.length_tail, List.length_singleton]; simp only [Config.pathCapacity] at *; omega
  · rw [List.length_singleton]; omega

theorem Part.pathSample_effect (d : DomainId) (n : Nat) : PartEffect p (p.pathSample d n) := by
  have h : PartEffect p { p with echo := { p.echo with
      samples := p.echo.samples.set d (joinPath (p.echo.samples.get d) n), timeouts := p.echo.timeouts.set d 0 } } := by
    refine .echo _ .refl (fun ht => ⟨ht.1, fun e => ?_⟩)
    simp only [PerDomain.get_set]; split
    · exact joinPath_length _ _ (ht.2 d)
    · exact ht.2 e
  exact .tally _ (h.setAlarm d .path false)

theorem Part.answerEcho_effect (d : DomainId) (r : EchoRecord) (c : Capture) (t2 t3 : DomainTime) :
    PartEffect p (p.answerEcho d r c t2 t3).1 := by
  have h : PartEffect p { p.claim c.number with echo := (p.claim c.number).echo.remove d r.sequence } :=
    .echo _ (PartEffect.refl.claim _) (fun ht => ⟨Nat.le_trans (List.length_filter_le _ _) ht.1, ht.2⟩)
  unfold Part.answerEcho; dsimp only; split
  · exact h
  · exact h.trans (Part.pathSample_effect ..)

theorem handleEcha_effect : PartEffect p (handleEcha body p).1 := by
  unfold handleEcha; split
  · exact .refl
  · split
    · exact .refl
    · split
      · exact .refl
      · split
        · exact .refl
        · exact p.answerEcho_effect ..

/-! ### Chapters 5 and 6 -/

theorem handlePwmk_effect : PartEffect p (handlePwmk body p).1 := by
  unfold handlePwmk; split
  · exact .watermark _ .refl
  · exact .refl

theorem handlePool_effect : PartEffect p (handlePool body p).1 := by
  unfold handlePool; dsimp only; split
  · exact .refl
  · split <;> exact .refl

theorem handleFset_effect : PartEffect p (handleFset body p).1 := by
  unfold handleFset; split
  · split
    · exact .filter _ .refl
    · exact .refl
  · exact .refl

theorem handleFdef_effect : PartEffect p (handleFdef body p).1 := by
  unfold handleFdef; split
  · exact .refl
  · exact .filter _ .refl
  · exact .refl

/-- The zones whose result is ACCEPTED are zones of the route, each once. -/
theorem passing_nodup (zs : ZoneSet) (f : ZoneId → ZoneResult) :
    ((((ZoneSet.members zs).map (fun z => (z, f z))).filter (fun x => x.2 == .accepted)).map Prod.fst).Nodup := by
  have h : ∀ l : List ZoneId, (((l.map (fun z => (z, f z))).filter (fun x => x.2 == .accepted)).map Prod.fst).Sublist l := by
    intro l
    induction l with
    | nil => exact List.Sublist.refl _
    | cons z l ih =>
      rw [List.map_cons, List.filter_cons]; split
      · exact ih.cons_cons z
      · exact ih.cons z
  exact List.Nodup.sublist ((h _).trans List.filter_sublist) (by decide)

theorem inRange_eq {lo hi x n : Nat} (h : inRange lo hi x = some n) : n = x ∧ lo ≤ x ∧ x ≤ hi := by
  unfold inRange at h; split at h
  · cases h; exact ⟨rfl, ‹_›⟩
  · cases h

/-- A delivered block has a frame or more (R78). -/
theorem Delivery.frames_pos {body : List Byte} {dl : Delivery} (h : Delivery.ofBody body = some dl) : 1 ≤ dl.block.frames := by
  unfold Delivery.ofBody at h
  obtain ⟨_, _, h⟩ := Option.bind_eq_some_iff.mp h
  obtain ⟨_, _, h⟩ := Option.bind_eq_some_iff.mp h
  obtain ⟨_, _, h⟩ := Option.bind_eq_some_iff.mp h
  obtain ⟨n, hn, h⟩ := Option.bind_eq_some_iff.mp h
  obtain ⟨_, _, h⟩ := Option.bind_eq_some_iff.mp h
  have hr := inRange_eq hn
  dsimp only at h; split at h
  · cases h; exact hr.1 ▸ hr.2.1
  · cases h

theorem Part.deliver_effect (dl : Delivery) (r : Route) (t : Target) (hf : 1 ≤ dl.block.frames) :
    PartEffect p (p.deliver dl r t).1 := by
  unfold Part.deliver; dsimp only; split
  · exact PartEffect.refl.countRefused _
  · rename_i hne
    split
    · exact PartEffect.countRefused (.tally _ .refl) _
    · rename_i slot hfree
      have hs : PartEffect p (p.storeBlock dl.block t slot
          ((((ZoneSet.members r.zones).map (fun z => (z, p.pool.judge (p.zone z) t dl.block))).filter
            (fun x => x.2 == .accepted)).map Prod.fst)) := by
        refine .store dl.block t slot _ .refl ?_ hf (passing_nodup _ _) ?_ hfree
        · intro z hz
          obtain ⟨x, hx, rfl⟩ := List.mem_map.mp hz
          obtain ⟨hx, ha⟩ := List.mem_filter.mp hx
          obtain ⟨w, _, rfl⟩ := List.mem_map.mp hx
          simpa using ha
        · intro he; rw [he] at hne; exact hne rfl
      split
      · exact hs.countRefused _
      · exact hs.countRefused _

theorem handlePblk_effect : PartEffect p (handlePblk body p).1 := by
  unfold handlePblk; split
  · exact .refl
  · rename_i hd
    dsimp only; split
    · exact .tally _ .refl
    · exact p.deliver_effect _ _ _ (Delivery.frames_pos hd)
    · exact p.deliver_effect _ _ _ (Delivery.frames_pos hd)

theorem Part.flush_effect (z : ZoneId) (s : QueueSelector) (f : DomainTime) : PartEffect p (p.flush z s f).1 := by
  refine .zone (z := z) .refl ?_
  have hg : ∀ n, decide (f ≤ p.pool.entryStart n) = !decide (p.pool.entryStart n < f) := by
    intro n; rw [Bool.eq_iff_iff]; simp
  have h : ∀ (x : Zone) l, ((p.zone z).Resting → x.Resting) →
      (∀ n, x.queued.count n + l.count n = (p.zone z).queued.count n) → x.Within (p.zone z) →
      ZoneEffect z p [] ((p.setZone z x).releaseAll l) :=
    fun x l hx hd hw => (ZoneEffect.setZone x .refl hx hd hw).releaseAll l
  have hm : ∀ n, _ := count_filter_not (p.zone z).mainQueue _ _ hg
  have ho : ∀ n, _ := count_filter_not (p.zone z).overlayQueue _ _ hg
  unfold Part.flush; dsimp only
  cases s <;> simp only [QueueSelector.selects, if_true, Bool.false_eq_true, if_false, BlockPool.kept, BlockPool.flushed]
  · refine ZoneEffect.testLowWatermark (h _ _ (fun hr hu => ?_) (fun n => ?_) ?_) z _
    · exact ⟨by simp [(hr hu).1], (hr hu).2⟩
    · have := hm n; simp only [Zone.queued, List.count_append, List.count_nil]; omega
    · exact ⟨⟨rfl, rfl, rfl⟩, List.filter_sublist, List.Sublist.refl _⟩
  · refine h _ _ (fun hr hu => ?_) (fun n => ?_) ?_
    · exact ⟨(hr hu).1, by simp [(hr hu).2]⟩
    · have := ho n; simp only [Zone.queued, List.count_append, List.count_nil]; omega
    · exact ⟨⟨rfl, rfl, rfl⟩, List.Sublist.refl _, List.filter_sublist⟩
  · refine ZoneEffect.testLowWatermark (h _ _ (fun hr hu => ?_) (fun n => ?_) ?_) z _
    · exact ⟨by simp [(hr hu).1], by simp [(hr hu).2]⟩
    · have := hm n; have := ho n; simp only [Zone.queued, List.count_append]; omega
    · exact ⟨⟨rfl, rfl, rfl⟩, List.filter_sublist, List.filter_sublist⟩

theorem handleZflu_effect : PartEffect p (handleZflu body p).1 := by
  unfold handleZflu; split
  · exact p.flush_effect ..
  · exact .refl

/-! ### Chapters 7 and 8 -/

theorem handleZset_effect : PartEffect p (handleZset body p).1 := by
  unfold handleZset; split
  · split
    · rename_i hu
      exact .setup _ .refl hu rfl (fun t => by cases t <;> rfl)
    · exact .refl
  · exact .refl

theorem handleZena_effect : PartEffect p (handleZena body p).1 := by
  unfold handleZena; split
  · exact .refl
  · dsimp only; split
    · rename_i z _ h
      refine .zone (z := z) .refl (ZoneEffect.raiseZoneState (.setZone _ .refl ?_ (by intro _; rfl) ?_) z)
      · intro hr _
        exact hr (by rw [h]; rfl)
      · exact ⟨⟨rfl, rfl, rfl⟩, List.Sublist.refl _, List.Sublist.refl _⟩
    · exact .refl

theorem handleZdis_effect : PartEffect p (handleZdis body p).1 := by
  unfold handleZdis; split
  · exact .refl
  · dsimp only; split
    · exact .refl
    · exact .zone .refl (ZoneEffect.refl.toDisabled)

theorem Part.runZone_effect (z : ZoneId) (s : ZoneStart) : PartEffect p (p.runZone z s) := by
  refine .zone (z := z) .refl (ZoneEffect.raiseZoneState (ZoneEffect.refl.started _ ?_) z)
  unfold ZoneState.afterRun; dsimp only; split <;> rfl

theorem handleZrun_effect : PartEffect p (handleZrun body p).1 := by
  unfold handleZrun; split
  · split
    · exact p.runZone_effect ..
    · exact .refl
  · exact .refl

theorem handleZstp_effect : PartEffect p (handleZstp body p).1 := by
  unfold handleZstp; split
  · split
    · exact .refl
    · exact .zone .refl (ZoneEffect.refl.stopZone _)
  · exact .refl

theorem handleZsta_effect : PartEffect p (handleZsta body p).1 := by unfold handleZsta; split <;> exact .refl

theorem handleZgan_effect : PartEffect p (handleZgan body p).1 := by
  unfold handleZgan; split
  · exact .refl
  · exact .zone .refl (ZoneEffect.refl.touch _ rfl rfl rfl)

theorem handleZsub_effect : PartEffect p (handleZsub body p).1 := by
  unfold handleZsub; split
  · exact .zone .refl (ZoneEffect.refl.touch _ rfl rfl rfl)
  · exact .refl

theorem handleGsub_effect : PartEffect p (handleGsub body p).1 := by
  unfold handleGsub; split
  · exact .refl
  · exact .substitution _ .refl

/-! ### Chapter 9 -/

theorem insertByTime_length (e : ScheduleEntry) (l : List ScheduleEntry) : (insertByTime e l).length = l.length + 1 := by
  induction l with
  | nil => rfl
  | cons x xs ih =>
    unfold insertByTime; split
    · simp [ih]
    · rfl

theorem handleSadd_effect : PartEffect p (handleSadd body p).1 := by
  unfold handleSadd; split
  · exact .refl
  · split
    · exact .refl
    · split
      · exact .refl
      · split
        · exact .refl
        · rename_i hn
          refine .schedule _ .refl (fun hs => ⟨?_, hs.2⟩)
          simp only [Schedule.add, insertByTime_length]; omega

theorem handleScan_effect : PartEffect p (handleScan body p).1 := by
  unfold handleScan; dsimp only; split
  · exact .refl
  · exact .schedule _ .refl (fun hs => ⟨Nat.le_trans (List.length_filter_le _ _) hs.1, hs.2⟩)

theorem handleSlst_effect : PartEffect p (handleSlst body p).1 := by
  unfold handleSlst; split
  · exact .refl
  · refine .schedule _ .refl (fun hs => ⟨hs.1, ?_⟩)
    dsimp only; split
    · exact Nat.zero_le _
    · exact hs.2

/-! ### Chapter 10 -/

/-- INDC writes settings alone (R167). -/
theorem IndicationUnit.pending_configure (u : IndicationUnit) (s : KindSetting) (ks : List IndicationKind) :
    (u.configure s ks).pending = u.pending := by
  unfold IndicationUnit.configure
  induction ks generalizing u with
  | nil => rfl
  | cons k ks ih => exact ih (u.setSetting k s)

/-- INDA takes pairs out of the pending set, and adds none (R170). -/
theorem IndicationUnit.withinSet_acknowledgeAll (u : IndicationUnit) (qs : List Pair) (h : u.WithinSet) :
    (u.acknowledgeAll qs).WithinSet := by
  unfold IndicationUnit.acknowledgeAll
  induction qs generalizing u with
  | nil => exact h
  | cons q qs ih => exact ih _ ⟨h.1.sublist List.filter_sublist, fun r hr => h.2 r (List.filter_sublist.subset hr)⟩

theorem handleIndc_effect : PartEffect p (handleIndc body p).1 := by
  unfold handleIndc; split
  · refine .indications _ .refl (fun h => ?_)
    unfold IndicationUnit.WithinSet; rw [IndicationUnit.pending_configure]; exact h
  · exact .refl

theorem handleIndr_effect : PartEffect p (handleIndr body p).1 := by unfold handleIndr; split <;> exact .refl

theorem handleInda_effect : PartEffect p (handleInda body p).1 := by
  unfold handleInda; split
  · exact .refl
  · exact .indications _ .refl (fun h => IndicationUnit.withinSet_acknowledgeAll _ _ h)

theorem handleTsnp_effect : PartEffect p (handleTsnp body p).1 := .tallies _ .refl

theorem handleTaut_effect : PartEffect p (handleTaut body p).1 := by
  unfold handleTaut; split
  · exact .refl
  · exact .tallies _ .refl

theorem handleTred_effect : PartEffect p (handleTred body p).1 := by unfold handleTred; split <;> exact .refl

theorem Part.automaticSnapshot_effect (t : LocalTime) : PartEffect p (p.automaticSnapshot t) :=
  .tallies _ (.raise _ _ (.tallies _ .refl))

/-! ### Chapter 11 -/

theorem handleHelo_effect : PartEffect p (handleHelo body p).1 := .refl

theorem handleLrat_effect : PartEffect p (handleLrat body p).1 := by unfold handleLrat; split <;> exact .refl

/-- Every request's rule but RSET's. -/
theorem RequestKind.handler_effect (k : RequestKind) (hk : k ≠ .rset) : PartEffect p (k.handler body p).1 := by
  cases k
  case rset => exact absurd rfl hk
  all_goals dsimp only [RequestKind.handler]
  case helo => exact handleHelo_effect body p
  case lrat => exact handleLrat_effect body p
  case indr => exact handleIndr_effect body p
  case inda => exact handleInda_effect body p
  case indc => exact handleIndc_effect body p
  case capc => exact handleCapc_effect body p
  case capl => exact handleCapl_effect body p
  case capd => exact handleCapd_effect body p
  case stmp => exact handleStmp_effect body p
  case dset => exact handleDset_effect body p
  case drun => exact handleDrun_effect body p
  case drel => exact handleDrel_effect body p
  case dsta => exact handleDsta_effect body p
  case beac => exact handleBeac_effect body p
  case lchg => exact handleLchg_effect body p
  case echs => exact handleEchs_effect body p
  case echa => exact handleEcha_effect body p
  case fset => exact handleFset_effect body p
  case fdef => exact handleFdef_effect body p
  case pblk => exact handlePblk_effect body p
  case pool => exact handlePool_effect body p
  case pwmk => exact handlePwmk_effect body p
  case zset => exact handleZset_effect body p
  case zena => exact handleZena_effect body p
  case zdis => exact handleZdis_effect body p
  case zrun => exact handleZrun_effect body p
  case zstp => exact handleZstp_effect body p
  case zflu => exact handleZflu_effect body p
  case zsta => exact handleZsta_effect body p
  case zgan => exact handleZgan_effect body p
  case zsub => exact handleZsub_effect body p
  case gsub => exact handleGsub_effect body p
  case sadd => exact handleSadd_effect body p
  case scan => exact handleScan_effect body p
  case slst => exact handleSlst_effect body p
  case tsnp => exact handleTsnp_effect body p
  case taut => exact handleTaut_effect body p
  case tred => exact handleTred_effect body p

/-- A request's rule leaves the reply queue as it was. -/
theorem RequestKind.handler_replies (k : RequestKind) : (k.handler body p).1.link.replies = p.link.replies := by
  by_cases hk : k = .rset
  · subst hk; rfl
  · rw [(k.handler_effect body p hk).unchanged.2]

end Sys2Proof.Machine
end

