-- ==== Sys2Proof/Laws/Requests.lean ====
section
/-! SUPPORT. What the arrival of a request comes to, once for all 39 kinds: dropped, discarded, answered BAD_LENGTH, or handled
by its owner. -/

namespace Sys2Proof.Machine

/-- A taken request of the right length: its owner's rule, then its answer (R183, R184). -/
theorem Part.request_taken (p : Part) (k : RequestKind) (h : List Byte → Part → Handling) (tag : Byte) (body : List Byte)
    (hp : p.TakesRequests) (hl : k.lengthOk body = true) :
    p.request k h tag body =
      match (h body p.toHunt).2 with
      | some a => (h body p.toHunt).1.answer k.code tag a
      | none => (h body p.toHunt).1 := by
  have hd : p.toHunt.link.deaf = false := hp.1
  have hn : ¬ Config.replyCapacity ≤ p.toHunt.link.replies.length := Nat.not_le.mpr hp.2
  have hd' : ¬ p.toHunt.link.deaf = true := Bool.eq_false_iff.mp hd
  exact (if_neg hd').trans ((if_neg hn).trans (if_pos hl))

/-- An answered request. -/
theorem Part.request_answered {p q : Part} {k : RequestKind} {h : List Byte → Part → Handling} {tag : Byte}
    {body : List Byte} {a : Answer} (hp : p.TakesRequests) (hl : k.lengthOk body = true)
    (hh : h body p.toHunt = (q, some a)) : p.request k h tag body = q.answer k.code tag a := by
  rw [Part.request_taken p k h tag body hp hl, hh]

/-- A body of the wrong length is answered BAD_LENGTH, and nothing else happens (R184). -/
theorem Part.request_badLength (p : Part) (k : RequestKind) (h : List Byte → Part → Handling) (tag : Byte)
    (body : List Byte) (hp : p.TakesRequests) (hl : k.lengthOk body = false) :
    p.request k h tag body = p.toHunt.answer k.code tag (.refusal .badLength) := by
  have hd : p.toHunt.link.deaf = false := hp.1
  have hn : ¬ Config.replyCapacity ≤ p.toHunt.link.replies.length := Nat.not_le.mpr hp.2
  simp only [Part.request, Part.arrival, hd, hn, hl, if_false, Bool.false_eq_true]

/-- Once an RSET has been taken, an arrival is dropped (R187). -/
theorem Part.arrival_deaf (p : Part) (f : Part → Part) (hp : p.link.deaf = true) : p.arrival f = p.toHunt := by
  have hd : p.toHunt.link.deaf = true := hp
  simp only [Part.arrival, hd, if_true]

/-- While 8 replies are unread, an arrival is discarded with OVERRUN (R183). -/
theorem Part.arrival_full (p : Part) (f : Part → Part) (hd : p.link.deaf = false)
    (hn : Config.replyCapacity ≤ p.link.replies.length) : p.arrival f = p.toHunt.discard .overrun := by
  have hd' : p.toHunt.link.deaf = false := hd
  have hn' : Config.replyCapacity ≤ p.toHunt.link.replies.length := hn
  simp only [Part.arrival, hd', hn', if_true, if_false, Bool.false_eq_true]

/-- An arrival that the link takes. -/
theorem Part.arrival_taken (p : Part) (f : Part → Part) (hp : p.TakesRequests) : p.arrival f = f p.toHunt := by
  have hd : p.toHunt.link.deaf = false := hp.1
  have hn : ¬ Config.replyCapacity ≤ p.toHunt.link.replies.length := Nat.not_le.mpr hp.2
  simp only [Part.arrival, hd, hn, if_false, Bool.false_eq_true]

/-- A discard writes the indications and the tallies alone. -/
theorem Part.discard_unchanged (p : Part) (c : LinkCause) :
    (p.discard c).link = p.link ∧ (p.discard c).schedule = p.schedule ∧ (p.discard c).capture = p.capture ∧
    (p.discard c).echo = p.echo ∧ (p.discard c).zones = p.zones ∧ (p.discard c).domains = p.domains ∧
    (p.discard c).localTime = p.localTime := by
  unfold Part.discard; split <;> simp

/-- The command of a kind is the arrival of its request, with the owner's rule (R183, R184). -/
theorem exec_command (k : RequestKind) (tag : Byte) (body : List Byte) (s : State) :
    exec (k.command tag body) s = s.request k k.handler tag body := by
  cases k <;> rfl

/-- A request command answers a next state. -/
theorem exec_command_next (k : RequestKind) (tag : Byte) (body : List Byte) (s : State) :
    exec (k.command tag body) s = .next { s with part := s.part.request k k.handler tag body } :=
  exec_command k tag body s

/-- A part whose link is that of a part in HUNT is in HUNT. -/
theorem Part.toHunt_of_link {p q : Part} (h : q.link = p.toHunt.link) : q.toHunt = q := by
  unfold Part.toHunt
  rw [show ({ q.link with receiver := .hunt, silence := none } : Link) = q.link by rw [h]; rfl]

/-- An accepted request of any kind but RSET, in the form of the statements. -/
theorem exec_command_ok {s : State} {k : RequestKind} {tag : Byte} {body content : List Byte} {q : Part} (hk : k ≠ .rset)
    (hp : s.part.TakesRequests) (hl : k.lengthOk body = true)
    (hh : k.handler body s.part.toHunt = (q, some (.ok content))) :
    exec (k.command tag body) s = .next (s.replied q k tag content) := by
  have e := k.handler_effect body s.part.toHunt hk
  rw [hh] at e
  rw [exec_command_next, Part.request_answered hp hl hh, State.replied, Part.toHunt_of_link e.unchanged.2]

/-- A refused request, in the form of the statements. -/
theorem exec_command_refused {s : State} {k : RequestKind} {tag : Byte} {body : List Byte} {status : Status}
    (hp : s.part.TakesRequests) (hl : k.lengthOk body = true)
    (hh : k.handler body s.part.toHunt = s.part.toHunt.refuse status) :
    exec (k.command tag body) s = .next (s.refusedWith k tag status []) := by
  rw [exec_command_next, Part.request_answered hp hl hh]; rfl

/-- The kind of a kind's code. -/
theorem RequestKind.ofCode_code (k : RequestKind) : RequestKind.ofCode k.code.toNat = some k := by
  cases k <;> rfl

/-- The arrival of a frame of a known kind is the request of that kind. -/
theorem Part.frameArrival_code (p : Part) (k : RequestKind) (tag : Byte) (body : List Byte) :
    p.frameArrival k.code tag body = p.request k k.handler tag body := by
  unfold Part.frameArrival; rw [RequestKind.ofCode_code]

/-- A property that an arrival keeps: the gate's own outcomes keep it, and what it takes keeps it. -/
theorem Part.arrival_keeps {P : Part → Prop} (p : Part) (f : Part → Part) (hh : P p.toHunt)
    (hd : P (p.toHunt.discard .overrun)) (hf : p.TakesRequests → P (f p.toHunt)) : P (p.arrival f) := by
  by_cases h1 : p.link.deaf = true
  · rw [p.arrival_deaf f h1]; exact hh
  · rw [Bool.not_eq_true] at h1
    by_cases h2 : Config.replyCapacity ≤ p.link.replies.length
    · rw [p.arrival_full f h1 h2]; exact hd
    · rw [p.arrival_taken f ⟨h1, Nat.not_le.mp h2⟩]; exact hf ⟨h1, Nat.not_le.mp h2⟩

end Sys2Proof.Machine
end

