-- ==== Sys2Proof/Laws/Steps.lean ====
section
/-! SUPPORT. What a step can do, once for every property of the part: one that every effect keeps, every write of the link whose
reply queue stays within 8, every reset and the advance of local time, is kept by every step. -/

namespace Sys2Proof.Machine

/-- A property of the part that everything a step is made of keeps. -/
structure Kept (P : Part → Prop) : Prop where
  effect : ∀ {p q : Part}, PartEffect p q → P p → P q
  link : ∀ {p : Part} (l : Link), (p.link.WithinQueue → l.WithinQueue) → P p → P { p with link := l }
  reset : ∀ mode divisor selected, P (Part.reset mode divisor selected)
  time : ∀ {p : Part} (t : LocalTime), P p → P { p with localTime := t }

theorem Link.mark_replies (l : Link) (a : AfterReply) : (l.mark a).replies = l.replies := by cases a <;> rfl

theorem takeRate_length (l : List Reply) (n : Byte) (rs : List Reply) (h : takeRate l = some (n, rs)) :
    rs.length = l.length := by
  induction l generalizing n rs with
  | nil => cases h
  | cons a l ih =>
    simp only [takeRate] at h
    split at h
    · simp at h; rw [← h.2]; simp
    all_goals
      obtain ⟨⟨x, y⟩, h1, h2⟩ := Option.map_eq_some_iff.mp h
      cases h2; exact congrArg (· + 1) (ih _ _ h1)

namespace Kept

variable {P : Part → Prop} (K : Kept P) {p : Part}
include K

theorem toHunt (h : P p) : P p.toHunt := K.link _ id h

theorem discard (c : LinkCause) (h : P p) : P (p.discard c) := by
  unfold Part.discard; split
  · exact h
  · exact K.effect (.tally _ (.indications _ (.raise _ _ .refl) id)) h

theorem cutFrame (h : P p) : P p.cutFrame := K.discard _ (K.toHunt h)

/-- A reply joins a queue that has room. -/
theorem enqueue (r : Reply) (hr : p.link.replies.length < Config.replyCapacity) (h : P p) :
    P { p with link := p.link.enqueue p.localTime r } := by
  refine K.link _ (fun _ => ?_) h
  unfold Link.WithinQueue Link.enqueue
  rw [List.length_append, List.length_singleton]; exact hr

theorem request (k : RequestKind) (tag : Byte) (body : List Byte) (h : P p) : P (p.request k k.handler tag body) := by
  refine Part.arrival_keeps _ _ (K.toHunt h) (K.discard _ (K.toHunt h)) (fun ht => ?_)
  have hc : P (k.handler body p.toHunt).1 := by
    by_cases hk : k = .rset
    · subst hk; exact K.link _ id (K.toHunt h)
    · exact K.effect (k.handler_effect body p.toHunt hk) (K.toHunt h)
  have hr : (k.handler body p.toHunt).1.link.replies.length < Config.replyCapacity := by
    rw [k.handler_replies]; exact ht.2
  dsimp only; split
  · split
    · exact K.enqueue _ hr hc
    · exact hc
  · exact K.enqueue _ ht.2 (K.toHunt h)

theorem frameArrival (kind tag : Byte) (body : List Byte) (h : P p) : P (p.frameArrival kind tag body) := by
  unfold Part.frameArrival; split
  · exact K.request _ _ _ h
  · exact Part.arrival_keeps _ _ (K.toHunt h) (K.discard _ (K.toHunt h)) (fun ht => K.enqueue _ ht.2 (K.toHunt h))

theorem frameComplete (kind tag : Byte) (body : List Byte) (crc : Word16) (h : P p) : P (p.frameComplete kind tag body crc) := by
  unfold Part.frameComplete; split
  · exact K.frameArrival _ _ _ h
  · exact K.discard _ (K.toHunt h)

theorem lengthFormed (n : Nat) (h : P p) : P (p.lengthFormed n) := by
  unfold Part.lengthFormed; split
  · exact K.link _ id h
  · exact K.cutFrame h

theorem receive (b : Byte) (h : P p) : P (p.receive b) := by
  unfold Part.receive; dsimp only; split
  · split
    · exact K.link _ id h
    · exact h
  · exact K.link _ id h
  · exact K.lengthFormed _ h
  · exact K.link _ id h
  · exact K.link _ id h
  · exact K.frameComplete _ _ _ _ h

theorem guardSilence (h : P p) : P p.guardSilence := by
  unfold Part.guardSilence; split
  · exact h
  · exact K.link _ id h

theorem depart (h : P p) : P p.depart := by
  refine K.link _ (fun hq => ?_) h
  unfold Link.WithinQueue Link.depart at *; split
  · exact hq
  · rename_i r rest hr
    rw [hr, List.length_cons] at hq
    rw [Link.mark_replies]; exact Nat.le_of_succ_le hq

theorem settleShifted (h : P p) : P p.settleShifted := by
  unfold Part.settleShifted; split
  · dsimp only; split
    · exact K.reset _ _ _
    · exact K.depart h
  · exact h

theorem spiByte (b : Byte) (h : P p) : P (p.spiByte b) := by
  unfold Part.spiByte; split
  · refine K.receive _ (K.link _ (fun hq => ?_) (K.settleShifted h))
    unfold Link.WithinQueue Link.shiftOut at *; split <;> exact hq
  · exact h

theorem rateChange (h : P p) : P p.rateChange := by
  unfold Part.rateChange; split
  · exact K.link _ id h
  · split
    · rename_i n rs hr
      exact K.link _ (fun hq => Nat.le_trans (Nat.le_of_eq (takeRate_length _ _ _ hr)) hq) h
    · exact h

theorem askStartBit {s : State} (h : P s.part) : P s.askStartBit.part := by
  unfold State.askStartBit; split
  · dsimp only; split
    · exact K.link _ id h
    · exact h
  · exact h

/-- Every step keeps it. -/
theorem keptByStep : KeptByStep P := by
  intro s t h hs
  unfold step at hs
  split at hs
  · injection hs with hs; subst hs
    have ha : P s.askStartBit.part := K.askStartBit h
    unfold State.idle; dsimp only; split
    · exact K.time _ ha
    · exact ha
  · rename_i c rest hp
    have key : ∀ f : Part → Part, (∀ p, P p → P (f p)) → ∀ s t : State, P s.part → s.complete f = .next t → P t.part := by
      intro f hf s t hs h; injection h with h; rw [← h]; exact hf _ hs
    have hreq : ∀ (k : RequestKind) tag body (s t : State), P s.part → exec (k.command tag body) s = .next t → P t.part := by
      intro k tag body s t h h2
      rw [exec_command_next] at h2; injection h2 with h2; rw [← h2]; exact K.request _ _ _ h
    have h : P ({ s with pending := rest } : State).part := h
    generalize ({ s with pending := rest } : State) = s' at h hs
    cases c
    case capc tag body => exact hreq .capc tag body _ _ h hs
    case capl tag body => exact hreq .capl tag body _ _ h hs
    case capd tag body => exact hreq .capd tag body _ _ h hs
    case stmp tag body => exact hreq .stmp tag body _ _ h hs
    case dset tag body => exact hreq .dset tag body _ _ h hs
    case drun tag body => exact hreq .drun tag body _ _ h hs
    case beac tag body => exact hreq .beac tag body _ _ h hs
    case lchg tag body => exact hreq .lchg tag body _ _ h hs
    case drel tag body => exact hreq .drel tag body _ _ h hs
    case dsta tag body => exact hreq .dsta tag body _ _ h hs
    case echs tag body => exact hreq .echs tag body _ _ h hs
    case echa tag body => exact hreq .echa tag body _ _ h hs
    case fset tag body => exact hreq .fset tag body _ _ h hs
    case fdef tag body => exact hreq .fdef tag body _ _ h hs
    case pblk tag body => exact hreq .pblk tag body _ _ h hs
    case pool tag body => exact hreq .pool tag body _ _ h hs
    case pwmk tag body => exact hreq .pwmk tag body _ _ h hs
    case zflu tag body => exact hreq .zflu tag body _ _ h hs
    case zset tag body => exact hreq .zset tag body _ _ h hs
    case zena tag body => exact hreq .zena tag body _ _ h hs
    case zdis tag body => exact hreq .zdis tag body _ _ h hs
    case zrun tag body => exact hreq .zrun tag body _ _ h hs
    case zstp tag body => exact hreq .zstp tag body _ _ h hs
    case zsta tag body => exact hreq .zsta tag body _ _ h hs
    case zgan tag body => exact hreq .zgan tag body _ _ h hs
    case zsub tag body => exact hreq .zsub tag body _ _ h hs
    case gsub tag body => exact hreq .gsub tag body _ _ h hs
    case sadd tag body => exact hreq .sadd tag body _ _ h hs
    case scan tag body => exact hreq .scan tag body _ _ h hs
    case slst tag body => exact hreq .slst tag body _ _ h hs
    case indc tag body => exact hreq .indc tag body _ _ h hs
    case indr tag body => exact hreq .indr tag body _ _ h hs
    case inda tag body => exact hreq .inda tag body _ _ h hs
    case tsnp tag body => exact hreq .tsnp tag body _ _ h hs
    case taut tag body => exact hreq .taut tag body _ _ h hs
    case tred tag body => exact hreq .tred tag body _ _ h hs
    case lrat tag body => exact hreq .lrat tag body _ _ h hs
    case rset tag body => exact hreq .rset tag body _ _ h hs
    case helo tag body => exact hreq .helo tag body _ _ h hs
    all_goals dsimp only [exec] at hs
    case unknownKind =>
      unfold execUnknownKind at hs; refine key _ (fun p hp => ?_) _ _ h hs
      exact K.frameArrival _ _ _ hp
    case overrun =>
      unfold execOverrun at hs; refine key _ (fun p hp => ?_) _ _ h hs
      exact K.frameArrival _ _ _ hp
    case crcMismatch =>
      unfold execCrcMismatch at hs; refine key _ (fun p hp => ?_) _ _ h hs
      exact K.frameComplete _ _ _ _ hp
    case lenOutOfRange =>
      unfold execLenOutOfRange at hs; refine key _ (fun p hp => ?_) _ _ h hs
      exact K.guardSilence (K.lengthFormed _ hp)
    case stopBitError =>
      unfold execStopBitError at hs; refine key _ (fun p hp => ?_) _ _ h hs
      split
      · exact K.cutFrame hp
      · exact hp
    case inFrameSilenceExpiry =>
      unfold execInFrameSilenceExpiry at hs; refine key _ (fun p hp => ?_) _ _ h hs
      split
      · exact K.cutFrame hp
      · exact hp
    case spiTransferStart =>
      unfold execSpiTransferStart at hs; refine key _ (fun p hp => ?_) _ _ h hs
      split
      · exact K.link _ id hp
      · exact hp
    case spiTransferEnd =>
      unfold execSpiTransferEnd at hs; refine key _ (fun p hp => ?_) _ _ h hs
      split
      · unfold Part.endTransfer; dsimp only; split
        · exact K.cutFrame (K.link _ id hp)
        · exact K.link _ id hp
      · exact hp
    case replyLeavesQueue =>
      unfold execReplyLeavesQueue at hs; refine key _ (fun p hp => ?_) _ _ h hs
      exact K.depart hp
    case lratRateChange =>
      unfold execLratRateChange at hs; refine key _ (fun p hp => ?_) _ _ h hs
      exact K.rateChange hp
    case rsetReset =>
      unfold execRsetReset at hs; refine key _ (fun p hp => ?_) _ _ h hs
      split
      · exact K.reset _ _ _
      · exact hp
    case powerOn =>
      unfold execPowerOn at hs; refine key _ (fun p hp => ?_) _ _ h hs
      exact K.reset _ _ _
    case pinReset =>
      unfold execPinReset at hs; refine key _ (fun p hp => ?_) _ _ h hs
      exact K.reset _ _ _
    case strobeEdge =>
      unfold execStrobeEdge at hs; refine key _ (fun p hp => ?_) _ _ h hs
      split
      · exact K.effect (Part.makeCapture_effect _ _) hp
      · exact hp
    case beaconWatchExpiry =>
      unfold execBeaconWatchExpiry at hs; refine key _ (fun p hp => ?_) _ _ h hs
      split
      · split
        · exact K.effect (Part.watchExpiry_effect _ _ _) hp
        · exact hp
      · exact hp
    case windowEnd =>
      unfold execWindowEnd at hs; refine key _ (fun p hp => ?_) _ _ h hs
      split
      · split
        · exact K.effect (Part.windowExpiry_effect _ _ _) hp
        · exact hp
      · exact hp
    case holdoverExpiry =>
      unfold execHoldoverExpiry at hs; refine key _ (fun p hp => ?_) _ _ h hs
      split
      · exact K.effect (Part.holdoverExpiry_effect _ _) hp
      · exact hp
    case echoTimeout =>
      unfold execEchoTimeout at hs; refine key _ (fun p hp => ?_) _ _ h hs
      split
      · split
        · exact K.effect (Part.echoExpiry_effect _ _ _) hp
        · exact hp
      · exact hp
    case outputFrame z =>
      unfold execOutputFrame at hs; refine key _ (fun p hp => ?_) _ _ h hs
      split
      · split
        · exact K.effect (.zone (z := z) .refl (ZoneEffect.frame .refl)) hp
        · exact hp
      · exact hp
    case automaticSnapshot =>
      unfold execAutomaticSnapshot at hs; refine key _ (fun p hp => ?_) _ _ h hs
      split
      · split
        · exact K.effect (Part.automaticSnapshot_effect _ _) hp
        · exact hp
      · exact hp
    case byteReceived =>
      unfold execByteReceived at hs; refine key _ (fun p hp => ?_) _ _ h hs
      split
      · exact K.guardSilence (K.receive _ hp)
      · exact K.spiByte _ hp
end Kept
end Sys2Proof.Machine
end

