-- ==== Sys2Proof/Laws/Tone.lean ====
section
/-! SUPPORT. The tone's sine (R140, log 24): the fixed-point series of a quarter lies within 2^60 of ±2^100, by the exact series
of the sine and the unit that each of its 16 divisions can lose. -/

namespace Sys2Proof.Machine

/-- The term of order `2k + 1` of the sine series. -/
noncomputable def sineTerm (x : ℝ) (k : ℕ) : ℝ := (-1) ^ k * x ^ (2 * k + 1) / (2 * k + 1).factorial

/-- The sine series of `sineSeries`, without the roundings. -/
noncomputable def exactSeries (x : ℝ) : ℕ → ℕ → ℝ → ℝ
  | 0, _, _ => 0
  | fuel + 1, k, term => term + exactSeries x fuel (k + 1) (-(term * x ^ 2) / ((2 * k + 2) * (2 * k + 3)))

/-- A term's successor is what `exactSeries` makes of it. -/
theorem sineTerm_succ (x : ℝ) (k : ℕ) :
    -(sineTerm x k * x ^ 2) / ((2 * k + 2) * (2 * k + 3)) = sineTerm x (k + 1) := by
  unfold sineTerm
  rw [show (2 * (k + 1) + 1).factorial = (2 * k + 3) * ((2 * k + 2) * (2 * k + 1).factorial) from rfl]
  have : ((2 * k + 1).factorial : ℝ) ≠ 0 := by positivity
  push_cast; field_simp; ring

/-- The exact series from a term on is the sum of the terms. -/
theorem exactSeries_eq (x : ℝ) (n : ℕ) : ∀ k, exactSeries x n k (sineTerm x k) = ∑ j ∈ Finset.range n, sineTerm x (k + j) := by
  induction n with
  | zero => intro k; rfl
  | succ n ih =>
    intro k
    rw [Finset.sum_range_succ', exactSeries, sineTerm_succ, ih, add_comm]
    simp only [Nat.add_zero, Nat.add_assoc, Nat.add_comm 1]

/-- The imaginary part of the exponential's sum at `x * I` is the sine's sum. -/
theorem expSum_im (x : ℝ) (n : ℕ) :
    (∑ m ∈ Finset.range (2 * n), ((x : ℂ) * Complex.I) ^ m / (m.factorial : ℂ)).im = ∑ j ∈ Finset.range n, sineTerm x j := by
  induction n with
  | zero => rfl
  | succ n ih =>
    rw [show 2 * (n + 1) = 2 * n + 1 + 1 by ring, Finset.sum_range_succ, Finset.sum_range_succ, Finset.sum_range_succ (n := n), ← ih]
    have e1 : ((x : ℂ) * Complex.I) ^ (2 * n) / ((2 * n).factorial : ℂ) = (((-1) ^ n * x ^ (2 * n) / (2 * n).factorial : ℝ) : ℂ) := by
      rw [mul_pow, pow_mul Complex.I, Complex.I_sq]; push_cast; ring
    have e2 : ((x : ℂ) * Complex.I) ^ (2 * n + 1) / ((2 * n + 1).factorial : ℂ) = ((sineTerm x n : ℝ) : ℂ) * Complex.I := by
      rw [mul_pow, pow_succ Complex.I, pow_mul Complex.I, Complex.I_sq]; unfold sineTerm; push_cast; ring
    rw [e1, e2, Complex.add_im, Complex.add_im, Complex.ofReal_im, Complex.im_ofReal_mul, Complex.I_im]; ring

/-- Sixteen terms of the exact series stay within 1 but for the remainder of the exponential's series. -/
theorem exactSeries_le {x : ℝ} (h0 : 0 ≤ x) (h2 : x ≤ 2) :
    |exactSeries x 16 0 x| ≤ 1 + 1 / 2 ^ 41 := by
  have hn : ‖(x : ℂ) * Complex.I‖ = x := by simp [abs_of_nonneg h0]
  have hb := Complex.exp_bound' (x := (x : ℂ) * Complex.I) (n := 2 * 16) (by rw [hn]; norm_num; linarith)
  rw [hn] at hb
  have him := (Complex.abs_im_le_norm _).trans hb
  have hS : exactSeries x 16 0 x = ∑ j ∈ Finset.range 16, sineTerm x j := by
    have := exactSeries_eq x 16 0
    simpa [sineTerm] using this
  rw [Complex.sub_im, Complex.exp_ofReal_mul_I_im, expSum_im, ← hS] at him
  have hx : x ^ (2 * 16) ≤ 2 ^ (2 * 16) := pow_le_pow_left₀ h0 h2 _
  have hf : (x ^ (2 * 16) / (2 * 16).factorial * 2 : ℝ) ≤ 1 / 2 ^ 41 := by
    have hfac : ((Nat.factorial (2 * 16) : ℕ) : ℝ) = 263130836933693530167218012160000000 := by norm_num [Nat.factorial]
    rw [hfac]
    rw [div_mul_eq_mul_div, div_le_div_iff₀ (by norm_num) (by norm_num)]
    norm_num at hx ⊢; linarith
  have hs := abs_le.mp (Real.abs_sin_le_one x)
  have := abs_le.mp (him.trans hf)
  rw [abs_le]; constructor <;> linarith [hs.1, hs.2, this.1, this.2]
/-- A quotient rounded down is within 1 of the quotient. -/
theorem ediv_near (a b : ℤ) (hb : 0 < b) : |((a / b : ℤ) : ℝ) - (a : ℝ) / b| ≤ 1 := by
  have h1 := Int.mul_ediv_add_emod a b
  have h2 := Int.emod_nonneg a (ne_of_gt hb)
  have h3 := Int.emod_lt_of_pos a hb
  have hb' : (0 : ℝ) < b := by exact_mod_cast hb
  have e : ((a / b : ℤ) : ℝ) - (a : ℝ) / b = -((a % b : ℤ) : ℝ) / b := by
    have : (a : ℝ) = b * ((a / b : ℤ) : ℝ) + ((a % b : ℤ) : ℝ) := by exact_mod_cast h1.symm
    rw [this]; field_simp; ring
  have h2' : (0 : ℝ) ≤ ((a % b : ℤ) : ℝ) := by exact_mod_cast h2
  have h3' : ((a % b : ℤ) : ℝ) < b := by exact_mod_cast h3
  rw [e, abs_div, abs_neg, abs_of_nonneg h2', abs_of_pos hb', div_le_one hb']
  exact h3'.le

/-- The rounded series stays within 5 units of the last place for every term. -/
theorem sineSeries_near (x K : ℝ) (y : ℤ) (hKe : K = 2 ^ 100) (h0 : 0 ≤ x) (h2 : x ≤ 2) (hy0 : 0 ≤ y)
    (hy : (y : ℝ) / K ≤ x ^ 2) (hy' : x ^ 2 - 1 / K ≤ (y : ℝ) / K) (n : ℕ) :
    ∀ (k : ℕ) (t : ℤ) (T : ℝ), |(t : ℝ) / K - T| ≤ 5 / K → |T| ≤ 4 →
      |((sineSeries y n k t : ℤ) : ℝ) / K - exactSeries x n k T| ≤ 5 * (n : ℝ) / K := by
  have hK : 0 < K := by rw [hKe]; positivity
  induction n with
  | zero => intro k t T _ _; simp [sineSeries, exactSeries]
  | succ n ih =>
    intro k t T ht hT
    have hx2 : x ^ 2 ≤ 4 := by nlinarith
    have hx0 : 0 ≤ x ^ 2 := sq_nonneg x
    obtain ⟨m, hm⟩ : ∃ m : ℝ, m = (2 * k + 2) * (2 * k + 3) := ⟨_, rfl⟩
    have hm6 : 6 ≤ m := by
      have : (0 : ℝ) ≤ k := Nat.cast_nonneg k
      rw [hm]; nlinarith
    have hm0 : 0 < m := by linarith
    obtain ⟨Y, hY⟩ : ∃ Y : ℝ, Y = (y : ℝ) / K := ⟨_, rfl⟩
    rw [← hY] at hy hy'
    have hyR : (0 : ℝ) ≤ y := by exact_mod_cast hy0
    have hY0 : 0 ≤ Y := by rw [hY]; positivity
    obtain ⟨t', ht'⟩ : ∃ t' : ℤ, t' = -(t * y) / (2 ^ 100 * ((2 * k + 2) * (2 * k + 3))) := ⟨_, rfl⟩
    have hnext : |(t' : ℝ) / K - (-(T * x ^ 2) / m)| ≤ 5 / K := by
      have hf := ediv_near (-(t * y)) (2 ^ 100 * ((2 * k + 2) * (2 * k + 3))) (by positivity)
      rw [← ht'] at hf
      push_cast at hf
      rw [show (1267650600228229401496703205376 : ℝ) = K by rw [hKe]; norm_num, ← hm] at hf
      have e1 : (t' : ℝ) / K - (-(T * x ^ 2) / m) =
          ((t' : ℝ) - -(t * y) / (K * m)) / K + (-(((t : ℝ) / K - T) * Y) - T * (Y - x ^ 2)) / m := by
        rw [hY]; field_simp; ring
      have h1 : |((t' : ℝ) - -(t * y) / (K * m)) / K| ≤ 1 / K := by
        rw [abs_div, abs_of_pos hK]; exact div_le_div_of_nonneg_right hf hK.le
      have h3 : |(-(((t : ℝ) / K - T) * Y) - T * (Y - x ^ 2)) / m| ≤ 4 / K := by
        rw [abs_div, abs_of_pos hm0, div_le_iff₀ hm0]
        have a1 : |((t : ℝ) / K - T) * Y| ≤ 5 / K * 4 := by
          rw [abs_mul, abs_of_nonneg hY0]
          exact mul_le_mul ht (hy.trans hx2) hY0 (by positivity)
        have a2 : |T * (Y - x ^ 2)| ≤ 4 * (1 / K) := by
          rw [abs_mul]
          refine mul_le_mul hT ?_ (abs_nonneg _) (by norm_num)
          rw [abs_le]; constructor <;> linarith [show 0 < 1 / K by positivity]
        have a3 := abs_sub (-(((t : ℝ) / K - T) * Y)) (T * (Y - x ^ 2))
        rw [abs_neg] at a3
        have : 4 / K * 6 ≤ 4 / K * m := mul_le_mul_of_nonneg_left hm6 (by positivity)
        have e : (5 / K * 4 : ℝ) + 4 * (1 / K) = 4 / K * 6 := by ring
        linarith
      rw [e1]
      refine (abs_add_le _ _).trans ?_
      calc _ ≤ 1 / K + 4 / K := add_le_add h1 h3
        _ = 5 / K := by ring
    have hbound : |-(T * x ^ 2) / m| ≤ 4 := by
      rw [abs_div, abs_neg, abs_mul, abs_of_pos hm0, abs_of_nonneg hx0, div_le_iff₀ hm0]
      nlinarith [abs_nonneg T]
    have := ih (k + 1) t' _ hnext hbound
    have e : ((sineSeries y (n + 1) k t : ℤ) : ℝ) / K - exactSeries x (n + 1) k T =
        ((t : ℝ) / K - T) + (((sineSeries y n (k + 1) t' : ℤ) : ℝ) / K - exactSeries x n (k + 1) (-(T * x ^ 2) / m)) := by
      rw [sineSeries, exactSeries, ← ht', hm]; push_cast; ring
    rw [e]
    refine (abs_add_le _ _).trans ?_
    calc _ ≤ 5 / K + 5 * (n : ℝ) / K := add_le_add ht this
      _ = _ := by push_cast; ring

/-- The sine of the first quarter does not exceed 1 by more than `2 ^ (-40)`, and is not below its negative. -/
theorem quarterSine_within {r : Nat} (h : r ≤ 6144 * 65536) :
    -(2 ^ 100 + 2 ^ 60) ≤ quarterSine r ∧ quarterSine r ≤ 2 ^ 100 + 2 ^ 60 := by
  obtain ⟨x, hx⟩ : ∃ x : ℤ, x = ((twoPiScaled * r / (24576 * 65536) : Nat) : ℤ) := ⟨_, rfl⟩
  have hq : quarterSine r = sineSeries (x * x / 2 ^ 100) 16 0 x := by rw [hx]; rfl
  have hx0 : 0 ≤ x := by rw [hx]; exact Int.natCast_nonneg _
  have hx2 : x ≤ 2 * 2 ^ 100 := by
    rw [hx]
    have : twoPiScaled * r / (24576 * 65536) ≤ 2 * 2 ^ 100 :=
      Nat.div_le_of_le_mul ((Nat.mul_le_mul_left twoPiScaled h).trans (by norm_num [twoPiScaled]))
    exact_mod_cast this
  obtain ⟨K, hKe⟩ : ∃ K : ℝ, K = 2 ^ 100 := ⟨_, rfl⟩
  have hK : 0 < K := by rw [hKe]; positivity
  obtain ⟨X, hX⟩ : ∃ X : ℝ, X = (x : ℝ) / K := ⟨_, rfl⟩
  have hxR : (0 : ℝ) ≤ x := by exact_mod_cast hx0
  have hX0 : 0 ≤ X := by rw [hX]; positivity
  have hX2 : X ≤ 2 := by
    rw [hX, div_le_iff₀ hK, hKe]; exact_mod_cast hx2
  have hy0 : 0 ≤ x * x / 2 ^ 100 := Int.ediv_nonneg (mul_nonneg hx0 hx0) (by positivity)
  have hlo : ((x * x / 2 ^ 100 : ℤ) : ℝ) ≤ (x : ℝ) * x / K := by
    rw [le_div_iff₀ hK, hKe]; exact_mod_cast Int.ediv_mul_le (x * x) (by positivity : (2 ^ 100 : ℤ) ≠ 0)
  have hhi : (x : ℝ) * x / K ≤ ((x * x / 2 ^ 100 : ℤ) : ℝ) + 1 := by
    rw [div_le_iff₀ hK, hKe]; exact_mod_cast (Int.lt_ediv_add_one_mul_self (x * x) (by positivity)).le
  have e2 : X ^ 2 = (x : ℝ) * x / K / K := by rw [hX]; field_simp
  have hn := sineSeries_near X K (x * x / 2 ^ 100) hKe hX0 hX2 hy0
    (by rw [e2]; exact div_le_div_of_nonneg_right hlo hK.le)
    (by rw [e2, ← sub_div]; exact div_le_div_of_nonneg_right (by linarith) hK.le) 16 0 x X
    (by rw [hX, sub_self, abs_zero]; positivity) (by rw [abs_of_nonneg hX0]; linarith)
  have hs := abs_le.mp (exactSeries_le hX0 hX2)
  have hn' := abs_le.mp hn
  rw [hq]
  generalize sineSeries (x * x / 2 ^ 100) 16 0 x = s at *
  have hup : (s : ℝ) / K ≤ 1 + 1 / 2 ^ 40 := by
    have : (5 * ((16 : ℕ) : ℝ) / K) ≤ 1 / 2 ^ 41 := by rw [hKe]; norm_num
    have : (1 : ℝ) / 2 ^ 41 + 1 / 2 ^ 41 = 1 / 2 ^ 40 := by norm_num
    linarith
  have hdn : -(1 + 1 / 2 ^ 40) ≤ (s : ℝ) / K := by
    have : (5 * ((16 : ℕ) : ℝ) / K) ≤ 1 / 2 ^ 41 := by rw [hKe]; norm_num
    have : (1 : ℝ) / 2 ^ 41 + 1 / 2 ^ 41 = 1 / 2 ^ 40 := by norm_num
    linarith
  rw [div_le_iff₀ hK, hKe] at hup
  rw [le_div_iff₀ hK, hKe] at hdn
  have e : (1 + 1 / 2 ^ 40 : ℝ) * 2 ^ 100 = 2 ^ 100 + 2 ^ 60 := by norm_num
  have e' : -(1 + 1 / 2 ^ 40 : ℝ) * 2 ^ 100 = -(2 ^ 100 + 2 ^ 60) := by norm_num
  rw [e] at hup; rw [e'] at hdn
  exact ⟨by exact_mod_cast hdn, by exact_mod_cast hup⟩

end Sys2Proof.Machine
end

