-- ==== Sys2Proof/Tests/Slice0.lean ====
section
/-! SUPPORT. Checks of the model: the smoke test of well-formedness, small steps with the numbers of the spec's worked examples,
and for each statement with hypotheses a state and operands that meet them, clause by clause. -/

set_option Elab.async false

namespace Sys2Proof.Tests

open Sys2Proof Sys2Proof.Machine

/-! ### Well-formedness: an ill-formed term for each check -/

theorem test_wf_body_too_long : Instr.wellFormed (.pblk 0#8 (List.replicate 1047 0#8)) = false := by decide +kernel
theorem test_wf_longest_body : Instr.wellFormed (.pblk 0#8 (List.replicate 1046 0#8)) = true := by decide +kernel
theorem test_wf_crc_body_too_long : Instr.wellFormed (.crcMismatch 1#8 0#8 (List.replicate 1047 0#8) 0#16) = false := by
  decide +kernel
theorem test_wf_unknown_kind_is_known : Instr.wellFormed (.unknownKind 0x2A#8 0#8 []) = false := by decide
theorem test_wf_unknown_kind : Instr.wellFormed (.unknownKind 0xAA#8 0#8 []) = true := by decide
theorem test_wf_len_in_range : Instr.wellFormed (.lenOutOfRange 1048#16) = false := by decide
theorem test_wf_len_out_of_range : Instr.wellFormed (.lenOutOfRange 1049#16) = true := by decide

/-! ### Small states -/

/-- Seven replies wait: one more is taken. -/
def ready : Part :=
  let p := Part.reset .uart 7#8 false
  { p with link := { p.link with replies := List.replicate 7 ⟨0x81#8, 0#8, [0#8], .nothing⟩ } }

/-- Eight replies wait. -/
def full : Part := { ready with link := { ready.link with replies := List.replicate 8 ⟨0x81#8, 0#8, [0#8], .nothing⟩ } }

/-- An RSET has been taken. -/
def deaf : Part := { ready with link := { ready.link with deaf := true } }

def withReceiver (r : Receiver) : Part := { ready with link := { ready.link with receiver := r } }

/-- The follower of section 2.5's worked example: TRACK, anchor (1,000,000, 5,000,000,000), nominal code. -/
def follower : Domain := { Domain.reset with state := .track, anchor := some ⟨1000000, 5000000000⟩ }

/-- D0 as `x`, D1 in LEAD on anchor (10,000,000, 10^12), captures 7 (RX) and 8 (TX) in the ring, local time 4,072,600. -/
def house (x : Domain) : Part :=
  { ready with
    localTime := 4072600
    capture := { ready.capture with ring := [⟨7#8, .rx, 4072000⟩, ⟨8#8, .tx, 4072500⟩], counter := 9#8 }
    domains := ⟨x, { Domain.reset with setup := { DomainSetup.reset with role := .lead }, state := .lead,
                                       anchor := some ⟨10000000, 1000000000000⟩ }⟩ }

def tracking : Part := house follower

/-- The domain left in another state. -/
def inState (s : DomainState) : Part := house { follower with state := s }

/-- A block of 256 silent stereo S16 frames at 48,000, from a presentation time. -/
def block (n : Nat) (t : DomainTime) : Block :=
  ⟨0x00A20001#32, BitVec.ofNat 32 n, t, .r48000, .s16, 2, 256, false, false, List.replicate 1024 0#8⟩

/-- A zone at 48,000 on D0 whose port begins a frame now. -/
def zone (s : ZoneState) (pos : Option Position) : Zone :=
  { Zone.reset with state := s, position := pos, port := some 4072448 }

/-- Z0 as given, on the tracking D0. -/
def room (z : Zone) : Part := { tracking with zones := ⟨z, .reset, .reset, .reset⟩ }

/-- What a command leaves, read by `f`. -/
def after {α : Type} (c : Instr) (p : Part) (f : Part → α) : Option α :=
  match exec c ⟨p, [], 0⟩ with
  | .next t => some (f t.part)
  | _ => none

/-- The status of the reply that a command queued last. -/
def lastStatus (p : Part) : Option Byte := p.link.replies.getLast?.bind (fun r => r.body.head?)

/-- The contents after the status. -/
def lastContent (p : Part) : List Byte := ((p.link.replies.getLast?.map (fun r => r.body)).getD []).drop 1

/-- Is a pair pending? -/
def raised (k : IndicationKind) (o : IndicationObject) (p : Part) : Bool := p.indications.isPending ⟨k, o⟩

/-- A BEAC body: domain, capture, leader id, sequence, departure time. -/
def beacBody (capture : Byte) (sequence departure : Nat) : List Byte :=
  [0#8, capture] ++ leBytes 4 0 ++ leBytes 2 sequence ++ leBytes 8 departure

/-- A PBLK body: stream, sequence, time, 256 stereo S16 frames, flags. -/
def pblkBody (stream sequence time flags : Nat) : List Byte :=
  leBytes 4 stream ++ leBytes 4 sequence ++ leBytes 8 time ++ [0#8, 0#8, 2#8] ++ leBytes 2 256 ++ leBytes 1 flags ++
  List.replicate 1024 0#8

/-- The sequence of bytes that sets a domain to its default setup (DSET). -/
def dsetBody : List Byte := [0#8] ++ DomainSetup.reset.bytes

def zsetBody : List Byte := [0#8] ++ ZoneSetup.reset.bytes

/-! ### One step -/

theorem test_reset_commands_front :
    step { State.reset with pending := [.helo 9#8 [], .capl 1#8 []] } = exec (.helo 9#8 []) ⟨State.reset.part, [.capl 1#8 []], 0⟩ := by
  rfl

theorem test_idle_advances_local_time : State.reset.idle = { State.reset with
    part := { State.reset.part with localTime := 1 } } := by decide +kernel

/-! ### Captures (chapter 1) -/

/-- The ring of section 1.5's worked example with 32 captures, 224 to 255, and the counter at 0. -/
def ringNearFull : Part :=
  { ready with
    localTime := 80400000
    capture := { ready.capture with
      rxEnabled := true, txEnabled := true, counter := 0#8
      ring := (List.range 32).map (fun i => ⟨BitVec.ofNat 8 (224 + i), .rx, i⟩) } }

theorem test_strobeEdge_full_ring : after (.strobeEdge .tx) ringNearFull (fun p =>
    (p.capture.ring.length, p.capture.ring.head?.map Capture.number, p.capture.ring.getLast?,
      raised .captureOverwrite .part p, p.tallies.live.part.captureOverwrites.value)) =
    some (32, some 225#8, some ⟨0#8, .tx, 80400000⟩, true, 1) := by decide +kernel

theorem test_strobeEdge_disabled : after (.strobeEdge .rx) tracking (fun p => p) = some tracking := by decide +kernel

/-- Section 1.6: the stamp of a departure 24,576,000 ticks after the anchor. -/
theorem test_stmp_leader : after (.stmp 1#8 [1#8, 17#8, 1#8])
    { tracking with capture := { tracking.capture with ring := [⟨17#8, .tx, 34576000⟩] } }
    (fun p => (lastStatus p, lastContent p, p.capture.ring)) =
    some (some 0#8, leBytes 8 1000024576000 ++ leBytes 8 34576000 ++ [1#8], []) := by decide +kernel

theorem test_stmp_wrong_input : after (.stmp 1#8 [1#8, 8#8, 0#8]) tracking (fun p => (lastStatus p, p.capture.ring.length)) =
    some (some 8#8, 2) := by decide +kernel

theorem test_capc : after (.capc 1#8 [1#8, 0#8]) tracking (fun p => (p.capture.rxEnabled, p.capture.txEnabled)) =
    some (true, false) := by decide +kernel

theorem test_capl : after (.capl 1#8 []) tracking (fun p => (lastContent p).take 6) =
    some [2#8, 9#8, 0#8, 0#8, 7#8, 0#8] := by decide +kernel

theorem test_capd : after (.capd 1#8 []) tracking (fun p => (p.capture.ring, lastContent p, p.capture.counter)) =
    some ([], [2#8], 9#8) := by decide +kernel

/-! ### Domains (chapters 2 and 3) -/

/-- R5 on the numbers of sections 2.5 and 13.4. -/
theorem test_convert : convert ⟨4072000, 5003072025⟩ 32769 7144000 = 5006144025 ∧
    convert ⟨49000000, 8100000000⟩ 33406 50200000 = 8101200012 := by decide +kernel

/-- Section 2.5, sample 1: e = +100, TRACKED, the anchor moves by 25 and the code by one. -/
theorem test_beac_tracked : after (.beac 1#8 (beacBody 7#8 0 5003072100)) tracking (fun p =>
    ((p.domain .d0).anchor, (p.domain .d0).code, (lastContent p).head?, (p.domain .d0).watch)) =
    some (some ⟨4072000, 5003072025⟩, 32769, some 2#8, some 8680600) := by decide +kernel

/-- Section 2.5, sample 4: e = +9,000, OUTLIER. -/
theorem test_beac_outlier : after (.beac 1#8 (beacBody 7#8 0 5003081000)) tracking (fun p =>
    ((p.domain .d0).anchor, (p.domain .d0).code, (p.domain .d0).outlierRun, (lastContent p).head?)) =
    some (some ⟨1000000, 5000000000⟩, 32768, 1, some 3#8) := by decide +kernel

theorem test_dset : after (.dset 1#8 dsetBody) (inState .unbound) (fun p => (lastStatus p, lastContent p)) =
    some (some 0#8, DomainSetup.reset.bytes) := by decide +kernel

theorem test_dset_out_of_range : after (.dset 1#8 (dsetBody.set 6 19#8)) (inState .unbound) lastStatus = some (some 3#8) := by
  decide +kernel

theorem test_drun_cold : after (.drun 1#8 (List.replicate 10 0#8)) (inState .unbound) (fun p =>
    ((p.domain .d0).state, (p.domain .d0).anchor, (p.domain .d0).watch, raised .domainState (.domain .d0) p)) =
    some (.acquire .waiting, none, some 8680600, true) := by decide +kernel

theorem test_lchg_track : after (.lchg 1#8 [0#8, 2#8, 0x20#8, 0#8, 0#8]) { tracking with localTime := 400000000 } (fun p =>
    ((p.domain .d0).state, (p.domain .d0).holdover, (p.domain .d0).newLeader, (p.domain .d0).setup.leaderId)) =
    some (.holdover, some 1137280000, true, 0x2002#32) := by decide +kernel

theorem test_drel : after (.drel 1#8 [0#8]) tracking (fun p => ((p.domain .d0).state, (p.domain .d0).anchor)) =
    some (.unbound, none) := by decide +kernel

theorem test_dsta_length : after (.dsta 1#8 [0#8]) tracking (fun p => (lastStatus p, (lastContent p).take 1)) =
    some (some 0#8, [0#8]) := by decide +kernel

/-- Section 2.6: the third expiry under CONSEC. -/
def silent : Part :=
  { house { follower with missed := 2, watch := some 110752000 } with localTime := 110752000 }

theorem test_watch_loss : after (.beaconWatchExpiry .d0) silent (fun p =>
    ((p.domain .d0).state, (p.domain .d0).missed, (p.domain .d0).loss, (p.domain .d0).watch, (p.domain .d0).holdover)) =
    some (.holdover, 3, true, some 113824000, some 848032000) := by decide +kernel

theorem test_holdover_to_lost : after (.holdoverExpiry .d0)
    { house { follower with state := .holdover, holdover := some 848032000 } with localTime := 848032000 }
    (fun p => ((p.domain .d0).state, (p.domain .d0).holdover, raised .domainState (.domain .d0) p)) =
    some (.lost, none, true) := by decide +kernel

/-- A SPARSE window that ends with too few samples twice in a row. -/
def sparse : Part :=
  { house { follower with setup := { DomainSetup.reset with lossCriterion := .sparse }, windowEnd := some 5000000,
                          sparseCurrent := 2, sparsePrevious := 1 } with localTime := 5000000 }

theorem test_window_end : after (.windowEnd .d0) sparse (fun p =>
    ((p.domain .d0).state, (p.domain .d0).sparsePrevious, (p.domain .d0).sparseCurrent, (p.domain .d0).windowEnd)) =
    some (.holdover, 2, 0, some 29576000) := by decide +kernel

/-- Section 3.7: the first sample of a cold start is the anchor, and the free engine takes the domain. -/
theorem test_search_begins : after (.beac 1#8 (beacBody 7#8 0 5003072000)) (inState (.acquire .waiting)) (fun p =>
    ((p.domain .d0).state, (p.domain .d0).code, p.engine.served)) =
    some (.acquire .anchored, 32768, some ⟨.d0, 32768, 0, 15, 0⟩) := by decide +kernel

/-! ### Echoes (chapter 4) -/

theorem test_echs : after (.echs 1#8 [0#8, 5#8, 0#8, 8#8]) tracking (fun p => (p.echo.records, p.capture.ring.length)) =
    some ([⟨.d0, 5#16, 4072500, 4072500 + 6144000⟩], 1) := by decide +kernel

/-- An open record: departure 4,000,000. -/
def asked : Part :=
  { tracking with echo := { tracking.echo with records := [⟨.d0, 5#16, 4000000, 10144000⟩], timeouts := ⟨3, 0⟩ } }

/-- Wait 72,000, turnaround 69,040: a round trip of 2,960 and a path of 1,480. -/
theorem test_echa : after (.echa 1#8 ([0#8, 5#8, 0#8] ++ leBytes 8 1000 ++ leBytes 8 70040 ++ [7#8])) asked (fun p =>
    (p.echo.samples.d0, p.echo.records, p.echo.timeouts.d0, p.pathDelay .d0)) = some ([1480], [], 0, 1480) := by
  decide +kernel

theorem test_echo_timeout : after (.echoTimeout .d0 5#16) { asked with localTime := 10144000 } (fun p =>
    (p.echo.records, p.echo.timeouts.d0, (p.domain .d0).path)) = some ([], 4, true) := by decide +kernel

/-- A deadline that is reached when the record is made: it expires at once, and the record that follows is new (R58, R64). -/
theorem test_echs_expires_at_once : after (.echs 1#8 [0#8, 5#8, 0#8, 8#8]) { tracking with localTime := 4072500 + 6144000 }
    (fun p => (p.echo.records, p.echo.timeouts.d0, lastStatus p, p.tallies.live.domains.d0.echoTimeouts.value)) =
    some ([], 1, some 0#8, 1) := by decide +kernel

/-! ### Pool and filter (chapters 5 and 6) -/

/-- The filter of section 5.3's worked example. -/
def routing : StreamFilter :=
  { StreamFilter.reset with
    entries := ((((StreamFilter.reset.entries.set 0 ⟨true, 0x00A10000#32, 0xFFFF0000#32, .overlay, ⟨true, true, false, false⟩⟩).set
      1 ⟨true, 0x00A00000#32, 0xFFF00000#32, .main, ⟨true, false, false, false⟩⟩).set
      2 ⟨false, 0#32, 0#32, .main, ⟨false, false, true, false⟩⟩).set
      3 ⟨true, 0x00B00000#32, 0xFFFFFFFF#32, .reject, .all false⟩)
    defaultAction := .main
    defaultZones := ⟨false, false, false, true⟩ }

theorem test_routing : [0x00A10005#32, 0x00A20001#32, 0x00B00000#32, 0x00B00001#32].map (fun i => (routing.route i).entry) =
    [some 0, some 1, some 3, none] := by decide +kernel

/-- Z0 plays from 5,003,000,000 on; stream 0x00A2.... is routed to it. -/
def playing : Part :=
  { room (zone .playing (some (5003072448 * 65536))) with filter := routing }

theorem test_pblk_accepted : after (.pblk 1#8 (pblkBody 0x00A20001 500 5003100000 0)) playing (fun p =>
    ((p.zone .z0).mainQueue, p.pool.freeCount, p.pool.find 0 |>.map HeldSlot.holders, lastStatus p)) =
    some ([0], 511, some 1, some 0#8) := by decide +kernel

theorem test_pblk_late : after (.pblk 1#8 (pblkBody 0x00A20001 500 5002000000 4)) playing (fun p =>
    ((p.zone .z0).mainQueue, lastStatus p, (lastContent p).getLast?, p.tallies.live.zones.z0.blocksRefused.value)) =
    some ([], some 17#8, some 4#8, 1) := by decide +kernel

/-- Section 12.4: a quiet delivery that every zone accepts queues no reply. -/
theorem test_header : Delivery.ofBody (leBytes 4 0x00C00001 ++ leBytes 4 102 ++ leBytes 8 2000196608 ++ [1#8, 2#8, 2#8] ++
    leBytes 2 64 ++ [2#8] ++ List.replicate 512 0#8) =
    some ⟨⟨0x00C00001#32, 102#32, 2000196608, .r96000, .s32, 2, 64, false, true, List.replicate 512 0#8⟩, false⟩ := by
  decide +kernel

theorem test_fset : after (.fset 1#8 ([15#8, 1#8] ++ leBytes 4 5 ++ leBytes 4 7 ++ [1#8, 15#8])) tracking (fun p =>
    p.filter.entries[15]) = some ⟨true, 5#32, 7#32, .overlay, .all true⟩ := by decide +kernel

theorem test_fdef_overlay : after (.fdef 1#8 [1#8, 1#8]) tracking (fun p => (lastStatus p, p.filter.defaultAction)) =
    some (some 3#8, .reject) := by decide +kernel

theorem test_pool_slot_out_of_range : after (.pool 1#8 [0#8, 2#8]) tracking lastStatus = some (some 3#8) := by decide +kernel

theorem test_pwmk : after (.pwmk 1#8 [0#8, 2#8]) tracking (fun p => (p.pool.watermark, raised .poolLow .part p)) =
    some (512, false) := by decide +kernel

/-- Two abutting blocks in slots 0 and 1 of Z0's main queue, the second from 5,003,131,072. -/
def queued (s : ZoneState) (pos : Position) : Part :=
  { room { zone s (some pos) with mainQueue := [0, 1] } with
    pool := { BlockPool.reset with held := [⟨0, 1, block 0 5003000000⟩, ⟨1, 1, block 1 5003131072⟩] } }

theorem test_zflu : after (.zflu 1#8 ([0#8, 0#8] ++ leBytes 8 5003131072)) (queued .playing (5003072448 * 65536)) (fun p =>
    ((p.zone .z0).mainQueue, p.pool.freeCount, (p.zone .z0).state)) = some ([0], 511, .playing) := by decide +kernel

/-! ### Zones and mixers (chapters 7 and 8) -/

theorem test_zset_started : after (.zset 1#8 zsetBody) playing lastStatus = some (some 4#8) := by decide +kernel

theorem test_zena : after (.zena 1#8 [1#8]) tracking (fun p => ((p.zone .z1).state, (p.zone .z1).port)) =
    some (.idle, some 4072960) := by decide +kernel

theorem test_zdis : after (.zdis 1#8 [0#8]) (queued .playing (5003072448 * 65536)) (fun p =>
    ((p.zone .z0).state, (p.zone .z0).mainQueue, p.pool.freeCount, (p.zone .z0).port)) = some (.disabled, [], 512, none) := by
  decide +kernel

theorem test_zrun : after (.zrun 1#8 ([0#8, 0#8] ++ leBytes 8 5003100000)) (room (zone .idle none)) (fun p =>
    ((p.zone .z0).state, (p.zone .z0).position, (p.zone .z0).start)) =
    some (.armed, some (5003072448 * 65536), some (.at 5003100000)) := by decide +kernel

/-- A graceful stop ends with the block under P. -/
theorem test_zstp_graceful : after (.zstp 1#8 [0#8, 0#8]) (queued .playing (5003072448 * 65536)) (fun p =>
    ((p.zone .z0).state, (p.zone .z0).mainQueue)) = some (.stopping 5003131072, [0, 1]) := by decide +kernel

theorem test_zsta_state : after (.zsta 1#8 [0#8]) playing (fun p => (lastContent p)[39]?) = some (some 3#8) := by decide +kernel

theorem test_zgan_clamped : after (.zgan 1#8 [0#8, 0xFF#8, 0xFF#8])
    (room { zone .idle none with setup := { ZoneSetup.reset with mixer := { MixerSetup.reset with gainCeiling := 20000 } } })
    (fun p => (p.zone .z0).mixer.zoneGain) = some 20000 := by decide +kernel

theorem test_zsub : after (.zsub 1#8 [0#8, 2#8]) playing (fun p => (lastContent p, (p.zone .z0).mixer.substitution)) =
    some ([0#8, 2#8, 0#8, 2#8], .tone) := by decide +kernel

/-- Code 3 is no source. -/
theorem test_gsub_out_of_range : after (.gsub 1#8 [3#8]) playing (fun p => (p.globalSubstitution, lastStatus p)) =
    some (.none, some 3#8) := by decide +kernel

theorem test_gsub : after (.gsub 1#8 [1#8]) playing (fun p => p.globalSubstitution) = some .silence := by decide +kernel

/-- Section 8.4: the two lanes of the worked frame, and the right lane clipping at full gain. -/
theorem test_mix : mixLane 1192960 0 32768 0 16384 0 0 16384 = 2385920 ∧
    mixLane (-1963520) 0 32768 0 16384 0 0 24576 = -5890560 ∧ mixLane 1192960 0 65535 0 16384 0 0 16384 = 4771767 ∧
    mixLane (-1963520) 0 65535 0 16384 0 0 24576 = -8388608 := by decide +kernel

/-- Section 8.5: the first frame of a duck, and the turn back from 10,240. -/
theorem test_duck : ((Ramp.rest 16384).frame 4096 480).value = 163584 / 10 ∧
    ((⟨16384, 4096, 480, 240⟩ : Ramp).frame 16384 480).value = 102528 / 10 := by decide +kernel

/-- The tone: a sine of amplitude 838,860.7 and period 24,576 ticks. -/
theorem test_tone : [0, 6144, 12288, 18432, 2048].map (fun t => toneValue (t * 65536)) = [0, 838861, 0, -838861, 419430] := by
  decide +kernel

/-- Section 7.3: T one tick before the start stays ARMED; the frame past it drops block A late and plays block B. -/
theorem test_frame_starts : after (.outputFrame .z0)
    { queued .armed 0 with zones := ⟨{ zone .armed none with mainQueue := [0, 1], start := some (.at 5003072448) },
                                     .reset, .reset, .reset⟩ }
    (fun p => ((p.zone .z0).state, (p.zone .z0).position, (p.zone .z0).port)) =
    some (.playing, some (5003072448 * 65536 + 512 * 65536 + 152 * 65536), some 4072960) := by decide +kernel

/-- A frame that starts a zone: its move passes a marked overlay block, its advance ends a marked main block. The main marker is
recorded first, so the overlay's is the last one (R94), and its slot goes into the marker reports (R68). -/
theorem test_frame_starts_marks_main_first : after (.outputFrame .z0)
    { room { zone .armed none with start := some (.at 5003072600), mainQueue := [3], overlayQueue := [9] } with
      pool := { BlockPool.reset with held :=
        [⟨3, 1, { block 1 5002942040 with mark := true }⟩, ⟨9, 1, { block 2 5002941528 with mark := true }⟩] } }
    (fun p => ((p.zone .z0).lastMarker, (p.zone .z0).lastMarkerSlot, p.pool.held, p.tallies.live.zones.z0.blocksPlayed.value,
      (p.indications.pending.filter (fun q => q.pair.kind = .marker)).map PendingPair.raises)) =
    some (some ⟨0x00A20001#32, 2#32, 4072600⟩, some 9, [], 1, [2]) := by decide +kernel

/-- A frame in IDLE emits zeros. -/
theorem test_frame_idle : after (.outputFrame .z0) (room (zone .idle none)) (fun p =>
    ((p.zone .z0).emitted, (p.zone .z0).port)) = some (some ⟨0, 0⟩, some 4072960) := by decide +kernel

/-! ### Schedule (chapter 9) -/

/-- A SADD body: time, D0, Z0, GAIN 8,192, notify. -/
def gainEntry (t : Nat) : List Byte := leBytes 8 t ++ [0#8, 1#8, 0#8, 0#8, 0x20#8, 0#8, 0#8, 1#8]

theorem test_sadd : after (.sadd 1#8 (gainEntry 5003200000)) playing (fun p =>
    (p.schedule.entries.map ScheduleEntry.action, p.schedule.counter, lastStatus p)) =
    some ([.gain 8192], 1#16, some 0#8) := by decide +kernel

/-- One live entry for Z0. -/
def scheduled : Part :=
  { playing with schedule := ⟨[⟨7#16, 5003000000, .d0, ⟨true, false, false, false⟩, ⟨true, false, false, false⟩, .gain 8192,
                               true, 0⟩], 8#16, []⟩ }

theorem test_scan : after (.scan 1#8 [7#8, 0#8]) scheduled (fun p => (p.schedule.entries, p.schedule.done)) = some ([], []) := by
  decide +kernel

theorem test_slst : after (.slst 1#8 [0#8]) scheduled (fun p => (lastContent p).take 6) =
    some [1#8, 31#8, 8#8, 0#8, 7#8, 0#8] := by decide +kernel

/-- The entry acts at the zone's next frame, retires and is reported. -/
theorem test_frame_applies_entry : after (.outputFrame .z0) scheduled (fun p =>
    ((p.zone .z0).mixer.zoneGain, p.schedule.entries, p.schedule.done.map DoneRecord.handle, raised .actionDone .part p)) =
    some (8192, [], [7#16], true) := by decide +kernel

/-- An entry that a reseek catches up acts after the frame is taken: its target is met by the next frame's ramp (R154, R155). -/
theorem test_reseek_catches_up_after_the_frame : after (.outputFrame .z0)
    { scheduled with zones := scheduled.zones.set .z0 (zone .playing (some (5001000000 * 65536))) }
    (fun p => ((p.zone .z0).mixer.zoneGain, (p.zone .z0).mixer.mainGain.target, p.schedule.entries)) =
    some (8192, 16384, []) := by decide +kernel

/-- A done record of SLST: handle, action, zone set, applied count, time (R159, R162). -/
theorem test_slst_done : after (.slst 1#8 [1#8])
    { playing with schedule := ⟨[], 8#16, [⟨7#16, .stop, ⟨true, false, false, false⟩, 1, 4072600⟩]⟩ }
    (fun p => ((lastContent p).drop 4, p.schedule.done)) =
    some ([1#8, 7#8, 0#8, 4#8, 1#8, 1#8] ++ leBytes 8 4072600, []) := by decide +kernel

/-! ### Indications and tallies (chapter 10) -/

/-- LINK pending with two raises, its cause CRC. -/
def signalled : Part :=
  { tracking with indications := { tracking.indications with
      pending := [⟨⟨.link, .part⟩, 2, 100, 200⟩], causes := ⟨true, false, false⟩ } }

theorem test_indc_asserts : after (.indc 1#8 [0xFF#8, 1#8, 1#8]) signalled (fun p =>
    (p.indications.asserted .line0, p.indications.asserted .line1)) = some (false, true) := by decide +kernel

theorem test_indr : after (.indr 1#8 [0#8]) signalled (fun p => (lastContent p).drop 34) =
    some ([0#8, 0#8, 2#8] ++ leBytes 8 100 ++ leBytes 8 200 ++ [1#8, 0#8, 0#8]) := by decide +kernel

/-- The marker report of INDR: stream, sequence, time, then the slot (R68, R94, R169). -/
theorem test_indr_marker : after (.indr 1#8 [0#8])
    { room { zone .playing (some 0) with lastMarker := some ⟨5#32, 6#32, 700⟩, lastMarkerSlot := some 511 } with
      indications := { tracking.indications with pending := [⟨⟨.marker, .zone .z0⟩, 1, 700, 700⟩] } }
    (fun p => (lastContent p).drop 34) =
    some ([13#8, 3#8, 1#8] ++ leBytes 8 700 ++ leBytes 8 700 ++
      ([1#8] ++ leBytes 4 5 ++ leBytes 4 6 ++ leBytes 8 700) ++ [1#8, 0xFF#8, 1#8]) := by decide +kernel

theorem test_inda : after (.inda 1#8 [2#8, 0#8, 0#8, 4#8, 0#8]) signalled (fun p =>
    (p.indications.pending, p.indications.causes, lastContent p)) =
    some ([], .empty, [1#8, 1#8, 0#8, 0#8, 0#8]) := by decide +kernel

theorem test_tsnp : after (.tsnp 1#8 []) tracking (fun p => (p.tallies.snapshot.number, p.tallies.snapshot.cause)) =
    some (1#32, some .request) := by decide +kernel

theorem test_taut : after (.taut 1#8 [1#8]) tracking (fun p => p.tallies.deadline) = some (some 28648600) := by decide +kernel

/-- TAUT OFF while OFF changes nothing (R175). -/
theorem test_taut_off_again : after (.taut 1#8 [0#8]) tracking (fun p => (decide (p.tallies = tracking.tallies), lastContent p)) =
    some (true, List.replicate 10 0#8) := by decide +kernel

theorem test_tred : after (.tred 1#8 [1#8]) tracking (fun p => (lastContent p).drop 4) =
    some (List.replicate 9 0#8 ++ [0xFF#8, 1#8] ++ List.replicate 20 0#8) := by decide +kernel

/-! ### Link (chapters 11 and 12) -/

/-- R179: the nine characters "123456789". -/
theorem test_crc : crc16 ((List.range 9).map (fun i => BitVec.ofNat 8 (0x31 + i))) = 0x29B1#16 := by decide +kernel

/-- The bytes of a HELO frame, written out, move the receiver from HUNT to a queued reply. -/
theorem test_helo_bytes : (([0xD5#8, 2#8, 0#8, 0x01#8, 0x07#8] ++ leBytes 2 (crc16 [2#8, 0#8, 1#8, 7#8]).toNat).foldl
    Part.receive (Part.reset .uart 7#8 false)).link.replies.map (fun r => (r.kind, r.tag, r.body.take 5)) =
    [(0x81#8, 0x07#8, [0#8, 0x4C#8, 0x54#8, 0x2D#8, 0x34#8])] := by decide +kernel

theorem test_lrat : after (.lrat 1#8 [3#8]) tracking (fun p => (lastStatus p, lastContent p)) =
    some (some 0#8, [7#8, 3#8] ++ leBytes 4 768000) := by decide +kernel

theorem test_rset_then_deaf : after (.rset 1#8 []) tracking (fun p => p.link.deaf) = some true := by decide +kernel

theorem test_overrun : after (.overrun 0x11#8 9#8 []) full (fun p =>
    (p.link.replies.length, p.indications.causes.overrun, p.tallies.live.part.linkErrors.value)) = some (8, true, 1) := by
  decide +kernel

theorem test_unknown_kind : after (.unknownKind 0x91#8 9#8 []) tracking (fun p => p.link.replies.getLast?) =
    some (some ⟨0xFE#8, 9#8, [1#8, 0x91#8], .nothing⟩) := by decide +kernel

theorem test_reply_leaves : after .replyLeavesQueue tracking (fun p => (p.link.replies.length, p.link.txEnd)) =
    some (6, some (4072600 + 8 * 640)) := by decide +kernel

theorem test_pin_reset : after (.pinReset .high) signalled (fun p => p) = some (Part.reset .uart 7#8 false) := by decide +kernel

/-- TXD in the first and the last bit of a reply's last byte, and past it. -/
theorem test_txd :
    let l : Link := { ready.link with replies := [⟨0x81#8, 0#8, [0#8], .nothing⟩], txEnd := some 5120 }
    ((⟨0x81#8, 0#8, [0#8], .nothing⟩ : Reply).frame.length, l.txd 4480, l.txd 5119, l.txSent 5119) = (8, .start, .stop, 7) ∧
    l.txdByte 4480 = l.txdByte 5119 ∧ (Part.reset .uart 7#8 false).link.txd 0 = .stop := by decide +kernel

/-- A cut frame after an RSET is dropped with no trace but HUNT (log 38). -/
theorem test_cut_frame_after_rset : after .stopBitError { deaf with link := { deaf.link with receiver := .lengthLow } }
    (fun p => (p.link.receiver, p.indications, p.tallies.live.part.linkErrors.value)) =
    some (.hunt, deaf.indications, 0) := by decide +kernel

/-! ### Witnesses: for each statement with hypotheses, states and operands that meet them -/

theorem test_witness_ready : ready.TakesRequests := by unfold Part.TakesRequests; decide +kernel
theorem test_witness_tracking : tracking.TakesRequests := by unfold Part.TakesRequests; decide +kernel

theorem test_witness_EmptyQueueRunsTheClock :
    State.reset.pending = [] ∧ State.reset.part.dueEvents = [] ∧
    silent.dueEvents = [.beaconWatchExpiry .d0] := by decide +kernel

/-- A silence deadline reached at this very tick, and one tick ahead. -/
theorem test_witness_EmptyQueueRunsTheClock_silence :
    let p := fun d : Nat => ({ ready with link := { ready.link with receiver := .lengthLow, silence := some d } } : Part)
    (p 0).link.mode = .uart ∧ (p 0).link.receiver ≠ .hunt ∧ (p 0).link.silence = some (p 0).localTime ∧
    .inFrameSilenceExpiry ∈ (p 0).dueEvents ∧ (p 1).silenceReached = false ∧ (p 1).dueEvents = [] := by decide +kernel

theorem test_witness_FrameBytesAreAnArrival :
    ready.link.receiver = .hunt ∧ (List.replicate 1046 (0#8 : Byte)).length + 2 ≤ Config.maxLen := by decide +kernel

/-- LEN at both ends of its range and one outside each; a body one byte short of its LEN, and at it. -/
theorem test_witness_UartByteMovesTheReceiver :
    ready.link.mode = .uart ∧ (withReceiver .lengthLow).link.receiver = .lengthLow ∧
    (withReceiver (.lengthHigh 2#8)).link.receiver = .lengthHigh 2#8 ∧
    (2 ≤ (2#8 : Byte).toNat + 256 * (0#8 : Byte).toNat ∧ (0x18#8 : Byte).toNat + 256 * (4#8 : Byte).toNat ≤ 1048) ∧
    ¬(2 ≤ (1#8 : Byte).toNat + 256 * (0#8 : Byte).toNat) ∧ ¬((0x19#8 : Byte).toNat + 256 * (4#8 : Byte).toNat ≤ 1048) ∧
    (withReceiver (.body 3 [1#8])).link.receiver = .body 3 [1#8] ∧ ([1#8] : List Byte).length + 1 < 3 ∧
    3 ≤ ([1#8, 7#8] : List Byte).length + 1 ∧ (withReceiver (.checkLow [1#8, 7#8])).link.receiver = .checkLow [1#8, 7#8] ∧
    (withReceiver (.checkHigh [1#8, 7#8] 0#8)).link.receiver = .checkHigh [1#8, 7#8] 0#8 := by decide +kernel

/-- A SPI part whose head reply has 8 bytes, of which `n` have gone. -/
def spi (selected : Bool) (n : Nat) (after : AfterReply) : Part :=
  let p := Part.reset .spi 7#8 selected
  { p with link := { p.link with replies := [⟨0x82#8, 0#8, [0#8], after⟩], sent := n } }

theorem test_witness_SpiByteIsFullDuplex :
    (spi false 0 .nothing).link.selected = false ∧ (Part.reset .spi 7#8 true).link.replies = [] ∧
    (spi true 7 .nothing).link.selected = true ∧
    (spi true 7 .nothing).link.sent < (⟨0x82#8, 0#8, [0#8], .nothing⟩ : Reply).frame.length ∧
    (⟨0x82#8, 0#8, [0#8], .reset⟩ : Reply).frame.length ≤ (spi true 8 .reset).link.sent ∧
    (spi true 8 .nothing).link.replies = [⟨0x82#8, 0#8, [0#8], .nothing⟩] ∧
    (spi true 8 .reset).link.resetDue = false := by decide +kernel

theorem test_witness_RequestsAreJudged :
    RequestKind.lengthOk .capl [0#8] = false ∧ RequestKind.lengthOk .pblk (List.replicate 21 0#8) = false ∧
    RequestKind.ofCode (0x00#8 : Byte).toNat = none ∧ RequestKind.ofCode (0x81#8 : Byte).toNat = none := by decide +kernel

/-- Fields at the ends of their ranges, and one past. -/
theorem test_witness_RequestsAreJudged_fields :
    RequestKind.FieldsInRange .gsub [2#8] ∧ ¬RequestKind.FieldsInRange .gsub [3#8] ∧
    RequestKind.FieldsInRange .dset dsetBody ∧ RequestKind.FieldsInRange .dset (dsetBody.set 6 20#8 |>.set 7 0#8) ∧
    ¬RequestKind.FieldsInRange .dset (dsetBody.set 6 19#8 |>.set 7 0#8) ∧ ¬RequestKind.FieldsInRange .capc [2#8, 0#8] ∧
    RequestKind.FieldsInRange .sadd (gainEntry 0) ∧ RequestKind.FieldsInRange .zset zsetBody ∧
    (RequestKind.dset.lengthOk dsetBody && RequestKind.gsub.lengthOk [3#8] && RequestKind.capc.lengthOk [2#8, 0#8]) = true := by
  refine ⟨?_, ?_, ?_, ?_, ?_, ?_, ?_, ?_, ?_⟩ <;> (try dsimp only [RequestKind.FieldsInRange, laneMapInRange]) <;> decide +kernel

theorem test_witness_FramesTheLinkDoesNotTake :
    full.link.deaf = false ∧ 8 ≤ full.link.replies.length ∧ deaf.link.deaf = true ∧
    ¬(2 ≤ (1#16 : Word16).toNat) ∧ ¬((1049#16 : Word16).toNat ≤ 1048) := by decide +kernel

/-- LEN at both ends of its range and one outside each; a frame in progress, or not, in either mode; the silence deadline now,
one tick ahead, and stopped; a transfer in progress, or not; an RSET taken, or not. -/
theorem test_witness_FramesAreDiscarded :
    let cut : Part := { ready with link := { ready.link with receiver := .lengthLow, silence := some 0 } }
    let ahead : Part := { ready with link := { ready.link with receiver := .lengthLow, silence := some 1 } }
    let spiCut : Part := { spi true 0 .nothing with link := { (spi true 0 .nothing).link with receiver := .lengthLow } }
    crc16 (frameCovered 1#8 7#8 []) ≠ crc16 (frameCovered 1#8 7#8 []) + 1#16 ∧
    (2 ≤ (2#16 : Word16).toNat ∧ (1048#16 : Word16).toNat ≤ 1048) ∧ ¬(2 ≤ (1#16 : Word16).toNat) ∧
    ¬((1049#16 : Word16).toNat ≤ 1048) ∧ ready.link.deaf = false ∧ deaf.link.deaf = true ∧
    (cut.link.mode = .uart ∧ cut.link.receiver ≠ .hunt ∧ cut.link.silence = some cut.localTime) ∧
    ahead.link.silence = some (ahead.localTime + 1) ∧ ready.link.receiver = .hunt ∧ ready.link.silence = none ∧
    (spiCut.link.mode = .spi ∧ spiCut.link.selected = true ∧ spiCut.link.receiver ≠ .hunt) ∧
    (spi true 0 .nothing).link.receiver = .hunt ∧ (spi false 0 .nothing).link.selected = false := by decide +kernel

/-- No LINK is pending, and the counter stands one below its ceiling; LINK is pending with a cause, alone and beside another
pair, its raise count at 255. -/
theorem test_witness_DiscardRaisesLink :
    let p := { ready with tallies := { ready.tallies with live := ready.tallies.live.set (.part .linkErrors) ⟨4294967294, false⟩ } }
    let u : IndicationUnit := { signalled.indications with pending := [⟨⟨.link, .part⟩, 255, 1, 2⟩, ⟨⟨.tally, .part⟩, 1, 3, 3⟩] }
    (p.link.deaf = false ∧ p.indications.isPending ⟨.link, .part⟩ = false ∧
      p.tallies.live.part.linkErrors.value < 4294967295) ∧
    (signalled.link.deaf = false ∧ signalled.indications.isPending ⟨.link, .part⟩ = true ∧ signalled.indications.WithinSet ∧
      signalled.tallies.live.part.linkErrors.value < 4294967295) ∧
    u.isPending ⟨.link, .part⟩ = true ∧ u.WithinSet := by
  unfold IndicationUnit.WithinSet; decide +kernel

/-- A reply that is still being sent when the divisor changes. -/
def rating : Part := { ready with link := { ready.link with rateDue := some 3#8, txEnd := some 1 } }

theorem test_witness_RepliesLeaveTheQueue :
    (∃ r rest, rating.link.replies = r :: rest) ∧ rating.link.rateDue = some 3#8 ∧ rating.link.mode = .uart ∧
    rating.link.txEnd = some 1 ∧ rating.localTime < 1 := by
  refine ⟨⟨_, _, rfl⟩, ?_⟩
  decide +kernel

/-- The last tick of the last bit of a reply's last byte, and an empty queue. -/
theorem test_witness_RepliesLeaveTheQueue_txd :
    let r : Reply := ⟨0x81#8, 0#8, [0#8], .nothing⟩
    let l : Link := { ready.link with replies := [r], txEnd := some 5120 }
    let tick := 8 * (l.divisor.toNat + 1)
    l.replies = [r] ∧ l.txEnd = some (0 + r.frame.length * (10 * tick)) ∧ 7 < r.frame.length ∧ 63 < tick ∧
    (Part.reset .uart 7#8 false).link.replies = [] := by decide +kernel

theorem test_witness_ResetsResetThePart : deaf.link.deaf = true := by decide +kernel

/-- A whole baud rate at the smallest divisor; a SPI part that takes requests. -/
theorem test_witness_LinkRequests :
    tracking.link.mode = .uart ∧ 24576000 % (8 * ((0#8 : Byte).toNat + 1)) = 0 ∧ (spi false 0 .nothing).link.mode = .spi ∧
    (spi false 0 .nothing).TakesRequests := by
  unfold Part.TakesRequests; decide +kernel

theorem test_witness_StatusRequestsChangeNothing :
    (0xFF#8 : Byte).toNat + 256 * (1#8 : Byte).toNat < 512 ∧ IndicationSelector.ofCode (2#8 : Byte).toNat = some (.line .line1) ∧
    IndicationSelector.ofCode (0#8 : Byte).toNat = some .all ∧ (7#8 : Byte).toNat = (IndicationObject.zone .z3).index + 1 ∧
    (1#8 : Byte).toNat = IndicationObject.part.index + 1 := by decide +kernel

/-- 31 captures below the ring's end, 32 captures, and a ring in which the counter's number still stands. -/
theorem test_witness_EdgeMakesCapture :
    let u := ringNearFull.capture
    let fewer := { u with ring := u.ring.tail }
    let again := { u with counter := 255#8 }
    tracking.capture.enabled .rx = false ∧ u.enabled .tx = true ∧ u.last .tx ≠ some ringNearFull.localTime ∧
    (∀ c ∈ fewer.ring, c.number ≠ fewer.counter) ∧ fewer.ring.length < 32 ∧ (∀ c ∈ u.ring, c.number ≠ u.counter) ∧
    u.ring.length = 32 ∧ (⟨255#8, .rx, 31⟩ : Capture) ∈ again.ring ∧ again.ring.length ≤ 32 := by decide +kernel

theorem test_witness_CaptureRequests :
    flagOf (1#8 : Byte).toNat = some true ∧ flagOf (0#8 : Byte).toNat = some false ∧
    ((inState .lost).domain .d0).state.timed = false ∧ (tracking.domain .d0).state.timed = true ∧
    (tracking.domain .d0).anchor = some ⟨1000000, 5000000000⟩ ∧ tracking.capture.find 9#8 = none ∧
    tracking.capture.find 7#8 = some ⟨7#8, .rx, 4072000⟩ ∧ tracking.capture.find 8#8 = some ⟨8#8, .tx, 4072500⟩ := by
  decide +kernel

/-- A result below 0, at 0, at the last 64-bit time; a correction of exactly half a tick. -/
theorem test_witness_ConversionIsRoundedOnce :
    ((5 : Nat) : Int) + (((0 : Nat) : Int) - ((6 : Nat) : Int)) < 0 ∧ convert ⟨6, 5⟩ 32768 0 = 0 ∧
    convert ⟨5, 5⟩ 32768 0 = 0 ∧ convert ⟨0, 0⟩ 32768 (2 ^ 64 - 1) = 2 ^ 64 - 1 ∧
    convert ⟨0, 0⟩ 32769 32000000 = 32000001 ∧ convert ⟨0, 0⟩ 32767 32000000 = 31999999 := by decide +kernel

theorem test_witness_DomainSetupIsWritten :
    dsetBody.length = 29 ∧ DomainId.ofCode (field dsetBody 0 1) = some .d0 ∧
    DomainSetup.ofBody dsetBody = some .reset ∧ ((inState .unbound).domain .d0).state = .unbound ∧
    (tracking.domain .d0).state ≠ .unbound := by decide +kernel

theorem test_witness_FollowDrunBeginsAcquisition :
    let cold : List Byte := List.replicate 10 0#8
    let warm : List Byte := [0#8, 1#8, 0xFF#8, 0xFF#8] ++ List.replicate 6 0#8
    cold.length = 10 ∧ warm.length = 10 ∧ DomainId.ofCode (field cold 0 1) = some .d0 ∧
    RunForm.ofCodes (field cold 1 1) (field cold 2 8) = some .followCold ∧
    RunForm.ofCodes (field warm 1 1) (field warm 2 8) = some (.followWarm 65535) ∧
    ((inState .unbound).domain .d0).state = .unbound ∧ ((inState .unbound).domain .d0).setup.role = .follow := by decide +kernel

/-- D1 leads and is UNBOUND; D0 is in TRACK with an anchor. -/
theorem test_witness_LeadDrunRunsFromAnAnchor :
    let p := { tracking with domains := tracking.domains.set .d1 { Domain.reset with
      setup := { DomainSetup.reset with role := .lead } } }
    let t0 : List Byte := [1#8, 2#8] ++ List.replicate 8 0xFF#8
    let x : List Byte := [1#8, 3#8] ++ List.replicate 8 0#8
    t0.length = 10 ∧ RunForm.ofCodes (field t0 1 1) (field t0 2 8) = some (.leadFrom (2 ^ 64 - 1)) ∧
    RunForm.ofCodes (field x 1 1) (field x 2 8) = some (.leadInherit .d0) ∧ DomainId.ofCode (field x 0 1) = some .d1 ∧
    (p.domain .d0).setup.role = .follow ∧ (p.domain .d0).state = .track ∧
    (p.domain .d0).anchor = some ⟨1000000, 5000000000⟩ ∧ (p.domain .d1).state = .unbound ∧
    (p.domain .d1).setup.role = .lead := by decide +kernel

/-- DRUN's later checks: a domain that runs, a form of the other role either way, an inherited domain that is untimed. -/
theorem test_witness_LeadDrunRunsFromAnAnchor_checks :
    let p := { inState .lost with domains := (inState .lost).domains.set .d1 { Domain.reset with
      setup := { DomainSetup.reset with role := .lead } } }
    let x : List Byte := [1#8, 3#8] ++ List.replicate 8 0#8
    (tracking.domain .d0).state ≠ .unbound ∧ (p.domain .d1).state = .unbound ∧ (p.domain .d1).setup.role = .lead ∧
    ((inState .unbound).domain .d0).state = .unbound ∧ ((inState .unbound).domain .d0).setup.role = .follow ∧
    RunForm.ofCodes (field x 1 1) (field x 2 8) = some (.leadInherit .d0) ∧ (p.domain .d0).state ≠ .track ∧
    (p.domain .d0).state ≠ .holdover := by decide +kernel

/-- Z0 held with resume state RUNNING, its position `n` ticks past the target of its port's next frame. -/
def heldAway (n : Nat) (schedule : Schedule) : Part :=
  let p := room (zone (.held .running) none)
  { room (zone (.held .running) (some ((p.target .z0 4072448 + n) * 65536))) with schedule := schedule }

/-- A jump from −R..R and from one past it; a resume that a due STOP ends. -/
theorem test_witness_LeadDrunRunsFromAnAnchor_resume :
    let stop : Schedule := ⟨[⟨7#16, 0, .d0, ⟨true, false, false, false⟩, ⟨true, false, false, false⟩, .stop .immediate, true, 0⟩], 8#16, []⟩
    ((heldAway 24576 ⟨[], 0#16, []⟩).resumeZone .z0).indications.isPending ⟨.reseek, .zone .z0⟩ = false ∧
    ((heldAway 24577 ⟨[], 0#16, []⟩).resumeZone .z0).indications.isPending ⟨.reseek, .zone .z0⟩ = true ∧
    (((heldAway 24576 ⟨[], 0#16, []⟩).resumeZone .z0).zone .z0).state = .starved ∧
    (((heldAway 24576 stop).resumeZone .z0).zone .z0).state = .idle ∧
    ((room (zone (.held .armed) none)).zone .z0).state = .held .armed ∧ (playing.zone .z0).state = .playing := by decide +kernel

theorem test_witness_HeardSampleEffects :
    (tracking.domain .d0).setup.lossCriterion = .consec ∧ (sparse.domain .d0).setup.lossCriterion = .sparse := by decide +kernel

/-- A declared LOSS and none; the counter one below its ceiling. -/
theorem test_witness_HeardSampleEffects_tally :
    let p : Part := { house { follower with loss := true } with
      tallies := { tracking.tallies with live := tracking.tallies.live.set (.domain .d0 .samplesHeard) ⟨4294967294, false⟩ } }
    (p.domain .d0).loss = true ∧ (tracking.domain .d0).loss = false ∧
    (p.tallies.live.get (.domain .d0 .samplesHeard)).value < 4294967295 := by decide +kernel

/-- Each refusal in turn; the last at the two ends of what is not newer: the sequence itself, and 32,768 ahead. -/
theorem test_witness_BeaconRefusals :
    let b := beacBody 7#8 5 0
    let heard := house { follower with lastSequence := some 5#16 }
    b.length = 16 ∧ DomainId.ofCode (field b 0 1) = some .d0 ∧ ((inState .unbound).domain .d0).state = .unbound ∧
    (tracking.domain .d0).setup.role = .follow ∧ (tracking.domain .d0).state ≠ .unbound ∧
    tracking.capture.find (BitVec.ofNat 8 (field (beacBody 9#8 5 0) 1 1)) = none ∧
    tracking.capture.find (BitVec.ofNat 8 (field (beacBody 8#8 5 0) 1 1)) = some ⟨8#8, .tx, 4072500⟩ ∧
    tracking.capture.find (BitVec.ofNat 8 (field b 1 1)) = some ⟨7#8, .rx, 4072000⟩ ∧
    (tracking.domain .d0).setup.leaderId ≠ BitVec.ofNat 32 (field (b.set 2 1#8) 2 4) ∧
    (heard.domain .d0).setup.leaderId = BitVec.ofNat 32 (field b 2 4) ∧ (heard.domain .d0).lastSequence = some 5#16 ∧
    ¬(1 ≤ (BitVec.ofNat 16 (field b 6 2) - 5#16 : Word16).toNat) ∧
    ¬((BitVec.ofNat 16 (field (beacBody 7#8 32773 0) 6 2) - 5#16 : Word16).toNat ≤ 32767) := by decide +kernel

/-- The error at the step threshold. -/
theorem test_witness_BeaconTracks :
    let b := beacBody 7#8 0 (5003072000 + 4915)
    let x := tracking.domain .d0
    b.length = 16 ∧ DomainId.ofCode (field b 0 1) = some .d0 ∧ x.setup.role = .follow ∧ x.state = .track ∧
    x.anchor = some ⟨1000000, 5000000000⟩ ∧
    tracking.capture.find (BitVec.ofNat 8 (field b 1 1)) = some ⟨7#8, .rx, 4072000⟩ ∧
    x.setup.leaderId = BitVec.ofNat 32 (field b 2 4) ∧ x.accepts (BitVec.ofNat 16 (field b 6 2)) = true ∧
    ((toDomainTime ((field b 8 8 : Int) + tracking.pathDelay .d0) : Int) -
      convert ⟨1000000, 5000000000⟩ x.code 4072000).natAbs ≤ x.setup.stepThreshold := by decide +kernel

/-- In HOLDOVER, a new leader pending, the error at the step threshold below 0. -/
theorem test_witness_BeaconTracks_holdover :
    let p := house { follower with state := .holdover, holdover := some 848032000, newLeader := true }
    let b := beacBody 7#8 0 (5003072000 - 4915)
    let x := p.domain .d0
    b.length = 16 ∧ DomainId.ofCode (field b 0 1) = some .d0 ∧ x.setup.role = .follow ∧ x.state = .holdover ∧
    x.anchor = some ⟨1000000, 5000000000⟩ ∧ p.capture.find (BitVec.ofNat 8 (field b 1 1)) = some ⟨7#8, .rx, 4072000⟩ ∧
    x.setup.leaderId = BitVec.ofNat 32 (field b 2 4) ∧ x.accepts (BitVec.ofNat 16 (field b 6 2)) = true ∧
    ((toDomainTime ((field b 8 8 : Int) + p.pathDelay .d0) : Int) -
      convert ⟨1000000, 5000000000⟩ x.code 4072000).natAbs ≤ x.setup.stepThreshold := by decide +kernel

/-- The update that reaches code 65535, one that stays there with RANGE declared, and one that leaves code 0. -/
theorem test_witness_BeaconTracks_range :
    let at' := fun (code : Nat) (range : Bool) => house { follower with code := code, range := range, anchor := some ⟨4072000, 5003072000⟩ }
    [(at' 65534 false, 5003072000 + 100), (at' 65535 true, 5003072000 + 100), (at' 0 true, 5003072000 + 100)].map
      (fun c => after (.beac 1#8 (beacBody 7#8 0 c.2)) c.1 (fun p =>
        ((p.domain .d0).code, (p.domain .d0).range, raised .domainAlarm (.domain .d0) p))) =
    [some (65535, true, true), some (65535, true, false), some (1, false, true)] := by decide +kernel

/-- The error one past the step threshold, with one more outlier short of N_step. -/
theorem test_witness_OutliersAndSteps :
    let p := house { follower with outlierRun := 2 }
    let b := beacBody 7#8 0 (5003072000 + 4916)
    let x := p.domain .d0
    b.length = 16 ∧ DomainId.ofCode (field b 0 1) = some .d0 ∧ x.setup.role = .follow ∧ x.state = .track ∧
    x.anchor = some ⟨1000000, 5000000000⟩ ∧ x.newLeader = false ∧
    p.capture.find (BitVec.ofNat 8 (field b 1 1)) = some ⟨7#8, .rx, 4072000⟩ ∧
    x.setup.leaderId = BitVec.ofNat 32 (field b 2 4) ∧ x.accepts (BitVec.ofNat 16 (field b 6 2)) = true ∧
    x.setup.stepThreshold < ((toDomainTime ((field b 8 8 : Int) + p.pathDelay .d0) : Int) -
      convert ⟨1000000, 5000000000⟩ x.code 4072000).natAbs ∧ x.outlierRun + 1 < x.setup.nStep := by decide +kernel

/-- The outlier that reaches N_step, and one of a new leader, under STEP, REACQUIRE with w = 0 and REACQUIRE. -/
theorem test_witness_OutliersAndSteps_step :
    let third := house { follower with outlierRun := 3 }
    let pending := house { follower with state := .holdover, newLeader := true,
                                         setup := { DomainSetup.reset with stepAction := .reacquire, warmWidth := 0 } }
    let again := house { follower with outlierRun := 3, setup := { DomainSetup.reset with stepAction := .reacquire } }
    let b := beacBody 7#8 0 (5003072000 + 4916)
    ((third.domain .d0).setup.nStep ≤ (third.domain .d0).outlierRun + 1 ∧ (third.domain .d0).setup.stepAction = .step ∧
      (third.domain .d0).state = .track) ∧
    ((pending.domain .d0).newLeader = true ∧ (pending.domain .d0).setup.warmWidth = 0 ∧
      (pending.domain .d0).state = .holdover) ∧
    ((again.domain .d0).setup.stepAction = .reacquire ∧ (again.domain .d0).setup.warmWidth ≠ 0 ∧
      (again.domain .d0).setup.nStep ≤ (again.domain .d0).outlierRun + 1) ∧
    [third, pending, again].map (fun p => (after (.beac 1#8 b) p (fun q => (lastContent q).head?))) =
      [some (some 4#8), some (some 4#8), some (some 4#8)] := by decide +kernel

/-- A free engine and a cold domain; a search below its window's end, at it, with a bit left. -/
theorem test_witness_SearchTakesSamples :
    let p := inState (.acquire .waiting)
    let r : Search := ⟨.d0, 32768, 0, 1, 2⟩
    let q : Part := { inState (.acquire .searching) with engine := ⟨some r, []⟩ }
    (p.domain .d0).startKind = .cold ∧ p.engine.served = none ∧ p.engine.queue = [] ∧ q.engine.served = some r ∧
    r.windowCount + 1 < (q.domain .d0).setup.window ∧
    (q.domain .d0).setup.window ≤ ({ r with windowCount := 3 } : Search).windowCount + 1 ∧ r.bit ≠ 0 := by decide +kernel

/-- Every state a sample may meet: cold and warm with w = 0 and w above 0 in WAITING; QUEUED; ANCHORED; SEARCHING with an error;
LOST with w = 0 and above; a waiting domain before a free engine and a busy one; the last bit of a search. -/
theorem test_witness_SearchTakesSamples_states :
    let narrow := { DomainSetup.reset with warmWidth := 0 }
    let state := fun (x : Domain) => ((house x).domain .d0).state
    (state { follower with state := .acquire .waiting, startKind := .warm, setup := narrow } = .acquire .waiting ∧
      narrow.warmWidth = 0 ∧ DomainSetup.reset.warmWidth ≠ 0 ∧ follower.startKind = .cold) ∧
    state { follower with state := .acquire .queued } = .acquire .queued ∧
    state { follower with state := .acquire .anchored } = .acquire .anchored ∧
    state { follower with state := .lost, setup := narrow } = .lost ∧
    (let p : Part := { inState (.acquire .queued) with engine := ⟨none, [.d0]⟩ }
     let q : Part := { inState (.acquire .queued) with engine := ⟨some ⟨.d1, 32768, 0, 15, 0⟩, [.d0]⟩ }
     p.engine.served = none ∧ p.engine.queue = .d0 :: [] ∧ q.engine.served ≠ none) ∧
    (let r : Search := ⟨.d0, 32768, 32768, 0, 3⟩
     let p : Part := { inState (.acquire .searching) with engine := ⟨some r, []⟩ }
     p.engine.served = some r ∧ (p.domain .d0).setup.window ≤ r.windowCount + 1 ∧ r.bit = 0) := by decide +kernel

/-- A search that ends at code 0 and one that ends at 65535, RANGE clear before; one that ends between, RANGE declared before. -/
theorem test_witness_SearchTakesSamples_range :
    let ending := fun (settled : Nat) (range : Bool) =>
      ({ house { follower with state := .acquire .searching, range := range } with
         engine := ⟨some ⟨.d0, 32768, settled, 0, 3⟩, []⟩ } : Part)
    [(ending 0 false, -1), (ending 65534 false, 1), (ending 32768 true, 0)].map (fun c =>
      let q := c.1.windowSample .d0 ⟨4072000, 5003072000⟩ c.2
      ((q.domain .d0).code, (q.domain .d0).range, raised .domainAlarm (.domain .d0) q)) =
    [(0, true, true), (65535, true, true), (32768, false, true)] := by decide +kernel

/-- A BEAC that passes its checks in SEARCHING, in LOST and in QUEUED. -/
theorem test_witness_SearchTakesSamples_beac :
    let b := beacBody 7#8 5 5003072000
    b.length = 16 ∧ DomainId.ofCode (field b 0 1) = some .d0 ∧
    ∀ p ∈ [inState (.acquire .searching), inState .lost, inState (.acquire .queued)],
      (p.domain .d0).setup.role = .follow ∧ (p.domain .d0).state ≠ .unbound ∧
      p.capture.find (BitVec.ofNat 8 (field b 1 1)) = some ⟨7#8, .rx, 4072000⟩ ∧
      (p.domain .d0).setup.leaderId = BitVec.ofNat 32 (field b 2 4) ∧
      (p.domain .d0).accepts (BitVec.ofNat 16 (field b 6 2)) = true := by decide +kernel

theorem test_witness_LeaderChangeAndRelease :
    let b : List Byte := [0#8, 2#8, 0x20#8, 0#8, 0#8]
    b.length = 5 ∧ DomainId.ofCode (field b 0 1) = some .d0 ∧ (tracking.domain .d0).setup.role = .follow ∧
    (tracking.domain .d0).state = .track ∧ ((inState .holdover).domain .d0).state = .holdover ∧
    ((inState .lost).domain .d0).state = .lost ∧ ((inState (.acquire .queued)).domain .d0).state = .acquire .queued ∧
    ((inState .unbound).domain .d0).state = .unbound ∧ (tracking.domain .d0).state ≠ .unbound := by decide +kernel

/-- An engine that serves the other domain, one that serves this domain alone, one that serves it while the other waits, and a free
one. -/
theorem test_witness_LeaderChangeAndRelease_back :
    let search := fun d : DomainId => (⟨d, 32768, 0, 15, 0⟩ : Search)
    let left := fun queue : List DomainId => queue.filter (fun q => q != DomainId.d0)
    (search .d1).domain ≠ .d0 ∧ (search .d0).domain = .d0 ∧ left [] = [] ∧ left [.d0] = [] ∧ left [.d1] = [.d1] ∧
    tracking.engine.served = none ∧ tracking.engine.queue = [] ∧
    (tracking.domain .d1).startKind = .cold ∧ ({ follower with startKind := .warm } : Domain).startKind ≠ .cold := by decide +kernel

theorem test_witness_LeaderChangeAndRelease_refused :
    let b : List Byte := [1#8, 2#8, 0x20#8, 0#8, 0#8]
    b.length = 5 ∧ DomainId.ofCode (field b 0 1) = some .d1 ∧ (tracking.domain .d1).setup.role = .lead ∧
    ((inState .unbound).domain .d0).state = .unbound := by decide +kernel

/-- Deadlines reached at this very tick; the miss that makes the loss and the one that does not; the window's counts at 2 and
at 3; a holdover deadline one tick ahead. -/
theorem test_witness_DomainDeadlinesExpire :
    let x := silent.domain .d0
    let early := { x with missed := 1 }
    let y := sparse.domain .d0
    (x.watch = some 110752000 ∧ 110752000 ≤ silent.localTime ∧ ¬(early.missed + 1 = early.setup.nLoss) ∧
      x.setup.lossCriterion = .consec ∧ x.missed + 1 = x.setup.nLoss ∧ x.state = .track ∧ x.loss = false) ∧
    (y.windowEnd = some 5000000 ∧ 5000000 ≤ sparse.localTime ∧ y.sparseCurrent < 3 ∧ y.sparsePrevious < 3 ∧
      3 ≤ ({ y with sparsePrevious := 3 } : Domain).sparsePrevious ∧ 3 ≤ ({ y with sparseCurrent := 3 } : Domain).sparseCurrent ∧
      ({ y with loss := true } : Domain).loss = true ∧ y.loss = false) ∧
    (let h := house { follower with state := .holdover, holdover := some 4072600 }
     let g := house { follower with state := .holdover, holdover := some 4072601 }
     (h.domain .d0).holdover = some h.localTime ∧ (g.domain .d0).holdover = some (g.localTime + 1)) := by decide +kernel

/-- A domain in each of the states a loss event tells apart, with LOSS clear and with LOSS declared. -/
theorem test_witness_DomainDeadlinesExpire_loss :
    let state := fun s => ((inState s).domain .d0).state
    state .track = .track ∧ state (.acquire .queued) = .acquire .queued ∧ state (.acquire .anchored) = .acquire .anchored ∧
    state (.acquire .searching) = .acquire .searching ∧ state (.acquire .waiting) = .acquire .waiting ∧
    state .holdover = .holdover ∧ state .lost = .lost ∧ (tracking.domain .d0).loss = false ∧
    ((house { follower with loss := true }).domain .d0).loss = true := by decide +kernel

/-- A zone in each of the states a hold tells apart. -/
theorem test_witness_DomainDeadlinesExpire_hold :
    let state := fun s => ((room (zone s (some 0))).zone .z0).state
    state .armed = .armed ∧ state .playing = .playing ∧ state .starved = .starved ∧ state .drained = .drained ∧
    state (.stopping 5) = .stopping 5 ∧ ZoneState.idle.unstarted = true ∧ ZoneState.disabled.unstarted = true ∧
    state (.held .armed) = .held .armed := by decide +kernel

/-- Seven records are held. -/
theorem test_witness_EchoStartMakesARecord :
    let seven : List EchoRecord := (List.range 7).map (fun i => ⟨.d0, BitVec.ofNat 16 i, 0, 9000000⟩)
    let p : Part := { tracking with echo := { tracking.echo with records := seven } }
    let b : List Byte := [0#8, 7#8, 0#8, 8#8]
    b.length = 4 ∧ DomainId.ofCode (field b 0 1) = some .d0 ∧ (p.domain .d0).setup.role = .follow ∧
    (p.domain .d0).state ≠ .unbound ∧ p.echo.find .d0 (BitVec.ofNat 16 (field b 1 2)) = none ∧ p.echo.records.length < 8 ∧
    p.capture.find (BitVec.ofNat 8 (field b 3 1)) = some ⟨8#8, .tx, 4072500⟩ := by decide +kernel

/-- A deadline one tick ahead and one reached at this very tick, with two and with three timeouts before. -/
theorem test_witness_EchoStartMakesARecord_deadline :
    let p := fun (t n : Nat) => ({ tracking with localTime := t, echo := { tracking.echo with timeouts := ⟨n, 0⟩ } } : Part)
    let deadline := 4072500 + (tracking.domain .d0).setup.echoTimeout * 24576
    (p (deadline - 1) 2).localTime < deadline ∧ deadline ≤ (p deadline 2).localTime ∧
    min 4 ((p deadline 2).echo.timeouts.get .d0 + 1) < 4 ∧ min 4 ((p deadline 3).echo.timeouts.get .d0 + 1) = 4 := by
  decide +kernel

/-- Each refusal in turn. -/
theorem test_witness_EchoStartMakesARecord_refused :
    let b : List Byte := [0#8, 7#8, 0#8, 8#8]
    let eight : List EchoRecord := (List.range 8).map (fun i => ⟨.d1, BitVec.ofNat 16 i, 0, 9000000⟩)
    let crammed : Part := { tracking with echo := { tracking.echo with records := eight } }
    b.length = 4 ∧ DomainId.ofCode (field b 0 1) = some .d0 ∧ (tracking.domain .d1).setup.role = .lead ∧
    ((inState .unbound).domain .d0).state = .unbound ∧ crammed.echo.find .d1 7#16 ≠ none ∧
    crammed.echo.find .d0 (BitVec.ofNat 16 (field b 1 2)) = none ∧ 8 ≤ crammed.echo.records.length ∧
    tracking.capture.find (BitVec.ofNat 8 (field (b.set 3 9#8) 3 1)) = none ∧
    tracking.capture.find (BitVec.ofNat 8 (field (b.set 3 7#8) 3 1)) = some ⟨7#8, .rx, 4072000⟩ := by decide +kernel

/-- A round trip of 0, one of −1, a turnaround of −1. -/
theorem test_witness_EchoAnswerLearnsThePath :
    let body := fun turnaround : Nat => [0#8, 5#8, 0#8] ++ leBytes 8 1 ++ leBytes 8 turnaround ++ [7#8]
    let b := body 72001
    b.length = 20 ∧ DomainId.ofCode (field b 0 1) = some .d0 ∧ (asked.domain .d0).setup.role = .follow ∧
    (asked.domain .d0).state ≠ .unbound ∧
    asked.echo.find .d0 (BitVec.ofNat 16 (field b 1 2)) = some ⟨.d0, 5#16, 4000000, 10144000⟩ ∧
    asked.capture.find (BitVec.ofNat 8 (field b 19 1)) = some ⟨7#8, .rx, 4072000⟩ ∧
    0 ≤ (field b 11 8 : Int) - field b 3 8 ∧ 0 ≤ ((4072000 : Int) - 4000000) - ((field b 11 8 : Int) - field b 3 8) ∧
    ((4072000 : Int) - 4000000) - ((field (body 72002) 11 8 : Int) - field (body 72002) 3 8) < 0 ∧
    (field (body 0) 11 8 : Int) - field (body 0) 3 8 < 0 := by decide +kernel

/-- Each refusal in turn. -/
theorem test_witness_EchoAnswerLearnsThePath_refused :
    let body := fun capture : Byte => [0#8, 5#8, 0#8] ++ leBytes 8 1 ++ leBytes 8 2 ++ [capture]
    (body 7#8).length = 20 ∧ DomainId.ofCode (field (body 7#8) 0 1) = some .d0 ∧ (asked.domain .d1).setup.role = .lead ∧
    tracking.echo.find .d0 (BitVec.ofNat 16 (field (body 7#8) 1 2)) = none ∧
    asked.echo.find .d0 (BitVec.ofNat 16 (field (body 7#8) 1 2)) ≠ none ∧
    asked.capture.find (BitVec.ofNat 8 (field (body 9#8) 19 1)) = none ∧
    asked.capture.find (BitVec.ofNat 8 (field (body 8#8) 19 1)) = some ⟨8#8, .tx, 4072500⟩ := by decide +kernel

/-- One tick before the deadline, at it, with two and with three timeouts before. -/
theorem test_witness_EchoRecordExpires :
    let r : EchoRecord := ⟨.d0, 5#16, 4000000, 10144000⟩
    asked.echo.find .d0 5#16 = some r ∧ ({ asked with localTime := 10143999 } : Part).localTime < r.deadline ∧
    r.deadline ≤ ({ asked with localTime := 10144000 } : Part).localTime ∧ 2 + 1 < 4 ∧ 4 ≤ asked.echo.timeouts.get .d0 + 1 := by
  decide +kernel

/-- An alarm that is declared, and the same again. -/
theorem test_witness_EchoRecordExpires_alarm :
    let p := tracking.setAlarm .d0 .path true
    (tracking.domain .d0).path = false ∧ (p.domain .d0).path = true ∧ raised .domainAlarm (.domain .d0) p = true ∧
    p.setAlarm .d0 .path true = p := by decide +kernel

theorem test_witness_PathDelayIsTheMinimum :
    tracking.echo.samples.get .d0 = [] ∧
    (⟨[3, 2], []⟩ : PerDomain (List Nat)).get .d0 ≠ [] ∧ (List.replicate 7 0).length < 8 ∧ (List.replicate 8 0).length = 8 := by
  decide +kernel

theorem test_witness_FilterEntryMatches :
    (⟨true, 0x00A10000#32, 0xFFFF0000#32, .main, .all true⟩ : FilterEntry).matchesStream 0x00A1FFFF#32 = true ∧
    (⟨true, 0x00A10000#32, 0xFFFF0000#32, .main, .all true⟩ : FilterEntry).matchesStream 0x00A20000#32 = false ∧
    (⟨true, 5#32, 0xFFFFFFFF#32, .main, .all true⟩ : FilterEntry).matchesStream 5#32 = true ∧
    (⟨true, 5#32, 0#32, .main, .all true⟩ : FilterEntry).matchesStream 6#32 = true := by decide +kernel

/-- The last entry decides while all before it fail, and no entry matches. -/
theorem test_witness_FirstMatchingEntryDecides :
    let f : StreamFilter := { StreamFilter.reset with entries := StreamFilter.reset.entries.set 15 ⟨true, 0#32, 0#32, .main, .all true⟩ }
    f.entries[15].matchesStream 9#32 = true ∧ (∀ j : Fin 15, f.entries[j.val].matchesStream 9#32 = false) ∧
    (∀ j : Fin 16, StreamFilter.reset.entries[j].matchesStream 9#32 = false) := by decide +kernel

theorem test_witness_PoolAndFilterWrites :
    let b : List Byte := [15#8, 1#8] ++ List.replicate 8 0#8 ++ [2#8, 15#8]
    (0#8 : Byte).toNat + 256 * (2#8 : Byte).toNat ≤ 512 ∧ 512 < (1#8 : Byte).toNat + 256 * (2#8 : Byte).toNat ∧
    field b 0 1 < 16 ∧ b.length = 12 ∧ FilterEntry.ofBody b = some ⟨true, 0#32, 0#32, .reject, .all true⟩ ∧
    FilterAction.ofCode (0#8 : Byte).toNat = some .main ∧ FilterAction.ofCode (1#8 : Byte).toNat = some .overlay ∧
    ZoneSet.ofCode (15#8 : Byte).toNat = some (.all true) := by decide +kernel

/-- A header with a bad flag; a rejected stream; a block that Z0 accepts while a slot is free. -/
theorem test_witness_BlocksAreDelivered :
    let bad := pblkBody 0x00B00000 1 5003100000 8
    let gone := pblkBody 0x00B00000 1 5003100000 0
    let good := pblkBody 0x00A20001 1 5003100000 4
    22 ≤ bad.length ∧ Delivery.ofBody bad = none ∧
    (Delivery.ofBody gone).map (fun dl => (playing.filter.route dl.block.stream).action) = some .reject ∧
    (Delivery.ofBody good).map (fun dl => (dl.quiet, (playing.filter.route dl.block.stream).action,
      (ZoneSet.members (playing.filter.route dl.block.stream).zones).map
        (fun z => playing.pool.judge (playing.zone z) .main dl.block))) = some (true, .main, [.accepted]) ∧
    playing.pool.lowestFree = some 0 := by decide +kernel

/-- The seven checks of a zone, each at the two values where it turns: the block's end at P and one tick past it, its start at the
horizon and one tick past it, a block that abuts the queue and one that meets it by a tick, the last place of the quota. -/
theorem test_witness_BlocksAreDelivered_checks :
    let p := queued .playing (5003072448 * 65536)
    let x := p.zone .z0
    let judge := fun b : Block => p.pool.judge x .main b
    let narrow := { x with setup := { x.setup with mainQuota := 2 } }
    let wide := { x with setup := { x.setup with mainQuota := 3 } }
    p.pool.judge (zone .idle none) .main (block 9 5003300000) = .zoneOff ∧
    p.pool.judge (zone (.stopping 9) (some 0)) .main (block 9 5003300000) = .zoneOff ∧
    judge { block 9 5003300000 with rate := .r96000 } = .rate ∧ judge (block 1 5003300000) = .duplicate ∧
    judge (block 9 (5003072448 - 131072)) = .late ∧ judge (block 9 (5003072448 - 131071)) = .overlap ∧
    judge (block 9 (5003072448 + 98304000)) = .accepted ∧ judge (block 9 (5003072448 + 98304001)) = .early ∧
    judge (block 9 5003262144) = .accepted ∧ judge (block 9 5003262143) = .overlap ∧
    p.pool.judge narrow .main (block 9 5003262144) = .quota ∧ p.pool.judge wide .main (block 9 5003262144) = .accepted := by
  decide +kernel

/-- A pool with no free slot. -/
def exhausted : Part :=
  { playing with pool := { BlockPool.reset with held := (List.range 512).map (fun n => ⟨n, 1, block n 0⟩) } }

/-- No slot for a block that Z0 would accept, and a block that its one zone refuses. -/
theorem test_witness_BlocksAreDelivered_refused :
    let good := pblkBody 0x00A20001 600 5003100000 4
    exhausted.pool.lowestFree = none ∧
    (Delivery.ofBody good).map (fun dl => (ZoneSet.members (exhausted.filter.route dl.block.stream).zones).map
      (fun z => exhausted.pool.judge (exhausted.zone z) .main dl.block)) = some [.accepted] ∧
    (Delivery.ofBody (pblkBody 0x00A20001 600 5000000000 4)).map (fun dl =>
      (ZoneSet.members (playing.filter.route dl.block.stream).zones).map
        (fun z => playing.pool.judge (playing.zone z) .main dl.block)) = some [.late] := by decide +kernel

theorem test_witness_StoringABlock :
    [ZoneId.z0, .z1, .z2, .z3].Nodup ∧ tracking.pool.find 511 = none ∧
    tracking.pool.watermark ≤ tracking.pool.freeCount := by decide +kernel

/-- A queue of ascending starts, and a block that goes between its two entries. -/
theorem test_witness_StoringABlock_place :
    let p := queued .playing (5003072448 * 65536)
    let q := p.storeBlock { block 9 5003000001 with frames := 255 } .main 2 [.z0]
    p.pool.find 2 = none ∧ (q.zone .z0).mainQueue = [0, 2, 1] ∧
    ((p.zone .z0).queue .main).Pairwise (fun m n => q.pool.entryStart m < q.pool.entryStart n) := by decide +kernel

/-- Slots held once and twice. -/
theorem test_witness_ReleaseLowersTheHolderCount :
    let pool : BlockPool := { BlockPool.reset with held := [⟨0, 1, block 0 0⟩, ⟨511, 2, block 1 0⟩] }
    (pool.held.map HeldSlot.number).Nodup ∧ pool.find 0 = some ⟨0, 1, block 0 0⟩ ∧ pool.find 511 = some ⟨511, 2, block 1 0⟩ ∧
    (⟨0, 1, block 0 0⟩ : HeldSlot).holders ≤ 1 ∧ 1 < (⟨511, 2, block 1 0⟩ : HeldSlot).holders := by decide +kernel

/-- A block with MARK and one without, the end of the first at P. -/
theorem test_witness_ReleaseLowersTheHolderCount_played :
    let pool : BlockPool := { BlockPool.reset with held := [⟨0, 1, { block 0 0 with mark := true }⟩, ⟨1, 1, block 1 131072⟩] }
    (pool.find 0).map (fun h => h.block.mark) = some true ∧ (pool.find 1).map (fun h => h.block.mark) = some false ∧
    decide (pool.entryEnd 512 0 * 65536 ≤ 131072 * 65536) = true ∧ decide (pool.entryEnd 512 1 * 65536 ≤ 131072 * 65536) = false := by
  decide +kernel

theorem test_witness_FlushRemovesFromF :
    let b := fun sel : Byte => [0#8, sel] ++ leBytes 8 5003131072
    (b 2#8).length = 10 ∧ ZoneId.ofCode (field (b 2#8) 0 1) = some .z0 ∧
    QueueSelector.ofCode (field (b 0#8) 1 1) = some .main ∧ QueueSelector.ofCode (field (b 1#8) 1 1) = some .overlay ∧
    QueueSelector.ofCode (field (b 2#8) 1 1) = some .both := by decide +kernel

/-- A fall from the low watermark to one below it, a fall from one below it, and none. -/
theorem test_witness_FlushRemovesFromF_watermark :
    let x := (room { zone .playing none with mainQueue := List.range 7 }).zone .z0
    x.setup.lowWatermark ≤ 8 ∧ x.mainQueue.length < x.setup.lowWatermark ∧ ¬(x.setup.lowWatermark ≤ 7) ∧
    ¬(({ x with mainQueue := List.range 8 } : Zone).mainQueue.length < x.setup.lowWatermark) := by decide +kernel

theorem test_witness_ZoneSetupIsWritten :
    zsetBody.length = 40 ∧ ZoneId.ofCode (field zsetBody 0 1) = some .z0 ∧ ZoneSetup.ofBody zsetBody = some .reset ∧
    (tracking.zone .z0).state = .disabled ∧ ((room (zone .idle none)).zone .z0).state = .idle ∧
    (playing.zone .z0).state ≠ .disabled ∧ (playing.zone .z0).state ≠ .idle := by decide +kernel

theorem test_witness_EnableStartsThePort :
    (tracking.zone .z3).state = .disabled ∧ (playing.zone .z0).state ≠ .disabled ∧ 0 < Rate.tpf .r96000 := by decide +kernel

theorem test_witness_DisableEmptiesTheZone :
    (tracking.zone .z0).state = .disabled ∧ (playing.zone .z0).state ≠ .disabled := by decide +kernel

theorem test_witness_RunArmsTheZone :
    let b := [0#8, 0#8] ++ leBytes 8 5003100000
    let auto : List Byte := [0#8, 1#8] ++ List.replicate 8 0#8
    b.length = 10 ∧ ZoneId.ofCode (field b 0 1) = some .z0 ∧
    ZoneStart.ofCodes (field b 1 1) (field b 2 8) = some (.at 5003100000) ∧
    ZoneStart.ofCodes (field auto 1 1) (field auto 2 8) = some .auto ∧ ((room (zone .idle none)).zone .z0).state = .idle ∧
    (tracking.domain .d0).state ≠ .unbound ∧ (playing.zone .z0).state ≠ .idle ∧
    ((inState .unbound).domain .d0).state = .unbound := by decide +kernel

/-- P at the first tick of the block: the block contains it. -/
theorem test_witness_StopZone :
    let p := queued .playing (5003000000 * 65536)
    (tracking.zone .z0).state.unstarted = true ∧ (p.zone .z0).state.unstarted = false ∧ (p.zone .z0).state = .playing ∧
    (p.zone .z0).position.bind (p.mainAt .z0) = some 0 ∧ (playing.zone .z0).position.bind (playing.mainAt .z0) = none := by
  decide +kernel

theorem test_witness_GainAndSubstitutionWrites :
    (playing.zone .z0).state.running = true ∧ (tracking.zone .z0).state.running = false ∧
    Substitution.ofCode (2#8 : Byte).toNat = some .tone ∧ Substitution.silence ≠ .none := by decide +kernel

/-- A ramp value of 0, and one halfway between two units. -/
theorem test_witness_GainAndSubstitutionWrites_value :
    (0 : Rat) ≤ 0 ∧ rampValueBytes 0 = [0#8, 0#8, 0#8, 0#8] ∧ rampValueBytes (16384 + 3 / 131072) = [0#8, 0x40#8, 2#8, 0#8] := by
  decide +kernel

/-- The spec's examples of each format, at the ends of the ranges. -/
theorem test_witness_SamplesBecome24Bit :
    toSample24 .s16 [0#8, 0x80#8] = -8388608 ∧ toSample24 .s16 [0xFF#8, 0x7F#8] = 8388352 ∧
    toSample24 .s24 [0#8, 0#8, 0x80#8, 0x7F#8] = -8388608 ∧ toSample24 .s24 [0#8, 0#8, 0x80#8, 0#8] = -8388608 ∧
    toSample24 .s32 [0xFF#8, 0xFF#8, 0xFF#8, 0xFF#8] = -1 ∧ toSample24 .s32 [0xFF#8, 0#8, 0#8, 0#8] = 0 ∧
    0 < (block 0 0).channels := by decide +kernel

/-- A new target, a ramp at its last frame but one, and a ramp at its end. -/
theorem test_witness_RampsAndTheMix :
    (Ramp.rest 16384).target ≠ 4096 ∧ 0 < 480 ∧ (⟨16384, 4096, 480, 479⟩ : Ramp).count < 480 ∧
    (⟨16384, 4096, 480, 480⟩ : Ramp).length ≤ (⟨16384, 4096, 480, 480⟩ : Ramp).count := by decide +kernel

/-- The last tick of an entry and the first past it; channels carried and not; the last step of a frame; the block's last frame. -/
theorem test_witness_RampsAndTheMix_channels :
    let p := queued .playing 0
    let last := 5003131072 * 65536 - 1
    (p.pool.entryStart 0 * 65536 ≤ last ∧ last < p.pool.entryEnd 512 0 * 65536 ∧ ¬(last + 1 < p.pool.entryEnd 512 0 * 65536)) ∧
    p.pool.blockOf 0 = some (block 0 5003000000) ∧ (∀ n ∈ ([0, 1] : List Nat), ¬(p.pool.entryStart n * 65536 ≤ 5)) ∧
    ((block 0 0).channels ≤ 2 ∧ 1 < (block 0 0).channels) ∧
    (last = ((block 0 5003000000).time + 255 * 512) * 65536 + (512 * 65536 - 1) ∧ 512 * 65536 - 1 < 512 * 65536 ∧
      ¬(255 + 1 < (block 0 0).frames) ∧ 254 + 1 < (block 0 0).frames) := by decide +kernel

/-- Halves of either sign, an overlay at half gain with a trim and a tone, and both ends of the saturation. -/
theorem test_witness_RampsAndTheMix_mix :
    mixLane 1 0 8192 0 16384 0 0 16384 = 1 ∧ mixLane (-1) 0 8192 0 16384 0 0 16384 = -1 ∧
    mixLane 1000 600 4096 8192 16384 8192 800 32768 = 1900 ∧ mixLane 8388607 0 16384 0 16384 0 0 16385 = 8388607 ∧
    mixLane (-8388608) 0 16384 0 16384 0 0 16385 = -8388608 := by decide +kernel

/-- The bit clock periods where a slot's bits begin and end, of lanes 0x800001 and 0x7FFFFE; the tone at the two ends of the
reflection. -/
theorem test_witness_RampsAndTheMix_port :
    [0, 1, 2, 24, 25, 31, 32, 33, 34, 55, 56, 57, 63, 64].map (fun i => (portPeriods ⟨-8388607, 8388606⟩)[i]?) =
      [some (false, false), some (false, true), some (false, false), some (false, true), some (false, false), some (false, false),
       some (true, false), some (true, false), some (true, true), some (true, true), some (true, false), some (true, false),
       some (true, false), none] ∧
    toneValue (12288 * 65536 - 12288 * 65536) = toneValue (12288 * 65536) ∧ (0 : Nat) ≤ 12288 * 65536 := by decide +kernel

/-- The port is due now; the target lies one tick before the start time. -/
theorem test_witness_FramesBeforeTheStart :
    let p : Part := { room { zone .armed none with start := some (.at 5003072601), port := some 4072600 } with localTime := 4072600 }
    ((room (zone .idle none)).zone .z0).port = some 4072448 ∧ 4072448 ≤ (room (zone .idle none)).localTime ∧
    ((room (zone (.held .armed) (some 0))).zone .z0).state = .held .armed ∧
    ((room (zone (.held .running) (some 0))).zone .z0).state = .held .running ∧
    (p.zone .z0).port = some p.localTime ∧ (p.zone .z0).state = .armed ∧ (p.zone .z0).start = some (.at 5003072601) ∧
    p.target .z0 p.localTime + 1 = 5003072601 ∧ (p.zone .z0).overlayQueue = [] ∧ p.schedule.entries = [] := by decide +kernel

/-- A start time at the target and one tick past it; AUTO with the main head at the target, past it and absent; an overlay entry
whose end lies one past P; an entry for the zone one tick ahead and one for another zone. -/
theorem test_witness_FramesBeforeTheStart_met :
    let target := tracking.target .z0 tracking.localTime
    let armed := fun (start : ZoneStart) (t : DomainTime) => ({ room { zone .armed none with start := some start, mainQueue := [0] } with
      pool := { BlockPool.reset with held := [⟨0, 1, block 0 t⟩] } } : Part)
    (∃ n, target = n ∧ n ≤ target ∧ ¬(n + 1 ≤ target)) ∧
    ((armed .auto target).zone .z0).mainQueue = [0] ∧ (armed .auto target).pool.entryStart 0 ≤ target ∧
    ¬((armed .auto (target + 1)).pool.entryStart 0 ≤ target) ∧ ((room (zone .armed none)).zone .z0).mainQueue = [] ∧
    target * 65536 < (armed .auto (target - 131071)).pool.entryEnd 512 0 * 65536 ∧
    (∀ e ∈ ([⟨7#16, target + 1, .d0, .all true, .all true, .note, false, 0⟩,
        ⟨8#16, 0, .d0, .all true, ⟨false, true, true, true⟩, .note, false, 0⟩] : List ScheduleEntry),
      e.pending.get .z0 = true → target < e.time) := by
  refine ⟨⟨_, rfl, by decide +kernel, by decide +kernel⟩, ?_⟩
  decide +kernel

/-- E at the reseek threshold. -/
theorem test_witness_StarvedFrameConceals :
    let pos : Nat := (5003072600 + 24576) * 65536
    let p := room (zone .starved (some pos))
    (p.zone .z0).port = some 4072448 ∧ 4072448 ≤ p.localTime ∧ (p.zone .z0).state = .starved ∧ (p.zone .z0).position = some pos ∧
    (p.zone .z0).lastFinal = false ∧ (p.zone .z0).mainQueue = [] ∧ (p.zone .z0).overlayQueue = [] ∧ p.schedule.entries = [] ∧
    ((pos : Int) - (p.target .z0 p.localTime * 65536 : Nat)).natAbs ≤ (p.zone .z0).setup.reseekThreshold * 65536 := by
  decide +kernel

/-- A zone in each of the four states; E at the reseek threshold and one past it; a catch-up that stops the zone and one that
does not; P at an end point and one short of it; the flag at the tolerance and one past it. -/
theorem test_witness_StarvedFrameConceals_frames :
    let target := tracking.target .z0 tracking.localTime
    let at' := fun (s : ZoneState) (n : Nat) => room (zone s (some (target * 65536 + n)))
    let e := fun p : Part => (((p.zone .z0).position.getD 0 : Nat) : Int) - (p.target .z0 p.localTime * 65536 : Nat)
    let threshold := ZoneSetup.reset.reseekThreshold * 65536
    let stop : Schedule := ⟨[⟨7#16, 0, .d0, ⟨true, false, false, false⟩, ⟨true, false, false, false⟩, .stop .immediate, true, 0⟩], 8#16, []⟩
    ((at' .playing 0).zone .z0).state = .playing ∧ ((at' .drained 0).zone .z0).state = .drained ∧
    ((at' (.stopping 9) 0).zone .z0).state = .stopping 9 ∧
    (e (at' .playing threshold)).natAbs ≤ threshold ∧ threshold < (e (at' .playing (threshold + 1))).natAbs ∧
    (({ at' .playing 0 with schedule := stop }.applyDue .z0 (target * 65536)).zone .z0).state ≠ .playing ∧
    (((at' .playing 0).applyDue .z0 (target * 65536)).zone .z0).state = .playing ∧
    (5 * 65536 ≤ 5 * 65536 ∧ 5 * 65536 - 1 < 5 * 65536) ∧
    (decide ((123 * 65536 : Int).natAbs ≤ ZoneSetup.reset.tolerance * 65536) = true ∧
      decide ((123 * 65536 + 1 : Int).natAbs ≤ ZoneSetup.reset.tolerance * 65536) = false) := by decide +kernel

/-- What a frame finds at P: an entry, the end of the stream, nothing. -/
theorem test_witness_StarvedFrameConceals_content :
    let p := queued .playing (5003072448 * 65536)
    p.mainAt .z0 (5003072448 * 65536) = some 0 ∧ playing.mainAt .z0 (5003072448 * 65536) = none ∧
    ((room { zone .drained none with lastFinal := true }).zone .z0).lastFinal = true ∧ (playing.zone .z0).lastFinal = false ∧
    (p.zone .z0).aligned = false := by decide +kernel

/-- A target within 64 bits; an advance halfway between two units above 0, on either side of nominal, and one below 0. -/
theorem test_witness_StarvedFrameConceals_advance :
    (tracking.domain (tracking.zone .z0).setup.domain).anchor = some ⟨1000000, 5000000000⟩ ∧
    convert ⟨1000000, 5000000000⟩ 32768 4072600 + ZoneSetup.reset.latency * 512 < 2 ^ 64 ∧
    advanceUnits 512 32768 (-24000) 1000 = 33554433 ∧ advanceUnits 512 32768 24000 1000 = 33554432 ∧
    advanceUnits 512 32768 (48000 * 67108864 + 24000) 3000000 = -33554433 := by decide +kernel

theorem test_witness_OutputFrameTouchesItsZone : (∃ u, exec (.outputFrame .z0) ⟨playing, [], 0⟩ = .next u) ∧ ZoneId.z1 ≠ .z0 :=
  ⟨⟨_, rfl⟩, by decide⟩

/-- 31 live entries. -/
def crowded : Part :=
  { playing with schedule := { playing.schedule with entries := (List.range 31).map (fun i =>
      ⟨BitVec.ofNat 16 i, 5003100000 + i, .d0, ⟨true, false, false, false⟩, ⟨true, false, false, false⟩, .note, false, 0⟩) } }

theorem test_witness_EntriesJoinTheSchedule :
    let n : NewEntry := ⟨5003200000, .d0, ⟨true, false, false, false⟩, .gain 8192, true⟩
    (gainEntry 5003200000).length = 16 ∧ NewEntry.ofBody (gainEntry 5003200000) = some n ∧
    (crowded.domain n.domain).state ≠ .unbound ∧
    (∀ z ∈ ZoneSet.members n.zones, (crowded.zone z).state.takesEntries = true ∧ (crowded.zone z).setup.domain = n.domain) ∧
    crowded.schedule.entries.length < 32 ∧ crowded.schedule.nextHandle = 31#16 ∧ scheduled.schedule.find 8#16 = none ∧
    crowded.schedule.entries.Pairwise (fun a b => a.time ≤ b.time) := by decide +kernel

/-- The reply: an entry of a live entry's own time is the second of two, past due for Z0 whose P stands at that time; one tick later
it is not. -/
theorem test_witness_EntriesJoinTheSchedule_reply :
    let p : Part := { scheduled with zones := ⟨zone .playing (some (5003000000 * 65536)), .reset, .reset, .reset⟩ }
    [5003000000, 5003000001].map (fun t => after (.sadd 1#8 (gainEntry t)) p lastContent) =
      [some [8#8, 0#8, 2#8, 2#8, 1#8], some [8#8, 0#8, 2#8, 2#8, 0#8]] := by decide +kernel

/-- Each refusal in turn: the domain UNBOUND, a zone off after one that fits, a zone of the other domain, 32 live entries. -/
theorem test_witness_EntriesJoinTheSchedule_refused :
    let fits := fun (p : Part) (z : ZoneId) => (p.zone z).state.takesEntries = true ∧ (p.zone z).setup.domain = .d0
    let other : Part := { playing with zones := playing.zones.set .z1 { zone .playing none with setup := { ZoneSetup.reset with domain := .d1 } } }
    let e : ScheduleEntry := ⟨99#16, 0, .d0, .all true, .all true, .note, false, 0⟩
    (NewEntry.ofBody ((gainEntry 0).set 9 3#8)).map (fun n => ZoneSet.members n.zones) = some ([.z0] ++ .z1 :: []) ∧
    ((inState .unbound).domain .d0).state = .unbound ∧ fits playing .z0 ∧ (playing.zone .z1).state.takesEntries = false ∧
    ((other.zone .z1).state.takesEntries = true ∧ (other.zone .z1).setup.domain ≠ .d0) ∧
    32 ≤ (e :: crowded.schedule.entries).length := by decide +kernel

theorem test_witness_CancelAndList :
    scheduled.schedule.find (BitVec.ofNat 16 ((7#8 : Byte).toNat + 256 * (0#8 : Byte).toNat)) ≠ none ∧
    scheduled.schedule.find (BitVec.ofNat 16 ((8#8 : Byte).toNat + 256 * (0#8 : Byte).toNat)) = none := by decide +kernel

/-- The entry is due at the very position. -/
theorem test_witness_DueEntryActsAndRetires :
    let e : ScheduleEntry := ⟨7#16, 5003000000, .d0, ⟨true, false, false, false⟩, ⟨true, false, false, false⟩, .gain 8192, true, 0⟩
    scheduled.schedule.find e.handle = some e ∧ e.pending.get .z0 = true ∧ ZoneSet.isEmpty (e.pending.set .z0 false) = true ∧
    e.time * 65536 ≤ 5003000000 * 65536 ∧ e.action = .gain 8192 ∧ e.notify = true ∧
    ({ e with notify := false } : ScheduleEntry).notify = false := by decide +kernel

/-- An entry with a zone left; one due one unit later; one not pending for the zone; none. -/
theorem test_witness_DueEntryActsAndRetires_left :
    let e : ScheduleEntry := ⟨7#16, 5003000000, .d0, ⟨true, true, false, false⟩, ⟨true, true, false, false⟩, .stop .graceful, false, 0⟩
    let p : Part := { playing with schedule := ⟨[e], 8#16, []⟩ }
    p.schedule.find e.handle = some e ∧ e.pending.get .z0 = true ∧ ZoneSet.isEmpty (e.pending.set .z0 false) = false ∧
    5003000000 * 65536 - 1 < e.time * 65536 ∧ e.pending.get .z2 = false ∧ p.schedule.find 8#16 = none := by decide +kernel

/-- An entry due at the position and one due one unit later. -/
theorem test_witness_DueEntryActsAndRetires_due :
    let e : ScheduleEntry := ⟨7#16, 5003000000, .d0, ⟨true, false, false, false⟩, ⟨true, false, false, false⟩, .gain 8192, true, 0⟩
    let p : Part := { playing with schedule := ⟨[e, { e with handle := 8#16, time := 5003000001 }], 9#16, []⟩ }
    let due := fun h : Word16 => (p.schedule.find h).any (fun e => e.pending.get .z0 && decide (e.time * 65536 ≤ 5003000000 * 65536))
    (p.schedule.entries.map ScheduleEntry.handle).filter due = [7#16] ∧
    ((p.applyDue .z0 (5003000000 * 65536)).schedule.entries.map ScheduleEntry.handle) = [8#16] := by decide +kernel

theorem test_witness_PendingPairsAndLines :
    let l := signalled.indications.pending
    (l.map PendingPair.pair).Nodup ∧ l.Pairwise (fun a b => a.pair.rank < b.pair.rank) ∧
    (∀ q ∈ l, q.pair ≠ ⟨.tally, .part⟩) ∧ (⟨⟨.link, .part⟩, 2, 100, 200⟩ : PendingPair) ∈ l := by decide +kernel

theorem test_witness_ConfigureAndAcknowledge :
    let b : List Byte := [39#8] ++ (List.replicate 39 [14#8, 6#8]).flatten
    allKinds.length = 15 ∧ IndicationKind.endOfStream.code = 14#8 ∧ kindsNamed (0xFF#8 : Byte).toNat = some allKinds ∧
    kindsNamed (14#8 : Byte).toNat = some [.endOfStream] ∧
    flagOf (1#8 : Byte).toNat = some true ∧ Line.ofCode (1#8 : Byte).toNat = some .line1 ∧
    RequestKind.lengthOk .inda b = true ∧ acknowledgedPairs b = some (List.replicate 39 ⟨.endOfStream, .zone .z3⟩) := by
  decide +kernel

theorem test_witness_CountersStopAtTheCeiling :
    (⟨4294967294, false⟩ : Counter).value < 4294967295 ∧ 4294967295 ≤ (⟨4294967295, false⟩ : Counter).value ∧
    TallyId.part .linkErrors ≠ .zone .z0 .reseeks := by decide +kernel

theorem test_witness_Snapshots :
    let on : Part := { tracking with tallies := { tracking.tallies with automatic := true, deadline := some 4072600 } }
    on.tallies.deadline = some on.localTime ∧ on.tallies.automatic = true ∧ tracking.tallies.automatic = false := by decide +kernel

/-- A step from a state within every limit. -/
theorem test_witness_Invariants : Part.WithinCapacities crowded ∧ Part.RestingZonesEmpty crowded ∧
    ∃ t, step ⟨crowded, [.outputFrame .z0], 0⟩ = .next t := by
  refine ⟨⟨⟨by decide +kernel, by decide +kernel⟩, ⟨by decide +kernel, fun d => ?_⟩, ⟨by decide +kernel, by decide +kernel⟩,
    by unfold Link.WithinQueue; decide +kernel, by unfold IndicationUnit.WithinSet; decide +kernel⟩, fun z => ?_, ⟨_, rfl⟩⟩
  · cases d <;> decide +kernel
  · cases z <;> exact fun _ => ⟨rfl, rfl⟩

/-- All 39 pairs pending, in report order. -/
theorem test_witness_CapacitiesAreKept_pending :
    let objects : List IndicationObject := [.part, .domain .d0, .domain .d1, .zone .z0, .zone .z1, .zone .z2, .zone .z3]
    let pairs := (objects.flatMap (fun o => allKinds.map (fun k => (⟨k, o⟩ : Pair)))).filter Pair.valid
    let u : IndicationUnit := { IndicationUnit.reset with pending := pairs.map (fun q => ⟨q, 255, 0, 0⟩) }
    u.WithinSet ∧ u.pending.length = 39 := by
  unfold IndicationUnit.WithinSet; decide +kernel

/-- Two slots, each held by the one queue it stands in. -/
theorem test_witness_HolderCountsAreQueuePlaces : Part.PoolLaw (queued .playing (5003072448 * 65536)) := by
  refine ⟨by unfold BlockPool.WellKept; decide +kernel, fun n => ?_, fun z n => ?_⟩
  · rcases n with _ | _ | n
    · decide +kernel
    · decide +kernel
    · simp [Part.references, BlockPool.holdersOf, BlockPool.find, queued, room, tracking, house, Part.zone, PerZone.get, allZones,
        Zone.queued, zone, Zone.reset]
  · cases z
    · show ([0, 1] : List Nat).count n ≤ 1
      rcases n with _ | _ | n <;> simp
    all_goals exact Nat.zero_le _

/-- The same two slots, in order and within the quota. -/
theorem test_witness_HolderCountsAreQueuePlaces_order : Part.QueueLaw (queued .playing (5003072448 * 65536)) := by
  refine ⟨test_witness_HolderCountsAreQueuePlaces, fun z => ?_, fun z => ?_, fun z t => ?_⟩
  · cases z <;> intro h <;> first | exact ⟨rfl, rfl⟩ | cases h
  · cases z <;> exact ⟨by decide +kernel, by decide +kernel⟩
  · cases z <;> cases t <;> first
      | exact ⟨fun n hn => (List.not_mem_nil hn).elim, List.Pairwise.nil⟩
      | skip
    refine ⟨fun n hn => ?_, ?_⟩
    · have hn : n ∈ ([0, 1] : List Nat) := hn
      simp only [List.mem_cons, List.not_mem_nil, or_false] at hn
      rcases hn with rfl | rfl <;> exact ⟨_, rfl, rfl, by decide⟩
    · refine List.pairwise_cons.mpr ⟨fun n hn => ?_, List.pairwise_singleton _ _⟩
      have hn : n ∈ ([1] : List Nat) := hn
      simp only [List.mem_cons, List.not_mem_nil, or_false] at hn
      subst hn
      intro a b ha hb
      cases ha; cases hb
      exact ⟨by decide, by decide, by decide⟩

/-- An unstarted zone, which refuses every block. -/
theorem test_witness_RestingZonesStayEmpty : (Zone.reset).state = .disabled ∧ (zone .idle none).state = .idle := by decide +kernel

end Sys2Proof.Tests
end

section
/-! PROOFS. The statements of the family of chapter 1: what every step keeps (O57), the strobe edges and the capture requests (O15,
O16), the domain conversion (O17), the refusals of BEAC (O22), the status requests (O14), the clock (O2) and the resets (O12). -/

namespace Sys2Proof.Machine

/-! ### Bodies and answers of requests -/

@[simp] theorem field_zero_one (b : Byte) (bs : List Byte) : field (b :: bs) 0 1 = b.toNat := rfl

@[simp] theorem field_cons_succ (b : Byte) (bs : List Byte) (off n : Nat) : field (b :: bs) (off + 1) n = field bs off n := rfl

theorem field_two (a b : Byte) : field [a, b] 0 2 = a.toNat + 256 * b.toNat := rfl

@[simp] theorem DomainId.ofCode_code (d : DomainId) : DomainId.ofCode d.code.toNat = some d := by cases d <;> rfl

@[simp] theorem ZoneId.ofCode_code (z : ZoneId) : ZoneId.ofCode z.code.toNat = some z := by cases z <;> rfl

@[simp] theorem StrobeInput.ofCode_code (i : StrobeInput) : StrobeInput.ofCode i.code.toNat = some i := by cases i <;> rfl

/-- A flag byte is sent back as it came. -/
theorem flagBytes_of_flagOf {a : Byte} {f : Bool} (h : flagOf a.toNat = some f) : flagBytes f = [a] := by
  unfold flagOf at h
  split at h
  · next h0 => cases h; exact congrArg (fun b => [b]) (BitVec.eq_of_toNat_eq h0.symm)
  · next h1 => cases h; exact congrArg (fun b => [b]) (BitVec.eq_of_toNat_eq h1.symm)
  · cases h

/-- An accepted request, where the part its rule leaves is named without the receiver's return to HUNT. -/
theorem exec_command_accepted {s : State} {k : RequestKind} {tag : Byte} {body content : List Byte} {q : Part}
    (hk : k ≠ .rset) (hp : s.part.TakesRequests) (hl : k.lengthOk body = true)
    (hh : k.handler body s.part.toHunt = q.toHunt.accept content) :
    exec (k.command tag body) s = .next (s.replied q k tag content) :=
  exec_command_ok (q := q.toHunt) hk hp hl hh

/-! ### Capacities (O57) -/

/-- The objects in report order. -/
def allObjects : List IndicationObject :=
  [.part, .domain .d0, .domain .d1, .zone .z0, .zone .z1, .zone .z2, .zone .z3]

/-- The pairs of section 10.1. -/
def allPairs : List Pair := (allObjects.flatMap (fun o => allKinds.map (fun k => ⟨k, o⟩))).filter Pair.valid

theorem IndicationObject.mem_allObjects (o : IndicationObject) : o ∈ allObjects := by
  rcases o with _ | d | z
  · decide
  · cases d <;> decide
  · cases z <;> decide

theorem IndicationKind.mem_allKinds (k : IndicationKind) : k ∈ allKinds := by cases k <;> decide

theorem Pair.mem_allPairs {q : Pair} (h : q.valid = true) : q ∈ allPairs :=
  List.mem_filter.mpr ⟨List.mem_flatMap.mpr ⟨q.object, q.object.mem_allObjects,
    List.mem_map.mpr ⟨q.kind, q.kind.mem_allKinds, rfl⟩⟩, h⟩

theorem allPairs_length : allPairs.length = 39 := by decide

/-- A pending set holds at most the 39 pairs of section 10.1: the report order keeps its pairs distinct. -/
theorem IndicationUnit.pending_length_le {u : IndicationUnit} (h : u.WithinSet) : u.pending.length ≤ 39 := by
  obtain ⟨hsorted, hmem⟩ := h
  have hnodup : (u.pending.map PendingPair.pair).Nodup :=
    List.pairwise_map.mpr (hsorted.imp (fun hlt he => by rw [he] at hlt; exact Nat.lt_irrefl _ hlt))
  have hsub : u.pending.map PendingPair.pair ⊆ allPairs := by
    intro q hq
    obtain ⟨r, hr, rfl⟩ := List.mem_map.mp hq
    exact Pair.mem_allPairs (hmem r hr).1
  have hle := (hnodup.subperm hsub).length_le
  rwa [List.length_map, allPairs_length] at hle

theorem Part.reset_withinCapacities (mode : LinkMode) (divisor : Byte) (selected : Bool) :
    (Part.reset mode divisor selected).WithinCapacities := by
  refine ⟨⟨Nat.zero_le _, List.nodup_nil⟩, ⟨Nat.zero_le _, fun d => ?_⟩, ⟨Nat.zero_le _, Nat.zero_le _⟩, Nat.zero_le _,
    List.Pairwise.nil, fun q hq => absurd hq List.not_mem_nil⟩
  cases d <;> exact Nat.zero_le _

/-- Everything a step is made of keeps the capacities. -/
theorem Part.keptWithinCapacities : Kept Part.WithinCapacities where
  effect := PartEffect.withinCapacities
  link := fun _ hl ⟨hring, htable, hlist, hqueue, hset⟩ => ⟨hring, htable, hlist, hl hqueue, hset⟩
  reset := Part.reset_withinCapacities
  time := fun _ h => h

/-- Settles O57: every step is made of effects, writes of the link and resets, and each of these keeps the capacities. -/
theorem capacitiesAreKept : Obligations.CapacitiesAreKept :=
  ⟨Part.keptWithinCapacities.keptByStep, fun _ => IndicationUnit.pending_length_le⟩

/-! ### The capture check (R14) -/

theorem Part.checkCapture_gone {p : Part} {n : Byte} {i : StrobeInput} (h : p.capture.find n = none) :
    p.checkCapture n i = .error .captureGone := by simp only [Part.checkCapture, h]

theorem Part.checkCapture_wrongInput {p : Part} {n : Byte} {i : StrobeInput} {c : Capture} (h : p.capture.find n = some c)
    (hi : c.input ≠ i) : p.checkCapture n i = .error .wrongInput := by simp only [Part.checkCapture, h, hi, if_false]

theorem Part.checkCapture_ok {p : Part} {n : Byte} {i : StrobeInput} {c : Capture} (h : p.capture.find n = some c)
    (hi : c.input = i) : p.checkCapture n i = .ok c := by simp only [Part.checkCapture, h, hi, if_true]

/-- A capture is found under its own number. -/
theorem CaptureUnit.find_number {u : CaptureUnit} {n : Byte} {c : Capture} (h : u.find n = some c) : c.number = n :=
  beq_iff_eq.mp (List.find?_some (p := fun c : Capture => c.number == n) h)

/-! ### Strobe edges (O15) -/

theorem exec_strobeEdge_disabled {s : State} {i : StrobeInput} (h : s.part.capture.enabled i = false) :
    exec (.strobeEdge i) s = .next s := by
  simp [exec, execStrobeEdge, State.complete, h]

theorem exec_strobeEdge_taken {s : State} {i : StrobeInput} (h : s.part.capture.enabled i = true)
    (hl : s.part.capture.last i ≠ some s.part.localTime) :
    exec (.strobeEdge i) s = .next { s with part := s.part.makeCapture i } := by
  simp [exec, execStrobeEdge, State.complete, h, hl]

/-- Where the new number does not stand in the ring, the first stage of R9 removes nothing. -/
theorem makeRoom_of_absent {n : Byte} {ring : List Capture} (h : ∀ c ∈ ring, c.number ≠ n) :
    makeRoom n ring = if Config.ringCapacity ≤ ring.length then ring.tail else ring := by
  have hf : ring.filter (fun c => c.number != n) = ring := List.filter_eq_self.mpr (fun c hc => bne_iff_ne.mpr (h c hc))
  simp only [makeRoom, hf]

/-- Where it does, its capture goes and the second stage finds room. -/
theorem makeRoom_of_present {n : Byte} {ring : List Capture} {c : Capture} (hc : c ∈ ring) (hn : c.number = n)
    (hl : ring.length ≤ Config.ringCapacity) :
    makeRoom n ring = ring.filter (fun c => c.number != n) ∧ (makeRoom n ring).length < ring.length := by
  have hlt : (ring.filter (fun c => c.number != n)).length < ring.length :=
    List.length_filter_lt_length_iff_exists.mpr ⟨c, hc, by simp [hn]⟩
  have he : makeRoom n ring = ring.filter (fun c => c.number != n) := if_neg (Nat.not_le.mpr (Nat.lt_of_lt_of_le hlt hl))
  exact ⟨he, he ▸ hlt⟩

/-- The part with a capture of the input at the present tick after the ring given. -/
def Part.appendCapture (p : Part) (i : StrobeInput) (ring : List Capture) : Part :=
  { p with capture := ({ p.capture with ring := ring ++ [⟨p.capture.counter, i, p.localTime⟩]
                                        counter := p.capture.counter + 1 } : CaptureUnit).setLast i p.localTime }

/-- An append that removes nothing raises nothing (R9). -/
theorem Part.makeCapture_kept {p : Part} (i : StrobeInput) (h : makeRoom p.capture.counter p.capture.ring = p.capture.ring) :
    p.makeCapture i = p.appendCapture i p.capture.ring := by
  unfold Part.makeCapture
  simp only [h, Nat.lt_irrefl, if_false]
  rfl

/-- An append that removes a capture raises and counts the overwrite (R9). -/
theorem Part.makeCapture_overwrite {p : Part} (i : StrobeInput) {ring : List Capture}
    (h : makeRoom p.capture.counter p.capture.ring = ring) (hl : ring.length < p.capture.ring.length) :
    p.makeCapture i = (p.appendCapture i ring).overwrite := by
  unfold Part.makeCapture
  simp only [h, hl, if_true]
  rfl

/-- Settles O15, by what the append removes: nothing, the oldest of 32, or the captures of the same number. -/
theorem edgeMakesCapture : Obligations.EdgeMakesCapture := by
  intro s i u new appended overwritten
  refine ⟨exec_strobeEdge_disabled, fun he hl => ⟨fun habsent hlen => ?_, fun habsent hlen => ?_, fun c hc hn hlen => ?_⟩⟩
  · have hroom := (makeRoom_of_absent habsent).trans (if_neg (Nat.not_le.mpr hlen))
    rw [exec_strobeEdge_taken he hl, Part.makeCapture_kept i hroom]
    rfl
  · have hroom := (makeRoom_of_absent habsent).trans (if_pos (Nat.le_of_eq hlen.symm))
    have hlt : u.ring.tail.length < u.ring.length := by rw [List.length_tail]; omega
    rw [exec_strobeEdge_taken he hl, Part.makeCapture_overwrite i hroom hlt]
    rfl
  · obtain ⟨hroom, hlt⟩ := makeRoom_of_present hc hn hlen
    rw [exec_strobeEdge_taken he hl, Part.makeCapture_overwrite i hroom (hroom ▸ hlt)]
    rfl

/-! ### CAPC, CAPD and STMP (O16) -/

theorem handleCapc_flags {a b : Byte} {rx tx : Bool} (ha : flagOf a.toNat = some rx) (hb : flagOf b.toNat = some tx) (p : Part) :
    handleCapc [a, b] p =
      ({ p with capture := { p.capture with rxEnabled := rx, txEnabled := tx } } : Part).accept [a, b] := by
  simp [handleCapc, ha, hb, flagBytes_of_flagOf ha, flagBytes_of_flagOf hb]

/-- STMP of an untimed domain (R15). -/
theorem handleStmp_untimed {p : Part} {d : DomainId} (h : (p.domain d).state.timed = false) (n : Byte) (i : StrobeInput) :
    handleStmp [d.code, n, i.code] p = p.refuse .untimed := by
  simp [handleStmp, h]

section
variable {p : Part} {d : DomainId} {a : Anchor} {n : Byte} {i : StrobeInput} (ht : (p.domain d).state.timed = true)
  (ha : (p.domain d).anchor = some a)
include ht ha

/-- STMP of a timed domain whose capture check fails (R14, R15). -/
theorem handleStmp_badCapture {status : Status} (hc : p.checkCapture n i = .error status) :
    handleStmp [d.code, n, i.code] p = p.refuse status := by
  simp [handleStmp, ht, ha, hc]

/-- STMP of a timed domain whose capture check passes (R15). -/
theorem handleStmp_claims {c : Capture} (hc : p.checkCapture n i = .ok c) :
    handleStmp [d.code, n, i.code] p = (p.claim c.number).accept
      (timeBytes (convert a (p.domain d).code c.time) ++ timeBytes c.time ++ [c.input.code]) := by
  simp [handleStmp, ht, ha, hc]

end

/-- Settles O16, request by request; the rules run on the part whose receiver is back in HUNT. -/
theorem captureRequests : Obligations.CaptureRequests := by
  refine ⟨fun s tag a b rx tx hp => ⟨fun ha hb => ?_, ?_⟩, fun s tag n d i hp => ⟨fun hu => ?_, fun a ht ha =>
    ⟨fun hgone => ?_, fun c hc hi => ?_, fun c hc hi => ?_⟩⟩⟩
  · exact exec_command_accepted (k := .capc) (by decide) hp rfl (handleCapc_flags ha hb s.part.toHunt)
  · exact exec_command_accepted (k := .capd) (by decide) hp rfl rfl
  · exact exec_command_refused (k := .stmp) hp rfl (handleStmp_untimed (p := s.part.toHunt) hu n i)
  · exact exec_command_refused (k := .stmp) hp rfl
      (handleStmp_badCapture (p := s.part.toHunt) ht ha (Part.checkCapture_gone hgone))
  · exact exec_command_refused (k := .stmp) hp rfl
      (handleStmp_badCapture (p := s.part.toHunt) ht ha (Part.checkCapture_wrongInput hc hi))
  · have hh := handleStmp_claims (p := s.part.toHunt) ht ha (Part.checkCapture_ok hc hi)
    rw [CaptureUnit.find_number hc, hi] at hh
    exact exec_command_accepted (k := .stmp) (by decide) hp rfl hh

/-! ### The domain conversion (O17) -/

/-- A rounded quotient is at most half a unit off, and a value exactly halfway goes away from zero. -/
theorem roundHalfAway_spec (n : Int) (d : Nat) (hd : 0 < d) :
    2 * ((d : Int) * roundHalfAway n d - n).natAbs ≤ d ∧
    (2 * ((d : Int) * roundHalfAway n d - n).natAbs = d → n.natAbs < ((d : Int) * roundHalfAway n d).natAbs) := by
  have quotient : ∀ m : Int, 2 * ((d : Int) * ((2 * m + d) / (2 * d))) ≤ 2 * m + d ∧
      2 * m + d < 2 * ((d : Int) * ((2 * m + d) / (2 * d))) + 2 * d := by
    intro m
    have hlo := Int.mul_ediv_self_le (x := 2 * m + d) (k := 2 * (d : Int)) (by omega)
    have hhi := Int.lt_mul_ediv_self_add (x := 2 * m + d) (k := 2 * (d : Int)) (by omega)
    rw [Int.mul_assoc] at hlo hhi
    exact ⟨hlo, hhi⟩
  unfold roundHalfAway
  split
  · obtain ⟨hlo, hhi⟩ := quotient n
    generalize (d : Int) * ((2 * n + d) / (2 * d)) = r at *
    omega
  · obtain ⟨hlo, hhi⟩ := quotient (-n)
    rw [Int.mul_neg]
    generalize (d : Int) * ((2 * -n + d) / (2 * d)) = r at *
    omega

theorem toDomainTime_of_lt {x : Int} (h0 : 0 ≤ x) (h : x < 2 ^ 64) : ((toDomainTime x : Nat) : Int) = x := by
  rw [toDomainTime, if_pos ⟨h0, h⟩, Int.toNat_of_nonneg h0]

/-- Settles O17: the correction is `roundHalfAway` of the exact product, the rest is whole. -/
theorem conversionIsRoundedOnce : Obligations.ConversionIsRoundedOnce := by
  intro a code t d n
  obtain ⟨hnear, haway⟩ := roundHalfAway_spec n 64000000 (by decide)
  refine ⟨roundHalfAway n 64000000, hnear, haway, fun hneg => ?_, fun hpos hlt => ?_⟩
  · exact if_pos hneg
  · exact (congrArg _ (if_neg (Int.not_lt.mpr hpos))).trans (toDomainTime_of_lt hpos hlt)

/-! ### The refusals of BEAC (O22) -/

theorem Domain.following_iff (x : Domain) : x.following = true ↔ x.setup.role = .follow ∧ x.state ≠ .unbound := by
  simp [Domain.following]

theorem newer_iff (s r : Word16) : newer s r = true ↔ 1 ≤ (s - r).toNat ∧ (s - r).toNat ≤ 32767 := by
  simp [newer]

theorem Domain.accepts_after {x : Domain} {last : Word16} (h : x.lastSequence = some last) (n : Word16) :
    x.accepts n = newer n last := by
  simp only [Domain.accepts, h]

section
variable {body : List Byte} {p : Part} {d : DomainId} (hd : DomainId.ofCode (field body 0 1) = some d)
include hd

theorem handleBeac_notFollowing (hf : (p.domain d).following = false) : handleBeac body p = p.refuse .wrongState := by
  simp [handleBeac, hd, hf]

theorem handleBeac_badCapture {status : Status} (hf : (p.domain d).following = true)
    (hc : p.checkCapture (BitVec.ofNat 8 (field body 1 1)) .rx = .error status) : handleBeac body p = p.refuse status := by
  simp [handleBeac, hd, hf, hc]

theorem handleBeac_leaderMismatch {c : Capture} (hf : (p.domain d).following = true)
    (hc : p.checkCapture (BitVec.ofNat 8 (field body 1 1)) .rx = .ok c)
    (hl : (p.domain d).setup.leaderId ≠ BitVec.ofNat 32 (field body 2 4)) : handleBeac body p = p.refuse .leaderMismatch := by
  simp [handleBeac, hd, hf, hc, hl]

theorem handleBeac_stale {c : Capture} (hf : (p.domain d).following = true)
    (hc : p.checkCapture (BitVec.ofNat 8 (field body 1 1)) .rx = .ok c)
    (hl : (p.domain d).setup.leaderId = BitVec.ofNat 32 (field body 2 4))
    (ha : (p.domain d).accepts (BitVec.ofNat 16 (field body 6 2)) = false) : handleBeac body p = p.refuse .stale := by
  simp [handleBeac, hd, hf, hc, hl, ha]

end

/-- Settles O22, check by check in R21's order. -/
theorem beaconRefusals : Obligations.BeaconRefusals := by
  intro s tag body d hp hlen hd x n follows
  have hl : RequestKind.lengthOk .beac body = true := decide_eq_true hlen
  have hfollows : x.following = true ↔ follows := x.following_iff
  refine ⟨fun hn => ?_, fun hf hgone => ?_, fun c hf hc =>
    ⟨fun hi => ?_, fun hi hlead => ?_, fun last hi hlead hseq hold => ?_⟩⟩
  · exact exec_command_refused (k := .beac) hp hl
      (handleBeac_notFollowing hd (Bool.eq_false_iff.mpr (mt hfollows.mp hn)))
  · exact exec_command_refused (k := .beac) hp hl
      (handleBeac_badCapture hd (hfollows.mpr hf) (Part.checkCapture_gone hgone))
  · exact exec_command_refused (k := .beac) hp hl
      (handleBeac_badCapture hd (hfollows.mpr hf) (Part.checkCapture_wrongInput hc (by rw [hi]; decide)))
  · exact exec_command_refused (k := .beac) hp hl
      (handleBeac_leaderMismatch hd (hfollows.mpr hf) (Part.checkCapture_ok hc hi) hlead)
  · have hstale : x.accepts (BitVec.ofNat 16 (field body 6 2)) = false := by
      rw [Domain.accepts_after hseq]
      exact Bool.eq_false_iff.mpr (mt (newer_iff _ last).mp hold)
    exact exec_command_refused (k := .beac) hp hl
      (handleBeac_stale hd (hfollows.mpr hf) (Part.checkCapture_ok hc hi) hlead hstale)

/-! ### Status requests (O14) -/

theorem handleDsta_code (d : DomainId) (p : Part) : handleDsta [d.code] p = p.accept (p.domainReport d) := by
  simp [handleDsta]

theorem handleZsta_code (z : ZoneId) (p : Part) : handleZsta [z.code] p = p.accept (p.zoneReport z) := by
  simp [handleZsta]

/-- POOL with the slot number 0xFFFF reports the counts alone (R73). -/
theorem handlePool_counts (p : Part) : handlePool [0xFF#8, 0xFF#8] p = p.accept p.pool.bytes := rfl

/-- POOL of a slot number reports the slot beside the counts (R73). -/
theorem handlePool_slot {a b : Byte} (h : a.toNat + 256 * b.toNat < 512) (p : Part) :
    handlePool [a, b] p = p.accept (p.pool.bytes ++ p.pool.slotBytes (a.toNat + 256 * b.toNat)) := by
  have hall : a.toNat + 256 * b.toNat ≠ 65535 := by omega
  simp [handlePool, field_two, Config.poolSlots, h, hall]

theorem handleIndr_selector {a : Byte} {sel : IndicationSelector}
    (h : IndicationSelector.ofCode a.toNat = some sel) (p : Part) : handleIndr [a] p = p.accept (p.indicationReport sel) := by
  simp [handleIndr, h]

theorem objectsNamed_index (o : IndicationObject) : objectsNamed (o.index + 1) = some [o] := by
  rcases o with _ | d | z
  · rfl
  · cases d <;> rfl
  · cases z <;> rfl

theorem handleTred_objects {a : Byte} {objects : List IndicationObject} (h : objectsNamed a.toNat = some objects) (p : Part) :
    handleTred [a] p = p.accept (p.tallies.snapshot.report objects) := by
  simp [handleTred, h]

/-- The pool's counts, with the four holder counts as one list. -/
theorem BlockPool.bytes_eq (pool : BlockPool) : pool.bytes =
    leBytes 2 pool.freeCount ++ leBytes 2 pool.held.length ++ leBytes 2 pool.watermark ++
      optBytes 2 (leBytes 2) pool.lowestFree ++ [1, 2, 3, 4].flatMap (fun k => leBytes 2 (pool.countHolders k)) := by
  simp only [BlockPool.bytes, List.flatMap_cons, List.flatMap_nil, List.append_nil, List.append_assoc]

/-- No end point outside STOPPING. -/
theorem ZoneState.endPoint_none {q : ZoneState} (h : ∀ t, q ≠ .stopping t) : q.endPoint = none := by
  cases q with
  | stopping t => exact absurd rfl (h t)
  | _ => rfl

/-- Settles O14, request by request: each rule reports from the part as it stands. The statement lists a report's fields flat,
where the model groups those of ZSTA and of POOL. -/
theorem statusRequestsChangeNothing : Obligations.StatusRequestsChangeNothing := by
  intro s tag hp
  refine ⟨?_, fun d => ?_, fun z => ?_, ⟨?_, fun a b hab => ?_⟩, fun a sel hsel => ?_, fun a objects ho => ?_, ?_⟩
  · exact exec_command_accepted (k := .capl) (by decide) hp rfl rfl
  · exact exec_command_accepted (k := .dsta) (by decide) hp rfl (handleDsta_code d s.part.toHunt)
  · have h : exec (.zsta tag [z.code]) s = .next (s.replied s.part .zsta tag (s.part.zoneReport z)) :=
      exec_command_accepted (k := .zsta) (by decide) hp rfl (handleZsta_code z s.part.toHunt)
    refine h.trans (congrArg (fun c => Host.Outcome.next (s.replied s.part .zsta tag c)) ?_)
    simp only [Part.zoneReport, Part.summaryBytes, Mixer.bytes, ZoneSetup.bytes, MixerSetup.bytes, Zone.markerBytes,
      BlockPool.queueBytes, Ramp.bytes, ← List.append_assoc]
    split
    · next stop hstate => rw [hstate]; rfl
    · next hstate => rw [ZoneState.endPoint_none hstate]; rfl
  · refine exec_command_accepted (k := .pool) (by decide) hp rfl ((handlePool_counts _).trans ?_)
    rw [BlockPool.bytes_eq]; rfl
  · refine exec_command_accepted (k := .pool) (by decide) hp rfl ((handlePool_slot hab _).trans ?_)
    rw [BlockPool.bytes_eq]; rfl
  · exact exec_command_accepted (k := .indr) (by decide) hp rfl (handleIndr_selector hsel s.part.toHunt)
  · have hnamed : objectsNamed a.toNat = some objects := by
      rcases ho with ⟨rfl, rfl⟩ | ⟨o, ha, rfl⟩
      · rfl
      · rw [ha]; exact objectsNamed_index o
    exact exec_command_accepted (k := .tred) (by decide) hp rfl (handleTred_objects hnamed s.part.toHunt)
  · exact exec_command_accepted (k := .helo) (by decide) hp rfl rfl

/-! ### The clock (O2) -/

theorem Part.silenceReached_iff (p : Part) : p.silenceReached = true ↔
    p.link.mode = .uart ∧ p.link.receiver ≠ .hunt ∧ ∃ d, p.link.silence = some d ∧ d ≤ p.localTime := by
  have hframe : p.link.receiver.inFrame = true ↔ p.link.receiver ≠ .hunt := by
    cases p.link.receiver <;> simp [Receiver.inFrame]
  have hdeadline : p.reached p.link.silence = true ↔ ∃ d, p.link.silence = some d ∧ d ≤ p.localTime := by
    cases p.link.silence <;> simp [Part.reached]
  rw [Part.silenceReached, Bool.and_eq_true, Bool.and_eq_true, beq_iff_eq, hframe, hdeadline, and_assoc]

/-- A stopped deadline is not reached (R2). -/
theorem Part.silenceReached_stopSilence (p : Part) : p.stopSilence.silenceReached = false := by
  simp [Part.silenceReached, Part.stopSilence, Part.reached]

/-- The expiry of a reached silence deadline is due. -/
theorem Part.silenceExpiry_mem_dueEvents {p : Part} (h : p.silenceReached = true) : .inFrameSilenceExpiry ∈ p.dueEvents := by
  simp [Part.dueEvents, dueIf, h]

theorem State.askStartBit_unreached {s : State} (h : s.part.silenceReached = false) : s.askStartBit = s := by
  simp [State.askStartBit, h]

theorem State.askStartBit_reached {s : State} (h : s.part.silenceReached = true) :
    s.askStartBit =
      { s with part := if Config.startBitBegun s.draws = true then s.part.stopSilence else s.part, draws := s.draws + 1 } :=
  if_pos h

/-- With nothing due, the clock advances local time by one tick (R1). -/
theorem State.idle_nothingDue {s : State} (h : s.askStartBit.part.dueEvents = []) :
    s.idle = { s.askStartBit with part := { s.askStartBit.part with localTime := s.askStartBit.part.localTime + 1 } } := by
  simp only [State.idle, h]

/-- What is due joins the empty queue. -/
theorem State.idle_due {s : State} (h : s.askStartBit.part.dueEvents ≠ []) :
    s.idle = { s.askStartBit with pending := s.askStartBit.part.dueEvents } := by
  obtain ⟨c, cs, hc⟩ := List.exists_cons_of_ne_nil h
  simp only [State.idle, hc]

theorem step_emptyQueue {s : State} (h : s.pending = []) : step s = .next s.idle := by simp only [step, h]

/-- The clock's outcome depends on a state only through the state it has after asking for the start bit. -/
theorem State.idle_congr {s t : State} (h : s.askStartBit = t.askStartBit) : s.idle = t.idle := by
  unfold State.idle; rw [h]

/-- Where the start bit has begun, the clock runs on without the deadline that it stops. -/
theorem State.idle_startBitBegun {s : State} (h : s.part.silenceReached = true) (hbit : Config.startBitBegun s.draws = true) :
    s.idle = ({ s with part := s.part.stopSilence, draws := s.draws + 1 } : State).idle := by
  refine State.idle_congr ?_
  rw [State.askStartBit_reached h, if_pos hbit, State.askStartBit_unreached s.part.silenceReached_stopSilence]

/-- Where it has not, the deadline stands, and the expiry is queued with what else is due. -/
theorem State.idle_startBitAwaited {s : State} (h : s.part.silenceReached = true) (hbit : ¬Config.startBitBegun s.draws = true) :
    s.idle = { s with pending := s.part.dueEvents, draws := s.draws + 1 } := by
  have hask := State.askStartBit_reached h
  rw [if_neg hbit] at hask
  rw [State.idle_due (by rw [hask]; exact List.ne_nil_of_mem (Part.silenceExpiry_mem_dueEvents h)), hask]

/-- Settles O2, by whether the silence deadline is reached and, if so, whether the start bit that stops it has begun. -/
theorem emptyQueueRunsTheClock : Obligations.EmptyQueueRunsTheClock := by
  intro s hs l reached
  have hreached : s.part.silenceReached = true ↔ reached := s.part.silenceReached_iff
  refine ⟨fun hn => ?_, fun hr => ?_⟩
  · have hask := State.askStartBit_unreached (Bool.eq_false_iff.mpr (mt hreached.mp hn))
    refine ⟨fun hdue => ?_, fun c cs hdue => ?_⟩
    · rw [step_emptyQueue hs, State.idle_nothingDue (hask.symm ▸ hdue), hask]
    · rw [step_emptyQueue hs, State.idle_due (by simp [hask, hdue]), hask, hdue]
  · have hr := hreached.mpr hr
    refine ⟨Part.silenceExpiry_mem_dueEvents hr, ?_⟩
    split
    · next hbit =>
      rw [step_emptyQueue hs, State.idle_startBitBegun hr hbit]
      exact (step_emptyQueue (s := { s with part := s.part.stopSilence, draws := s.draws + 1 }) hs).symm
    · next hbit => rw [step_emptyQueue hs, State.idle_startBitAwaited hr hbit]

/-! ### The resets (O12) -/

/-- In the pool of the reset every slot is on the free list (R87). -/
theorem BlockPool.freeList_reset : BlockPool.reset.freeList = List.range 512 :=
  List.filter_eq_self.mpr (fun _ _ => rfl)

/-- A reset with LSEL low takes SPI mode and keeps the level of nCS (log 9). -/
theorem Part.strapReset_low (p : Part) : p.strapReset .low = Part.reset .spi 7#8 p.link.selected :=
  congrArg (Part.reset .spi 7#8) (Bool.and_true _)

/-- A reset with LSEL high takes UART mode. -/
theorem Part.strapReset_high (p : Part) : p.strapReset .high = Part.reset .uart 7#8 false :=
  congrArg (Part.reset .uart 7#8) (Bool.and_false _)

theorem exec_powerOn (l : Level) (s : State) : exec (.powerOn l) s = .next { s with part := s.part.strapReset l } := rfl

theorem exec_pinReset (l : Level) (s : State) : exec (.pinReset l) s = .next { s with part := s.part.strapReset l } := rfl

/-- The reset of an RSET that has been taken (R187, R189). -/
theorem exec_rsetReset {s : State} (h : s.part.link.deaf = true) :
    exec .rsetReset s =
      .next { s with part := Part.reset s.part.link.mode s.part.link.divisor s.part.link.selected } := by
  simp only [exec, execRsetReset, State.complete, h, if_true, Part.rsetReset]

/-- Settles O12: each reset leaves `Part.reset`, whose values are those written out. -/
theorem resetsResetThePart : Obligations.ResetsResetThePart := by
  unfold Obligations.ResetsResetThePart
  intro setup unbound mixerSetup zoneSetup mixer disabled zero zoneTallies domainTallies counters noZone fresh
  have hfresh : ∀ mode divisor selected, Part.reset mode divisor selected = fresh mode divisor selected :=
    fun _ _ _ => rfl
  refine ⟨fun s => ⟨?_, ?_, ?_, ?_, fun hdeaf => ?_⟩, fun mode divisor selected => ?_⟩
  · rw [exec_powerOn, Part.strapReset_low, hfresh]
  · rw [exec_powerOn, Part.strapReset_high, hfresh]
  · rw [exec_pinReset, Part.strapReset_low, hfresh]
  · rw [exec_pinReset, Part.strapReset_high, hfresh]
  · rw [exec_rsetReset hdeaf, hfresh]
  · intro p
    refine ⟨rfl, BlockPool.freeList_reset, fun d => ?_, fun line => rfl, hfresh mode divisor selected⟩
    cases d <;> rfl

end Sys2Proof.Machine
end

section
/-! PROOFS. The statements of the family of chapters 2 and 3, time domains, and the expiry of an echo record: DSET and DRUN
(O18 to O20), the heard sample (O21), BEAC in every state of a following domain (O23 to O25), LCHG and DREL (O26), the
deadlines of a domain (O27) and of an echo record (O30). -/

namespace Sys2Proof.Machine

/-! ### Writes of a domain record -/

@[simp] theorem Part.setDomain_setDomain (p : Part) (d : DomainId) (x y : Domain) :
    (p.setDomain d x).setDomain d y = p.setDomain d y := by simp [Part.setDomain]

/-- A raise and a write of a domain record commute. -/
theorem Part.setDomain_raise (p : Part) (k : IndicationKind) (o : IndicationObject) (d : DomainId) (x : Domain) :
    (p.raise k o).setDomain d x = (p.setDomain d x).raise k o := rfl

/-! ### Counters (R172) -/

/-- A rise of a counter writes the indications and the tallies alone. -/
theorem Part.tally_eq (p : Part) (i : TallyId) :
    p.tally i = { p with indications := (p.tally i).indications, tallies := (p.tally i).tallies } := by
  simp only [Part.tally]; split <;> rfl

/-- Below its ceiling a counter rises by one and raises nothing. -/
theorem Part.tally_below {p : Part} {i : TallyId} (h : (p.tallies.live.get i).value < Config.counterCeiling) :
    p.tally i = { p with tallies := { p.tallies with
      live := p.tallies.live.set i { p.tallies.live.get i with value := (p.tallies.live.get i).value + 1 } } } := by
  simp only [Part.tally, Counter.rise, h, if_true, Bool.false_eq_true, if_false]

theorem TallySet.get_set_same (s : TallySet) (i : TallyId) (c : Counter) : (s.set i c).get i = c := by
  rcases i with ⟨z, t⟩ | ⟨d, t⟩ | t
  · cases t <;> simp [TallySet.get, TallySet.set, ZoneTallies.get, ZoneTallies.set]
  · cases t <;> simp [TallySet.get, TallySet.set, DomainTallies.get, DomainTallies.set]
  · cases t <;> rfl

/-! ### Alarms (R39) -/

/-- An alarm that is as it should be stays, and nothing is raised. -/
theorem Part.setAlarm_same {p : Part} {d : DomainId} {a : Alarm} {b : Bool} (h : (p.domain d).alarm a = b) :
    p.setAlarm d a b = p := if_pos h

/-- An alarm that changes is written and raises DOMAIN_ALARM. -/
theorem Part.setAlarm_change {p : Part} {d : DomainId} {a : Alarm} {b : Bool} (h : (p.domain d).alarm a ≠ b) :
    p.setAlarm d a b = (p.setDomain d ((p.domain d).withAlarm a b)).raise .domainAlarm (.domain d) := if_neg h

theorem Domain.withAlarm_self {x : Domain} {a : Alarm} {b : Bool} (h : x.alarm a = b) : x.withAlarm a b = x := by
  subst h; cases a <;> rfl

/-- Whether or not an alarm changes, the domain record has it as it should be, and all else as it was. -/
theorem Part.domain_setAlarm (p : Part) (d : DomainId) (a : Alarm) (b : Bool) :
    (p.setAlarm d a b).domain d = (p.domain d).withAlarm a b := by
  by_cases h : (p.domain d).alarm a = b
  · rw [Part.setAlarm_same h, Domain.withAlarm_self h]
  · rw [Part.setAlarm_change h, Part.domain_raise, Part.domain_setDomain, if_pos rfl]

@[simp] theorem Part.state_setAlarm (p : Part) (d : DomainId) (a : Alarm) (b : Bool) :
    ((p.setAlarm d a b).domain d).state = (p.domain d).state := by
  rw [Part.domain_setAlarm]; cases a <;> rfl

@[simp] theorem Part.localTime_setAlarm (p : Part) (d : DomainId) (a : Alarm) (b : Bool) :
    (p.setAlarm d a b).localTime = p.localTime := by
  unfold Part.setAlarm; split <;> rfl

/-! ### DSET (O18) -/

section
variable {body : List Byte} {d : DomainId} {setup : DomainSetup} (hd : DomainId.ofCode (field body 0 1) = some d)
  (hs : DomainSetup.ofBody body = some setup)
include hd hs

theorem handleDset_unbound {p : Part} (hu : (p.domain d).state = .unbound) :
    handleDset body p = (p.setDomain d { p.domain d with setup := setup }).accept setup.bytes := by
  simp only [handleDset, hd, hs, hu, if_true]

theorem handleDset_bound {p : Part} (hu : (p.domain d).state ≠ .unbound) : handleDset body p = p.refuse .wrongState := by
  simp only [handleDset, hd, hs, hu, if_false]

end

/-- Settles O18, by whether the domain is UNBOUND. -/
theorem domainSetupIsWritten : Obligations.DomainSetupIsWritten := by
  intro s tag body d setup hp hlen hd hs
  have hl : RequestKind.lengthOk .dset body = true := decide_eq_true hlen
  refine ⟨fun hu => ?_, fun hb => ?_⟩
  · exact exec_command_accepted (k := .dset) (by decide) hp hl (handleDset_unbound (p := s.part.toHunt) hd hs hu)
  · exact exec_command_refused (k := .dset) hp hl (handleDset_bound (p := s.part.toHunt) hd hs hb)

/-! ### DRUN (O19, O20) -/

section
variable {body : List Byte} {d : DomainId} {form : RunForm} (hd : DomainId.ofCode (field body 0 1) = some d)
  (hf : RunForm.ofCodes (field body 1 1) (field body 2 8) = some form)
include hd hf

theorem handleDrun_unbound {p : Part} (hu : (p.domain d).state = .unbound) : handleDrun body p = p.run d form := by
  simp only [handleDrun, hd, hf, hu, if_true]

theorem handleDrun_bound {p : Part} (hu : (p.domain d).state ≠ .unbound) : handleDrun body p = p.refuse .wrongState := by
  simp only [handleDrun, hd, hf, hu, if_false]

end

section
variable {p : Part} {d : DomainId}

/-- A follow form starts a following domain from the nominal code, or from the hint (R18). -/
theorem Part.run_follow {form : RunForm} {kind : StartKind} {code : Nat} (hr : (p.domain d).setup.role = .follow)
    (hf : form = .followCold ∧ kind = .cold ∧ code = 32768 ∨ form = .followWarm code ∧ kind = .warm) :
    p.run d form = (p.runFollow d kind code).acceptFollow d := by
  rcases hf with ⟨rfl, rfl, rfl⟩ | ⟨rfl, rfl⟩ <;> simp only [Part.run, hr, Config.nominalCode]

/-- The reply of a follow DRUN: ACQUIRE, WAITING and the code (R18). -/
theorem Part.acceptFollow_runFollow (kind : StartKind) (code : Nat) :
    (p.runFollow d kind code).acceptFollow d = (p.runFollow d kind code).accept ([1#8, 0#8] ++ leBytes 2 code) := by
  simp [Part.acceptFollow, Part.runFollow, Part.raiseDomainState, Domain.stateBytes, DomainState.code, DomainState.phaseCode]

theorem Part.run_leadFrom (hr : (p.domain d).setup.role = .lead) (t0 : DomainTime) :
    p.run d (.leadFrom t0) = p.acceptLead d ⟨p.localTime, t0⟩ 32768 := by
  simp only [Part.run, hr, Config.nominalCode]

/-- A domain that another can inherit its timeline from (R19). -/
def Domain.Inheritable (x : Domain) : Prop := x.setup.role = .follow ∧ (x.state = .track ∨ x.state = .holdover)

theorem Part.run_leadInherit {y : DomainId} {a : Anchor} (hr : (p.domain d).setup.role = .lead)
    (hy : (p.domain y).Inheritable) (ha : (p.domain y).anchor = some a) :
    p.run d (.leadInherit y) = p.acceptLead d a (p.domain y).code := by
  obtain ⟨hf, hs | hs⟩ := hy <;> simp only [Part.run, hr, hf, hs, ha]

theorem Part.run_leadInherit_refused {y : DomainId} (hr : (p.domain d).setup.role = .lead)
    (hy : ¬(p.domain y).Inheritable) : p.run d (.leadInherit y) = p.refuse .wrongState := by
  simp only [Part.run, hr]
  split
  · next hf hs _ => exact absurd ⟨hf, .inl hs⟩ hy
  · next hf hs _ => exact absurd ⟨hf, .inr hs⟩ hy
  · rfl

/-- A form of the other role is refused (R18). -/
theorem Part.run_wrongForm {form : RunForm}
    (h : ¬((p.domain d).setup.role = .follow ↔ (form = .followCold ∨ ∃ hint, form = .followWarm hint))) :
    p.run d form = p.refuse .badField := by
  unfold Part.run
  split
  · next hr => exact absurd (iff_of_true hr (.inl rfl)) h
  · next hint hr => exact absurd (iff_of_true hr (.inr ⟨hint, rfl⟩)) h
  · next t0 hr => exact absurd (by simp [hr]) h
  · next y hr => exact absurd (by simp [hr]) h
  · rfl

end

/-- Settles O19: what `runFollow` writes is what is written out. -/
theorem followDrunBeginsAcquisition : Obligations.FollowDrunBeginsAcquisition := by
  intro s tag body d form kind code hp hlen hd hf hform hu hr x
  have hl : RequestKind.lengthOk .drun body = true := decide_eq_true hlen
  have hrun := (handleDrun_unbound (p := s.part.toHunt) hd hf hu).trans
    ((Part.run_follow (p := s.part.toHunt) hr hform).trans (Part.acceptFollow_runFollow kind code))
  exact exec_command_accepted (k := .drun) (by decide) hp hl hrun

/-! ### Resumes (R127) -/

section
variable {p : Part} {z : ZoneId}

theorem Part.resumeZone_armed (h : (p.zone z).state = .held .armed) : p.resumeZone z = p.resumeArmed z := by
  simp only [Part.resumeZone, h]

theorem Part.resumeZone_running (h : (p.zone z).state = .held .running) : p.resumeZone z = p.resumeRunning z := by
  simp only [Part.resumeZone, h]

theorem Part.resumeZone_other (ha : (p.zone z).state ≠ .held .armed) (hr : (p.zone z).state ≠ .held .running) :
    p.resumeZone z = p := by
  unfold Part.resumeZone
  split
  · next h => exact absurd h ha
  · next h => exact absurd h hr
  all_goals rfl

/-- The part once the due entries of a resume have been applied, R127's steps up to the judgement. -/
def Part.resumeCaughtUp (p : Part) (z : ZoneId) : Part :=
  let x := p.zone z
  let pos := positionAt (p.target z (p.nextFrameTime z))
  let tested := (p.jump z (p.target z (p.nextFrameTime z))).testLowWatermark z x.mainQueue.length
  (if positionAt x.setup.reseekThreshold < ((x.pos : Int) - pos).natAbs then tested.raise .reseek (.zone z)
   else tested).applyDue z pos

/-- A resume whose due entries leave the zone held takes the state that the content gives. -/
theorem Part.resumeRunning_judged (h : ((p.resumeCaughtUp z).zone z).state = (p.zone z).state) :
    p.resumeRunning z = ((p.resumeCaughtUp z).setZone z { (p.resumeCaughtUp z).zone z with
      state := (p.resumeCaughtUp z).contentState z (positionAt (p.target z (p.nextFrameTime z))) }).raiseZoneState z :=
  if_pos h

/-- A resume that a STOP ends goes no further. -/
theorem Part.resumeRunning_stopped (h : ((p.resumeCaughtUp z).zone z).state ≠ (p.zone z).state) :
    p.resumeRunning z = p.resumeCaughtUp z := if_neg h

end

/-- Settles O20: the forms and checks of DRUN one by one, then a resume by the state that is resumed. -/
theorem leadDrunRunsFromAnAnchor : Obligations.LeadDrunRunsFromAnAnchor := by
  refine ⟨fun s tag body d form a code hp hlen hd hf hform hu hr => ?_, fun s tag body d form hp hlen hd hf => ?_,
    fun p d => rfl, ?_⟩
  · have hrun : s.part.toHunt.run d form = s.part.toHunt.acceptLead d a code := by
      rcases hform with ⟨t0, rfl, rfl, rfl⟩ | ⟨y, rfl, hy, hs, ha, rfl⟩
      · exact Part.run_leadFrom (p := s.part.toHunt) hr t0
      · exact Part.run_leadInherit (p := s.part.toHunt) hr ⟨hy, hs⟩ ha
    exact exec_command_ok (k := .drun) (by decide) hp (decide_eq_true hlen)
      ((handleDrun_unbound (p := s.part.toHunt) hd hf hu).trans hrun)
  · intro x follows
    have refused : ∀ {status}, handleDrun body s.part.toHunt = s.part.toHunt.refuse status →
        exec (.drun tag body) s = .next (s.refusedWith .drun tag status []) :=
      exec_command_refused (k := .drun) hp (decide_eq_true hlen)
    refine ⟨fun hb => refused (handleDrun_bound (p := s.part.toHunt) hd hf hb), fun hu hform => ?_,
      fun y hu hr hform hy => ?_⟩
    · exact refused ((handleDrun_unbound (p := s.part.toHunt) hd hf hu).trans (Part.run_wrongForm hform))
    · subst hform
      exact refused ((handleDrun_unbound (p := s.part.toHunt) hd hf hu).trans (Part.run_leadInherit_refused hr hy))
  · intro p z x pos
    refine ⟨Part.resumeZone_armed, fun h => ?_, Part.resumeZone_other⟩
    intro dropped tested far q
    refine ⟨fun hq => ?_, fun hq => ?_⟩
    · exact (Part.resumeZone_running h).trans (Part.resumeRunning_judged (hq.trans h.symm))
    · exact (Part.resumeZone_running h).trans (Part.resumeRunning_stopped (fun e => hq (e.trans h)))

/-! ### The heard sample (O21) -/

/-- A domain record after a heard sample at local time `now` (R22). -/
def Domain.heard (x : Domain) (now : LocalTime) (n : Word16) : Domain :=
  { x with
    lastSequence := some n
    watch := some (now + x.setup.watchTicks)
    missed := 0
    sparseCurrent := if x.setup.lossCriterion = .sparse then min 255 (x.sparseCurrent + 1) else x.sparseCurrent
    loss := if x.setup.lossCriterion = .sparse then x.loss else false }

/-- What a heard sample of the domain raises beside its tally: DOMAIN_ALARM if it clears a declared LOSS (R22, R39). -/
def Part.raiseCleared (p : Part) (d : DomainId) : Part :=
  if (p.domain d).setup.lossCriterion = .consec ∧ (p.domain d).loss = true then p.raise .domainAlarm (.domain d) else p

@[simp] theorem Part.domains_raiseCleared (p : Part) (d : DomainId) : (p.raiseCleared d).domains = p.domains := by
  unfold Part.raiseCleared; split <;> rfl

@[simp] theorem Part.tallies_raiseCleared (p : Part) (d : DomainId) : (p.raiseCleared d).tallies = p.tallies := by
  unfold Part.raiseCleared; split <;> rfl

theorem Part.raiseCleared_eq (p : Part) (d : DomainId) :
    p.raiseCleared d = { p with indications := (p.raiseCleared d).indications } := by
  unfold Part.raiseCleared; split <;> rfl

/-- A heard sample writes the domain record, raises DOMAIN_ALARM if LOSS is cleared, and is counted (R22). -/
theorem Part.heardEffects_eq (p : Part) (d : DomainId) (n : Word16) :
    p.heardEffects d n =
      ((p.raiseCleared d).setDomain d ((p.domain d).heard p.localTime n)).tally (.domain d .samplesHeard) := by
  unfold Part.heardEffects Part.raiseCleared
  cases hc : (p.domain d).setup.lossCriterion with
  | sparse => simp [Domain.heard, hc]
  | consec =>
    cases hl : (p.domain d).loss with
    | false => simp [Domain.heard, hc, Part.setAlarm, Domain.alarm, hl]
    | true => simp [Domain.heard, hc, Part.setAlarm, Domain.alarm, Domain.withAlarm, hl, Part.setDomain_raise]

theorem Part.domains_heardEffects (p : Part) (d : DomainId) (n : Word16) :
    (p.heardEffects d n).domains = p.domains.set d ((p.domain d).heard p.localTime n) := by
  rw [Part.heardEffects_eq, Part.domains_tally]
  simp [Part.setDomain]

theorem Part.domain_heardEffects (p : Part) (d e : DomainId) (n : Word16) :
    (p.heardEffects d n).domain e = if e = d then (p.domain d).heard p.localTime n else p.domain e := by
  unfold Part.domain
  rw [Part.domains_heardEffects, PerDomain.get_set]
  rfl

/-- Settles O21: the parts of `heardEffects_eq`, read off one by one. -/
theorem heardSampleEffects : Obligations.HeardSampleEffects := by
  intro p d n x q
  have hq : q = ((p.raiseCleared d).setDomain d (x.heard p.localTime n)).tally (.domain d .samplesHeard) :=
    p.heardEffects_eq d n
  have hd : q.domain d = x.heard p.localTime n := by simp [q, x, Part.domain_heardEffects]
  refine ⟨fun hc => ?_, fun hs => ?_, fun e he => ?_, ?_, ?_⟩
  · simp [hd, Domain.heard, hc, DomainSetup.watchTicks]
  · simp [hd, Domain.heard, hs, DomainSetup.watchTicks]
  · exact (p.domain_heardEffects d e n).trans (if_neg he)
  · rw [hq, Part.tally_eq, Part.raiseCleared_eq]; rfl
  · intro cleared heard
    refine ⟨?_, fun hlt => ?_⟩
    · rw [show q.domains = _ from p.domains_heardEffects d n, hq]
      simp only [Part.setDomain, Part.domains_raiseCleared]
      rfl
    · have hbelow := Part.tally_below (p := (p.raiseCleared d).setDomain d (x.heard p.localTime n))
        (i := .domain d .samplesHeard) (by simp only [Part.tallies_setDomain, Part.tallies_raiseCleared]; exact hlt)
      rw [hq, hbelow]
      exact ⟨by simp [TallySet.get_set_same, heard], rfl⟩

/-! ### The expiry of an echo record (O30) -/

section
variable {s : State} {d : DomainId} {n : Word16} {r : EchoRecord} (hr : s.part.echo.find d n = some r)
include hr

theorem exec_echoTimeout_early (h : s.part.localTime < r.deadline) : exec (.echoTimeout d n) s = .next s := by
  simp [exec, execEchoTimeout, State.complete, hr, Nat.not_le.mpr h]

theorem exec_echoTimeout_reached (h : r.deadline ≤ s.part.localTime) :
    exec (.echoTimeout d n) s = .next { s with part := s.part.echoExpiry d n } := by
  simp [exec, execEchoTimeout, State.complete, hr, h]

end

/-- A record is removed, its domain's run of timeouts is `k`, and the timeout is counted (R62, R63). -/
def Part.expireEcho (p : Part) (d : DomainId) (n : Word16) (k : Nat) : Part :=
  ({ p with echo := { p.echo.remove d n with timeouts := p.echo.timeouts.set d k } } : Part).tally (.domain d .echoTimeouts)

theorem Part.echoExpiry_short {p : Part} {d : DomainId} (n : Word16) (h : p.echo.timeouts.get d + 1 < 4) :
    p.echoExpiry d n = p.expireEcho d n (p.echo.timeouts.get d + 1) := by
  have hmin : min 4 (p.echo.timeouts.get d + 1) = p.echo.timeouts.get d + 1 := by omega
  simp only [Part.echoExpiry, Part.expireEcho, hmin, Nat.ne_of_lt h, if_false]

/-- The fourth timeout in a row, and any after it, declares PATH (R63). -/
theorem Part.echoExpiry_fourth {p : Part} {d : DomainId} (n : Word16) (h : 4 ≤ p.echo.timeouts.get d + 1) :
    p.echoExpiry d n = (p.expireEcho d n 4).setAlarm d .path true := by
  simp only [Part.echoExpiry, Part.expireEcho, Nat.min_eq_left h, if_true]

/-- Settles O30, by the deadline and the run of timeouts; an alarm's writing is `setAlarm`'s own definition. -/
theorem echoRecordExpires : Obligations.EchoRecordExpires := by
  refine ⟨fun s d n r hr => ?_, fun p d on => ⟨rfl, rfl, rfl⟩⟩
  intro q
  refine ⟨exec_echoTimeout_early hr, fun hdue hshort => ?_, fun hdue hfourth => ?_⟩
  · rw [exec_echoTimeout_reached hr hdue, Part.echoExpiry_short n hshort]
    rfl
  · rw [exec_echoTimeout_reached hr hdue, Part.echoExpiry_fourth n hfourth]
    rfl

/-! ### A loss event (R33) -/

section
variable {p : Part} {d : DomainId}

theorem Part.lossEvent_track (h : (p.domain d).state = .track) :
    p.lossEvent d = (p.setAlarm d .loss true).enterHoldover d := by
  simp only [Part.lossEvent, Part.state_setAlarm, h]

theorem Part.lossEvent_search
    (h : (p.domain d).state = .acquire .queued ∨ (p.domain d).state = .acquire .anchored ∨
      (p.domain d).state = .acquire .searching) : p.lossEvent d = (p.setAlarm d .loss true).backToWaiting d := by
  rcases h with h | h | h <;> simp only [Part.lossEvent, Part.state_setAlarm, h]

theorem Part.lossEvent_stay
    (h : (p.domain d).state = .acquire .waiting ∨ (p.domain d).state = .holdover ∨ (p.domain d).state = .lost) :
    p.lossEvent d = p.setAlarm d .loss true := by
  rcases h with h | h | h <;> simp only [Part.lossEvent, Part.state_setAlarm, h]

end

/-! ### The expiries of a domain's deadlines (R30, R32, R35) -/

section
variable {s : State} {d : DomainId} {t : LocalTime}

theorem exec_beaconWatchExpiry_reached (hw : (s.part.domain d).watch = some t) (h : t ≤ s.part.localTime) :
    exec (.beaconWatchExpiry d) s = .next { s with part := s.part.watchExpiry d t } := by
  simp [exec, execBeaconWatchExpiry, State.complete, hw, h]

theorem exec_windowEnd_reached (hw : (s.part.domain d).windowEnd = some t) (h : t ≤ s.part.localTime) :
    exec (.windowEnd d) s = .next { s with part := s.part.windowExpiry d t } := by
  simp [exec, execWindowEnd, State.complete, hw, h]

theorem exec_holdoverExpiry_reached (hw : (s.part.domain d).holdover = some t) (h : t ≤ s.part.localTime) :
    exec (.holdoverExpiry d) s = .next { s with part := s.part.holdoverExpiry d } := by
  simp [exec, execHoldoverExpiry, State.complete, Part.reached, hw, h]

theorem exec_holdoverExpiry_early (hw : (s.part.domain d).holdover = some t) (h : s.part.localTime < t) :
    exec (.holdoverExpiry d) s = .next s := by
  simp [exec, execHoldoverExpiry, State.complete, Part.reached, hw, Nat.not_le.mpr h]

end

/-! ### A zone that is held (R125) -/

theorem ZoneState.unstarted_iff (q : ZoneState) : q.unstarted = true ↔ q = .disabled ∨ q = .idle := by
  cases q <;> simp [ZoneState.unstarted]

section
variable {p : Part} {z : ZoneId}

theorem Part.holdZone_armed (h : (p.zone z).state = .armed) : p.holdZone z = p.toHeld z .armed := by
  simp only [Part.holdZone, h]

theorem Part.holdZone_running
    (h : (p.zone z).state = .playing ∨ (p.zone z).state = .starved ∨ (p.zone z).state = .drained) :
    p.holdZone z = p.toHeld z .running := by
  rcases h with h | h | h <;> simp only [Part.holdZone, h]

theorem Part.holdZone_stopping {n : DomainTime} (h : (p.zone z).state = .stopping n) : p.holdZone z = p.toIdle z := by
  simp only [Part.holdZone, h]

theorem Part.holdZone_other (h : (p.zone z).state.unstarted = true ∨ ∃ r, (p.zone z).state = .held r) :
    p.holdZone z = p := by
  rw [ZoneState.unstarted_iff] at h
  rcases h with (h | h) | ⟨r, h⟩ <;> simp only [Part.holdZone, h]

end

/-! ### What a zone's entry into IDLE leaves (R96, R121, R125, R158) -/

/-- Releases write the pool alone (R92). -/
theorem Part.releaseAll_eq (p : Part) (ns : List Nat) :
    p.releaseAll ns = { p with pool := ns.foldl BlockPool.release p.pool } := by
  induction ns generalizing p with
  | nil => rfl
  | cons n ns ih => exact ih (p.release n)

/-- A report of a retirement writes the done list and the indications alone (R159). -/
theorem Part.reportDone_eq (p : Part) (e : ScheduleEntry) :
    p.reportDone e = { p with schedule := { p.schedule with done := (p.reportDone e).schedule.done },
                              indications := (p.reportDone e).indications } := by
  unfold Part.reportDone; split <;> rfl

theorem Part.foldl_reportDone_eq (p : Part) (es : List ScheduleEntry) :
    es.foldl Part.reportDone p = { p with schedule := { p.schedule with done := (es.foldl Part.reportDone p).schedule.done },
                                          indications := (es.foldl Part.reportDone p).indications } := by
  induction es generalizing p with
  | nil => rfl
  | cons e es ih =>
    rw [List.foldl_cons, ih (p.reportDone e), Part.reportDone_eq p e]

/-- The entries that stay when a zone leaves the schedule (R158). -/
theorem Part.leaveSchedule_eq (p : Part) (z : ZoneId) :
    p.leaveSchedule z = { p with
      schedule := { p.schedule with
        entries := (p.schedule.entries.filter (fun e => !e.emptiedBy z)).map (fun e => e.without z)
        done := (p.leaveSchedule z).schedule.done }
      indications := (p.leaveSchedule z).indications } :=
  Part.foldl_reportDone_eq _ _

theorem Part.pending_leaveSchedule {p : Part} {z : ZoneId} {e : ScheduleEntry} (h : e ∈ (p.leaveSchedule z).schedule.entries) :
    e.pending.get z = false := by
  rw [Part.leaveSchedule_eq] at h
  obtain ⟨f, -, rfl⟩ := List.mem_map.mp h
  simp [ScheduleEntry.without]

/-- A raised pair is pending (R165). -/
theorem Part.isPending_raise (p : Part) (k : IndicationKind) (o : IndicationObject) :
    (p.raise k o).indications.isPending ⟨k, o⟩ = true := by
  have h : ∀ l : List PendingPair, (raiseIn ⟨k, o⟩ p.localTime l).any (fun q => q.pair == ⟨k, o⟩) = true := by
    intro l
    induction l with
    | nil => simp [raiseIn]
    | cons q qs ih =>
      simp only [raiseIn]
      split
      · next he => simp [he]
      · split
        · simp
        · rw [List.any_cons, ih, Bool.or_true]
  exact h p.indications.pending

/-- A zone record after its entry into IDLE. -/
def Zone.idled (x : Zone) : Zone :=
  { x with state := .idle, start := none, position := none, aligned := false, lastFrame := none, mainQueue := [],
           overlayQueue := [], mixer := x.mixer.quiet }

/-- An entry into IDLE writes its zone, frees the queued slots, and leaves the schedule. -/
theorem Part.toIdle_eq (p : Part) (z : ZoneId) :
    p.toIdle z = { p with
      zones := p.zones.set z (p.zone z).idled
      pool := (p.zone z).queued.foldl BlockPool.release p.pool
      schedule := (p.toIdle z).schedule
      indications := (p.toIdle z).indications } := by
  unfold Part.toIdle
  simp only [Part.zone_leaveSchedule, Part.zone_emptyQueues, if_true]
  rw [Part.leaveSchedule_eq]
  simp only [Part.emptyQueues, Part.releaseAll_eq]
  simp [Part.raiseZoneState, Part.raise, Part.setZone, Zone.idled, Zone.queued]

theorem Part.pending_toIdle {p : Part} {z : ZoneId} {e : ScheduleEntry} (h : e ∈ (p.toIdle z).schedule.entries) :
    e.pending.get z = false :=
  Part.pending_leaveSchedule (p := p.emptyQueues z) h

theorem Part.isPending_toIdle (p : Part) (z : ZoneId) :
    (p.toIdle z).indications.isPending ⟨.zoneState, .zone z⟩ = true := Part.isPending_raise _ _ _

/-- Settles O27: each deadline by whether it is reached, a loss event and a hold by the state they meet. -/
theorem domainDeadlinesExpire : Obligations.DomainDeadlinesExpire := by
  refine ⟨fun s d t hw hdue => ?_, fun p d => ?_, fun s d t hw hdue => ?_,
    fun s d t hw => ⟨exec_holdoverExpiry_reached hw, exec_holdoverExpiry_early hw⟩, fun p d => rfl, fun p z => ?_⟩
  · intro x q
    rw [exec_beaconWatchExpiry_reached hw hdue]
    refine ⟨fun hn => ?_, fun hc hn => ?_⟩
    · rw [Part.watchExpiry, if_neg hn]
      rfl
    · rw [Part.watchExpiry, if_pos ⟨hc, hn⟩]
      rfl
  · intro x lost declared
    refine ⟨fun h => ?_, Part.lossEvent_search, Part.lossEvent_stay⟩
    rw [Part.lossEvent_track h, Part.enterHoldover, Part.domain_setAlarm, Part.localTime_setAlarm]
    rfl
  · intro x rolled
    rw [exec_windowEnd_reached hw hdue]
    refine ⟨fun hc hp => ?_, fun hc hp => ?_, fun hc hl => ?_, fun hc hl => ?_⟩
    · rw [Part.windowExpiry, if_pos ⟨hc, hp⟩]
      rfl
    · rw [Part.windowExpiry, if_neg (fun h => Nat.not_lt.mpr hp h.2), if_neg (Nat.not_le.mpr hc)]
      rfl
    · rw [Part.windowExpiry, if_neg (fun h => Nat.not_lt.mpr hc h.1), if_pos hc, Part.setAlarm_same (a := .loss) hl]
      rfl
    · rw [Part.windowExpiry, if_neg (fun h => Nat.not_lt.mpr hc h.1), if_pos hc,
        Part.setAlarm_change (a := .loss) (by rw [Domain.alarm, hl]; decide)]
      rfl
  · intro x held
    refine ⟨Part.holdZone_armed, Part.holdZone_running, fun n h => ?_, Part.holdZone_other⟩
    rw [Part.holdZone_stopping h]
    intro q
    have hq : q = _ := p.toIdle_eq z
    have hz : ∀ w, q.zone w = if w = z then (p.zone z).idled else p.zone w := fun w => by
      rw [hq]; exact PerZone.get_set _ _ _ _
    refine ⟨(hz z).trans (if_pos rfl), fun w hw => (hz w).trans (if_neg hw), fun e he => Part.pending_toIdle he,
      congrArg Part.pool hq, (congrArg Part.domains hq :), (congrArg Part.tallies hq :), p.isPending_toIdle z, ?_⟩
    rw [hq]

/-! ### BEAC that passes its checks (O23, O24, O25) -/

/-- A BEAC of this body passes the link and the checks of R21, with the capture `c` and for the domain `d`. -/
structure State.BeaconPasses (s : State) (body : List Byte) (d : DomainId) (c : Capture) : Prop where
  taken : s.part.TakesRequests
  length : body.length = 16
  domain : DomainId.ofCode (field body 0 1) = some d
  follows : (s.part.domain d).setup.role = .follow
  bound : (s.part.domain d).state ≠ .unbound
  capture : s.part.capture.find (BitVec.ofNat 8 (field body 1 1)) = some c
  input : c.input = .rx
  leader : (s.part.domain d).setup.leaderId = BitVec.ofNat 32 (field body 2 4)
  fresh : (s.part.domain d).accepts (BitVec.ofNat 16 (field body 6 2)) = true

/-- The sample time that a BEAC body brings the domain (R22). -/
def Part.sampleTime (p : Part) (d : DomainId) (body : List Byte) : DomainTime :=
  toDomainTime ((field body 8 8 : Int) + p.pathDelay d)

/-- The part once a heard BEAC's capture is claimed and R22's effects have happened. -/
def State.heardPart (s : State) (body : List Byte) (d : DomainId) (c : Capture) : Part :=
  (s.part.toHunt.claim c.number).heardEffects d (BitVec.ofNat 16 (field body 6 2))

/-- The arm of BEAC after its checks (R21 to R23). -/
theorem handleBeac_passes {s : State} {body : List Byte} {d : DomainId} {c : Capture} (h : s.BeaconPasses body d c) :
    handleBeac body s.part.toHunt =
      s.part.toHunt.beacon d c (BitVec.ofNat 16 (field body 6 2)) (field body 8 8) := by
  have hf : (s.part.domain d).following = true := (Domain.following_iff _).mpr ⟨h.follows, h.bound⟩
  have hc : s.part.toHunt.checkCapture (BitVec.ofNat 8 (field body 1 1)) .rx = .ok c :=
    Part.checkCapture_ok (p := s.part.toHunt) h.capture h.input
  simp [handleBeac, h.domain, hf, hc, h.leader, h.fresh]

/-- What a BEAC that passes leaves and answers (R22, R23). -/
theorem exec_beac_passes {s : State} {tag : Byte} {body : List Byte} {d : DomainId} {c : Capture}
    (h : s.BeaconPasses body d c) {g : Option DomainTime} {e : Option Int} {q : Part} {o : BeaconOutcome}
    (hg : (s.part.domain d).read c.time = g)
    (he : g.map (fun t : DomainTime => (s.part.sampleTime d body : Int) - (t : Int)) = e)
    (hq : (s.heardPart body d c).handleSample d ⟨c.time, s.part.sampleTime d body⟩ g e = (q, o)) :
    exec (.beac tag body) s = .next (s.replied q .beac tag ([o.code] ++ optBytes 8 signedBytes e ++
      [(q.domain d).state.code, (q.domain d).state.phaseCode] ++ leBytes 2 (q.domain d).code)) := by
  subst hg he
  rw [List.append_assoc _ [_, _]]
  refine exec_command_ok (k := .beac) (by decide) h.taken (decide_eq_true h.length) ((handleBeac_passes h).trans ?_)
  exact congrArg (fun r : Part × BeaconOutcome => r.1.accept ([r.2.code] ++ optBytes 8 signedBytes
    (((s.part.domain d).read c.time).map (fun t : DomainTime => (s.part.sampleTime d body : Int) - (t : Int))) ++
      (r.1.domain d).stateBytes)) hq

theorem State.domain_heardPart (s : State) (body : List Byte) (d : DomainId) (c : Capture) :
    (s.heardPart body d c).domain d = (s.part.domain d).heard s.part.localTime (BitVec.ofNat 16 (field body 6 2)) :=
  (Part.domain_heardEffects _ _ _ _).trans (if_pos rfl)

/-! ### A sample in TRACK or HOLDOVER (R26 to R29, R34, R37) -/

section
variable {p : Part} {d : DomainId}

theorem Part.domain_judgeRange (p : Part) (d : DomainId) :
    (p.judgeRange d).domain d =
      { p.domain d with range := decide ((p.domain d).code = 0 ∨ (p.domain d).code = 65535) } := Part.domain_setAlarm _ _ _ _

/-- RANGE judged right after a write of the domain record (R26, R51). -/
theorem Part.judgeRange_setDomain (p : Part) (d : DomainId) (y : Domain) :
    (p.setDomain d y).judgeRange d =
      if y.range = decide (y.code = 0 ∨ y.code = 65535) then p.setDomain d y
      else (p.setDomain d { y with range := decide (y.code = 0 ∨ y.code = 65535) }).raise .domainAlarm (.domain d) := by
  simp [Part.judgeRange, Part.setAlarm, Domain.alarm, Domain.withAlarm]

theorem Part.returnToTrack_holdover (h : (p.domain d).state = .holdover) :
    p.returnToTrack d =
      (p.setDomain d { p.domain d with state := .track, holdover := none }).raise .domainState (.domain d) := by
  simp only [Part.returnToTrack, h]; rfl

theorem Part.returnToTrack_other (h : (p.domain d).state ≠ .holdover) : p.returnToTrack d = p := by
  unfold Part.returnToTrack
  split
  · next hs => exact absurd hs h
  · rfl

theorem Part.handleSample_timed (h : (p.domain d).state = .track ∨ (p.domain d).state = .holdover) (a : Anchor)
    (g : DomainTime) (e : Int) : p.handleSample d a (some g) (some e) = p.timedSample d a g e := by
  rcases h with h | h <;> simp only [Part.handleSample, h, Option.getD_some]

/-- What a BEAC that passes leaves and answers in TRACK and HOLDOVER, by the phase error against the anchor held (R22, R23). -/
theorem exec_beac_timed {s : State} {tag : Byte} {body : List Byte} {d : DomainId} {c : Capture} {a : Anchor}
    (h : s.BeaconPasses body d c) (hs : (s.part.domain d).state = .track ∨ (s.part.domain d).state = .holdover)
    (ha : (s.part.domain d).anchor = some a) {e : Int} {q : Part} {o : BeaconOutcome}
    (he : e = (s.part.sampleTime d body : Int) - convert a (s.part.domain d).code c.time)
    (hq : (s.heardPart body d c).timedSample d ⟨c.time, s.part.sampleTime d body⟩
      (convert a (s.part.domain d).code c.time) e = (q, o)) :
    exec (.beac tag body) s = .next (s.replied q .beac tag ([o.code] ++ optBytes 8 signedBytes (some e) ++
      [(q.domain d).state.code, (q.domain d).state.phaseCode] ++ leBytes 2 (q.domain d).code)) := by
  subst he
  have hread : (s.part.domain d).read c.time = some (convert a (s.part.domain d).code c.time) := by rw [Domain.read, ha]; rfl
  have hheard : ((s.heardPart body d c).domain d).state = .track ∨ ((s.heardPart body d c).domain d).state = .holdover := by
    rw [State.domain_heardPart]; exact hs
  exact exec_beac_passes h hread rfl ((Part.handleSample_timed hheard _ _ _).trans hq)

/-- The domain record after a tracking update, before RANGE is judged (R26, R37). -/
def Domain.updated (x : Domain) (a : Anchor) (g : DomainTime) (e : Int) : Domain :=
  { x with newLeader := false, outlierRun := 0, code := nudge x.code x.setup.deadband e
           anchor := some ⟨a.localTime, toDomainTime (g + e.tdiv (2 ^ x.setup.filterShift))⟩ }

theorem Part.timedSample_within {a : Anchor} {g : DomainTime} {e : Int} (h : e.natAbs ≤ (p.domain d).setup.stepThreshold) :
    p.timedSample d a g e =
      (((p.setDomain d ((p.domain d).updated a g e)).judgeRange d).returnToTrack d, .tracked) := by
  simp [Part.timedSample, h, Part.trackingUpdate, Domain.updated]

theorem Part.timedSample_beyond {a : Anchor} {g : DomainTime} {e : Int} (h : (p.domain d).setup.stepThreshold < e.natAbs) :
    p.timedSample d a g e = p.outlier d a e (p.domain d).newLeader := by
  simp [Part.timedSample, Nat.not_le.mpr h]

/-- The part once an outlier brings the step action: counted, the run 0, new-leader pending cleared (R27, R37). -/
def Part.stepDue (p : Part) (d : DomainId) : Part :=
  let q := p.tally (.domain d .outliers)
  (q.setDomain d { q.domain d with outlierRun := 0, newLeader := false }).tally (.domain d .steps)

theorem Part.outlier_short {a : Anchor} {e : Int} (hn : (p.domain d).newLeader = false)
    (h : (p.domain d).outlierRun + 1 < (p.domain d).setup.nStep) :
    p.outlier d a e (p.domain d).newLeader =
      ((p.tally (.domain d .outliers)).setDomain d { p.domain d with outlierRun := (p.domain d).outlierRun + 1 },
        .outlier) := by
  simp [Part.outlier, hn, Nat.not_le.mpr h]

theorem Part.outlier_steps {a : Anchor} {e : Int}
    (h : (p.domain d).newLeader = true ∨ (p.domain d).setup.nStep ≤ (p.domain d).outlierRun + 1) :
    p.outlier d a e (p.domain d).newLeader = ((p.stepDue d).stepAction d a e, .stepped) := by
  simp [Part.outlier, h, Part.stepDue]

theorem Part.stepAction_step {a : Anchor} {e : Int}
    (h : (p.domain d).setup.stepAction = .step ∨ (p.domain d).setup.warmWidth = 0) : p.stepAction d a e = p.stepTo d a e := by
  unfold Part.stepAction
  rcases h with h | h
  · simp only [h]
  · simp only [h, if_true]
    split <;> rfl

theorem Part.stepAction_reacquire {a : Anchor} {e : Int} (h : (p.domain d).setup.stepAction = .reacquire)
    (hw : (p.domain d).setup.warmWidth ≠ 0) :
    p.stepAction d a e = ((p.setDomain d { p.domain d with lastStepError := some e }).reacquire d a).holdZones d := by
  simp only [Part.stepAction, h, hw, if_false]

theorem Part.stepTo_track {a : Anchor} {e : Int} (h : (p.domain d).state = .track) :
    p.stepTo d a e =
      (p.setDomain d { p.domain d with anchor := some a, lastStepError := some e }).raise .domainStep (.domain d) :=
  Part.returnToTrack_other (by simp [h])

end

/-- Settles O23: the tracking update on the part that has heard the sample, then the return from HOLDOVER. -/
theorem beaconTracks : Obligations.BeaconTracks := by
  intro s tag body d c a hp hlen hd x seq hr hs ha hc hi hl hacc g e he q code updated atEnd tracked
  have hbound : x.state ≠ .unbound := by rcases hs with h | h <;> rw [h] <;> decide
  have hb : s.BeaconPasses body d c := ⟨hp, hlen, hd, hr, hbound, hc, hi, hl, hacc⟩
  have hqd : q.domain d = x.heard s.part.localTime seq := s.domain_heardPart body d c
  have hupdated : (q.domain d).updated ⟨c.time, s.part.sampleTime d body⟩ g e = updated := by
    simp only [updated, hqd]; rfl
  have htracked : (q.setDomain d updated).judgeRange d = tracked := by
    rw [Part.judgeRange_setDomain]
    simp only [tracked, updated, hqd]; rfl
  have hdomain : tracked.domain d = { updated with range := atEnd } := by
    rw [← htracked, Part.domain_judgeRange]; simp [updated, atEnd]
  have hstate : (tracked.domain d).state = x.state := by rw [hdomain]; simp only [updated, hqd]; rfl
  have hcode : (tracked.domain d).code = code := by rw [hdomain]
  have hsample : q.timedSample d ⟨c.time, s.part.sampleTime d body⟩ g e = (tracked.returnToTrack d, .tracked) := by
    rw [Part.timedSample_within (by rw [hqd]; exact he), hupdated, htracked]
  have hexec := exec_beac_timed (tag := tag) hb hs ha rfl hsample
  rcases hs with htrack | hhold
  · have hreturn : tracked.returnToTrack d = tracked := Part.returnToTrack_other (by rw [hstate, htrack]; decide)
    rw [hexec, hreturn, if_neg (by rw [htrack]; decide), hstate, hcode, htrack]
    rfl
  · rw [hexec, Part.returnToTrack_holdover (hstate.trans hhold), if_pos hhold]
    simp only [Part.domain_raise, Part.domain_setDomain, if_true, hcode]
    rfl

/-- A REACQUIRE right after a write of the domain record (R29). -/
theorem Part.reacquire_setDomain (p : Part) (d : DomainId) (y : Domain) (a : Anchor) :
    (p.setDomain d y).reacquire d a =
      ((p.setDomain d { y with state := .acquire .queued, startKind := .warm, anchor := some a, outlierRun := 0,
                               holdover := none }).raise .domainState (.domain d)).joinQueue d := by
  simp [Part.reacquire, Part.raiseDomainState]

/-- Settles O24: the outlier on the part that has heard the sample, by whether it brings the step action, and which. -/
theorem outliersAndSteps : Obligations.OutliersAndSteps := by
  refine ⟨fun s tag body d c a hp hlen hd => ?_, fun p d a e h => Part.stepTo_track h⟩
  intro x seq hr hs ha hc hi hl hacc sample e he q
  have hbound : x.state ≠ .unbound := by rcases hs with h | h <;> rw [h] <;> decide
  have hb : s.BeaconPasses body d c := ⟨hp, hlen, hd, hr, hbound, hc, hi, hl, hacc⟩
  have hheard : (s.heardPart body d c).domain d = x.heard s.part.localTime seq := s.domain_heardPart body d c
  have hq : q.domain d = x.heard s.part.localTime seq := (Part.domain_tally _ _ d).trans hheard
  have hbeyond := Part.timedSample_beyond (p := s.heardPart body d c) (d := d) (a := ⟨c.time, sample⟩)
    (g := convert a x.code c.time) (e := e) (by rw [hheard]; exact he)
  refine ⟨fun hn hrun => ?_, fun hstep => ?_⟩
  · have hshort := Part.outlier_short (p := s.heardPart body d c) (d := d) (a := ⟨c.time, sample⟩) (e := e)
      (by rw [hheard]; exact hn) (by rw [hheard]; exact hrun)
    have hphase : x.state.phaseCode = 0xFF#8 := by rcases hs with h | h <;> rw [h] <;> rfl
    rw [exec_beac_timed hb hs ha rfl (hbeyond.trans hshort)]
    simp only [Part.domain_setDomain, if_true]
    rw [hheard, hq, ← hphase]
    rfl
  · intro r stepped queued acquiring answered
    have hr : r.domain d = { x.heard s.part.localTime seq with outlierRun := 0, newLeader := false } := by
      simp [r, hq]
    have hsteps := Part.outlier_steps (p := s.heardPart body d c) (d := d) (a := ⟨c.time, sample⟩) (e := e)
      (by rw [hheard]; exact hstep)
    have hanswer : ∀ {t}, r.stepAction d ⟨c.time, sample⟩ e = t → exec (.beac tag body) s = answered t := fun ht =>
      ht ▸ exec_beac_timed hb hs ha rfl (hbeyond.trans hsteps)
    refine ⟨fun ha ht => ?_, fun ha hh => ?_, fun ha hw => ?_⟩
    · exact hanswer ((Part.stepAction_step (by rw [hr]; exact ha)).trans (Part.stepTo_track (by rw [hr]; exact ht)))
    · refine hanswer ((Part.stepAction_step (by rw [hr]; exact ha)).trans (Part.returnToTrack_holdover ?_))
      simp only [Part.domain_raise, Part.domain_setDomain, if_true]
      rw [hr]; exact hh
    · refine hanswer ((Part.stepAction_reacquire (by rw [hr]; exact ha) (by rw [hr]; exact hw)).trans ?_)
      rw [Part.reacquire_setDomain]
      simp only [acquiring, queued, hr]
      rfl

/-! ### The search engine (R43 to R46, R52) -/

section
variable {p : Part}

/-- The setup of R46, field by field. -/
theorem Search.begin_eq (d : DomainId) (x : Domain) :
    Search.begin d x = ⟨d, x.code, if x.startKind = .cold then 0 else x.code / 2 ^ x.setup.warmWidth * 2 ^ x.setup.warmWidth,
      if x.startKind = .cold then 15 else x.setup.warmWidth - 1, 0⟩ := by
  cases h : x.startKind <;> simp [Search.begin, h]

theorem Part.engineTake_front {d : DomainId} {rest : List DomainId} (hs : p.engine.served = none)
    (hq : p.engine.queue = d :: rest) :
    p.engineTake = { p with
      engine := ⟨some (Search.begin d (p.domain d)), rest⟩
      domains := p.domains.set d
        { p.domain d with state := .acquire .anchored, code := (Search.begin d (p.domain d)).candidate } } := by
  unfold Part.engineTake
  rw [hs, hq]
  rfl

/-- An engine that serves, and one that no domain waits for, takes none. -/
theorem Part.engineTake_none (h : p.engine.served ≠ none ∨ p.engine.queue = []) : p.engineTake = p := by
  unfold Part.engineTake
  split
  · next hs hq =>
    rcases h with h | h
    · exact absurd hs h
    · rw [hq] at h; cases h
  · rfl

end

/-! ### Samples in a search (R24, R35, R37, R47 to R51) -/

section
variable {p : Part} {d : DomainId} {a : Anchor}

theorem Part.windowSample_counted {r : Search} {e : Int} (hr : p.engine.served = some r)
    (h : r.windowCount + 1 < (p.domain d).setup.window) :
    p.windowSample d a e =
      { p with engine := { p.engine with served := some { r with windowCount := r.windowCount + 1 } } } := by
  simp only [Part.windowSample, hr, h, if_true]

/-- The code that the decision of a bit settles (R49). -/
def Search.decided (r : Search) (e : Int) : Nat := if 0 < e then r.candidate else r.settledCode

/-- A decision above bit 0 opens the next window at the next bit down (R50). -/
theorem Part.windowSample_nextBit {r : Search} {e : Int} (hr : p.engine.served = some r)
    (h : (p.domain d).setup.window ≤ r.windowCount + 1) (hb : r.bit ≠ 0) :
    p.windowSample d a e =
      ({ p with engine := { p.engine with
        served := some { r with settledCode := r.decided e, bit := r.bit - 1, windowCount := 0 } } } : Part).setDomain d
        { p.domain d with anchor := some a, code := r.decided e + 2 ^ (r.bit - 1) } := by
  simp only [Part.windowSample, hr, Nat.not_lt.mpr h, hb, if_false]
  rfl

/-- The decision at bit 0 completes the search (R51). -/
theorem Part.windowSample_last {r : Search} {e : Int} (hr : p.engine.served = some r)
    (h : (p.domain d).setup.window ≤ r.windowCount + 1) (hb : r.bit = 0) :
    p.windowSample d a e = p.completeSearch d a (r.decided e) := by
  simp only [Part.windowSample, hr, Nat.not_lt.mpr h, hb, if_false, if_true]
  rfl

/-- A sample in WAITING or LOST that makes the domain timed at once (R24, R35, R37). -/
theorem Part.waitingSample_tracked (hk : (p.domain d).startKind = .warm) (hw : (p.domain d).setup.warmWidth = 0) :
    p.waitingSample d a = (p.setDomain d { p.domain d with anchor := some a }).becomeTracked d := by
  simp only [Part.waitingSample, hk, hw, and_self, if_true]

theorem Part.waitingSample_queued (h : (p.domain d).startKind = .cold ∨ (p.domain d).setup.warmWidth ≠ 0) :
    p.waitingSample d a =
      (p.setDomain d { p.domain d with anchor := some a, state := .acquire .queued }).joinQueue d := by
  have hn : ¬((p.domain d).startKind = .warm ∧ (p.domain d).setup.warmWidth = 0) := by
    rintro ⟨hk, hw⟩
    rcases h with h | h
    · rw [hk] at h; cases h
    · exact h hw
  simp [Part.waitingSample, hn]

theorem Part.lostSample_tracked (hw : (p.domain d).setup.warmWidth = 0) :
    p.lostSample d a = (p.setDomain d { p.domain d with anchor := some a }).becomeTracked d := by
  simp only [Part.lostSample, hw, if_true]

theorem Part.lostSample_queued (hw : (p.domain d).setup.warmWidth ≠ 0) : p.lostSample d a = p.reacquire d a := by
  simp only [Part.lostSample, hw, if_false]

@[simp] theorem Part.domain_clearNewLeader (p : Part) (d : DomainId) :
    (p.clearNewLeader d).domain d = { p.domain d with newLeader := false } := by
  simp [Part.clearNewLeader]

@[simp] theorem Part.setDomain_clearNewLeader (p : Part) (d : DomainId) (y : Domain) :
    (p.clearNewLeader d).setDomain d y = p.setDomain d y := Part.setDomain_setDomain p d _ y

theorem Part.handleSample_waiting {g : Option DomainTime} {e : Option Int} (h : (p.domain d).state = .acquire .waiting) :
    p.handleSample d a g e = ((p.clearNewLeader d).waitingSample d a, .anchored) := by
  simp only [Part.handleSample, h]

theorem Part.handleSample_queued {g : Option DomainTime} {e : Option Int} (h : (p.domain d).state = .acquire .queued) :
    p.handleSample d a g e = (p.setDomain d { p.domain d with newLeader := false, anchor := some a }, .anchored) := by
  simp only [Part.handleSample, h, Part.setDomain_clearNewLeader, Part.domain_clearNewLeader]

theorem Part.handleSample_anchored {g : Option DomainTime} {e : Option Int} (h : (p.domain d).state = .acquire .anchored) :
    p.handleSample d a g e =
      (p.setDomain d { p.domain d with newLeader := false, anchor := some a, state := .acquire .searching }, .anchored) := by
  simp only [Part.handleSample, h, Part.firstWindow, Part.setDomain_clearNewLeader, Part.domain_clearNewLeader]

theorem Part.handleSample_searching {g : Option DomainTime} {e : Int} (h : (p.domain d).state = .acquire .searching) :
    p.handleSample d a g (some e) = ((p.clearNewLeader d).windowSample d a e, .window) := by
  simp only [Part.handleSample, h, Option.getD_some]

theorem Part.handleSample_lost {g : Option DomainTime} {e : Option Int} (h : (p.domain d).state = .lost) :
    p.handleSample d a g e = ((p.clearNewLeader d).lostSample d a, .anchored) := by
  simp only [Part.handleSample, h]

/-- A domain that becomes timed right after a write of its record (R24, R35). -/
theorem Part.becomeTracked_setDomain (p : Part) (d : DomainId) (y : Domain) :
    (p.setDomain d y).becomeTracked d =
      ((p.setDomain d { y with state := .track, holdover := none }).raise .domainState (.domain d)).resumeZones d := by
  simp [Part.becomeTracked, Part.raiseDomainState]

end

/-- Settles O25: the request, the rule of each state, the engine's taking, and the window of a search. -/
theorem searchTakesSamples : Obligations.SearchTakesSamples := by
  refine ⟨fun s tag body d c hp hlen hd => ?_, ⟨rfl, rfl⟩, fun p d a g e => ?_, fun p d rest hs hq => ?_,
    fun p h => Part.engineTake_none h, fun p d a e r hr => ?_⟩
  · intro x seq hrole hbound hc hi hl hacc sample g e handled y
    have hb : s.BeaconPasses body d c := ⟨hp, hlen, hd, hrole, hbound, hc, hi, hl, hacc⟩
    refine (exec_beac_passes (g := g) (e := e) (q := handled.1) (o := handled.2) hb rfl rfl rfl).trans ?_
    clear_value handled e
    cases e <;> rfl
  · intro x w join kept tracking
    have hclear : (p.clearNewLeader d).domain d = { x with newLeader := false } := p.domain_clearNewLeader d
    have htracking : ((p.clearNewLeader d).setDomain d
        { (p.clearNewLeader d).domain d with anchor := some a }).becomeTracked d = tracking := by
      rw [Part.becomeTracked_setDomain, Part.setDomain_clearNewLeader, hclear]
    refine ⟨fun h hk hw => ?_, fun h hk => ?_, Part.handleSample_queued, Part.handleSample_anchored, fun err h he => ?_,
      fun h hw => ?_, fun h hw => ?_⟩
    · rw [Part.handleSample_waiting h, Part.waitingSample_tracked (by rw [hclear]; exact hk) (by rw [hclear]; exact hw),
        htracking]
    · rw [Part.handleSample_waiting h, Part.waitingSample_queued (by rw [hclear]; exact hk), Part.setDomain_clearNewLeader,
        hclear]
      rfl
    · rw [he, Part.handleSample_searching h]
      rfl
    · rw [Part.handleSample_lost h, Part.lostSample_tracked (by rw [hclear]; exact hw), htracking]
    · rw [Part.handleSample_lost h, Part.lostSample_queued (by rw [hclear]; exact hw)]
      exact congrArg (·, BeaconOutcome.anchored) (Part.reacquire_setDomain p d { x with newLeader := false } a)
  · intro x w settled bit
    rw [Part.engineTake_front hs hq, Search.begin_eq]
    rfl
  · intro settled
    refine ⟨Part.windowSample_counted hr, Part.windowSample_nextBit hr, fun hlen hbit => ?_⟩
    intro freed atEnd judged taken
    have hfreed : freed.domain d = { p.domain d with code := settled, anchor := some a, outlierRun := 0 } :=
      (PerDomain.get_set _ _ _ _).trans (if_pos rfl)
    have hjudged : freed.judgeRange d = judged := by
      rw [Part.judgeRange, Part.setAlarm, hfreed]
      simp only [judged, hfreed]
      rfl
    rw [Part.windowSample_last hr hlen hbit]
    exact congrArg (fun q : Part => q.engineTake.becomeTracked d) hjudged

/-! ### A search that is given up (R33, R36, R44, R52) -/

/-- The queue of the engine without the domain (R44). -/
def Part.queueWithout (p : Part) (d : DomainId) : List DomainId := p.engine.queue.filter (fun q => q != d)

section
variable {p : Part} {d : DomainId}

theorem SearchEngine.serves_iff (e : SearchEngine) (d : DomainId) :
    e.serves d = true ↔ ∃ r, e.served = some r ∧ r.domain = d := by
  unfold SearchEngine.serves
  cases e.served <;> simp

/-- A served domain gives up its search, and has its entry code again. -/
theorem Part.giveUpSearch_served {r : Search} (hr : p.engine.served = some r) (hd : r.domain = d) :
    p.giveUpSearch d =
      ({ p with engine := ⟨none, p.queueWithout d⟩ } : Part).setDomain d { p.domain d with code := r.entryCode } := by
  simp only [Part.giveUpSearch, hr, hd, if_true, Part.queueWithout]

/-- A domain that is not served gives up its queue place alone. -/
theorem Part.giveUpSearch_unserved (h : ∀ r, p.engine.served = some r → r.domain ≠ d) :
    p.giveUpSearch d = { p with engine := { p.engine with queue := p.queueWithout d } } := by
  unfold Part.giveUpSearch
  split
  · next r hr => exact if_neg (h r hr)
  · rfl

/-- A given-up search writes the engine and at most the code of its domain. -/
theorem Part.giveUpSearch_eq (p : Part) (d : DomainId) :
    ∃ code, p.giveUpSearch d =
      ({ p with
        engine := if p.engine.serves d then ⟨none, p.queueWithout d⟩ else { p.engine with queue := p.queueWithout d } } :
        Part).setDomain d { p.domain d with code := code } := by
  by_cases h : ∃ r, p.engine.served = some r ∧ r.domain = d
  · have hserves := (SearchEngine.serves_iff _ _).mpr h
    obtain ⟨r, hr, hd⟩ := h
    exact ⟨r.entryCode, by rw [Part.giveUpSearch_served hr hd, if_pos hserves]⟩
  · have hserves := mt (SearchEngine.serves_iff _ _).mp h
    refine ⟨(p.domain d).code, ?_⟩
    rw [Part.giveUpSearch_unserved (fun r hr hd => h ⟨r, hr, hd⟩), if_neg hserves]
    exact (Part.setDomain_domain _ d).symm

/-- The domain back in WAITING with this code, and the engine as it is before it takes the next (R33, R36, R52). -/
def Part.waitingAgain (p : Part) (d : DomainId) (engine : SearchEngine) (code : Nat) : Part :=
  { p with engine := engine
           domains := p.domains.set d { p.domain d with code := code, anchor := none, state := .acquire .waiting } }

theorem Part.backToWaiting_served {r : Search} (hr : p.engine.served = some r) (hd : r.domain = d) :
    p.backToWaiting d = (p.waitingAgain d ⟨none, p.queueWithout d⟩ r.entryCode).engineTake := by
  simp only [Part.backToWaiting, Part.giveUpSearch_served hr hd, Part.setDomain_setDomain, Part.domain_setDomain, if_true]
  rfl

theorem Part.backToWaiting_unserved (h : ∀ r, p.engine.served = some r → r.domain ≠ d) :
    p.backToWaiting d = (p.waitingAgain d ⟨p.engine.served, p.queueWithout d⟩ (p.domain d).code).engineTake := by
  rw [Part.backToWaiting, Part.giveUpSearch_unserved h]
  rfl

/-- With the engine free, the domain that waits first is taken at once; it is another one. -/
theorem Part.engineTake_waitingAgain {e : DomainId} {rest : List DomainId} (code : Nat) (hq : p.queueWithout d = e :: rest) :
    (p.waitingAgain d ⟨none, p.queueWithout d⟩ code).engineTake =
      { p with
        engine := ⟨some (Search.begin e (p.domain e)), rest⟩
        domains := (p.waitingAgain d ⟨none, p.queueWithout d⟩ code).domains.set e
          { p.domain e with state := .acquire .anchored, code := (Search.begin e (p.domain e)).candidate } } := by
  have hne : e ≠ d := by
    have hmem : e ∈ p.queueWithout d := hq ▸ List.mem_cons_self ..
    exact bne_iff_ne.mp (List.mem_filter.mp hmem).2
  have hdomain : (p.waitingAgain d ⟨none, p.queueWithout d⟩ code).domain e = p.domain e :=
    (PerDomain.get_set _ _ _ _).trans (if_neg hne)
  rw [Part.engineTake_front rfl hq, hdomain]
  rfl

/-- A domain that does not wait for the engine is not written when the engine takes one. -/
theorem Part.domain_engineTake (h : d ∉ p.engine.queue) : p.engineTake.domain d = p.domain d := by
  unfold Part.engineTake
  split
  · next e rest _ hq =>
    have hne : d ≠ e := fun he => h (by rw [hq, he]; exact List.mem_cons_self ..)
    exact (Part.domain_setDomain _ _ _ _).trans (if_neg hne)
  · rfl

theorem Part.not_mem_queueWithout (p : Part) (d : DomainId) : d ∉ p.queueWithout d := fun h =>
  absurd rfl (bne_iff_ne.mp (List.mem_filter.mp h).2)

theorem Part.state_backToWaiting (p : Part) (d : DomainId) : ((p.backToWaiting d).domain d).state = .acquire .waiting := by
  have hstate : ∀ engine code, engine.queue = p.queueWithout d →
      ((p.waitingAgain d engine code).engineTake.domain d).state = .acquire .waiting := fun engine code hq => by
    rw [Part.domain_engineTake (p := p.waitingAgain d engine code) (hq ▸ p.not_mem_queueWithout d)]
    exact congrArg Domain.state ((PerDomain.get_set _ _ _ _).trans (if_pos rfl))
  by_cases h : ∃ r, p.engine.served = some r ∧ r.domain = d
  · obtain ⟨r, hr, hd⟩ := h
    rw [Part.backToWaiting_served hr hd]
    exact hstate _ _ rfl
  · rw [Part.backToWaiting_unserved (fun r hr hd => h ⟨r, hr, hd⟩)]
    exact hstate _ _ rfl

end

/-! ### LCHG and DREL (O26) -/

section
variable {body : List Byte} {p : Part} {d : DomainId}

theorem handleLchg_following (hd : DomainId.ofCode (field body 0 1) = some d) (hf : (p.domain d).following = true) :
    handleLchg body p =
      (p.changeLeader d (BitVec.ofNat 32 (field body 1 4))).accept
        [((p.changeLeader d (BitVec.ofNat 32 (field body 1 4))).domain d).state.code,
          ((p.changeLeader d (BitVec.ofNat 32 (field body 1 4))).domain d).state.phaseCode] := by
  simp only [handleLchg, hd, hf, if_true]

theorem handleLchg_notFollowing (hd : DomainId.ofCode (field body 0 1) = some d) (hf : (p.domain d).following = false) :
    handleLchg body p = p.refuse .wrongState := by
  simp only [handleLchg, hd, hf, Bool.false_eq_true, if_false]

/-- What an LCHG that is taken leaves and answers: the state and the phase after the change (R36). -/
theorem exec_lchg_following {s : State} {tag : Byte} {q : Part} {a b : Byte} (hp : s.part.TakesRequests)
    (hlen : body.length = 5) (hd : DomainId.ofCode (field body 0 1) = some d) (hf : (s.part.domain d).following = true)
    (hq : s.part.toHunt.changeLeader d (BitVec.ofNat 32 (field body 1 4)) = q)
    (ha : (q.domain d).state.code = a) (hb : (q.domain d).state.phaseCode = b) :
    exec (.lchg tag body) s = .next (s.replied q .lchg tag [a, b]) := by
  subst hq ha hb
  exact exec_command_ok (k := .lchg) (by decide) hp (decide_eq_true hlen)
    (handleLchg_following (p := s.part.toHunt) hd hf)

/-- What a change of leader writes in every state (R36). -/
def Part.leaderWritten (p : Part) (d : DomainId) (leader : Word32) : Part :=
  ({ p with echo := p.echo.clearDomain d } : Part).setDomain d
    { p.domain d with setup := { (p.domain d).setup with leaderId := leader }, lastSequence := none, outlierRun := 0,
                      newLeader := true }

theorem Part.enterHoldover_setDomain (p : Part) (d : DomainId) (y : Domain) :
    (p.setDomain d y).enterHoldover d =
      (p.setDomain d { y with state := .holdover, holdover := some (p.localTime + y.setup.holdoverTicks) }).raise
        .domainState (.domain d) := by
  simp [Part.enterHoldover, Part.raiseDomainState]

theorem Part.changeLeader_track {leader : Word32} (h : (p.domain d).state = .track) :
    p.changeLeader d leader = (p.leaderWritten d leader).enterHoldover d := by
  simp only [Part.changeLeader, h]
  rw [← h]
  rfl

theorem Part.changeLeader_acquire {leader : Word32} {phase : AcquirePhase} (h : (p.domain d).state = .acquire phase) :
    p.changeLeader d leader = (p.leaderWritten d leader).backToWaiting d := by
  simp only [Part.changeLeader, h]
  rw [← h]
  rfl

theorem Part.changeLeader_stay {leader : Word32} (h : (p.domain d).state = .holdover ∨ (p.domain d).state = .lost) :
    p.changeLeader d leader = p.leaderWritten d leader := by
  rcases h with h | h
  all_goals
    simp only [Part.changeLeader, h]
    rw [← h]
    rfl

theorem handleDrel_unbound (h : (p.domain d).state = .unbound) : handleDrel [d.code] p = p.accept [] := by
  simp [handleDrel, h]

theorem handleDrel_bound (h : (p.domain d).state ≠ .unbound) : handleDrel [d.code] p = (p.releaseDomain d).accept [] := by
  simp [handleDrel, h]

/-- What a release writes before the engine takes the next (R38, R52, R65, R160). -/
theorem Part.releaseDomain_eq (p : Part) (d : DomainId) :
    p.releaseDomain d =
      (({ p with
        engine := if p.engine.serves d then ⟨none, p.queueWithout d⟩ else { p.engine with queue := p.queueWithout d }
        echo := { p.echo.clearDomain d with timeouts := p.echo.timeouts.set d 0 }
        schedule := p.schedule.dropDomain d
        domains := p.domains.set d (p.domain d).released } : Part).engineTake.raise .domainState (.domain d)).holdZones d := by
  obtain ⟨code, h⟩ := p.giveUpSearch_eq d
  have hsame : ∀ x : Domain, ({ x with code := code } : Domain).released = x.released := fun _ => rfl
  simp only [Part.releaseDomain, h, Part.raiseDomainState]
  congr 2
  simp only [Part.setDomain, Part.domain, PerDomain.set_set, PerDomain.get_set, if_true, hsame]

end

/-- Settles O26: LCHG by the state it meets, the ways back to WAITING by what the engine serves, and DREL. -/
theorem leaderChangeAndRelease : Obligations.LeaderChangeAndRelease := by
  refine ⟨fun s tag body d hp hlen hd hr => ?_, fun p d => ?_, fun s tag body d hp hlen hd hf => ?_,
    fun s tag d hp => ⟨fun hu => ?_, fun hb => ?_⟩⟩
  · intro x y emptied
    have hexec : ∀ {q a b}, x.state ≠ .unbound → _ := fun {q a b} hbound =>
      exec_lchg_following (q := q) (a := a) (b := b) (tag := tag) hp hlen hd ((Domain.following_iff _).mpr ⟨hr, hbound⟩)
    refine ⟨fun h => ?_, fun h => ?_, fun phase h => ?_⟩
    · have hchange := Part.changeLeader_track (p := s.part.toHunt) (leader := BitVec.ofNat 32 (field body 1 4)) h
      rw [Part.leaderWritten, Part.enterHoldover_setDomain] at hchange
      refine (hexec (by rw [h]; decide) hchange (a := 3#8) (b := 0xFF#8) ?_ ?_).trans rfl
      all_goals simp [DomainState.code, DomainState.phaseCode]
    · have hchange := Part.changeLeader_stay (p := s.part.toHunt) (leader := BitVec.ofNat 32 (field body 1 4)) h
      refine (hexec (by rcases h with h | h <;> rw [h] <;> decide) hchange (a := x.state.code) (b := 0xFF#8) ?_ ?_).trans rfl
      · simp [Part.leaderWritten, x]
      · rcases h with h | h <;> simp [Part.leaderWritten, x, h, DomainState.phaseCode]
    · have hchange := Part.changeLeader_acquire (p := s.part.toHunt) (leader := BitVec.ofNat 32 (field body 1 4)) h
      have hstate := Part.state_backToWaiting (s.part.toHunt.leaderWritten d (BitVec.ofNat 32 (field body 1 4))) d
      exact hexec (by rw [h]; nofun) hchange (congrArg DomainState.code hstate) (congrArg DomainState.phaseCode hstate)
  · intro x queue back
    refine ⟨fun r hr hne => ?_, fun code hcode => ?_⟩
    · rw [Part.backToWaiting_unserved (fun r' hr' => by rw [hr] at hr'; cases hr'; exact hne), Part.engineTake_none]
      · rw [hr]; rfl
      · exact .inl (by simp [Part.waitingAgain, hr])
    · have hback : p.backToWaiting d = (p.waitingAgain d ⟨none, p.queueWithout d⟩ code).engineTake := by
        rcases hcode with ⟨r, hr, hd, rfl⟩ | ⟨hnone, rfl⟩
        · exact Part.backToWaiting_served hr hd
        · rw [Part.backToWaiting_unserved (fun r hr => by rw [hnone] at hr; cases hr), hnone]
      refine ⟨fun hq => ?_, fun e rest hq => ?_⟩
      · rw [hback, Part.engineTake_none (.inr hq), show p.queueWithout d = [] from hq]
        rfl
      · intro y w settled bit
        rw [hback, Part.engineTake_waitingAgain code hq, Search.begin_eq]
        rfl
  · have hn : (s.part.domain d).following = false := by
      refine Bool.eq_false_iff.mpr (fun h => ?_)
      obtain ⟨hrole, hbound⟩ := (Domain.following_iff _).mp h
      rcases hf with hf | hf
      · rw [hrole] at hf; cases hf
      · exact hbound hf
    exact exec_command_refused (k := .lchg) hp (decide_eq_true hlen) (handleLchg_notFollowing (p := s.part.toHunt) hd hn)
  · exact exec_command_accepted (k := .drel) (by decide) hp rfl (handleDrel_unbound (p := s.part.toHunt) hu)
  · intro queue released
    refine exec_command_ok (k := .drel) (by decide) hp rfl ((handleDrel_bound (p := s.part.toHunt) hb).trans ?_)
    rw [Part.releaseDomain_eq]
    rfl

end Sys2Proof.Machine
end

section
/-! PROOFS. The statements of the family of chapter 4, echo exchanges and the path delay: the path delay as a minimum (O31), ECHS
(O28) and ECHA (O29). -/

namespace Sys2Proof.Machine

/-! ### The path delay (O31) -/

/-- R56 with the library's minimum of a list. -/
theorem Part.pathDelay_eq (p : Part) (d : DomainId) :
    p.pathDelay d = (p.echo.samples.get d).min?.getD (p.domain d).setup.initialPathDelay := by
  unfold Part.pathDelay
  cases p.echo.samples.get d <;> rfl

/-- The path delay depends on the echo table and the domain's setup alone. -/
theorem Part.pathDelay_congr {p q : Part} {d : DomainId} (hecho : q.echo = p.echo)
    (hsetup : (q.domain d).setup = (p.domain d).setup) : q.pathDelay d = p.pathDelay d := by
  rw [Part.pathDelay_eq, Part.pathDelay_eq, hecho, hsetup]

theorem Part.pathDelay_of_nil {p : Part} {d : DomainId} (h : p.echo.samples.get d = []) :
    p.pathDelay d = (p.domain d).setup.initialPathDelay := by
  rw [Part.pathDelay_eq, h]
  rfl

theorem Part.min?_samples {p : Part} {d : DomainId} (h : p.echo.samples.get d ≠ []) :
    (p.echo.samples.get d).min? = some (p.pathDelay d) := by
  obtain ⟨x, hx⟩ := Option.ne_none_iff_exists'.mp (mt List.min?_eq_none_iff.mp h)
  rw [Part.pathDelay_eq, hx]
  rfl

theorem joinPath_of_lt {l : List Nat} (x : Nat) (h : l.length < 8) : joinPath l x = l ++ [x] :=
  congrArg (· ++ [x]) (if_neg (Nat.not_le.mpr h))

theorem joinPath_of_le {l : List Nat} (x : Nat) (h : 8 ≤ l.length) : joinPath l x = l.tail ++ [x] :=
  congrArg (· ++ [x]) (if_pos h)

/-- Settles O31: the fold of `pathDelay` is the library's minimum, which is a member of its list and at most every other. -/
theorem pathDelayIsTheMinimum : Obligations.PathDelayIsTheMinimum :=
  ⟨fun _ _ => Part.pathDelay_of_nil, fun _ _ h => List.min?_eq_some_iff.mp (Part.min?_samples h),
    fun _ x => joinPath_of_lt x, fun _ x h => joinPath_of_le x (Nat.le_of_eq h.symm)⟩

/-! ### ECHS (O28) -/

section
variable {body : List Byte} {p : Part} {d : DomainId} (hd : DomainId.ofCode (field body 0 1) = some d)
include hd

theorem handleEchs_notFollowing (hf : (p.domain d).following = false) : handleEchs body p = p.refuse .wrongState := by
  simp [handleEchs, hd, hf]

theorem handleEchs_duplicate (hf : (p.domain d).following = true)
    (hr : p.echo.find d (BitVec.ofNat 16 (field body 1 2)) ≠ none) : handleEchs body p = p.refuse .duplicate := by
  simp [handleEchs, hd, hf, Option.isSome_iff_ne_none.mpr hr]

variable (hf : (p.domain d).following = true) (hr : p.echo.find d (BitVec.ofNat 16 (field body 1 2)) = none)
include hf hr

theorem handleEchs_tableFull (hn : Config.echoCapacity ≤ p.echo.records.length) :
    handleEchs body p = p.refuse .tableFull := by
  simp [handleEchs, hd, hf, hr, hn]

variable (hn : p.echo.records.length < Config.echoCapacity)
include hn

theorem handleEchs_badCapture {status : Status}
    (hc : p.checkCapture (BitVec.ofNat 8 (field body 3 1)) .tx = .error status) : handleEchs body p = p.refuse status := by
  simp [handleEchs, hd, hf, hr, Nat.not_le.mpr hn, hc]

theorem handleEchs_starts {c : Capture} (hc : p.checkCapture (BitVec.ofNat 8 (field body 3 1)) .tx = .ok c) :
    handleEchs body p = p.startEcho c.number
      ⟨d, BitVec.ofNat 16 (field body 1 2), c.time, c.time + (p.domain d).setup.echoTicks⟩ := by
  simp [handleEchs, hd, hf, hr, Nat.not_le.mpr hn, hc]

end

/-- The part with a record at the end of its echo table. -/
def Part.addEcho (p : Part) (r : EchoRecord) : Part := { p with echo := { p.echo with records := p.echo.records ++ [r] } }

/-- What an accepted ECHS reports of its record and of the table that holds it (R58). -/
def EchoRecord.report (r : EchoRecord) (count : Nat) : List Byte :=
  leBytes 2 r.sequence.toNat ++ timeBytes r.departure ++ timeBytes r.deadline ++ leBytes 1 count

theorem Part.startEcho_waits {p : Part} {r : EchoRecord} (n : Byte) (h : p.localTime < r.deadline) :
    p.startEcho n r = ((p.claim n).addEcho r).accept (r.report (p.echo.records.length + 1)) := by
  simp [Part.startEcho, Part.accept, EchoRecord.report, Part.addEcho, Nat.not_le.mpr h]

/-- A deadline that is reached when the record is made (R58, R64): the answer counts the record, which then expires. -/
theorem Part.startEcho_reached {p : Part} {r : EchoRecord} (n : Byte) (h : r.deadline ≤ p.localTime) :
    p.startEcho n r =
      (((p.claim n).addEcho r).echoExpiry r.domain r.sequence).accept (r.report (p.echo.records.length + 1)) := by
  simp [Part.startEcho, Part.accept, EchoRecord.report, Part.addEcho, h]

/-- A record whose domain and sequence the table did not hold leaves it as it was. -/
theorem EchoTable.remove_added {t : EchoTable} {r : EchoRecord} (h : t.find r.domain r.sequence = none) :
    ({ t with records := t.records ++ [r] } : EchoTable).remove r.domain r.sequence = t := by
  have hkept : t.records.filter (fun e => !(e.domain == r.domain && e.sequence == r.sequence)) = t.records :=
    List.filter_eq_self.mpr (fun e he => by
      rw [Bool.not_eq_true']
      exact Bool.eq_false_iff.mpr (List.find?_eq_none.mp h e he))
  simp only [EchoTable.remove, List.filter_append, hkept]
  simp

/-- A timeout of the domain that makes its run `k` and is counted (R63). -/
def Part.countEchoTimeout (p : Part) (d : DomainId) (k : Nat) : Part :=
  ({ p with echo := { p.echo with timeouts := p.echo.timeouts.set d k } } : Part).tally (.domain d .echoTimeouts)

section
variable {p : Part} {r : EchoRecord} (h : p.echo.find r.domain r.sequence = none)
include h

theorem Part.expireEcho_addEcho (k : Nat) :
    (p.addEcho r).expireEcho r.domain r.sequence k = p.countEchoTimeout r.domain k := by
  simp only [Part.expireEcho, Part.addEcho, EchoTable.remove_added h]
  rfl

/-- A new record that expires at once leaves the timeout alone, below the fourth in a row. -/
theorem Part.echoExpiry_addEcho_short {k : Nat} (hk : min 4 (p.echo.timeouts.get r.domain + 1) = k) (hlt : k < 4) :
    (p.addEcho r).echoExpiry r.domain r.sequence = p.countEchoTimeout r.domain k := by
  have hrun : p.echo.timeouts.get r.domain + 1 = k := by omega
  rw [Part.echoExpiry_short (p := p.addEcho r) r.sequence (hrun.trans_lt hlt), Part.expireEcho_addEcho h, ← hrun]
  rfl

/-- A new record that expires at once as the fourth in a row declares PATH. -/
theorem Part.echoExpiry_addEcho_fourth (hk : min 4 (p.echo.timeouts.get r.domain + 1) = 4) :
    (p.addEcho r).echoExpiry r.domain r.sequence = (p.countEchoTimeout r.domain 4).setAlarm r.domain .path true := by
  have hrun : 4 ≤ p.echo.timeouts.get r.domain + 1 := by omega
  rw [Part.echoExpiry_fourth (p := p.addEcho r) r.sequence hrun, Part.expireEcho_addEcho h]

end

/-- Settles O28: the record waits, or expires at once short of the fourth timeout or as the fourth; then R57's checks in order. -/
theorem echoStartMakesARecord : Obligations.EchoStartMakesARecord := by
  refine ⟨fun s tag body d c hp hlen hd => ?_, fun s tag body d hp hlen hd => ?_⟩
  · intro x seq hrole hbound hfree hroom hcap hinput r answered run expired
    have hstart : handleEchs body s.part.toHunt = s.part.toHunt.startEcho c.number r :=
      handleEchs_starts (p := s.part.toHunt) hd ((Domain.following_iff _).mpr ⟨hrole, hbound⟩) hfree hroom
        (Part.checkCapture_ok hcap hinput)
    have hexec : ∀ q : Part, s.part.toHunt.startEcho c.number r = q.accept (r.report (s.part.echo.records.length + 1)) →
        exec (.echs tag body) s = answered q := fun q hq =>
      exec_command_ok (k := .echs) (by decide) hp (decide_eq_true hlen) (hstart.trans hq)
    refine ⟨fun hwait => ?_, fun hreached hshort => ?_, fun hreached hfourth => ?_⟩
    · exact hexec ((s.part.toHunt.claim c.number).addEcho r) (Part.startEcho_waits (p := s.part.toHunt) c.number hwait)
    · refine hexec expired ((Part.startEcho_reached (p := s.part.toHunt) c.number hreached).trans ?_)
      rw [Part.echoExpiry_addEcho_short (p := s.part.toHunt.claim c.number) (r := r) hfree rfl hshort]
      rfl
    · refine hexec (expired.setAlarm d .path true)
        ((Part.startEcho_reached (p := s.part.toHunt) c.number hreached).trans ?_)
      rw [Part.echoExpiry_addEcho_fourth (p := s.part.toHunt.claim c.number) (r := r) hfree hfourth, ← hfourth]
      rfl
  · intro x refused follows found capture
    have hfollows : x.following = true ↔ follows := x.following_iff
    have refuses : ∀ {status}, handleEchs body s.part.toHunt = s.part.toHunt.refuse status → refused status :=
      exec_command_refused (k := .echs) hp (decide_eq_true hlen)
    refine ⟨fun hn => ?_, fun hf hfound => ?_, fun hf hfree hfull => ?_, fun hf hfree hroom hgone => ?_,
      fun c hf hfree hroom hcap hinput => ?_⟩
    · exact refuses (handleEchs_notFollowing hd (Bool.eq_false_iff.mpr (mt hfollows.mp hn)))
    · exact refuses (handleEchs_duplicate hd (hfollows.mpr hf) hfound)
    · exact refuses (handleEchs_tableFull hd (hfollows.mpr hf) hfree hfull)
    · exact refuses (handleEchs_badCapture (p := s.part.toHunt) hd (hfollows.mpr hf) hfree hroom (Part.checkCapture_gone hgone))
    · exact refuses (handleEchs_badCapture (p := s.part.toHunt) hd (hfollows.mpr hf) hfree hroom
        (Part.checkCapture_wrongInput hcap (by rw [hinput]; decide)))

/-! ### ECHA (O29) -/

section
variable {body : List Byte} {p : Part} {d : DomainId} (hd : DomainId.ofCode (field body 0 1) = some d)
include hd

theorem handleEcha_notFollowing (hf : (p.domain d).following = false) : handleEcha body p = p.refuse .wrongState := by
  simp [handleEcha, hd, hf]

variable (hf : (p.domain d).following = true)
include hf

theorem handleEcha_noEntry (hr : p.echo.find d (BitVec.ofNat 16 (field body 1 2)) = none) :
    handleEcha body p = p.refuse .noEntry := by
  simp [handleEcha, hd, hf, hr]

variable {r : EchoRecord} (hr : p.echo.find d (BitVec.ofNat 16 (field body 1 2)) = some r)
include hr

theorem handleEcha_badCapture {status : Status}
    (hc : p.checkCapture (BitVec.ofNat 8 (field body 19 1)) .rx = .error status) : handleEcha body p = p.refuse status := by
  simp [handleEcha, hd, hf, hr, hc]

theorem handleEcha_answers {c : Capture} (hc : p.checkCapture (BitVec.ofNat 8 (field body 19 1)) .rx = .ok c) :
    handleEcha body p = p.answerEcho d r c (field body 3 8) (field body 11 8) := by
  simp [handleEcha, hd, hf, hr, hc]

end

/-- A request's command, where its rule answers at all. -/
theorem exec_command_answered {s : State} {k : RequestKind} {tag : Byte} {body : List Byte} {q : Part} {a : Answer}
    (hp : s.part.TakesRequests) (hl : k.lengthOk body = true) (hh : k.handler body s.part.toHunt = (q, some a)) :
    exec (k.command tag body) s = .next { s with part := q.answer k.code tag a } := by
  rw [exec_command_next, Part.request_answered hp hl hh]

@[simp] theorem Part.echo_setAlarm (p : Part) (d : DomainId) (a : Alarm) (b : Bool) : (p.setAlarm d a b).echo = p.echo := by
  unfold Part.setAlarm; split <;> rfl

@[simp] theorem Part.setup_setAlarm (p : Part) (d : DomainId) (a : Alarm) (b : Bool) :
    ((p.setAlarm d a b).domain d).setup = (p.domain d).setup := by
  rw [Part.domain_setAlarm]; cases a <;> rfl

/-- A path list and a run of 0 timeouts are written to the echo table (R61). -/
def Part.learnPath (p : Part) (d : DomainId) (path : List Nat) : Part :=
  { p with echo := { p.echo with samples := p.echo.samples.set d path, timeouts := p.echo.timeouts.set d 0 } }

section
variable (p : Part) (d : DomainId) (sample : Nat)

/-- The echo table after a path sample: the alarm and the tally that follow do not write it. -/
theorem Part.echo_pathSample :
    (p.pathSample d sample).echo = (p.learnPath d (joinPath (p.echo.samples.get d) sample)).echo := by
  rw [Part.pathSample, Part.echo_tally, Part.echo_setAlarm]
  rfl

theorem Part.pathDelay_pathSample :
    (p.pathSample d sample).pathDelay d = (p.learnPath d (joinPath (p.echo.samples.get d) sample)).pathDelay d := by
  refine Part.pathDelay_congr (p.echo_pathSample d sample) ?_
  rw [Part.pathSample, Part.domain_tally, Part.setup_setAlarm]
  rfl

theorem Part.samples_pathSample :
    (p.pathSample d sample).echo.samples.get d = joinPath (p.echo.samples.get d) sample := by
  simp [Part.echo_pathSample, Part.learnPath]

end

/-- The part with a capture claimed and the record of a sequence removed (R60). -/
def Part.closeEcho (p : Part) (d : DomainId) (r : EchoRecord) (n : Byte) : Part :=
  { p.claim n with echo := p.echo.remove d r.sequence }

section
variable {p : Part} {d : DomainId} {r : EchoRecord} {c : Capture} {t2 t3 : DomainTime} {turnaround trip : Int}
  (hturn : turnaround = (t3 : Int) - t2) (htrip : trip = ((c.time : Int) - r.departure) - turnaround)
include hturn htrip

theorem Part.answerEcho_bad (h : turnaround < 0 ∨ trip < 0) :
    p.answerEcho d r c t2 t3 =
      (p.closeEcho d r c.number, some (.refusalWith .badEcho (signedBytes turnaround ++ signedBytes trip))) := by
  subst hturn htrip
  rw [Part.answerEcho, if_pos h]
  rfl

theorem Part.answerEcho_learns {sample : Nat} {path : List Nat} (h : 0 ≤ turnaround) (h' : 0 ≤ trip)
    (hsample : trip.toNat / 2 = sample) (hpath : joinPath (p.echo.samples.get d) sample = path) :
    p.answerEcho d r c t2 t3 =
      ((((p.closeEcho d r c.number).learnPath d path).setAlarm d .path false).tally (.domain d .echoAnswers)).accept
        (signedBytes turnaround ++ signedBytes trip ++ leBytes 4 sample ++
          leBytes 4 (((p.closeEcho d r c.number).learnPath d path).pathDelay d) ++ leBytes 1 path.length) := by
  subst hturn htrip hsample hpath
  rw [Part.answerEcho, if_neg (by omega)]
  simp only [Part.pathDelay_pathSample, Part.samples_pathSample]
  rfl

end

/-- Settles O29, by the sign of the turnaround and the round trip; then R59's checks in order. -/
theorem echoAnswerLearnsThePath : Obligations.EchoAnswerLearnsThePath := by
  refine ⟨fun s tag body d r c hp hlen hd hrole hbound hfound hcap hinput => ?_, fun s tag body d hp hlen hd => ?_⟩
  · intro turnaround trip closed
    have hanswer := handleEcha_answers (p := s.part.toHunt) hd ((Domain.following_iff _).mpr ⟨hrole, hbound⟩) hfound
      (Part.checkCapture_ok hcap hinput)
    have hl : RequestKind.lengthOk .echa body = true := decide_eq_true hlen
    refine ⟨fun hbad => ?_, fun hturn htrip => ?_⟩
    · exact exec_command_answered (k := .echa) hp hl (hanswer.trans (Part.answerEcho_bad rfl rfl hbad))
    · intro sample held path learned
      exact exec_command_ok (k := .echa) (by decide) hp hl
        (hanswer.trans (Part.answerEcho_learns (path := path) rfl rfl hturn htrip rfl rfl))
  · intro x refused follows found capture
    have hfollows : x.following = true ↔ follows := x.following_iff
    have refuses : ∀ {status}, handleEcha body s.part.toHunt = s.part.toHunt.refuse status → refused status :=
      exec_command_refused (k := .echa) hp (decide_eq_true hlen)
    refine ⟨fun hn => ?_, fun hf hnone => ?_, fun hf hsome hgone => ?_, fun c hf hsome hcap hinput => ?_⟩
    · exact refuses (handleEcha_notFollowing hd (Bool.eq_false_iff.mpr (mt hfollows.mp hn)))
    · exact refuses (handleEcha_noEntry hd (hfollows.mpr hf) hnone)
    · obtain ⟨r, hr⟩ := Option.ne_none_iff_exists'.mp hsome
      exact refuses (handleEcha_badCapture (p := s.part.toHunt) hd (hfollows.mpr hf) hr (Part.checkCapture_gone hgone))
    · obtain ⟨r, hr⟩ := Option.ne_none_iff_exists'.mp hsome
      exact refuses (handleEcha_badCapture (p := s.part.toHunt) hd (hfollows.mpr hf) hr
        (Part.checkCapture_wrongInput hcap (by rw [hinput]; decide)))

end Sys2Proof.Machine
end

section
/-! PROOFS. The statements of the family of chapter 5, the block pool and the stream filter: the pool law and the queue law of
every step (O59), the stream filter (O32, O33), PWMK, FSET and FDEF (O34), storing a block (O36), PBLK (O35), and releases,
play-out and late drops (O37). -/

namespace Sys2Proof.Machine

/-! ### The pool law and the queue law of every step (O59) -/

/-- A held slot is found under its own number. -/
theorem BlockPool.find_of_mem {pool : BlockPool} (hw : pool.WellKept) {h : HeldSlot} (hh : h ∈ pool.held) :
    pool.find h.number = some h := by
  obtain ⟨k, hk⟩ : ∃ k, pool.find h.number = some k :=
    Option.ne_none_iff_exists'.mp (fun hnone => by simpa using List.find?_eq_none.mp hnone h hh)
  have hnumber : k.number = h.number := beq_iff_eq.mp (List.find?_some (p := fun k : HeldSlot => k.number == h.number) hk)
  have hnodup : (pool.held.map HeldSlot.number).Nodup := hw.1.imp Nat.ne_of_lt
  rw [hk, List.inj_on_of_nodup_map hnodup (List.mem_of_find?_eq_some hk) hh hnumber]

/-- The holder count of a held slot is its own record's. -/
theorem BlockPool.holdersOf_of_mem {pool : BlockPool} (hw : pool.WellKept) {h : HeldSlot} (hh : h ∈ pool.held) :
    pool.holdersOf h.number = h.holders := by
  rw [BlockPool.holdersOf, BlockPool.find_of_mem hw hh]

/-- The free and the held slots number 512 (R67). -/
theorem BlockPool.freeCount_add_held {pool : BlockPool} (hw : pool.WellKept) : pool.freeCount + pool.held.length = 512 :=
  Nat.sub_add_cancel (pool.held_le hw)

theorem Part.zone_reset (mode : LinkMode) (divisor : Byte) (selected : Bool) (z : ZoneId) :
    (Part.reset mode divisor selected).zone z = Zone.reset := by cases z <;> rfl

theorem Part.poolLaw_reset (mode : LinkMode) (divisor : Byte) (selected : Bool) :
    (Part.reset mode divisor selected).PoolLaw :=
  ⟨⟨List.Pairwise.nil, fun _ h => absurd h List.not_mem_nil⟩, fun _ => rfl, fun z _ => by
    rw [Part.zone_reset]; exact Nat.zero_le _⟩

theorem Part.queueLaw_reset (mode : LinkMode) (divisor : Byte) (selected : Bool) :
    (Part.reset mode divisor selected).QueueLaw where
  pool := Part.poolLaw_reset mode divisor selected
  resting := fun z _ => by rw [Part.zone_reset]; exact ⟨rfl, rfl⟩
  quotas := fun z => by rw [Part.zone_reset]; exact ⟨Nat.zero_le _, Nat.zero_le _⟩
  order := fun z t => by rw [Part.zone_reset]; cases t <;> exact .nil

/-- Everything a step is made of keeps the pool law. -/
theorem Part.keptPoolLaw : Kept Part.PoolLaw where
  effect := PartEffect.poolLaw
  link := fun _ _ h => h
  reset := Part.poolLaw_reset
  time := fun _ h => h

/-- Everything a step is made of keeps the pool law, the quotas and the order of the queues. -/
theorem Part.keptQueueLaw : Kept Part.QueueLaw where
  effect := PartEffect.queueLaw
  link := fun _ _ ⟨pool, resting, quotas, order⟩ => ⟨pool, resting, quotas, order⟩
  reset := Part.queueLaw_reset
  time := fun _ ⟨pool, resting, quotas, order⟩ => ⟨pool, resting, quotas, order⟩

/-- Settles O59: every step is made of effects, writes of the link and resets, and each of these keeps the two laws; a held
slot's count is its references, at most one of each zone. -/
theorem holderCountsAreQueuePlaces : Obligations.HolderCountsAreQueuePlaces := by
  refine ⟨Part.keptPoolLaw.keptByStep, fun p ⟨hkept, hrefs, honce⟩ => ⟨BlockPool.freeCount_add_held hkept, fun h hh => ?_⟩,
    Part.poolLaw_reset, Part.keptQueueLaw.keptByStep, Part.queueLaw_reset⟩
  have hcount : h.holders = p.references h.number := by rw [hrefs, BlockPool.holdersOf_of_mem hkept hh]
  exact ⟨(hkept.2 h hh).2, hcount ▸ p.references_le honce h.number, hcount⟩

/-! ### The stream filter (O32, O33) -/

theorem FilterEntry.matchesStream_iff (e : FilterEntry) (stream : Word32) :
    e.matchesStream stream = true ↔ e.enabled = true ∧ stream &&& e.mask = e.matchValue &&& e.mask := by
  rw [FilterEntry.matchesStream, Bool.and_eq_true, beq_iff_eq]

/-- Two words agree under a mask exactly when they agree in every bit where the mask has a 1. -/
theorem and_mask_eq_iff {w : Nat} (x y mask : BitVec w) :
    x &&& mask = y &&& mask ↔ ∀ i < w, mask.getLsbD i = true → x.getLsbD i = y.getLsbD i := by
  constructor
  · intro h i _ hm
    have hbit := congrArg (BitVec.getLsbD · i) h
    simpa [hm] using hbit
  · intro h
    refine BitVec.eq_of_getLsbD_eq (fun i hi => ?_)
    cases hm : mask.getLsbD i with
    | false => simp [hm]
    | true => simp [hm, h i hi hm]

/-- The upper half of a word, as a number. -/
theorem toNat_and_upperHalf (x : Word32) : (x &&& 0xFFFF0000#32).toNat = x.toNat / 65536 * 65536 := by
  have hshift : x &&& 0xFFFF0000#32 = x >>> 16 <<< 16 := by
    refine BitVec.eq_of_getLsbD_eq (fun i hi => ?_)
    have hmask : ∀ i < 32, (0xFFFF0000#32).getLsbD i = decide (16 ≤ i) := by decide
    rw [BitVec.getLsbD_and, hmask i hi]
    by_cases h : 16 ≤ i
    · simp [h, hi, Nat.not_lt.mpr h]
    · simp [h, Nat.lt_of_not_le h]
  have hlt := x.isLt
  rw [hshift, BitVec.toNat_shiftLeft, BitVec.toNat_ushiftRight, Nat.shiftLeft_eq, Nat.shiftRight_eq_div_pow]
  omega

/-- Settles O32: the masked comparison is one bit by bit; under 0xFFFF0000 it is one of the upper halves. -/
theorem filterEntryMatches : Obligations.FilterEntryMatches := by
  refine ⟨fun e stream => ?_, fun e stream hen hmask => ?_, fun e stream hen hmask => ?_, fun e stream hen hmask hval => ?_⟩
  · rw [e.matchesStream_iff, and_mask_eq_iff]
  · have hones : ∀ x : Word32, x &&& 0xFFFFFFFF#32 = x := fun x => BitVec.and_allOnes
    rw [e.matchesStream_iff, hmask, hones, hones]
    exact and_iff_right hen
  · rw [e.matchesStream_iff, hmask, BitVec.and_zero, BitVec.and_zero]
    exact ⟨hen, rfl⟩
  · have hlt := stream.isLt
    rw [e.matchesStream_iff, hmask, hval, ← BitVec.toNat_inj, toNat_and_upperHalf, and_iff_right hen]
    change _ = 0x00A10000 ↔ _
    omega

theorem firstMatch_of_get {stream : Word32} {l : List FilterEntry} {i : Nat} (hi : i < l.length)
    (hmatch : l[i].matchesStream stream = true) (hearlier : ∀ (j : Nat) (hj : j < i), l[j].matchesStream stream = false)
    (n : Nat) : firstMatch stream n l = some ⟨some (n + i), l[i].action, l[i].zones⟩ := by
  induction l generalizing i n with
  | nil => exact absurd hi (Nat.not_lt_zero _)
  | cons e es ih =>
    cases i with
    | zero => exact if_pos hmatch
    | succ i =>
      have hhead : e.matchesStream stream = false := hearlier 0 (Nat.succ_pos _)
      have htail := ih (Nat.lt_of_succ_lt_succ hi) hmatch (fun j hj => hearlier (j + 1) (Nat.succ_lt_succ hj)) (n + 1)
      simp only [firstMatch, hhead, Bool.false_eq_true, if_false, htail, List.getElem_cons_succ, Nat.add_right_comm,
        Nat.add_assoc]

theorem firstMatch_none {stream : Word32} {l : List FilterEntry} (h : ∀ e ∈ l, e.matchesStream stream = false) (n : Nat) :
    firstMatch stream n l = none := by
  induction l generalizing n with
  | nil => rfl
  | cons e es ih =>
    obtain ⟨hhead, htail⟩ := List.forall_mem_cons.mp h
    simp only [firstMatch, hhead, Bool.false_eq_true, if_false, ih htail]

/-- Settles O33, by the search through the entries in their order. -/
theorem firstMatchingEntryDecides : Obligations.FirstMatchingEntryDecides := by
  refine fun f stream => ⟨fun i hi hmatch hearlier => ?_, fun hnone => ?_⟩
  · have hfirst := firstMatch_of_get (l := f.entries.toList) (by simpa using hi) (by simpa using hmatch)
      (fun j hj => by simpa using hearlier j hj) 0
    simp [StreamFilter.route, hfirst]
  · have hfirst := firstMatch_none (l := f.entries.toList) (stream := stream) (fun e he => by
      obtain ⟨i, hi, rfl⟩ := List.getElem_of_mem he
      simpa using hnone i (by simpa using hi)) 0
    simp [StreamFilter.route, hfirst]

/-! ### PWMK, FSET and FDEF (O34) -/

theorem inRange_of_le {lo hi x : Nat} (hlo : lo ≤ x) (hhi : x ≤ hi) : inRange lo hi x = some x := if_pos ⟨hlo, hhi⟩

theorem inRange_of_gt {lo hi x : Nat} (h : hi < x) : inRange lo hi x = none := if_neg (fun hx => Nat.not_le.mpr h hx.2)

/-- A two-byte field is sent back as it came. -/
theorem leBytes_two (a b : Byte) : leBytes 2 (a.toNat + 256 * b.toNat) = [a, b] := by
  have ha := a.isLt
  have hb := b.isLt
  simp only [leBytes, List.cons.injEq, and_true]
  constructor <;> refine BitVec.eq_of_toNat_eq ?_ <;> rw [BitVec.toNat_ofNat] <;> omega

/-- An action's byte is sent back as it came. -/
theorem FilterAction.code_of_ofCode {a : Byte} {action : FilterAction} (h : FilterAction.ofCode a.toNat = some action) :
    action.code = a := by
  unfold FilterAction.ofCode at h
  split at h
  · next h0 => cases h; exact BitVec.eq_of_toNat_eq h0.symm
  · next h1 => cases h; exact BitVec.eq_of_toNat_eq h1.symm
  · next h2 => cases h; exact BitVec.eq_of_toNat_eq h2.symm
  · cases h

/-- A number below 16 is the sum of its four bits. -/
theorem zoneBits_sum : ∀ n < 16, (n.testBit 0).toNat + 2 * (n.testBit 1).toNat + 4 * (n.testBit 2).toNat +
    8 * (n.testBit 3).toNat = n := by decide

/-- A zone set's byte is sent back as it came. -/
theorem ZoneSet.code_of_ofCode {b : Byte} {zones : ZoneSet} (h : ZoneSet.ofCode b.toNat = some zones) :
    ZoneSet.code zones = b := by
  unfold ZoneSet.ofCode at h
  split at h
  · next hlt =>
    cases h
    exact (congrArg (BitVec.ofNat 8) (zoneBits_sum _ hlt)).trans (by rw [BitVec.ofNat_toNat, BitVec.setWidth_eq])
  · cases h

theorem handlePwmk_le {a b : Byte} (h : a.toNat + 256 * b.toNat ≤ 512) (p : Part) :
    handlePwmk [a, b] p = ({ p with pool := { p.pool with watermark := a.toNat + 256 * b.toNat } } : Part).accept
      ([a, b] ++ leBytes 2 p.pool.freeCount) := by
  rw [handlePwmk, field_two, inRange_of_le (Nat.zero_le _) h, ← leBytes_two]

theorem handlePwmk_gt {a b : Byte} (h : 512 < a.toNat + 256 * b.toNat) (p : Part) :
    handlePwmk [a, b] p = p.refuse .badField := by
  rw [handlePwmk, field_two, inRange_of_gt h]

theorem handleFset_entry {body : List Byte} (h : field body 0 1 < 16) {e : FilterEntry} (he : FilterEntry.ofBody body = some e)
    (p : Part) : handleFset body p =
      ({ p with filter := { p.filter with entries := p.filter.entries.set (field body 0 1) e } } : Part).accept
        (e.bytes ++ p.filter.entries[field body 0 1].bytes) := by
  simp only [handleFset, h, dif_pos, he]

theorem handleFdef_default {a b : Byte} {action : FilterAction} {zones : ZoneSet}
    (ha : FilterAction.ofCode a.toNat = some action) (hb : ZoneSet.ofCode b.toNat = some zones) (hne : action ≠ .overlay)
    (p : Part) :
    handleFdef [a, b] p =
      ({ p with filter := { p.filter with defaultAction := action, defaultZones := zones } } : Part).accept
        [a, b, p.filter.defaultAction.code, ZoneSet.code p.filter.defaultZones] := by
  simp only [handleFdef, field_cons_succ, field_zero_one, ha, hb]
  cases action with
  | overlay => exact absurd rfl hne
  | main | reject =>
    simp only [StreamFilter.defaultBytes, FilterAction.code_of_ofCode ha, ZoneSet.code_of_ofCode hb, List.cons_append,
      List.nil_append]

theorem handleFdef_overlay {a b : Byte} (ha : FilterAction.ofCode a.toNat = some .overlay) (p : Part) :
    handleFdef [a, b] p = p.refuse .badField := by
  simp only [handleFdef, field_zero_one, ha]

/-- Settles O34, request by request. -/
theorem poolAndFilterWrites : Obligations.PoolAndFilterWrites := by
  refine fun s tag a b body hp => ⟨fun hle => ?_, fun hgt => ?_, fun h e hlen he => ?_, fun action zones ha hb =>
    ⟨fun hne => ?_, fun he => ?_⟩⟩
  · exact exec_command_accepted (k := .pwmk) (by decide) hp rfl (handlePwmk_le hle s.part.toHunt)
  · exact exec_command_refused (k := .pwmk) hp rfl (handlePwmk_gt hgt s.part.toHunt)
  · exact exec_command_accepted (k := .fset) (by decide) hp (decide_eq_true hlen) (handleFset_entry h he s.part.toHunt)
  · exact exec_command_accepted (k := .fdef) (by decide) hp rfl (handleFdef_default ha hb hne s.part.toHunt)
  · exact exec_command_refused (k := .fdef) hp rfl (handleFdef_overlay (he ▸ ha) s.part.toHunt)

/-! ### Storing a block (O36) -/

/-- Insertion by presentation time splits a queue at the first entry that does not start earlier (R88). -/
theorem BlockPool.insertEntry_eq (pool : BlockPool) (n : Nat) (time : DomainTime) (l : List Nat) :
    pool.insertEntry n time l =
      l.takeWhile (fun m => pool.entryStart m < time) ++ n :: l.dropWhile (fun m => pool.entryStart m < time) := by
  induction l with
  | nil => rfl
  | cons m ms ih =>
    by_cases h : pool.entryStart m < time
    · simp only [BlockPool.insertEntry, h, if_true, ih, List.takeWhile_cons, List.dropWhile_cons, decide_true,
        List.cons_append]
    · simp [BlockPool.insertEntry, h]

/-- In a list of ascending values, what is at most the first value is at most every value. -/
theorem le_of_head_le {f : Nat → Nat} {t : Nat} {l : List Nat} (hl : l.Pairwise (fun m n => f m < f n))
    (hhead : ∀ n, l.head? = some n → t ≤ f n) : ∀ n ∈ l, t ≤ f n := by
  cases l with
  | nil => exact fun n hn => absurd hn List.not_mem_nil
  | cons a l =>
    have hfirst : t ≤ f a := hhead a rfl
    exact List.forall_mem_cons.mpr ⟨hfirst, fun n hn => hfirst.trans (Nat.le_of_lt (List.rel_of_pairwise_cons hl hn))⟩

/-- Where insertion puts an entry: after every entry that starts earlier, before the first that does not, and so, in a queue of
ascending starts, before every other (R88). -/
theorem BlockPool.insertEntry_spec (pool : BlockPool) (n : Nat) (time : DomainTime) (l : List Nat) :
    ∃ front back, l = front ++ back ∧ (∀ m ∈ front, pool.entryStart m < time) ∧
      (∀ m, back.head? = some m → time ≤ pool.entryStart m) ∧
      (l.Pairwise (fun a b => pool.entryStart a < pool.entryStart b) → ∀ m ∈ back, time ≤ pool.entryStart m) ∧
      pool.insertEntry n time l = front ++ n :: back := by
  have hhead : ∀ m, (l.dropWhile (fun m => pool.entryStart m < time)).head? = some m → time ≤ pool.entryStart m := by
    intro m hm
    have hnot := List.head?_dropWhile_not (fun m => decide (pool.entryStart m < time)) l
    rw [hm] at hnot
    simpa using hnot
  refine ⟨_, _, List.takeWhile_append_dropWhile.symm, fun m hm => ?_, hhead, fun hl => ?_, pool.insertEntry_eq n time l⟩
  · exact of_decide_eq_true (List.mem_takeWhile_imp (p := fun m => decide (pool.entryStart m < time)) hm)
  · exact le_of_head_le (hl.sublist (List.dropWhile_sublist _)) hhead

@[simp] theorem Zone.queue_setQueue (x : Zone) (t : Target) (q : List Nat) : (x.setQueue t q).queue t = q := by
  cases t <;> rfl

/-- The part with one more held slot, in no queue yet. -/
def Part.hold (p : Part) (h : HeldSlot) : Part := { p with pool := { p.pool with held := insertSlot h p.pool.held } }

/-- The block's slot is held, then queued in each zone, then the watermark is tested (R71, R82). -/
theorem Part.storeBlock_stages (p : Part) (b : Block) (t : Target) (slot : Nat) (zs : List ZoneId) :
    p.storeBlock b t slot zs =
      let queued := zs.foldl (fun q z => q.insertBlock t slot b.time z) (p.hold ⟨slot, zs.length, b⟩)
      if queued.pool.watermark ≤ p.pool.freeCount ∧ queued.pool.freeCount < queued.pool.watermark
        then queued.raise .poolLow .part else queued := rfl

/-- Storing a block raises POOL_LOW exactly on the fall of the free count through the watermark (R71). -/
theorem Part.indications_storeBlock_eq (p : Part) (b : Block) (t : Target) (slot : Nat) (zs : List ZoneId) (hn : zs.Nodup) :
    (p.storeBlock b t slot zs).indications =
      (if p.pool.watermark ≤ p.pool.freeCount ∧ (p.storeBlock b t slot zs).pool.freeCount < p.pool.watermark
        then p.raise .poolLow .part else p).indications := by
  obtain ⟨-, hpool, -, -⟩ : _ ∧ (p.storeBlock b t slot zs).pool = (p.hold ⟨slot, zs.length, b⟩).pool ∧ _ ∧ _ :=
    p.storeBlock_eq b t slot zs hn
  obtain ⟨hqueued, -⟩ := foldl_insertBlock t slot b.time zs (p.hold ⟨slot, zs.length, b⟩) hn
  rw [hpool, Part.storeBlock_stages]
  generalize zs.foldl (fun q z => q.insertBlock t slot b.time z) (p.hold ⟨slot, zs.length, b⟩) = q at hqueued ⊢
  have hheld : q.pool = (p.hold ⟨slot, zs.length, b⟩).pool := by rw [hqueued]
  have hsame : q.indications = p.indications := by rw [hqueued]; rfl
  have hraised : (q.raise .poolLow .part).indications = (p.raise .poolLow .part).indications := by rw [hqueued]; rfl
  rw [apply_ite Part.indications, apply_ite Part.indications, hraised, hsame, hheld]
  rfl

/-- Settles O36: the pool's insertion, the queues' insertion, and the watermark's test. -/
theorem storingABlock : Obligations.StoringABlock := by
  intro p b t slot zs hn hfree q
  obtain ⟨-, hpool, hzone, -⟩ : _ ∧ q.pool = _ ∧ (∀ z, q.zone z = _) ∧ _ := p.storeBlock_eq b t slot zs hn
  refine ⟨?_, fun n hne => ?_, fun z hz => ?_, fun z hz => ?_, p.indications_storeBlock_eq b t slot zs hn⟩
  · rw [hpool]; exact insertSlot_find ⟨slot, zs.length, b⟩ p.pool.held hfree
  · rw [hpool]; exact insertSlot_find_ne ⟨slot, zs.length, b⟩ p.pool.held n hne
  · obtain ⟨front, back, hsplit, hfront, hback, hascending, hins⟩ :=
      q.pool.insertEntry_spec slot b.time ((p.zone z).queue t)
    have hz' : q.zone z = (p.zone z).setQueue t (front ++ slot :: back) := by rw [hzone, if_pos hz, hins]
    exact ⟨front, back, hsplit, hfront, hback, hascending, by rw [hz', Zone.queue_setQueue], hz'⟩
  · rw [hzone, if_neg hz]

/-! ### The seven checks of a zone (R80) -/

/-- A zone that takes no blocks (R80, check 1). -/
def Zone.Off (x : Zone) : Prop := x.state = .disabled ∨ x.state = .idle ∨ ∃ n, x.state = .stopping n

theorem Zone.off_iff (x : Zone) : (!x.state.takesBlocks) = true ↔ x.Off := by
  unfold Zone.Off
  cases x.state <;> simp [ZoneState.takesBlocks]

/-- Does slot `n` hold a block of the stream id and sequence of `b`? -/
def BlockPool.twinAt (pool : BlockPool) (b : Block) (n : Nat) : Bool :=
  match pool.find n with
  | some h => h.block.stream == b.stream && h.block.sequence == b.sequence
  | none => false

theorem BlockPool.twinAt_iff (pool : BlockPool) (b : Block) (n : Nat) : pool.twinAt b n = true ↔
    ∃ c, pool.blockOf n = some c ∧ c.stream = b.stream ∧ c.sequence = b.sequence := by
  unfold BlockPool.twinAt BlockPool.blockOf
  cases pool.find n <;> simp

/-- A queue holds a block of the stream id and sequence of `b` (R80, check 3). -/
def BlockPool.HasTwin (pool : BlockPool) (queue : List Nat) (b : Block) : Prop :=
  ∃ n ∈ queue, ∃ c, pool.blockOf n = some c ∧ c.stream = b.stream ∧ c.sequence = b.sequence

theorem BlockPool.hasTwin_iff (pool : BlockPool) (queue : List Nat) (b : Block) :
    queue.any (pool.twinAt b) = true ↔ pool.HasTwin queue b := by
  simp only [List.any_eq_true, BlockPool.twinAt_iff, BlockPool.HasTwin]

/-- An entry of a queue meets the span of `b` (R80, check 6). -/
def BlockPool.HasOverlap (pool : BlockPool) (tpf : Nat) (queue : List Nat) (b : Block) : Prop :=
  ∃ n ∈ queue, b.time < pool.entryEnd tpf n ∧ pool.entryStart n < b.time + b.frames * tpf

theorem BlockPool.hasOverlap_iff (pool : BlockPool) (tpf : Nat) (queue : List Nat) (b : Block) :
    queue.any (fun n => b.time < pool.entryEnd tpf n && pool.entryStart n < b.time + b.frames * tpf) = true ↔
      pool.HasOverlap tpf queue b := by
  simp [BlockPool.HasOverlap]

/-- The checks of R80 in their order. -/
theorem BlockPool.judge_eq (pool : BlockPool) (x : Zone) (t : Target) (b : Block) [Decidable x.Off]
    [Decidable (pool.HasTwin (x.queue t) b)] [Decidable (pool.HasOverlap x.setup.rate.tpf (x.queue t) b)] :
    pool.judge x t b =
      if x.Off then .zoneOff
      else if b.rate ≠ x.setup.rate then .rate
      else if pool.HasTwin (x.queue t) b then .duplicate
      else if (b.time + b.frames * x.setup.rate.tpf) * 65536 ≤ x.position.getD 0 then .late
      else if x.position.getD 0 + x.setup.horizon * 24576 * 65536 < b.time * 65536 then .early
      else if pool.HasOverlap x.setup.rate.tpf (x.queue t) b then .overlap
      else if x.setup.quota t ≤ (x.queue t).length then .quota
      else .accepted :=
  if_congr x.off_iff rfl <| if_congr Iff.rfl rfl <| if_congr (pool.hasTwin_iff (x.queue t) b) rfl <| if_congr Iff.rfl rfl <|
    if_congr Iff.rfl rfl <| if_congr (pool.hasOverlap_iff _ _ b) rfl rfl

/-! ### What a delivery comes to (R79 to R85) -/

/-- What the zones of a route say of a block, in ascending zone number. -/
def Part.verdicts (p : Part) (r : Route) (t : Target) (b : Block) : List (ZoneId × ZoneResult) :=
  (ZoneSet.members r.zones).map (fun z => (z, p.pool.judge (p.zone z) t b))

/-- The zones whose result is ACCEPTED. -/
def acceptingZones (results : List (ZoneId × ZoneResult)) : List ZoneId :=
  (results.filter (fun x => x.2 == .accepted)).map Prod.fst

theorem acceptingZones_eq_nil_iff (results : List (ZoneId × ZoneResult)) :
    acceptingZones results = [] ↔ ∀ x ∈ results, x.2 ≠ .accepted := by
  simp [acceptingZones]

section
variable {p : Part} {dl : Delivery} {r : Route} {t : Target}

/-- No zone accepts the block (R84). -/
theorem Part.deliver_refused (h : acceptingZones (p.verdicts r t dl.block) = []) :
    p.deliver dl r t =
      (p.countRefused (p.verdicts r t dl.block), some (.refusalWith .refused (deliveryBytes dl.block r (some t) none
        (p.countRefused (p.verdicts r t dl.block)).pool.freeCount (p.verdicts r t dl.block)))) :=
  if_pos (List.isEmpty_iff.mpr h)

variable (h : acceptingZones (p.verdicts r t dl.block) ≠ [])
include h

/-- A zone accepts the block and no slot is free (R81). -/
theorem Part.deliver_exhausted (hfree : p.pool.lowestFree = none) :
    p.deliver dl r t =
      let results := shortage (p.verdicts r t dl.block)
      let q := (p.tally (.part .poolExhausted)).countRefused results
      (q, some (.refusalWith .refused (deliveryBytes dl.block r (some t) none q.pool.freeCount results))) := by
  refine (if_neg (mt List.isEmpty_iff.mp h)).trans ?_
  rw [hfree]
  rfl

/-- A zone accepts the block and a slot is free (R82, R83, R85). -/
theorem Part.deliver_stored {slot : Nat} (hfree : p.pool.lowestFree = some slot) :
    p.deliver dl r t =
      let results := p.verdicts r t dl.block
      let q := (p.storeBlock dl.block t slot (acceptingZones results)).countRefused results
      if dl.quiet = true ∧ (acceptingZones results).length = results.length then (q, none)
      else q.accept (deliveryBytes dl.block r (some t) (some slot) q.pool.freeCount results) := by
  refine (if_neg (mt List.isEmpty_iff.mp h)).trans ?_
  rw [hfree]
  rfl

end

theorem handlePblk_badField {body : List Byte} (h : Delivery.ofBody body = none) (p : Part) :
    handlePblk body p = p.refuse .badField := by
  simp only [handlePblk, h]

section
variable {body : List Byte} {dl : Delivery} (hd : Delivery.ofBody body = some dl) {p : Part}
include hd

/-- A block that its route rejects (R79). -/
theorem handlePblk_reject (h : (p.filter.route dl.block.stream).action = .reject) :
    handlePblk body p = (p.tally (.part .filterRejects), some (.refusalWith .rejected
      (deliveryBytes dl.block (p.filter.route dl.block.stream) none none p.pool.freeCount []))) := by
  simp only [handlePblk, hd, h, Part.pool_tally]

/-- A block that its route sends to a queue (R79, R80). -/
theorem handlePblk_deliver {t : Target} (h : (p.filter.route dl.block.stream).action = .main ∧ t = .main ∨
    (p.filter.route dl.block.stream).action = .overlay ∧ t = .overlay) :
    handlePblk body p = p.deliver dl (p.filter.route dl.block.stream) t := by
  obtain ⟨h, rfl⟩ | ⟨h, rfl⟩ := h <;> simp only [handlePblk, hd, h]

end

/-- A request's command, where its rule gives no answer (R85). -/
theorem exec_command_unanswered {s : State} {k : RequestKind} {tag : Byte} {body : List Byte} {q : Part}
    (hp : s.part.TakesRequests) (hl : k.lengthOk body = true) (hh : k.handler body s.part.toHunt = (q, none)) :
    exec (k.command tag body) s = .next { s with part := q } := by
  rw [exec_command_next, Part.request_taken s.part k k.handler tag body hp hl, hh]

/-- Settles O35: PBLK's refusals, the stored block, the refused one, and the checks of R80 in their order. -/
theorem blocksAreDelivered : Obligations.BlocksAreDelivered := by
  refine ⟨fun s tag body hp hlen => ⟨fun hbad => ?_, fun dl hd hreject => ?_⟩,
    fun s tag body dl t slot hp hlen hd => ?_, fun s tag body dl t hp hlen hd => ?_, fun p results => rfl,
    fun pool x t b => ?_⟩
  · exact exec_command_refused (k := .pblk) hp (decide_eq_true hlen) (handlePblk_badField hbad s.part.toHunt)
  · exact exec_command_answered (k := .pblk) hp (decide_eq_true hlen) (handlePblk_reject (p := s.part.toHunt) hd hreject)
  · intro r hroute results passing hsome hfree q
    have hdeliver := (handlePblk_deliver (p := s.part.toHunt) hd hroute).trans
      (Part.deliver_stored (p := s.part.toHunt) hsome hfree)
    split
    · next hquiet =>
      exact exec_command_unanswered (k := .pblk) hp (decide_eq_true hlen) (hdeliver.trans (if_pos hquiet))
    · next hloud =>
      exact exec_command_ok (k := .pblk) (by decide) hp (decide_eq_true hlen) (hdeliver.trans (if_neg hloud))
  · intro r hroute results refused
    have hdeliver := handlePblk_deliver (p := s.part.toHunt) hd hroute
    refine ⟨fun hnone => ?_, fun ⟨x, hx, haccepted⟩ hfree => ?_⟩
    · have hpassing := (acceptingZones_eq_nil_iff results).mpr hnone
      exact exec_command_answered (k := .pblk) hp (decide_eq_true hlen)
        (hdeliver.trans (Part.deliver_refused (p := s.part.toHunt) hpassing))
    · have hpassing : acceptingZones results ≠ [] := fun hnil =>
        (acceptingZones_eq_nil_iff results).mp hnil x hx haccepted
      exact exec_command_answered (k := .pblk) hp (decide_eq_true hlen)
        (hdeliver.trans (Part.deliver_exhausted (p := s.part.toHunt) hpassing hfree))
  · classical
    intro tpf stop pos off held late early overlap result
    have judged : result = if off then .zoneOff else if b.rate ≠ x.setup.rate then .rate else if held then .duplicate
        else if late then .late else if early then .early else if overlap then .overlap
        else if x.setup.quota t ≤ (x.queue t).length then .quota else .accepted := by
      convert pool.judge_eq x t b <;> exact Iff.rfl
    refine ⟨fun hoff => ?_, fun hon hrate => ?_, fun hon hrate hheld => ?_, fun hon hrate hnew hlate => ?_,
      fun hon hrate hnew hdue hearly => ?_, fun hon hrate hnew hdue hnear hmeet => ?_,
      fun hon hrate hnew hdue hnear happart hfull => ?_, fun hon hrate hnew hdue hnear happart hroom => ?_⟩
    · rw [judged, if_pos hoff]
    · rw [judged, if_neg hon, if_pos hrate]
    · rw [judged, if_neg hon, if_neg (not_not.mpr hrate), if_pos hheld]
    · rw [judged, if_neg hon, if_neg (not_not.mpr hrate), if_neg hnew, if_pos hlate]
    · rw [judged, if_neg hon, if_neg (not_not.mpr hrate), if_neg hnew, if_neg hdue, if_pos hearly]
    · rw [judged, if_neg hon, if_neg (not_not.mpr hrate), if_neg hnew, if_neg hdue, if_neg hnear, if_pos hmeet]
    · rw [judged, if_neg hon, if_neg (not_not.mpr hrate), if_neg hnew, if_neg hdue, if_neg hnear, if_neg happart,
        if_pos hfull]
    · rw [judged, if_neg hon, if_neg (not_not.mpr hrate), if_neg hnew, if_neg hdue, if_neg hnear, if_neg happart,
        if_neg (Nat.not_le.mpr hroom)]

/-! ### Releases, play-out and late drops (O37) -/

/-- What a release makes of a held slot (R69). -/
def HeldSlot.released (n : Nat) (h : HeldSlot) : Option HeldSlot :=
  if h.number = n then (if h.holders ≤ 1 then none else some { h with holders := h.holders - 1 }) else some h

theorem HeldSlot.released_number {n : Nat} {h k : HeldSlot} (hk : h.released n = some k) : k.number = h.number := by
  unfold HeldSlot.released at hk
  split at hk
  · split at hk
    · cases hk
    · cases hk; rfl
  · cases hk; rfl

/-- A map of held slots that keeps their numbers maps what is found under a number. -/
theorem find?_filterMap_number {f : HeldSlot → Option HeldSlot} (hf : ∀ h k, f h = some k → k.number = h.number)
    {l : List HeldSlot} (hl : (l.map HeldSlot.number).Nodup) (m : Nat) :
    (l.filterMap f).find? (fun h => h.number == m) = (l.find? (fun h => h.number == m)).bind f := by
  induction l with
  | nil => rfl
  | cons a l ih =>
    rw [List.map_cons, List.nodup_cons] at hl
    have htail := ih hl.2
    by_cases ha : a.number = m
    · have habsent : l.find? (fun h => h.number == m) = none :=
        find?_number_none l m (fun k hk he => hl.1 (List.mem_map.mpr ⟨k, hk, he.trans ha.symm⟩))
      rw [habsent] at htail
      cases hfa : f a with
      | none => simp [hfa, ha, htail]
      | some k => simp [hfa, ha, (hf a k hfa).trans ha]
    · cases hfa : f a with
      | none => simp [hfa, ha, htail]
      | some k => simp [hfa, ha, hf a k hfa, htail]

/-- A release rewrites what is found under a number (R69). -/
theorem BlockPool.find_release_of_nodup {pool : BlockPool} (hl : (pool.held.map HeldSlot.number).Nodup) (n m : Nat) :
    (pool.release n).find m = (pool.find m).bind (HeldSlot.released n) :=
  find?_filterMap_number (fun _ _ => HeldSlot.released_number) hl m

theorem BlockPool.find_number {pool : BlockPool} {n : Nat} {h : HeldSlot} (hf : pool.find n = some h) : h.number = n :=
  beq_iff_eq.mp (List.find?_some (p := fun h : HeldSlot => h.number == n) hf)

/-- A slot of another number is left as it is. -/
theorem HeldSlot.released_ne {n : Nat} {h : HeldSlot} (hn : h.number ≠ n) : h.released n = some h := if_neg hn

/-- The last holder's slot is free. -/
theorem HeldSlot.released_last {h : HeldSlot} (hh : h.holders ≤ 1) : h.released h.number = none :=
  (if_pos rfl).trans (if_pos hh)

/-- A slot of several holders has one fewer. -/
theorem HeldSlot.released_shared {h : HeldSlot} (hh : 1 < h.holders) :
    h.released h.number = some { h with holders := h.holders - 1 } :=
  (if_pos rfl).trans (if_neg (Nat.not_le.mpr hh))

/-- A marker is recorded with the local time of the part (R94). -/
theorem Part.recordMarker_at {p : Part} {now : LocalTime} (ht : p.localTime = now) (z : ZoneId) (n : Nat) (b : Block) :
    p.recordMarker z n b =
      if b.mark = true then
        (p.setZone z { p.zone z with lastMarker := some ⟨b.stream, b.sequence, now⟩, lastMarkerSlot := some n }).raise
          .marker (.zone z)
      else p := by
  subst ht; rfl

section
variable {p : Part} {n : Nat} {h : HeldSlot} (hf : p.pool.find n = some h) (z : ZoneId)
include hf

theorem Part.playedMain_held :
    let counted := p.tally (.zone z .blocksPlayed)
    p.playedMain z n =
      ((counted.setZone z { counted.zone z with lastFinal := h.block.final }).recordMarker z n h.block).release n := by
  simp only [Part.playedMain, hf]

theorem Part.playedOverlay_held : p.playedOverlay z n = (p.recordMarker z n h.block).release n := by
  simp only [Part.playedOverlay, hf]

end

/-- Settles O37: a release maps the slot found under its number; an entry that leaves as played is found; the play-out and the
late drops are written out as they stand. -/
theorem releaseLowersTheHolderCount : Obligations.ReleaseLowersTheHolderCount := by
  refine ⟨fun pool n h hl hf => ⟨fun hlast => ?_, fun hshared => ?_, fun m hm => ?_⟩, fun p z n h hf => ?_, fun p z pos => ?_⟩
  · obtain rfl := BlockPool.find_number hf
    rw [BlockPool.find_release_of_nodup hl, hf, Option.bind_some, HeldSlot.released_last hlast]
  · obtain rfl := BlockPool.find_number hf
    rw [BlockPool.find_release_of_nodup hl, hf, Option.bind_some, HeldSlot.released_shared hshared]
  · rw [BlockPool.find_release_of_nodup hl]
    cases hm' : pool.find m with
    | none => rfl
    | some k => exact HeldSlot.released_ne (fun hk => hm ((BlockPool.find_number hm').symm.trans hk))
  · intro marked counted
    have htime : (counted.setZone z { counted.zone z with lastFinal := h.block.final }).localTime = p.localTime :=
      p.localTime_tally _
    exact ⟨(Part.playedMain_held hf z).trans (congrArg (Part.release · n) (Part.recordMarker_at htime z n h.block)),
      Part.playedOverlay_held hf z⟩
  · exact ⟨rfl, rfl, rfl, rfl, rfl⟩

end Sys2Proof.Machine
end

section
/-! PROOFS. The statements of the family of chapter 6 and of the frames of chapter 7: the empty queues of zones at rest (O58) and
the reset (O60), ZFLU (O38), ZDIS (O41), ZSTP and every entry into IDLE (O43), and the output frames before the start (O47) and
after it (O48). -/

namespace Sys2Proof.Machine

/-! ### The queues of zones at rest (O58), and the reset (O60) -/

theorem Part.restingZonesEmpty_reset (mode : LinkMode) (divisor : Byte) (selected : Bool) :
    (Part.reset mode divisor selected).RestingZonesEmpty := (Part.queueLaw_reset mode divisor selected).resting

/-- Everything a step is made of keeps the queues of zones at rest empty. -/
theorem Part.keptRestingZonesEmpty : Kept Part.RestingZonesEmpty where
  effect := PartEffect.restingZonesEmpty
  link := fun _ _ h => h
  reset := Part.restingZonesEmpty_reset
  time := fun _ h => h

/-- A zone that is off refuses every block at the first check (R80). -/
theorem BlockPool.judge_off {x : Zone} (hx : x.Off) (pool : BlockPool) (t : Target) (b : Block) :
    pool.judge x t b = .zoneOff := if_pos (x.off_iff.mpr hx)

/-- Settles O58: every step is made of effects, writes of the link and resets, and each of these keeps R98; a zone at rest is
off. -/
theorem restingZonesStayEmpty : Obligations.RestingZonesStayEmpty :=
  ⟨Part.keptRestingZonesEmpty.keptByStep, fun pool _ t b hx => BlockPool.judge_off (hx.imp_right Or.inl) pool t b,
    Part.restingZonesEmpty_reset⟩

/-- Settles O60: the reset keeps the level of nCS, high in `State.reset`, and every record it leaves is that of its chapter. -/
theorem resetIsWithinLimits : Obligations.ResetIsWithinLimits := by
  refine ⟨rfl, ?_, fun mode divisor selected => ⟨Part.reset_withinCapacities mode divisor selected,
    Part.restingZonesEmpty_reset mode divisor selected, fun z => ?_, fun d => ?_⟩⟩
  · rw [exec_pinReset, Part.strapReset_low]
    rfl
  · rw [Part.zone_reset]
    rfl
  · cases d <;> rfl

/-! ### ZFLU (O38) -/

/-- A flush keeps what it does not remove (R99). -/
theorem BlockPool.kept_eq (pool : BlockPool) (f : DomainTime) (queue : List Nat) :
    pool.kept f queue = queue.filter (fun n => !decide (f ≤ pool.entryStart n)) :=
  List.filter_congr (fun n _ => by rw [← decide_not]; exact decide_eq_decide.mpr Nat.not_le.symm)

theorem Part.pool_testLowWatermark (p : Part) (z : ZoneId) (before : Nat) : (p.testLowWatermark z before).pool = p.pool := by
  unfold Part.testLowWatermark; split <;> rfl

@[simp] theorem Part.zone_testLowWatermark (p : Part) (z w : ZoneId) (before : Nat) :
    (p.testLowWatermark z before).zone w = p.zone w := by
  unfold Part.testLowWatermark; split <;> rfl

/-- A test of the low watermark is a raise, if anything: the receiver's return to HUNT commutes with it. -/
theorem Part.testLowWatermark_toHunt (p : Part) (z : ZoneId) (before : Nat) :
    p.toHunt.testLowWatermark z before = (p.testLowWatermark z before).toHunt := by
  unfold Part.testLowWatermark
  rw [apply_ite Part.toHunt]
  rfl

/-- What a flush of the queues named takes out, and the part it leaves (R99, R102). -/
theorem Part.flush_eq (p : Part) (z : ZoneId) (sel : QueueSelector) (f : DomainTime) :
    let x := p.zone z
    let late := fun n : Nat => decide (f ≤ p.pool.entryStart n)
    let main := sel = .main ∨ sel = .both
    let overlay := sel = .overlay ∨ sel = .both
    let mainGone := if main then x.mainQueue.filter late else []
    let overlayGone := if overlay then x.overlayQueue.filter late else []
    let q : Part := { p.setZone z { x with
        mainQueue := if main then x.mainQueue.filter (fun n => !late n) else x.mainQueue
        overlayQueue := if overlay then x.overlayQueue.filter (fun n => !late n) else x.overlayQueue } with
      pool := (mainGone ++ overlayGone).foldl BlockPool.release p.pool }
    p.flush z sel f = (if main then q.testLowWatermark z x.mainQueue.length else q, mainGone, overlayGone) := by
  intro x late main overlay mainGone overlayGone q
  unfold Part.flush
  simp only [BlockPool.kept_eq, Part.releaseAll_eq]
  cases sel <;> rfl

/-- Settles O38: the flush by `flush_eq`; the watermark's test by its definition. -/
theorem flushRemovesFromF : Obligations.FlushRemovesFromF := by
  refine ⟨fun s tag body z sel hp hlen hz hsel => ?_, fun p z before => ⟨fun h => if_pos h, fun h => if_neg h⟩⟩
  intro f x late main overlay mainGone overlayGone mainLeft overlayLeft freed q
  have hzone : (if main then q.testLowWatermark z x.mainQueue.length else q).zone z =
      { x with mainQueue := mainLeft, overlayQueue := overlayLeft } := by
    rw [apply_ite (Part.zone · z), Part.zone_testLowWatermark, ite_self]
    exact (Part.zone_setZone _ _ _ _).trans (if_pos rfl)
  have hpool : (if main then q.testLowWatermark z x.mainQueue.length else q).pool = freed := by
    rw [apply_ite Part.pool, Part.pool_testLowWatermark, ite_self]
  have hflush : s.part.toHunt.flush z sel f =
      ((if main then q.testLowWatermark z x.mainQueue.length else q).toHunt, mainGone, overlayGone) := by
    rw [apply_ite Part.toHunt, ← Part.testLowWatermark_toHunt]
    exact Part.flush_eq _ z sel f
  refine exec_command_accepted (k := .zflu) (by decide) hp (decide_eq_true hlen) ?_
  simp only [RequestKind.handler, handleZflu, hz, hsel]
  rw [hflush]
  simp only [Part.zone_toHunt, Part.pool_toHunt, hzone, hpool]

/-! ### Leaving the schedule (R158, R159) -/

/-- The part with another schedule. -/
def Part.withSchedule (p : Part) (s : Schedule) : Part := { p with schedule := s }

/-- What the retirement of an entry with notify reports (R159). -/
theorem Part.reportDone_notify {p : Part} {e : ScheduleEntry} (h : e.notify = true) :
    p.reportDone e = (p.raise .actionDone .part).withSchedule { p.schedule with
      done := keepDone (p.schedule.done ++ [⟨e.handle, e.action.kind, e.zones, e.applied, p.localTime⟩]) } := if_pos h

theorem Part.reportDone_silent {p : Part} {e : ScheduleEntry} (h : e.notify = false) : p.reportDone e = p :=
  if_neg (Bool.not_eq_true _ ▸ h)

/-- The entries a zone's leave empties are reported on the part whose schedule it has left (R158). -/
theorem Part.leaveSchedule_reports (p : Part) (z : ZoneId) :
    p.leaveSchedule z =
      ((p.schedule.entries.filter (fun e => e.emptiedBy z)).map (fun e => e.without z)).foldl Part.reportDone
        (p.withSchedule { p.schedule with
          entries := (p.schedule.entries.filter (fun e => !e.emptiedBy z)).map (fun e => e.without z) }) := rfl

/-- An update that keeps the schedule and local time, and that raises and writes of the schedule pass through, is one that
leaving the schedule passes through. -/
theorem Part.leaveSchedule_comm (f : Part → Part) (z : ZoneId) (hs : ∀ p : Part, (f p).schedule = p.schedule)
    (ht : ∀ p : Part, (f p).localTime = p.localTime)
    (hw : ∀ (p : Part) (s : Schedule), f (p.withSchedule s) = (f p).withSchedule s)
    (hr : ∀ (p : Part) (k : IndicationKind) (o : IndicationObject), f (p.raise k o) = (f p).raise k o) (p : Part) :
    (f p).leaveSchedule z = f (p.leaveSchedule z) := by
  have report : ∀ (e : ScheduleEntry) (q : Part), (f q).reportDone e = f (q.reportDone e) := by
    intro e q
    cases h : e.notify with
    | true => rw [Part.reportDone_notify h, Part.reportDone_notify h, hw, hr, hs, ht]
    | false => rw [Part.reportDone_silent h, Part.reportDone_silent h]
  have reports : ∀ (es : List ScheduleEntry) (q : Part), es.foldl Part.reportDone (f q) = f (es.foldl Part.reportDone q) := by
    intro es
    induction es with
    | nil => exact fun _ => rfl
    | cons e es ih => intro q; rw [List.foldl_cons, report, ih, List.foldl_cons]
  rw [Part.leaveSchedule_reports, hs, ← hw, reports, ← Part.leaveSchedule_reports]

theorem Part.leaveSchedule_setZone (p : Part) (z w : ZoneId) (x : Zone) :
    (p.setZone w x).leaveSchedule z = (p.leaveSchedule z).setZone w x :=
  Part.leaveSchedule_comm (Part.setZone · w x) z (fun _ => rfl) (fun _ => rfl) (fun _ _ => rfl) (fun _ _ _ => rfl) p

theorem Part.leaveSchedule_toHunt (p : Part) (z : ZoneId) : p.toHunt.leaveSchedule z = (p.leaveSchedule z).toHunt :=
  Part.leaveSchedule_comm Part.toHunt z (fun _ => rfl) (fun _ => rfl) (fun _ _ => rfl) (fun _ _ _ => rfl) p

/-! ### A zone that is stopped or disabled (R96, R108, R121, R158) -/

/-- The queues of a zone are emptied into the pool, the zone leaves the schedule, its record becomes `y`, and ZONE_STATE is
raised: what an entry into IDLE and an entry into DISABLED have in common. -/
def Part.endZone (p : Part) (z : ZoneId) (y : Zone) : Part :=
  ((({ p with pool := (p.zone z).queued.foldl BlockPool.release p.pool } : Part).leaveSchedule z).setZone z y).raise
    .zoneState (.zone z)

theorem Part.emptyQueues_leaveSchedule (p : Part) (z : ZoneId) :
    (p.emptyQueues z).leaveSchedule z =
      (({ p with pool := (p.zone z).queued.foldl BlockPool.release p.pool } : Part).leaveSchedule z).setZone z
        { p.zone z with mainQueue := [], overlayQueue := [] } := by
  rw [← Part.leaveSchedule_setZone, Part.emptyQueues, Part.releaseAll_eq]
  rfl

/-- A zone record after its entry into DISABLED. -/
def Zone.switchedOff (x : Zone) : Zone :=
  { x with state := .disabled, start := none, position := none, aligned := false, lastFrame := none, mainQueue := [],
           overlayQueue := [], port := none, mixer := x.mixer.quiet }

theorem Part.toIdle_endZone (p : Part) (z : ZoneId) : p.toIdle z = p.endZone z (p.zone z).idled := by
  unfold Part.toIdle
  rw [Part.emptyQueues_leaveSchedule]
  simp only [Part.zone_setZone, if_true, Part.setZone_setZone]
  rfl

theorem Part.toDisabled_endZone (p : Part) (z : ZoneId) : p.toDisabled z = p.endZone z (p.zone z).switchedOff := by
  unfold Part.toDisabled
  rw [Part.emptyQueues_leaveSchedule]
  simp only [Part.zone_setZone, if_true, Part.setZone_setZone]
  rfl

theorem Part.endZone_toHunt (p : Part) (z : ZoneId) (y : Zone) : p.toHunt.endZone z y = (p.endZone z y).toHunt :=
  congrArg (fun q : Part => (q.setZone z y).raise .zoneState (.zone z))
    (Part.leaveSchedule_toHunt { p with pool := (p.zone z).queued.foldl BlockPool.release p.pool } z)

/-- What an end of a zone writes: the zone, the pool, the schedule and the indications. -/
theorem Part.endZone_eq (p : Part) (z : ZoneId) (y : Zone) :
    p.endZone z y = { p with
      zones := p.zones.set z y
      pool := (p.zone z).queued.foldl BlockPool.release p.pool
      schedule := (p.endZone z y).schedule
      indications := (p.endZone z y).indications } := by
  unfold Part.endZone
  rw [Part.leaveSchedule_eq]
  rfl

/-- The rest of the part, after an operation that has written the zone `z` to be `y`, the pool, the schedule and the indications
alone. -/
theorem Part.rest_of_eq {p q : Part} {z : ZoneId} {y : Zone} {pool : BlockPool}
    (hq : q = { p with zones := p.zones.set z y, pool := pool, schedule := q.schedule, indications := q.indications }) :
    q.zone z = y ∧ (∀ w, w ≠ z → q.zone w = p.zone w) ∧ q.pool = pool ∧ q.link = p.link ∧ q.domains = p.domains ∧
    q.capture = p.capture ∧ q.echo = p.echo ∧ q.engine = p.engine ∧ q.filter = p.filter ∧ q.tallies = p.tallies ∧
    q.localTime = p.localTime ∧ q.globalSubstitution = p.globalSubstitution := by
  have hz : ∀ w, q.zone w = if w = z then y else p.zone w := fun w => by
    rw [hq]; exact PerZone.get_set _ _ _ _
  refine ⟨(hz z).trans (if_pos rfl), fun w hw => (hz w).trans (if_neg hw), ?_⟩
  rw [hq]
  exact ⟨rfl, rfl, rfl, rfl, rfl, rfl, rfl, rfl, rfl, rfl⟩

theorem Part.pending_endZone {p : Part} {z : ZoneId} {y : Zone} {e : ScheduleEntry} (h : e ∈ (p.endZone z y).schedule.entries) :
    e.pending.get z = false :=
  Part.pending_leaveSchedule (p := { p with pool := (p.zone z).queued.foldl BlockPool.release p.pool }) h

theorem Part.isPending_endZone (p : Part) (z : ZoneId) (y : Zone) :
    (p.endZone z y).indications.isPending ⟨.zoneState, .zone z⟩ = true := Part.isPending_raise _ _ _

theorem Part.zone_endZone (p : Part) (z : ZoneId) (y : Zone) : (p.endZone z y).zone z = y :=
  (Part.rest_of_eq (p.endZone_eq z y)).1

theorem Part.pool_endZone (p : Part) (z : ZoneId) (y : Zone) :
    (p.endZone z y).pool = (p.zone z).queued.foldl BlockPool.release p.pool := by rw [Part.endZone_eq]

/-! ### ZDIS (O41) -/

/-- Queues that are as they were have lost 0 entries and 0. -/
theorem removedBytes_same {before after : Zone} (hm : after.mainQueue = before.mainQueue)
    (ho : after.overlayQueue = before.overlayQueue) : removedBytes before after = [0#8, 0#8] ++ [0#8, 0#8] := by
  rw [removedBytes, hm, ho, Nat.sub_self, Nat.sub_self]
  rfl

theorem handleZdis_disabled {p : Part} {z : ZoneId} (h : (p.zone z).state = .disabled) :
    handleZdis [z.code] p = p.accept ([0#8, 0#8] ++ [0#8, 0#8] ++ leBytes 2 p.pool.freeCount) := by
  simp only [handleZdis, field_zero_one, ZoneId.ofCode_code, h, if_true, removedBytes_same]

theorem handleZdis_switchesOff {p : Part} {z : ZoneId} (h : (p.zone z).state ≠ .disabled) :
    handleZdis [z.code] p = (p.endZone z (p.zone z).switchedOff).accept
      (leBytes 2 (p.zone z).mainQueue.length ++ leBytes 2 (p.zone z).overlayQueue.length ++
        leBytes 2 ((p.zone z).queued.foldl BlockPool.release p.pool).freeCount) := by
  simp only [handleZdis, field_zero_one, ZoneId.ofCode_code, h, if_false, Part.toDisabled_endZone, Part.zone_endZone,
    Part.pool_endZone]
  rfl

/-- Settles O41: a zone that is not DISABLED ends as `endZone` says. -/
theorem disableEmptiesTheZone : Obligations.DisableEmptiesTheZone := by
  refine ⟨fun s tag z hp => ⟨fun h => ?_, fun h => ?_⟩, fun _ => rfl⟩
  · exact exec_command_accepted (k := .zdis) (by decide) hp rfl (handleZdis_disabled (p := s.part.toHunt) h)
  · intro freed q
    have hq : q = s.part.endZone z (s.part.zone z).switchedOff := rfl
    obtain ⟨hz, hw, hpool, hlink, hrest⟩ := Part.rest_of_eq (s.part.endZone_eq z (s.part.zone z).switchedOff)
    refine ⟨?_, hz, hw, fun e he => Part.pending_endZone he, hpool, s.part.isPending_endZone z _, hlink, hrest⟩
    rw [hq]
    refine exec_command_accepted (k := .zdis) (by decide) hp rfl ?_
    rw [← Part.endZone_toHunt]
    exact handleZdis_switchesOff (p := s.part.toHunt) h

/-! ### What leaving the schedule reports (R158, R159) -/

/-- Raises write the indications alone. -/
theorem Part.foldl_raise_eq {α : Type} (k : IndicationKind) (o : IndicationObject) (l : List α) (p : Part) :
    l.foldl (fun q _ => q.raise k o) p = { p with indications := (l.foldl (fun q _ => q.raise k o) p).indications } := by
  induction l generalizing p with
  | nil => rfl
  | cons a l ih => rw [List.foldl_cons, ih]; rfl

theorem Part.foldl_raise_withSchedule {α : Type} (k : IndicationKind) (o : IndicationObject) (l : List α) (p : Part)
    (s : Schedule) : l.foldl (fun q _ => q.raise k o) (p.withSchedule s) =
      (l.foldl (fun q _ => q.raise k o) p).withSchedule s := by
  induction l generalizing p with
  | nil => rfl
  | cons a l ih => exact ih (p.raise k o)

/-- The done list with the done records of retired entries, one after another, at local time `now` (R159). -/
def doneWith (now : LocalTime) (told : List ScheduleEntry) (done : List DoneRecord) : List DoneRecord :=
  told.foldl (fun l e => keepDone (l ++ [⟨e.handle, e.action.kind, e.zones, e.applied, now⟩])) done

/-- Reports of retired entries raise ACTION_DONE and add a done record for each entry with notify, in list order (R159). -/
theorem Part.foldl_reportDone_told (es : List ScheduleEntry) (p : Part) :
    es.foldl Part.reportDone p =
      ((es.filter ScheduleEntry.notify).foldl (fun q _ => q.raise .actionDone .part) p).withSchedule
        { p.schedule with done := doneWith p.localTime (es.filter ScheduleEntry.notify) p.schedule.done } := by
  induction es generalizing p with
  | nil => rfl
  | cons e es ih =>
    rw [List.foldl_cons]
    cases h : e.notify with
    | true =>
      rw [List.filter_cons_of_pos h, List.foldl_cons, Part.reportDone_notify h, ih, Part.foldl_raise_withSchedule]
      rfl
    | false => rw [List.filter_cons_of_neg (Bool.not_eq_true _ ▸ h), Part.reportDone_silent h, ih]

/-- The entries with notify that a zone's leave empties (R158). -/
def Schedule.toldBy (s : Schedule) (z : ZoneId) : List ScheduleEntry :=
  (s.entries.filter (fun e => e.emptiedBy z)).filter ScheduleEntry.notify

/-- A zone's leave, with all it reports (R158, R159). -/
theorem Part.leaveSchedule_told (p : Part) (z : ZoneId) :
    p.leaveSchedule z = { p with
      schedule := { p.schedule with
        entries := (p.schedule.entries.filter (fun e => !e.emptiedBy z)).map (fun e => e.without z)
        done := doneWith p.localTime (p.schedule.toldBy z) p.schedule.done }
      indications := ((p.schedule.toldBy z).foldl (fun q _ => q.raise .actionDone .part) p).indications } := by
  have htold : ((p.schedule.entries.filter (fun e => e.emptiedBy z)).map (fun e => e.without z)).filter ScheduleEntry.notify =
      (p.schedule.toldBy z).map (fun e => e.without z) := List.filter_map
  rw [Part.leaveSchedule_reports, Part.foldl_reportDone_told, htold, doneWith, List.foldl_map, List.foldl_map,
    Part.foldl_raise_withSchedule, Part.foldl_raise_eq]
  rfl

/-- A raise leaves pending what is pending (R165). -/
theorem Part.isPending_raise_of_isPending {p : Part} {q : Pair} (h : p.indications.isPending q = true) (k : IndicationKind)
    (o : IndicationObject) : (p.raise k o).indications.isPending q = true := by
  have keep : ∀ l : List PendingPair, l.any (fun r => r.pair == q) = true →
      (raiseIn ⟨k, o⟩ p.localTime l).any (fun r => r.pair == q) = true := by
    intro l
    induction l with
    | nil => intro h; cases h
    | cons r rs ih =>
      intro h
      simp only [raiseIn]
      split
      · exact h
      · split
        · rw [List.any_cons, h, Bool.or_true]
        · rw [List.any_cons, Bool.or_eq_true] at h ⊢
          exact h.imp_right ih
  exact keep _ h

theorem Part.isPending_leaveSchedule {p : Part} {q : Pair} (h : p.indications.isPending q = true) (z : ZoneId) :
    (p.leaveSchedule z).indications.isPending q = true := by
  have keep : ∀ (l : List ScheduleEntry) (p : Part), p.indications.isPending q = true →
      (l.foldl (fun q _ => q.raise .actionDone .part) p).indications.isPending q = true := by
    intro l
    induction l with
    | nil => exact fun _ h => h
    | cons e l ih => exact fun p h => ih _ (Part.isPending_raise_of_isPending h _ _)
  rw [Part.leaveSchedule_told]
  exact keep _ p h

/-! ### ZSTP and the stops of a zone (O43) -/

@[simp] theorem StopMode.ofCode_code (m : StopMode) : StopMode.ofCode m.code.toNat = some m := by cases m <;> rfl

section
variable {p : Part} {z : ZoneId} {mode : StopMode}

theorem Part.stopZone_graceful {n : Nat} (hs : (p.zone z).state = .playing)
    (hn : (p.zone z).position.bind (p.mainAt z) = some n) :
    p.stopZone z .graceful = p.toStopping z (toDomainTime (p.pool.entryEnd (p.zone z).tpf n)) := by
  simp only [Part.stopZone, hs, hn]

theorem Part.stopZone_idle
    (h : ¬(mode = .graceful ∧ (p.zone z).state = .playing ∧ (p.zone z).position.bind (p.mainAt z) ≠ none)) :
    p.stopZone z mode = p.toIdle z := by
  unfold Part.stopZone
  dsimp only
  split
  · next hs hn => exact absurd ⟨rfl, hs, by rw [hn]; exact Option.some_ne_none _⟩ h
  · rfl

/-- A graceful stop writes the zone's state, the schedule and the indications. -/
theorem Part.toStopping_eq (p : Part) (z : ZoneId) (stop : DomainTime) :
    p.toStopping z stop = { p with
      zones := p.zones.set z { p.zone z with state := .stopping stop }
      pool := p.pool
      schedule := (p.toStopping z stop).schedule
      indications := (p.toStopping z stop).indications } := by
  unfold Part.toStopping
  rw [Part.leaveSchedule_eq]
  rfl

theorem Part.toStopping_toHunt (p : Part) (z : ZoneId) (stop : DomainTime) :
    p.toHunt.toStopping z stop = (p.toStopping z stop).toHunt :=
  Part.leaveSchedule_toHunt ((p.setZone z { p.zone z with state := .stopping stop }).raiseZoneState z) z

theorem Part.isPending_toStopping (p : Part) (z : ZoneId) (stop : DomainTime) :
    (p.toStopping z stop).indications.isPending ⟨.zoneState, .zone z⟩ = true :=
  Part.isPending_leaveSchedule (Part.isPending_raise _ _ _) z

theorem Part.zone_toStopping (p : Part) (z : ZoneId) (stop : DomainTime) :
    (p.toStopping z stop).zone z = { p.zone z with state := .stopping stop } :=
  (Part.rest_of_eq (p.toStopping_eq z stop)).1

theorem handleZstp_unstarted (h : (p.zone z).state.unstarted = true) :
    handleZstp [z.code, mode.code] p = p.refuse .wrongState := by
  simp only [handleZstp, field_zero_one, field_cons_succ, ZoneId.ofCode_code, StopMode.ofCode_code, h, if_true]

theorem handleZstp_started (h : (p.zone z).state.unstarted = false) :
    handleZstp [z.code, mode.code] p = (p.stopZone z mode).accept
      ([((p.stopZone z mode).zone z).state.code] ++ optBytes 8 timeBytes ((p.stopZone z mode).zone z).state.endPoint ++
        removedBytes (p.zone z) ((p.stopZone z mode).zone z)) := by
  simp only [handleZstp, field_zero_one, field_cons_succ, ZoneId.ofCode_code, StopMode.ofCode_code, h, Bool.false_eq_true,
    if_false]

theorem handleZstp_graceful {n : Nat} (hs : (p.zone z).state = .playing)
    (hn : (p.zone z).position.bind (p.mainAt z) = some n) :
    let stop := toDomainTime (p.pool.entryEnd (p.zone z).tpf n)
    handleZstp [z.code, StopMode.graceful.code] p = (p.toStopping z stop).accept
      ([6#8] ++ optBytes 8 timeBytes (some stop) ++ ([0#8, 0#8] ++ [0#8, 0#8])) := by
  intro stop
  have hremoved : removedBytes (p.zone z) ((p.toStopping z stop).zone z) = [0#8, 0#8] ++ [0#8, 0#8] := by
    rw [Part.zone_toStopping]
    exact removedBytes_same rfl rfl
  rw [handleZstp_started (by rw [hs]; rfl), Part.stopZone_graceful hs hn, hremoved, Part.zone_toStopping]
  rfl

theorem handleZstp_idle (hu : (p.zone z).state.unstarted = false)
    (h : ¬(mode = .graceful ∧ (p.zone z).state = .playing ∧ (p.zone z).position.bind (p.mainAt z) ≠ none)) :
    handleZstp [z.code, mode.code] p = (p.endZone z (p.zone z).idled).accept ([1#8] ++ optBytes 8 timeBytes none ++
      (leBytes 2 (p.zone z).mainQueue.length ++ leBytes 2 (p.zone z).overlayQueue.length)) := by
  rw [handleZstp_started hu, Part.stopZone_idle h, Part.toIdle_endZone, Part.zone_endZone]
  rfl

end

/-- Settles O43: a stop is graceful or an end, and either writes no more than zone, pool, schedule and indications. -/
theorem stopZone : Obligations.StopZone := by
  refine ⟨fun s tag z mode hp => ⟨fun hu => ?_, fun n hm hs hn => ?_, fun hu h => ?_⟩, Part.toIdle_endZone,
    fun p z mode => ⟨fun n hm hs hn => ?_, fun h => ?_⟩, Part.leaveSchedule_told⟩
  · exact exec_command_refused (k := .zstp) hp rfl (handleZstp_unstarted (p := s.part.toHunt) hu)
  · intro stop q
    have hq : q = s.part.toStopping z stop := rfl
    obtain ⟨hz, hw, hpool, hlink, hrest⟩ := Part.rest_of_eq (s.part.toStopping_eq z stop)
    refine ⟨?_, hz, hpool, hw, fun e he => Part.pending_leaveSchedule he, s.part.isPending_toStopping z stop, hlink, hrest⟩
    subst hm
    rw [hq]
    refine exec_command_accepted (k := .zstp) (by decide) hp rfl ?_
    rw [← Part.toStopping_toHunt]
    exact handleZstp_graceful (p := s.part.toHunt) hs hn
  · intro q
    have hq : q = s.part.endZone z (s.part.zone z).idled := rfl
    obtain ⟨hz, hw, hpool, hlink, hrest⟩ := Part.rest_of_eq (s.part.endZone_eq z (s.part.zone z).idled)
    refine ⟨?_, hz, hpool, hw, fun e he => Part.pending_endZone he, s.part.isPending_endZone z _, hlink, hrest⟩
    rw [hq]
    refine exec_command_accepted (k := .zstp) (by decide) hp rfl ?_
    rw [← Part.endZone_toHunt]
    exact handleZstp_idle (p := s.part.toHunt) hu h
  · exact hm ▸ Part.stopZone_graceful hs hn
  · exact (Part.stopZone_idle h).trans (p.toIdle_endZone z)

/-! ### The frame of a port (R110) -/

theorem exec_outputFrame {s : State} {z : ZoneId} {t : LocalTime} (hport : (s.part.zone z).port = some t)
    (hdue : t ≤ s.part.localTime) : exec (.outputFrame z) s = .next { s with part := s.part.frame z } := by
  simp only [exec, execOutputFrame, State.complete, hport, hdue, if_true]

/-- The part once a port has begun a frame: its next frame is at the next whole multiple of tpf (R110). -/
def Part.framed (p : Part) (z : ZoneId) : Part :=
  p.setZone z { p.zone z with port := some (nextMultiple p.localTime (p.zone z).setup.rate.tpf) }

/-- The position at the target of a frame that begins now (R111, R112). -/
def Part.framePos (p : Part) (z : ZoneId) : Position := positionAt (p.target z p.localTime)

theorem Part.framePos_eq (p : Part) (z : ZoneId) : p.framePos z = positionAt (p.target z p.localTime) := rfl

/-- The part once a frame in a running state is recorded, with its t, T and E (R110). -/
def Part.recorded (p : Part) (z : ZoneId) (e : Int) : Part :=
  p.setZone z { p.zone z with
    port := some (nextMultiple p.localTime (p.zone z).setup.rate.tpf)
    lastFrame := some ⟨p.localTime, p.target z p.localTime, e⟩ }

/-- A frame that has begun, by the state it finds its zone in (R110, R112, R114, R132). -/
def Part.frameIn (p : Part) (z : ZoneId) : ZoneState → Part
  | .disabled | .idle | .held _ => p.silentFrame z
  | .armed => p.armedFrame z
  | .playing | .starved | .drained | .stopping _ => p.playingFrame z

theorem Part.frame_frameIn (p : Part) (z : ZoneId) : p.frame z = (p.framed z).frameIn z (p.zone z).state := rfl

theorem Part.localTime_framed (p : Part) (z : ZoneId) : (p.framed z).localTime = p.localTime := rfl

theorem Part.zone_framed (p : Part) (z : ZoneId) :
    (p.framed z).zone z = { p.zone z with port := some (nextMultiple p.localTime (p.zone z).setup.rate.tpf) } :=
  (Part.zone_setZone _ _ _ _).trans (if_pos rfl)

/-- The target depends on the zone's setup alone (R111). -/
theorem Part.target_framed (p : Part) (z : ZoneId) (t : LocalTime) : (p.framed z).target z t = p.target z t := by
  unfold Part.target
  rw [Part.zone_framed]
  rfl

theorem Part.recordFrame_framed (p : Part) (z : ZoneId) (e : Int) :
    (p.framed z).recordFrame z (p.target z p.localTime) e = p.recorded z e := by
  rw [Part.recordFrame, Part.zone_framed]
  exact Part.setZone_setZone _ _ _ _

/-- The mix takes from the zone as the frame was taken its setup and its mixer alone (R114). -/
theorem Part.completeFrame_framed (p q : Part) (z : ZoneId) (e : Int) (move : Option Position) (before : Nat) :
    q.completeFrame z ((p.framed z).zone z) e move before = q.completeFrame z (p.zone z) e move before := by
  rw [Part.zone_framed]
  rfl

section
variable {p : Part} {z : ZoneId}

theorem Part.frame_silent (h : (p.zone z).state = .idle ∨ (p.zone z).state = .held .armed ∨ (p.zone z).state = .held .running) :
    p.frame z = p.setZone z { p.zone z with
      port := some (nextMultiple p.localTime (p.zone z).setup.rate.tpf), emitted := some ⟨0, 0⟩ } := by
  have hsilent : p.frame z = (p.framed z).silentFrame z := by
    rcases h with h | h | h <;> rw [Part.frame_frameIn, h] <;> rfl
  rw [hsilent, Part.silentFrame, Part.zone_framed]
  exact Part.setZone_setZone _ _ _ _

/-! ### The aligned flag and the mix, as writes of the zone (R117, R136) -/

/-- A judgement of the flag writes the flag and the indications alone (R117). -/
theorem Part.judgeAligned_eq (p : Part) (z : ZoneId) (e : Int) :
    p.judgeAligned z e = { p.setZone z { p.zone z with
        aligned := decide (e.natAbs ≤ positionAt (p.zone z).setup.tolerance) } with
      indications := (p.judgeAligned z e).indications } := by
  by_cases h : decide (e.natAbs ≤ positionAt (p.zone z).setup.tolerance) = (p.zone z).aligned
  · have hsame : p.judgeAligned z e = p := if_pos h
    rw [hsame, h]
    exact congrArg (fun zones => ({ p with zones := zones } : Part)) (PerZone.set_get p.zones z).symm
  · have hchange : p.judgeAligned z e = (p.setZone z { p.zone z with
        aligned := decide (e.natAbs ≤ positionAt (p.zone z).setup.tolerance) }).raise .align (.zone z) := if_neg h
    rw [hchange]
    rfl

theorem Part.zone_judgeAligned (p : Part) (z : ZoneId) (e : Int) :
    (p.judgeAligned z e).zone z =
      { p.zone z with aligned := decide (e.natAbs ≤ positionAt (p.zone z).setup.tolerance) } := by
  rw [Part.judgeAligned_eq]
  exact (Part.zone_setZone _ _ _ _).trans (if_pos rfl)

theorem Part.pool_judgeAligned (p : Part) (z : ZoneId) (e : Int) : (p.judgeAligned z e).pool = p.pool := by
  rw [Part.judgeAligned_eq]; rfl

theorem Part.schedule_judgeAligned (p : Part) (z : ZoneId) (e : Int) : (p.judgeAligned z e).schedule = p.schedule := by
  rw [Part.judgeAligned_eq]; rfl

theorem Part.tallies_judgeAligned (p : Part) (z : ZoneId) (e : Int) : (p.judgeAligned z e).tallies = p.tallies := by
  rw [Part.judgeAligned_eq]; rfl

/-- A mix writes the lanes and the mixer of its zone alone (R136). -/
theorem Part.zone_mixFrame (p : Part) (z : ZoneId) (taken : Zone) (pos : Position) (readMain : Bool) :
    ∃ lanes mixer, (p.mixFrame z taken pos readMain).zone z = { p.zone z with emitted := lanes, mixer := mixer } :=
  ⟨_, _, (Part.zone_setZone _ _ _ _).trans (if_pos rfl)⟩

/-! ### Frames in which nothing leaves and nothing is due -/

theorem positionAt_le_positionAt {a b : DomainTime} : positionAt a ≤ positionAt b ↔ a ≤ b :=
  Nat.mul_le_mul_right_iff (by decide)

theorem BlockPool.behind_eq_false {pool : BlockPool} {tpf n : Nat} {pos : Position} :
    pool.behind tpf pos n = false ↔ pos < pool.entryEnd tpf n * 65536 := by
  rw [BlockPool.behind, decide_eq_false_iff_not, Nat.not_le]
  rfl

/-- An overlay queue of which the position has passed no entry stays as it is. -/
theorem Part.playOverlay_none {pos : Position} (h : ∀ n ∈ (p.zone z).overlayQueue, p.pool.behind (p.zone z).tpf pos n = false) :
    p.playOverlay z pos = p := by
  have hgone : (p.zone z).overlayQueue.filter (p.pool.behind (p.zone z).tpf pos) = [] :=
    List.filter_eq_nil_iff.mpr (fun n hn => by rw [h n hn]; exact Bool.false_ne_true)
  have hstay : (p.zone z).overlayQueue.filter (fun n => !p.pool.behind (p.zone z).tpf pos n) = (p.zone z).overlayQueue :=
    List.filter_eq_self.mpr (fun n hn => by rw [h n hn]; rfl)
  simp only [Part.playOverlay, hgone, hstay, List.foldl_nil]
  exact p.setZone_zone z

/-- With no entry due, the schedule and the zone stay as they are (R153). -/
theorem Part.applyDue_none {pos : Position}
    (h : ∀ e ∈ p.schedule.entries, e.pending.get z = true → pos < positionAt e.time) : p.applyDue z pos = p := by
  have hentry : ∀ handle, p.applyEntry z pos handle = p := by
    intro handle
    unfold Part.applyEntry
    split
    · rfl
    · next e he =>
      have hlate := h e (List.mem_of_find?_eq_some he)
      exact if_neg (fun ⟨hpending, hdue⟩ => Nat.not_le.mpr (hlate hpending) hdue)
  unfold Part.applyDue
  induction p.schedule.entries.map ScheduleEntry.handle with
  | nil => rfl
  | cons a l ih => rw [List.foldl_cons, hentry, ih]

/-! ### A frame in ARMED (R112, R113) -/

/-- The part once the move of a frame in ARMED is recorded: P takes the frame's target (R112). -/
def Part.armedMove (p : Part) (z : ZoneId) : Part :=
  p.setZone z { p.zone z with
    port := some (nextMultiple p.localTime (p.zone z).setup.rate.tpf)
    position := some (p.framePos z)
    lastFrame := some ⟨p.localTime, p.target z p.localTime, 0⟩ }

theorem Part.zone_armedMove (p : Part) (z : ZoneId) : (p.armedMove z).zone z = { p.zone z with
    port := some (nextMultiple p.localTime (p.zone z).setup.rate.tpf)
    position := some (p.framePos z)
    lastFrame := some ⟨p.localTime, p.target z p.localTime, 0⟩ } :=
  (Part.zone_setZone _ _ _ _).trans (if_pos rfl)

theorem Part.armedMove_framed (p : Part) (z : ZoneId) :
    ((p.framed z).setZone z { (p.framed z).zone z with
      position := some (p.framePos z) }).recordFrame z (p.target z p.localTime) 0 = p.armedMove z := by
  rw [Part.recordFrame, Part.zone_framed, Part.framed, Part.setZone_setZone, Part.zone_setZone, if_pos rfl,
    Part.setZone_setZone]
  rfl

/-- The start condition of R112, at a position that is a whole domain time. -/
theorem Part.startMet_iff (p : Part) (z : ZoneId) (target : DomainTime) :
    p.startMet z (positionAt target) = true ↔
      (∃ start, (p.zone z).start = some (.at start) ∧ start ≤ target) ∨
      ((p.zone z).start = some .auto ∧ ∃ n rest, (p.zone z).mainQueue = n :: rest ∧ p.pool.entryStart n ≤ target) := by
  unfold Part.startMet
  cases hstart : (p.zone z).start with
  | none => simp
  | some start =>
    rcases start with t | _
    · simp [positionAt_le_positionAt]
    · cases hqueue : (p.zone z).mainQueue <;> simp [positionAt_le_positionAt]

theorem Part.startMet_armedMove_iff (p : Part) (z : ZoneId) :
    (p.armedMove z).startMet z (p.framePos z) = true ↔
      (∃ start, (p.zone z).start = some (.at start) ∧ start ≤ p.target z p.localTime) ∨
      ((p.zone z).start = some .auto ∧
        ∃ n rest, (p.zone z).mainQueue = n :: rest ∧ p.pool.entryStart n ≤ p.target z p.localTime) := by
  rw [Part.framePos, Part.startMet_iff, Part.zone_armedMove]
  rfl

theorem Part.frame_armed (hs : (p.zone z).state = .armed) : p.frame z = (p.framed z).armedFrame z := by
  rw [Part.frame_frameIn, hs]
  rfl

/-- A frame in ARMED whose start is not met (R112). -/
def Part.unmetFrame (p : Part) (z : ZoneId) : Part :=
  ((((p.armedMove z).playOverlay z (p.framePos z)).judgeAligned z 0).mixFrame z (p.zone z) (p.framePos z) false).applyDue z
    (p.framePos z)

theorem Part.frame_armed_unmet (hs : (p.zone z).state = .armed)
    (h : ¬(p.armedMove z).startMet z (p.framePos z) = true) :
    p.frame z = p.unmetFrame z := by
  rw [Part.frame_armed hs, Part.armedFrame]
  simp only [Part.target_framed, Part.localTime_framed, ← Part.framePos_eq, Part.armedMove_framed, h]
  rw [Part.zone_framed]
  rfl

theorem Part.frame_armed_met (hs : (p.zone z).state = .armed)
    (h : (p.armedMove z).startMet z (p.framePos z) = true) :
    let begun := ((p.armedMove z).judgeAligned z 0).startZone z (p.framePos z)
    p.frame z = begun.completeFrame z (p.zone z) 0 (some (p.framePos z))
      (begun.zone z).mainQueue.length := by
  intro begun
  rw [Part.frame_armed hs, Part.armedFrame]
  simp only [Part.target_framed, Part.localTime_framed, ← Part.framePos_eq, Part.armedMove_framed, h, if_true,
    Part.completeFrame_framed]
  rfl

/-- A start that is met: late main entries drop with one watermark test, and the zone is PLAYING or, with no main entry at P,
STARVED with UNDERRUN (R113). -/
theorem Part.startZone_judgeAligned (p : Part) (z : ZoneId) (pos : Position) :
    let late := ((p.judgeAligned z 0).dropLateMain z pos).testLowWatermark z (p.zone z).mainQueue.length
    let playing := (late.mainAt z pos).isSome
    let started := (late.setZone z { late.zone z with state := if playing then .playing else .starved, start := none }).raise
      .zoneState (.zone z)
    (p.judgeAligned z 0).startZone z pos =
      if playing then started else (started.raise .underrun (.zone z)).tally (.zone z .underruns) := by
  intro late playing started
  rw [Part.startZone, Part.zone_judgeAligned]
  rfl

/-- What a frame in ARMED leaves when its start is not met, no overlay entry has been passed and no entry is due (R112). -/
theorem Part.unmetFrame_quiet
    (ho : ∀ n ∈ (p.zone z).overlayQueue, p.framePos z < p.pool.entryEnd (p.zone z).setup.rate.tpf n * 65536)
    (he : ∀ e ∈ p.schedule.entries, e.pending.get z = true → p.target z p.localTime < e.time) :
    (∃ lanes mixer, (p.unmetFrame z).zone z =
      { (p.armedMove z).zone z with aligned := true, emitted := lanes, mixer := mixer }) ∧
    (p.unmetFrame z).pool = p.pool ∧ (p.unmetFrame z).schedule = p.schedule := by
  have hpassed : (p.armedMove z).playOverlay z (p.framePos z) = p.armedMove z := by
    refine Part.playOverlay_none (fun n hn => BlockPool.behind_eq_false.mpr ?_)
    rw [Part.zone_armedMove] at hn ⊢
    exact ho n hn
  have hschedule : (((p.armedMove z).judgeAligned z 0).mixFrame z (p.zone z) (p.framePos z) false).schedule = p.schedule :=
    (p.armedMove z).schedule_judgeAligned z 0
  have hquiet : p.unmetFrame z = ((p.armedMove z).judgeAligned z 0).mixFrame z (p.zone z) (p.framePos z) false := by
    rw [Part.unmetFrame, hpassed]
    refine Part.applyDue_none (fun e hmem hpending => ?_)
    rw [hschedule] at hmem
    exact Nat.mul_lt_mul_of_pos_right (he e hmem hpending) (by decide)
  obtain ⟨lanes, mixer, hz⟩ := ((p.armedMove z).judgeAligned z 0).zone_mixFrame z (p.zone z) (p.framePos z) false
  rw [Part.zone_judgeAligned] at hz
  rw [hquiet]
  exact ⟨⟨lanes, mixer, hz⟩, (p.armedMove z).pool_judgeAligned z 0, hschedule⟩

end

/-- Settles O47: a frame by the state it finds its zone in, in ARMED by its start condition. -/
theorem framesBeforeTheStart : Obligations.FramesBeforeTheStart := by
  refine ⟨fun s z t hport hdue hs => ?_, fun s z t hport hdue hs => ?_⟩
  · rw [exec_outputFrame hport hdue, Part.frame_silent hs]
  · intro x target pos moved met
    rw [exec_outputFrame hport hdue]
    have hmet : (s.part.armedMove z).startMet z pos = true ↔ met := s.part.startMet_armedMove_iff z
    have hunmet : ¬met → s.part.frame z = s.part.unmetFrame z := fun h =>
      Part.frame_armed_unmet hs (fun hm => h (hmet.mp hm))
    refine ⟨fun h => ?_, fun h => ?_, fun h ho he => ⟨_, rfl, ?_⟩⟩
    · rw [hunmet h]
      rfl
    · intro late playing started begun
      have hqueue : ((s.part.armedMove z).zone z).mainQueue = x.mainQueue := by rw [Part.zone_armedMove]
      have hbegun : ((s.part.armedMove z).judgeAligned z 0).startZone z pos = begun := by
        rw [Part.startZone_judgeAligned, hqueue]
        rfl
      have hframe : s.part.frame z = (((s.part.armedMove z).judgeAligned z 0).startZone z pos).completeFrame z x 0 (some pos)
          ((((s.part.armedMove z).judgeAligned z 0).startZone z pos).zone z).mainQueue.length :=
        Part.frame_armed_met hs (hmet.mpr h)
      rw [hframe, hbegun]
    · obtain ⟨⟨lanes, mixer, hz⟩, hpool, hschedule⟩ := Part.unmetFrame_quiet ho he
      rw [Part.zone_armedMove] at hz
      dsimp only
      rw [hunmet h]
      exact ⟨congrArg Zone.position hz, congrArg Zone.lastFrame hz, (congrArg Zone.state hz).trans hs, congrArg Zone.aligned hz,
        (congrArg Zone.start hz :), (congrArg Zone.mainQueue hz :), (congrArg Zone.overlayQueue hz :), hpool, hschedule⟩

/-! ### The target and the advance (R111, R116) -/

/-- The target of a frame on a domain with an anchor, within 64 bits (R111). -/
theorem Part.target_of_lt {p : Part} {z : ZoneId} {t : LocalTime} {a : Anchor}
    (ha : (p.domain (p.zone z).setup.domain).anchor = some a)
    (hlt : convert a (p.domain (p.zone z).setup.domain).code t + (p.zone z).setup.latency * (p.zone z).setup.rate.tpf < 2 ^ 64) :
    p.target z t = convert a (p.domain (p.zone z).setup.domain).code t +
      (p.zone z).setup.latency * (p.zone z).setup.rate.tpf := by
  simp only [Part.target, Domain.read, ha, Option.map_some, Zone.tpf, ← Nat.cast_add]
  exact Int.natCast_inj.mp (toDomainTime_of_lt (Int.natCast_nonneg _) (by exact_mod_cast hlt))

/-- A fraction that is rounded is at most half a unit off, and one exactly halfway goes away from zero. -/
theorem roundRat_spec (q : Rat) :
    let off : Rat := 2 * ((roundRat q : Rat) - q)
    (-1 ≤ off ∧ off ≤ 1) ∧ (off = 1 → 0 < q) ∧ (off = -1 → q < 0) := by
  intro off
  obtain ⟨hnear, haway⟩ := roundHalfAway_spec q.num q.den q.den_pos
  change 2 * ((q.den : Int) * roundRat q - q.num).natAbs ≤ q.den at hnear
  change 2 * ((q.den : Int) * roundRat q - q.num).natAbs = q.den → q.num.natAbs < ((q.den : Int) * roundRat q).natAbs at haway
  have hden : (0 : Rat) < q.den := by exact_mod_cast q.den_pos
  have hscaled : off * q.den = ((2 * ((q.den : Int) * roundRat q - q.num) : Int) : Rat) := by
    push_cast
    rw [show (q.num : Rat) = q * q.den from (Rat.mul_den_eq_num q).symm]
    ring
  have hpos : 0 < (q.den : Int) * roundRat q → (q.den : Int) ≤ q.den * roundRat q := fun h =>
    le_mul_of_one_le_right (Int.natCast_nonneg _) (pos_of_mul_pos_right h (Int.natCast_nonneg _))
  have hneg : (q.den : Int) * roundRat q < 0 → (q.den : Int) * roundRat q ≤ -q.den := fun h => by
    have hr : roundRat q ≤ -1 := Int.le_sub_one_of_lt (neg_of_mul_neg_right h (Int.natCast_nonneg _))
    have := mul_le_mul_of_nonneg_left hr (Int.natCast_nonneg q.den)
    rwa [mul_neg_one] at this
  generalize (q.den : Int) * roundRat q = r at hnear haway hscaled hpos hneg
  refine ⟨⟨?_, ?_⟩, fun h => ?_, fun h => ?_⟩
  · refine le_of_mul_le_mul_right ?_ hden
    rw [hscaled]
    exact_mod_cast (by omega : -1 * (q.den : Int) ≤ 2 * (r - q.num))
  · refine le_of_mul_le_mul_right ?_ hden
    rw [hscaled]
    exact_mod_cast (by omega : 2 * (r - q.num) ≤ 1 * (q.den : Int))
  · rw [h, one_mul] at hscaled
    have hhalf : (q.den : Int) = 2 * (r - q.num) := by exact_mod_cast hscaled
    exact Rat.num_pos.mp (by omega)
  · rw [h] at hscaled
    have hhalf : -1 * (q.den : Int) = 2 * (r - q.num) := by exact_mod_cast hscaled
    have := q.den_pos
    exact Rat.num_neg.mp (by omega)

/-- The correction of R116, with E in ticks divided by 24.576. -/
theorem correctionPpm_eq (e : Int) (limit : Nat) :
    let wanted : Rat := -((e : Rat) / 65536) / (24576 / 1000)
    correctionPpm e limit =
      if wanted < -(limit : Rat) then -(limit : Rat) else if (limit : Rat) < wanted then limit else wanted := by
  intro wanted
  have h : -((e : Rat) / 65536) * 1000 / 24576 = wanted := by simp only [wanted]; ring
  rw [correctionPpm, h]

/-! ### The judgements of a frame (R117, R119, R123) -/

section
variable {p : Part} {z : ZoneId} {pos : Position} {e : Int}

theorem Part.contentState_playing (h : p.mainAt z pos ≠ none) : p.contentState z pos = .playing :=
  if_pos (Option.isSome_iff_ne_none.mpr h)

theorem Part.contentState_empty (h : ¬p.mainAt z pos ≠ none) :
    p.contentState z pos = if (p.zone z).lastFinal = true then .drained else .starved :=
  if_neg (fun hs => h (Option.isSome_iff_ne_none.mp hs))

theorem Part.judgeContent_same (h : p.contentState z pos = (p.zone z).state) : p.judgeContent z pos = p := if_pos h

/-- The zone enters a judged state, with ZONE_STATE (R119). -/
def Part.entered (p : Part) (z : ZoneId) (q : ZoneState) : Part :=
  (p.setZone z { p.zone z with state := q }).raise .zoneState (.zone z)

theorem Part.judgeContent_playing (hq : p.contentState z pos = .playing) (h : (p.zone z).state ≠ .playing) :
    p.judgeContent z pos = p.entered z .playing := by
  rw [Part.judgeContent, hq]
  exact if_neg h.symm

theorem Part.judgeContent_drained (hq : p.contentState z pos = .drained) (h : (p.zone z).state ≠ .drained) :
    p.judgeContent z pos = (p.entered z .drained).raise .endOfStream (.zone z) := by
  rw [Part.judgeContent, hq]
  exact if_neg h.symm

theorem Part.judgeContent_starved (hq : p.contentState z pos = .starved) (h : (p.zone z).state ≠ .starved) :
    p.judgeContent z pos = ((p.entered z .starved).raise .underrun (.zone z)).tally (.zone z .underruns) := by
  rw [Part.judgeContent, hq]
  exact if_neg h.symm

theorem Part.judge_stopped {stop : DomainTime} (hs : (p.zone z).state = .stopping stop) (h : positionAt stop ≤ (p.zone z).pos) :
    p.judge z e = p.toIdle z := by
  simp only [Part.judge, hs, h, if_true]

theorem Part.judge_stopping {stop : DomainTime} (hs : (p.zone z).state = .stopping stop) (h : (p.zone z).pos < positionAt stop) :
    p.judge z e = p.judgeAligned z e := by
  simp only [Part.judge, hs, Nat.not_le.mpr h, if_false]

theorem Part.judge_content (hs : ∀ stop, (p.zone z).state ≠ .stopping stop) :
    p.judge z e = (p.judgeContent z (p.zone z).pos).judgeAligned z e := by
  unfold Part.judge
  dsimp only
  split
  · next stop h => exact absurd h (hs stop)
  · rfl

end

/-! ### What the entries that leave write of their zone (R93, R94) -/

/-- A zone record from which entries have left: its queues, its last-block-was-final mark and its last marker may differ. -/
def Zone.PlaysOutTo (x y : Zone) : Prop :=
  ∃ main overlay final marker slot, y = { x with
    mainQueue := main, overlayQueue := overlay, lastFinal := final, lastMarker := marker, lastMarkerSlot := slot }

theorem Zone.PlaysOutTo.refl (x : Zone) : x.PlaysOutTo x := ⟨_, _, _, _, _, rfl⟩

theorem Zone.PlaysOutTo.trans {x y w : Zone} (hxy : x.PlaysOutTo y) (hyw : y.PlaysOutTo w) : x.PlaysOutTo w := by
  obtain ⟨_, _, _, _, _, rfl⟩ := hxy
  obtain ⟨_, _, _, _, _, rfl⟩ := hyw
  exact ⟨_, _, _, _, _, rfl⟩

theorem Zone.PlaysOutTo.state {x y : Zone} (h : x.PlaysOutTo y) : y.state = x.state := by
  obtain ⟨_, _, _, _, _, rfl⟩ := h
  rfl

theorem Zone.PlaysOutTo.position {x y : Zone} (h : x.PlaysOutTo y) : y.position = x.position := by
  obtain ⟨_, _, _, _, _, rfl⟩ := h
  rfl

theorem Part.playsOut_recordMarker (p : Part) (z : ZoneId) (n : Nat) (b : Block) :
    (p.zone z).PlaysOutTo ((p.recordMarker z n b).zone z) := by
  unfold Part.recordMarker
  split
  · rw [Part.zone_raise, Part.zone_setZone, if_pos rfl]
    exact ⟨_, _, _, _, _, rfl⟩
  · exact .refl _

theorem Part.playsOut_playedMain (p : Part) (z : ZoneId) (n : Nat) : (p.zone z).PlaysOutTo ((p.playedMain z n).zone z) := by
  unfold Part.playedMain
  split
  · exact .refl _
  · next h _ =>
    refine .trans ?_ (Part.playsOut_recordMarker _ z n h.block)
    rw [Part.zone_setZone, if_pos rfl, Part.zone_tally]
    exact ⟨_, _, _, _, _, rfl⟩

theorem Part.playsOut_playedOverlay (p : Part) (z : ZoneId) (n : Nat) :
    (p.zone z).PlaysOutTo ((p.playedOverlay z n).zone z) := by
  unfold Part.playedOverlay
  split
  · exact .refl _
  · next h _ => exact p.playsOut_recordMarker z n h.block

theorem Part.playsOut_foldl {f : Part → Nat → Part} {z : ZoneId}
    (hf : ∀ (p : Part) (n : Nat), (p.zone z).PlaysOutTo ((f p n).zone z)) (gone : List Nat) (p : Part) :
    (p.zone z).PlaysOutTo ((gone.foldl f p).zone z) := by
  induction gone generalizing p with
  | nil => exact .refl _
  | cons n gone ih => exact (hf p n).trans (ih _)

theorem Part.playsOut_playMain (p : Part) (z : ZoneId) (pos : Position) : (p.zone z).PlaysOutTo ((p.playMain z pos).zone z) := by
  refine .trans ?_ (Part.playsOut_foldl (fun p n => p.playsOut_playedMain z n) _ _)
  rw [Part.zone_setZone, if_pos rfl]
  exact ⟨_, _, _, _, _, rfl⟩

theorem Part.playsOut_playOverlay (p : Part) (z : ZoneId) (pos : Position) :
    (p.zone z).PlaysOutTo ((p.playOverlay z pos).zone z) := by
  refine .trans ?_ (Part.playsOut_foldl (fun p n => p.playsOut_playedOverlay z n) _ _)
  rw [Part.zone_setZone, if_pos rfl]
  exact ⟨_, _, _, _, _, rfl⟩

/-- Stage 5, with the position that the advance has taken (R94, R102, R114). -/
theorem Part.playOut_eq (p : Part) (z : ZoneId) (move : Option Position) (before : Nat) :
    let passed := match move with
      | some start => (p.playMain z (p.zone z).pos).playOverlay z start
      | none => p.playMain z (p.zone z).pos
    p.playOut z move before = (passed.playOverlay z (p.zone z).pos).testLowWatermark z before := by
  cases move <;> rfl

theorem Part.playsOut_playOut (p : Part) (z : ZoneId) (move : Option Position) (before : Nat) :
    (p.zone z).PlaysOutTo ((p.playOut z move before).zone z) := by
  rw [Part.playOut_eq, Part.zone_testLowWatermark]
  refine .trans ?_ (Part.playsOut_playOverlay _ z _)
  cases move with
  | none => exact p.playsOut_playMain z _
  | some start => exact (p.playsOut_playMain z _).trans (Part.playsOut_playOverlay _ z start)

/-! ### The read, the mix and the advance (R114, R116, R120) -/

theorem ZoneState.conceals_iff (s : ZoneState) :
    s.conceals = true ↔ s = .playing ∨ s = .starved ∨ ∃ n, s = .stopping n := by
  cases s <;> simp [ZoneState.conceals]

section
variable {p : Part} {z : ZoneId} {taken : Zone}

theorem Part.mainAt_mixFrame (p : Part) (z : ZoneId) (taken : Zone) (pos : Position) (readMain : Bool) (at' : Position) :
    (p.mixFrame z taken pos readMain).mainAt z at' = p.mainAt z at' := by
  obtain ⟨lanes, mixer, hz⟩ := p.zone_mixFrame z taken pos readMain
  rw [Part.mainAt, hz]
  rfl

theorem Part.readAndMix_eq (p : Part) (z : ZoneId) (taken : Zone) :
    let mixed := p.mixFrame z taken (p.zone z).pos ((p.zone z).state != .drained)
    p.readAndMix z taken =
      if (p.zone z).state.conceals ∧ (p.mainAt z (p.zone z).pos).isNone then mixed.tally (.zone z .framesConcealed)
      else mixed := by
  intro mixed
  rw [Part.readAndMix, Part.mainAt_mixFrame]

theorem Part.zone_readAndMix (p : Part) (z : ZoneId) (taken : Zone) :
    ∃ lanes mixer, (p.readAndMix z taken).zone z = { p.zone z with emitted := lanes, mixer := mixer } := by
  rw [Part.readAndMix_eq]
  split
  · rw [Part.zone_tally]
    exact p.zone_mixFrame ..
  · exact p.zone_mixFrame ..

theorem Part.domains_readAndMix (p : Part) (z : ZoneId) (taken : Zone) : (p.readAndMix z taken).domains = p.domains := by
  rw [Part.readAndMix_eq]
  split
  · exact Part.domains_tally _ _
  · rfl

theorem Part.schedule_readAndMix (p : Part) (z : ZoneId) (taken : Zone) : (p.readAndMix z taken).schedule = p.schedule := by
  rw [Part.readAndMix_eq]
  split
  · exact Part.schedule_tally _ _
  · rfl

theorem Part.pool_readAndMix (p : Part) (z : ZoneId) (taken : Zone) : (p.readAndMix z taken).pool = p.pool := by
  rw [Part.readAndMix_eq]
  split
  · exact Part.pool_tally _ _
  · rfl

/-- The position a frame advances to (R116). -/
def Part.advanced (p : Part) (z : ZoneId) (e : Int) : Position :=
  toPosition (((p.zone z).pos : Int) +
    advanceUnits (p.zone z).setup.rate.tpf (p.zoneDomain z).code e (p.zone z).setup.slewLimit).toNat

/-- The advance reads nothing that the mix writes. -/
theorem Part.advance_readAndMix (p : Part) (z : ZoneId) (taken : Zone) (e : Int) :
    (p.readAndMix z taken).advance z e = (p.readAndMix z taken).setZone z { (p.readAndMix z taken).zone z with
      position := some (p.advanced z e) } := by
  have hadvanced : (p.readAndMix z taken).advanced z e = p.advanced z e := by
    obtain ⟨lanes, mixer, hz⟩ := p.zone_readAndMix z taken
    rw [Part.advanced, Part.zoneDomain, Part.domain, hz, Part.domains_readAndMix]
    rfl
  rw [← hadvanced]
  rfl

theorem Part.zone_advance_readAndMix (p : Part) (z : ZoneId) (taken : Zone) (e : Int) :
    ∃ lanes mixer, ((p.readAndMix z taken).advance z e).zone z =
      { p.zone z with emitted := lanes, mixer := mixer, position := some (p.advanced z e) } := by
  obtain ⟨lanes, mixer, hz⟩ := p.zone_readAndMix z taken
  exact ⟨lanes, mixer, by rw [Part.advance_readAndMix, Part.zone_setZone, if_pos rfl, hz]⟩

theorem Part.pos_advance_readAndMix (p : Part) (z : ZoneId) (taken : Zone) (e : Int) :
    (((p.readAndMix z taken).advance z e).zone z).pos = p.advanced z e := by
  obtain ⟨lanes, mixer, hz⟩ := p.zone_advance_readAndMix z taken e
  rw [hz]
  rfl

/-- The part after stages 3 to 5 of a frame (R114). -/
def Part.playedFrame (p : Part) (z : ZoneId) (taken : Zone) (e : Int) (move : Option Position) (before : Nat) : Part :=
  ((p.readAndMix z taken).advance z e).playOut z move before

theorem Part.zone_playedFrame (p : Part) (z : ZoneId) (taken : Zone) (e : Int) (move : Option Position) (before : Nat) :
    ((p.playedFrame z taken e move before).zone z).state = (p.zone z).state ∧
    ((p.playedFrame z taken e move before).zone z).pos = p.advanced z e := by
  have hplays := ((p.readAndMix z taken).advance z e).playsOut_playOut z move before
  obtain ⟨lanes, mixer, hz⟩ := p.zone_advance_readAndMix z taken e
  exact ⟨hplays.state.trans (congrArg Zone.state hz :),
    (congrArg (Option.getD · 0) hplays.position).trans (p.pos_advance_readAndMix z taken e)⟩

/-- The due entries of stage 6 apply at the position advanced to; a zone that they leave in its state is judged (R114). -/
theorem Part.completeFrame_eq (p : Part) (z : ZoneId) (taken : Zone) (e : Int) (move : Option Position) (before : Nat) :
    let applied := (p.playedFrame z taken e move before).applyDue z (p.advanced z e)
    p.completeFrame z taken e move before =
      if (applied.zone z).state = (p.zone z).state then applied.judge z e else applied := by
  intro applied
  obtain ⟨hstate, hpos⟩ := p.zone_playedFrame z taken e move before
  rw [← hstate]
  simp only [applied, ← hpos]
  rfl

end

/-! ### A frame in PLAYING, STARVED, DRAINED or STOPPING (R114, R115) -/

/-- The states of a zone whose start has been met and that is not held: those whose frames are recorded and completed (R114). -/
def ZoneState.Underway (q : ZoneState) : Prop := q = .playing ∨ q = .starved ∨ q = .drained ∨ ∃ n, q = .stopping n

section
variable {p : Part} {z : ZoneId}

theorem Part.frame_playing (h : (p.zone z).state.Underway) : p.frame z = (p.framed z).playingFrame z := by
  rcases h with h | h | h | ⟨n, h⟩ <;> rw [Part.frame_frameIn, h] <;> rfl

/-- The part once a reseek has jumped and its due entries have applied (R115). -/
def Part.reseekCaughtUp (p : Part) (z : ZoneId) : Part :=
  (((p.recorded z 0).jump z (p.target z p.localTime)).raise .reseek (.zone z)).applyDue z (positionAt (p.target z p.localTime))

/-- A frame after the start, by whether E lies in −R..R, and outside by whether the catch-up has stopped the zone. -/
theorem Part.playingFrame_framed (p : Part) (z : ZoneId) :
    let e : Int := ((p.zone z).pos : Int) - positionAt (p.target z p.localTime)
    (p.framed z).playingFrame z =
      if e.natAbs ≤ positionAt (p.zone z).setup.reseekThreshold then
        (p.recorded z e).completeFrame z (p.zone z) e none (p.zone z).mainQueue.length
      else if ((p.reseekCaughtUp z).zone z).state = (p.zone z).state then
        (p.reseekCaughtUp z).completeFrame z (p.zone z) 0 none (p.zone z).mainQueue.length
      else (p.reseekCaughtUp z).unmixedFrame z := by
  intro e
  rw [Part.playingFrame]
  simp only [Part.target_framed, Part.localTime_framed, Part.recordFrame_framed, Part.zone_framed]
  rfl

/-- From an empty queue nothing leaves (R93). -/
theorem Part.playMain_empty {pos : Position} (h : (p.zone z).mainQueue = []) : p.playMain z pos = p := by
  simp only [Part.playMain, h, List.filter_nil, List.foldl_nil]
  rw [← h]
  exact p.setZone_zone z

theorem Part.playOverlay_empty {pos : Position} (h : (p.zone z).overlayQueue = []) : p.playOverlay z pos = p :=
  Part.playOverlay_none (fun n hn => by rw [h] at hn; cases hn)

theorem Part.applyDue_empty {pos : Position} (h : p.schedule.entries = []) : p.applyDue z pos = p :=
  Part.applyDue_none (fun e he => by rw [h] at he; cases he)

/-- A fall that starts at 0 is none (R102). -/
theorem Part.testLowWatermark_zero (p : Part) (z : ZoneId) : p.testLowWatermark z 0 = p :=
  if_neg (fun ⟨hlow, hlt⟩ => Nat.not_lt_zero _ (hlt.trans_le hlow))

/-- A frame in STARVED with empty queues and no schedule entry is mixed, advances and judges the flag, and nothing else (R120). -/
theorem Part.completeFrame_starved {taken : Zone} {e : Int} (hs : (p.zone z).state = .starved) (hf : (p.zone z).lastFinal = false)
    (hm : (p.zone z).mainQueue = []) (ho : (p.zone z).overlayQueue = []) (he : p.schedule.entries = []) :
    p.completeFrame z taken e none 0 = ((p.readAndMix z taken).advance z e).judgeAligned z e := by
  obtain ⟨lanes, mixer, hz⟩ := p.zone_advance_readAndMix z taken e
  have hplayed : p.playedFrame z taken e none 0 = (p.readAndMix z taken).advance z e := by
    rw [Part.playedFrame, Part.playOut_eq, Part.playMain_empty ((congrArg Zone.mainQueue hz :).trans hm),
      Part.playOverlay_empty ((congrArg Zone.overlayQueue hz :).trans ho), Part.testLowWatermark_zero]
  have hentries : ((p.readAndMix z taken).advance z e).schedule.entries = [] :=
    (congrArg Schedule.entries (p.schedule_readAndMix z taken)).trans he
  have hstate : (((p.readAndMix z taken).advance z e).zone z).state = .starved := (congrArg Zone.state hz :).trans hs
  have hcontent : ∀ pos, ((p.readAndMix z taken).advance z e).contentState z pos = .starved := fun pos => by
    have hnone : ((p.readAndMix z taken).advance z e).mainAt z pos = none := by
      rw [Part.mainAt, (congrArg Zone.mainQueue hz :), hm]
      rfl
    rw [Part.contentState_empty (fun h => h hnone), (congrArg Zone.lastFinal hz :), hf]
    rfl
  rw [Part.completeFrame_eq, hplayed, Part.applyDue_empty hentries, if_pos (hstate.trans hs.symm),
    Part.judge_content (fun stop h => by rw [hstate] at h; cases h),
    Part.judgeContent_same ((hcontent _).trans hstate.symm)]

end

/-- A rise of a counter, in the live counters (R172). -/
@[simp] theorem Part.live_tally (p : Part) (i : TallyId) :
    (p.tally i).tallies.live = p.tallies.live.set i (p.tallies.live.get i).rise.1 := by
  simp only [Part.tally]; split <;> rfl

theorem Part.zone_recorded (p : Part) (z : ZoneId) (e : Int) : (p.recorded z e).zone z = { p.zone z with
    port := some (nextMultiple p.localTime (p.zone z).setup.rate.tpf)
    lastFrame := some ⟨p.localTime, p.target z p.localTime, e⟩ } :=
  (Part.zone_setZone _ _ _ _).trans (if_pos rfl)

section
variable {p : Part} {z : ZoneId} {pos : Position} (hpos : (p.zone z).position = some pos) (h : (p.zone z).state.Underway)
include hpos h

/-- The frame at a position within −R..R, in the form of the statement (R114). -/
theorem Part.frame_within :
    let e : Int := (pos : Int) - (p.target z p.localTime * 65536 : Nat)
    e.natAbs ≤ (p.zone z).setup.reseekThreshold * 65536 →
      p.frame z = (p.recorded z e).completeFrame z (p.zone z) e none (p.zone z).mainQueue.length := by
  intro e he
  have hp : (p.zone z).pos = pos := congrArg (Option.getD · 0) hpos
  rw [Part.frame_playing h, Part.playingFrame_framed, hp]
  exact if_pos he

/-- The frame at a position outside −R..R, after whose catch-up the zone goes on or has been stopped (R115). -/
theorem Part.frame_reseek :
    let e : Int := (pos : Int) - (p.target z p.localTime * 65536 : Nat)
    (p.zone z).setup.reseekThreshold * 65536 < e.natAbs →
      p.frame z = if ((p.reseekCaughtUp z).zone z).state = (p.zone z).state then
          (p.reseekCaughtUp z).completeFrame z (p.zone z) 0 none (p.zone z).mainQueue.length
        else (p.reseekCaughtUp z).unmixedFrame z := by
  intro e he
  have hp : (p.zone z).pos = pos := congrArg (Option.getD · 0) hpos
  rw [Part.frame_playing h, Part.playingFrame_framed, hp]
  exact if_neg (Nat.not_le.mpr he)

end

/-- A frame in STARVED with empty queues and no schedule entry, in all its effects (R120). -/
theorem Part.starvedFrame_fields {p : Part} {z : ZoneId} {pos : Position} {taken : Zone} {e : Int}
    (hs : (p.zone z).state = .starved) (hpos : (p.zone z).position = some pos) (hf : (p.zone z).lastFinal = false)
    (hm : (p.zone z).mainQueue = []) (ho : (p.zone z).overlayQueue = []) (he : p.schedule.entries = []) :
    let q := (p.recorded z e).completeFrame z taken e none 0
    (q.zone z).state = .starved ∧ (q.zone z).lastFrame = some ⟨p.localTime, p.target z p.localTime, e⟩ ∧
    (q.zone z).aligned = decide (e.natAbs ≤ (p.zone z).setup.tolerance * 65536) ∧
    (q.zone z).position = some (toPosition ((pos : Int) + advanceUnits (p.zone z).tpf (p.zoneDomain z).code e
      (p.zone z).setup.slewLimit).toNat) ∧
    q.tallies.live.get (.zone z .framesConcealed) = (p.tallies.live.get (.zone z .framesConcealed)).rise.1 ∧
    q.pool = p.pool ∧ q.schedule = p.schedule := by
  intro q
  have hr := p.zone_recorded z e
  have hs' : ((p.recorded z e).zone z).state = .starved := (congrArg Zone.state hr :).trans hs
  have hm' : ((p.recorded z e).zone z).mainQueue = [] := (congrArg Zone.mainQueue hr :).trans hm
  have hq : q = (((p.recorded z e).readAndMix z taken).advance z e).judgeAligned z e :=
    Part.completeFrame_starved hs' ((congrArg Zone.lastFinal hr :).trans hf) hm' ((congrArg Zone.overlayQueue hr :).trans ho) he
  have hadvanced : (p.recorded z e).advanced z e = toPosition ((pos : Int) +
      advanceUnits (p.zone z).tpf (p.zoneDomain z).code e (p.zone z).setup.slewLimit).toNat := by
    have hp : (p.zone z).pos = pos := congrArg (Option.getD · 0) hpos
    rw [Part.advanced, Part.zoneDomain, hr, ← hp]
    rfl
  have hlive : ((p.recorded z e).readAndMix z taken).tallies.live =
      p.tallies.live.set (.zone z .framesConcealed) (p.tallies.live.get (.zone z .framesConcealed)).rise.1 := by
    have hnone : (p.recorded z e).mainAt z ((p.recorded z e).zone z).pos = none := by
      rw [Part.mainAt, hm']
      rfl
    rw [Part.readAndMix_eq, if_pos ⟨by rw [hs']; rfl, by rw [hnone]; rfl⟩, Part.live_tally]
    rfl
  obtain ⟨lanes, mixer, hz⟩ := (p.recorded z e).zone_advance_readAndMix z taken e
  rw [hr, hadvanced] at hz
  rw [hq, Part.zone_judgeAligned, hz, Part.tallies_judgeAligned, Part.pool_judgeAligned, Part.schedule_judgeAligned]
  refine ⟨hs, rfl, rfl, rfl, ?_, (p.recorded z e).pool_readAndMix z taken, (p.recorded z e).schedule_readAndMix z taken⟩
  exact (congrArg (TallySet.get · _) hlive).trans (TallySet.get_set_same _ _ _)

/-- Settles O48: a frame by its E, its completion by stages, the target and the advance by their arithmetic, the judgements by
what they find, and the frame of an empty starved zone by `completeFrame_starved`. -/
theorem starvedFrameConceals : Obligations.StarvedFrameConceals := by
  refine ⟨fun s z t pos hport hdue hpos hs => ?_, fun p z taken e move before => ?_,
    ⟨rfl, rfl, fun p z t a => Part.target_of_lt, fun tpf code e limit => ?_⟩, fun p z pos e => ?_,
    fun s z t pos hport hdue hs hpos hf hm ho he => ?_⟩
  · intro target e recorded
    rw [exec_outputFrame hport hdue]
    refine ⟨fun h => by rw [Part.frame_within hpos hs h]; rfl, fun h => ?_⟩
    intro jumped dropped caught
    have hcaught : s.part.reseekCaughtUp z = caught := rfl
    rw [Part.frame_reseek hpos hs h, hcaught]
    refine ⟨fun hgoes => ?_, fun hstopped => ?_⟩
    · rw [if_pos hgoes]
    · rw [if_neg hstopped]
      exact ⟨_, rfl⟩
  · intro x mixed concealed new moved passed played
    have hconceal : ((p.zone z).state.conceals = true ∧ (p.mainAt z (p.zone z).pos).isNone = true) ↔ concealed :=
      and_congr (ZoneState.conceals_iff _) Option.isNone_iff_eq_none
    refine ⟨p.readAndMix z taken, fun h => ?_, fun h => ?_, ?_⟩
    · rw [Part.readAndMix_eq, if_pos (hconceal.mpr h)]
      rfl
    · rw [Part.readAndMix_eq, if_neg (fun hc => h (hconceal.mp hc))]
      rfl
    · intro applied at'
      have happlied : (p.playedFrame z taken e move before).applyDue z (p.advanced z e) = applied := by
        rw [Part.playedFrame, Part.playOut_eq, Part.pos_advance_readAndMix, Part.advance_readAndMix]
        cases move <;> rfl
      have hframe := p.completeFrame_eq z taken e move before
      rw [happlied] at hframe
      refine ⟨fun h => hframe.trans (if_neg h), fun stop h hs hat => ?_, fun stop h hs hat => ?_, fun h hs => ?_⟩
      · exact (hframe.trans (if_pos h)).trans (Part.judge_stopped (h.trans hs) hat)
      · exact (hframe.trans (if_pos h)).trans (Part.judge_stopping (h.trans hs) hat)
      · exact (hframe.trans (if_pos h)).trans (Part.judge_content (fun stop he => hs stop (h.symm.trans he)))
  · intro r wanted c value off
    have hadvance : advanceUnits tpf code e limit = roundRat value := by
      rw [advanceUnits, correctionPpm_eq]
      rfl
    have hspec := roundRat_spec value
    rw [← hadvance] at hspec
    exact hspec
  · intro x found enter aligned
    have hempty : ∀ {final : Bool}, ¬found → x.lastFinal = final → p.contentState z pos = if final then .drained else .starved :=
      fun h hf => hf ▸ Part.contentState_empty h
    refine ⟨fun h hs => ?_, fun h hs => ?_, fun h hf hs => ?_, fun h hf hs => ?_, fun h hf hs => ?_, fun h hf hs => ?_,
      fun h => if_pos h.symm, fun h => if_neg h.symm⟩
    · exact Part.judgeContent_same ((Part.contentState_playing h).trans hs.symm)
    · exact Part.judgeContent_playing (Part.contentState_playing h) hs
    · exact Part.judgeContent_same ((hempty h hf).trans hs.symm)
    · exact Part.judgeContent_drained (hempty h hf) hs
    · exact Part.judgeContent_same ((hempty h hf).trans hs.symm)
    · exact Part.judgeContent_starved (hempty h hf) hs
  · intro x target e hwithin
    obtain ⟨hstate, hframe, haligned, hposition, htally, hpool, hschedule⟩ :=
      Part.starvedFrame_fields (taken := x) (e := e) hs hpos hf hm ho he
    have hpart : s.part.frame z = (s.part.recorded z e).completeFrame z x e none 0 := by
      rw [Part.frame_within hpos (.inr (.inl hs)) hwithin, hm]
      rfl
    rw [exec_outputFrame hport hdue, hpart]
    exact ⟨_, rfl, hstate, hframe, haligned, hposition, htally, hpool, hschedule⟩

end Sys2Proof.Machine
end

section
/-! PROOFS. The statements of the family of zone setup and alignment of chapters 7 and 8: ZSET (O39), ZENA (O40), ZRUN (O42), the
mixer (O46), and what an output frame leaves alone (O49). -/

namespace Sys2Proof.Machine

/-! ### ZSET (O39) -/

/-- A taken ZSET of a zone that is not running: its resting main gain follows the zone gain, lowered to the ceiling (R106, R135). -/
theorem Zone.withSetup_resting {x : Zone} (h : x.state.running = false) (now : LocalTime) (setup : ZoneSetup) :
    x.withSetup now setup = { x with
      setup := setup
      port := if setup.rate = x.setup.rate then x.port else x.port.map (fun _ => nextMultiple now setup.rate.tpf)
      mixer := { x.mixer with
        zoneGain := min x.mixer.zoneGain setup.mixer.gainCeiling
        mainGain := .rest (min x.mixer.zoneGain setup.mixer.gainCeiling) } } := by
  simp only [Zone.withSetup, Zone.withGain, h, Bool.false_eq_true, if_false]
  rfl

/-- An unstarted zone is not in a running state (section 7.2). -/
theorem ZoneState.running_of_unstarted {q : ZoneState} (h : q.unstarted = true) : q.running = false := by
  rcases q.unstarted_iff.mp h with rfl | rfl <;> rfl

section
variable {body : List Byte} {z : ZoneId} {setup : ZoneSetup} (hz : ZoneId.ofCode (field body 0 1) = some z)
  (hs : ZoneSetup.ofBody body = some setup)
include hz hs

theorem handleZset_unstarted {p : Part} (h : (p.zone z).state.unstarted = true) :
    handleZset body p = (p.setZone z ((p.zone z).withSetup p.localTime setup)).accept setup.bytes := by
  simp only [handleZset, hz, hs, h, if_true]

theorem handleZset_started {p : Part} (h : (p.zone z).state.unstarted = false) : handleZset body p = p.refuse .wrongState := by
  simp only [handleZset, hz, hs, h, Bool.false_eq_true, if_false]

end

/-- Settles O39, by whether the zone is unstarted. -/
theorem zoneSetupIsWritten : Obligations.ZoneSetupIsWritten := by
  intro s tag body z setup hp hlen hz hs x
  have hl : RequestKind.lengthOk .zset body = true := decide_eq_true hlen
  refine ⟨fun h => ?_, fun hdisabled hidle => ?_⟩
  · intro gain
    have hu : x.state.unstarted = true := x.state.unstarted_iff.mpr h
    rw [← Zone.withSetup_resting (ZoneState.running_of_unstarted hu) s.part.localTime setup]
    exact exec_command_accepted (k := .zset) (by decide) hp hl (handleZset_unstarted (p := s.part.toHunt) hz hs hu)
  · have hu : x.state.unstarted = false :=
      Bool.eq_false_iff.mpr (fun h => (x.state.unstarted_iff.mp h).elim hdisabled hidle)
    exact exec_command_refused (k := .zset) hp hl (handleZset_started (p := s.part.toHunt) hz hs hu)

/-! ### ZENA (O40) -/

theorem handleZena_disabled {p : Part} {z : ZoneId} (h : (p.zone z).state = .disabled) :
    let first := nextMultiple p.localTime (p.zone z).setup.rate.tpf
    handleZena [z.code] p =
      ((p.setZone z { p.zone z with state := .idle, port := some first }).raise .zoneState (.zone z)).accept
        ([1#8] ++ timeBytes first) := by
  simp only [handleZena, field_zero_one, ZoneId.ofCode_code, h, if_true]
  rfl

theorem handleZena_enabled {p : Part} {z : ZoneId} (h : (p.zone z).state ≠ .disabled) :
    handleZena [z.code] p = p.refuse .wrongState := by
  simp only [handleZena, field_zero_one, ZoneId.ofCode_code, h, if_false]

/-- The first whole multiple after `now` (R106, R107). -/
theorem nextMultiple_spec (now : Nat) {tpf : Nat} (h : 0 < tpf) :
    now < nextMultiple now tpf ∧ nextMultiple now tpf ≤ now + tpf ∧ tpf ∣ nextMultiple now tpf := by
  have hdiv : tpf * (now / tpf) ≤ now := Nat.mul_div_le now tpf
  have hnext : nextMultiple now tpf = tpf * (now / tpf) + tpf := by rw [nextMultiple, Nat.mul_comm, Nat.mul_succ]
  exact ⟨hnext ▸ Nat.lt_mul_div_succ now h, hnext ▸ Nat.add_le_add_right hdiv tpf, Nat.dvd_mul_left _ _⟩

/-- Settles O40, by whether the zone is DISABLED; the first frame by the arithmetic of the next multiple. -/
theorem enableStartsThePort : Obligations.EnableStartsThePort := by
  refine ⟨fun s tag z hp => ⟨fun h => ?_, fun h => ?_⟩, fun now _ => nextMultiple_spec now⟩
  · exact exec_command_accepted (k := .zena) (by decide) hp rfl (handleZena_disabled (p := s.part.toHunt) h)
  · exact exec_command_refused (k := .zena) hp rfl (handleZena_enabled (p := s.part.toHunt) h)

/-! ### ZRUN (O42) -/

theorem ZoneState.code_afterRun (timed : Bool) : (ZoneState.afterRun timed).code = if timed then 2#8 else 7#8 := by
  cases timed <;> rfl

theorem Part.zone_runZone (p : Part) (z : ZoneId) (start : ZoneStart) :
    (p.runZone z start).zone z = { p.zone z with
      state := .afterRun (p.zoneDomain z).state.timed
      start := some start
      position := some (p.runPosition z start (p.zoneDomain z).state.timed)
      lastFinal := false
      aligned := false } :=
  (Part.zone_setZone _ _ _ _).trans (if_pos rfl)

section
variable {body : List Byte} {z : ZoneId} {start : ZoneStart} (hz : ZoneId.ofCode (field body 0 1) = some z)
  (hs : ZoneStart.ofCodes (field body 1 1) (field body 2 8) = some start)
include hz hs

theorem handleZrun_idle {p : Part} (hi : (p.zone z).state = .idle) (hd : (p.zoneDomain z).state ≠ .unbound) :
    handleZrun body p = (p.runZone z start).accept
      ([if (p.zoneDomain z).state.timed then 2#8 else 7#8] ++ startBytes (some start) ++
        positionBytes (p.runPosition z start (p.zoneDomain z).state.timed)) := by
  simp only [handleZrun, hz, hs, hi, hd, ne_eq, not_false_eq_true, and_self, if_true, Part.zone_runZone,
    ZoneState.code_afterRun]
  rfl

theorem handleZrun_refused {p : Part} (h : (p.zone z).state ≠ .idle ∨ (p.zoneDomain z).state = .unbound) :
    handleZrun body p = p.refuse .wrongState := by
  have hn : ¬((p.zone z).state = .idle ∧ (p.zoneDomain z).state ≠ .unbound) := fun ⟨hi, hd⟩ => h.elim (· hi) hd
  simp only [handleZrun, hz, hs, hn, if_false]

end

/-- Settles O42: in IDLE on a bound domain the zone runs as `runZone` says, anywhere else ZRUN is refused. -/
theorem runArmsTheZone : Obligations.RunArmsTheZone := by
  intro s tag body z start hp hlen hz hs x d
  have hl : RequestKind.lengthOk .zrun body = true := decide_eq_true hlen
  refine ⟨fun hi hd => ?_, fun h => ?_⟩
  · intro pos
    have hpos : s.part.runPosition z start d.state.timed = pos := by cases start <;> rfl
    rw [← hpos]
    refine (exec_command_accepted (k := .zrun) (q := s.part.runZone z start) (by decide) hp hl
      (handleZrun_idle (p := s.part.toHunt) hz hs hi hd)).trans ?_
    cases start <;> rfl
  · exact exec_command_refused (k := .zrun) hp hl (handleZrun_refused (p := s.part.toHunt) hz hs h)

/-! ### What an output frame leaves alone (O49) -/

/-- An output frame is an effect on its own zone, or, where its port's time has not come, none (R110). -/
theorem zoneEffect_of_exec_outputFrame {s u : State} {z : ZoneId} (h : exec (.outputFrame z) s = .next u) :
    ZoneEffect z s.part [] u.part ∧ u.pending = s.pending := by
  cases h
  refine ⟨?_, rfl⟩
  dsimp only
  split
  · split
    · exact ZoneEffect.refl.frame
    · exact .refl
  · exact .refl

/-- Settles O49, by what every effect on a zone leaves unchanged. -/
theorem outputFrameTouchesItsZone : Obligations.OutputFrameTouchesItsZone := by
  intro s u z h
  obtain ⟨heffect, hpending⟩ := zoneEffect_of_exec_outputFrame h
  obtain ⟨htime, hcapture, hdomains, hengine, hecho, hfilter, hsubstitution, hlink⟩ := heffect.unchanged
  exact ⟨fun w hw => heffect.zone_ne hw, hdomains, hengine, hcapture, hecho, hfilter, hsubstitution, hlink, htime, hpending⟩

end Sys2Proof.Machine
end

section
/-! PROOFS. The mixer of chapter 8 with the read of R118 (O46): ramps, the mix of a lane, the frame a mixer makes, the channels of
a queue, the tone, and the serial form of a frame on the port. -/

namespace Sys2Proof.Machine

/-! ### Ramps (R138) -/

section
variable {r : Ramp} {target length : Nat}

theorem Ramp.frame_new (h : r.target ≠ target) : r.frame target length = ⟨r.value, target, length, min length 1⟩ := if_neg h

theorem Ramp.frame_held (r : Ramp) (length : Nat) :
    r.frame r.target length = { r with count := min r.length (r.count + 1) } := if_pos rfl

/-- From its last frame on a ramp is at its target. -/
theorem Ramp.value_complete (h : r.length ≤ r.count) : r.value = r.target := if_pos h

/-- Up to its last frame, and there too, a ramp is on the line from its start to its target. -/
theorem Ramp.value_line (h0 : 0 < r.length) (h : r.count ≤ r.length) :
    r.value = r.start + ((r.target : Rat) - r.start) * r.count / r.length := by
  rcases h.eq_or_lt with he | hlt
  · have hne : (r.length : Rat) ≠ 0 := Nat.cast_ne_zero.mpr h0.ne'
    rw [Ramp.value_complete he.ge, he, mul_div_cancel_right₀ _ hne, add_sub_cancel]
  · exact if_neg (Nat.not_le.mpr hlt)

/-- The first frame toward a new target is one step of the new ramp. -/
theorem Ramp.value_frame_new (h : r.target ≠ target) (h0 : 0 < length) :
    (r.frame target length).value = r.value + ((target : Rat) - r.value) / length := by
  have hone : min length 1 = 1 := Nat.min_eq_right h0
  rw [Ramp.frame_new h, hone, Ramp.value_line (r := ⟨r.value, target, length, 1⟩) h0 h0, Nat.cast_one, mul_one]

/-- Every further frame is one step more. -/
theorem Ramp.value_frame_held (h : r.count < r.length) (length : Nat) :
    (r.frame r.target length).value = r.start + ((r.target : Rat) - r.start) * (r.count + 1 : Nat) / r.length := by
  have hnext : min r.length (r.count + 1) = r.count + 1 := Nat.min_eq_right h
  rw [Ramp.frame_held, hnext, Ramp.value_line (r := { r with count := r.count + 1 }) (Nat.zero_lt_of_lt h) h]

end

/-! ### The mix of a lane (R136) -/

theorem saturate24_within (v : Int) : -8388608 ≤ saturate24 v ∧ saturate24 v ≤ 8388607 := by
  unfold saturate24
  split
  · decide
  · split <;> omega

theorem saturate24_of_within {v : Int} (h : -8388608 ≤ v ∧ v ≤ 8388607) : saturate24 v = v := by
  obtain ⟨hlo, hhi⟩ := h
  rw [saturate24, if_neg (Int.not_lt.mpr hhi), if_neg (Int.not_lt.mpr hlo)]

/-- A whole number is rounded to itself. -/
theorem roundRat_intCast (m : Int) : roundRat m = m := by
  rw [roundRat, Rat.num_intCast, Rat.den_intCast, roundHalfAway]
  split <;> omega

/-- Without overlay and tone, and with all else at unity, a lane is the main value. -/
theorem mixLane_unity (m : Int) : mixLane m 0 16384 16384 16384 0 0 16384 = saturate24 m := by
  have hexact : (((m : Rat) * 16384 / 16384 + 0 * 16384 / 16384) * 16384 / 16384 + 0 * 0 / 16384) * 16384 / 16384 = m := by ring
  change saturate24 (roundRat _) = saturate24 m
  rw [hexact, roundRat_intCast]

/-! ### The frame a mixer makes (R134 to R140) -/

/-- A global substitution other than NONE overrides the zone's (R139). -/
theorem effective_eq (globalSub zoneSub : Substitution) :
    effective globalSub zoneSub = if globalSub = .none then zoneSub else globalSub := by
  cases globalSub <;> rfl

/-! ### The channels of a queue (R118, R134) -/

section
variable {pool : BlockPool} {tpf : Nat} {queue : List Nat} {pos : Position} {n : Nat}

theorem BlockPool.contains_iff :
    pool.contains tpf pos n = true ↔ pool.entryStart n * 65536 ≤ pos ∧ pos < pool.entryEnd tpf n * 65536 := by
  rw [BlockPool.contains, Bool.and_eq_true, decide_eq_true_iff, decide_eq_true_iff]
  rfl

/-- A queue of which no entry contains the position has none there. -/
theorem BlockPool.entryAt_none
    (h : ∀ n ∈ queue, ¬(pool.entryStart n * 65536 ≤ pos ∧ pos < pool.entryEnd tpf n * 65536)) :
    pool.entryAt tpf queue pos = none :=
  List.find?_eq_none.mpr (fun n hn hc => h n hn (BlockPool.contains_iff.mp hc))

/-- The first entry that contains the position is the one there. -/
theorem BlockPool.entryAt_first {front back : List Nat}
    (h : ∀ m ∈ front, ¬(pool.entryStart m * 65536 ≤ pos ∧ pos < pool.entryEnd tpf m * 65536))
    (hn : pool.entryStart n * 65536 ≤ pos ∧ pos < pool.entryEnd tpf n * 65536) :
    pool.entryAt tpf (front ++ n :: back) pos = some n := by
  have hfront : front.find? (pool.contains tpf pos) = none := BlockPool.entryAt_none h
  rw [BlockPool.entryAt, List.find?_append, hfront, Option.none_or, List.find?_cons_of_pos (BlockPool.contains_iff.mpr hn)]

theorem BlockPool.channelAt_none (h : pool.entryAt tpf queue pos = none) (i : Nat) : pool.channelAt tpf queue pos i = 0 := by
  simp only [BlockPool.channelAt, h, Option.bind_none]

theorem BlockPool.channelAt_some {b : Block} (h : pool.entryAt tpf queue pos = some n) (hb : pool.blockOf n = some b) (i : Nat) :
    pool.channelAt tpf queue pos i = b.read (pool.abutting tpf queue n) tpf pos i := by
  obtain ⟨slot, hslot, rfl⟩ := Option.map_eq_some_iff.mp hb
  simp only [BlockPool.channelAt, h, Option.bind_some, hslot, Option.map_some]

end

/-- A channel that a block carries, `r` steps past its frame `j` (R118). -/
theorem Block.read_between {b : Block} {next : Option Block} {tpf i j r : Nat} (hi : i < b.channels) (hr : r < tpf * 65536) :
    b.read next tpf ((b.time + j * tpf) * 65536 + r) i =
      roundHalfAway (b.sample j i * (tpf * 65536 : Nat) + (r : Int) * (b.following next j i - b.sample j i)) (tpf * 65536) := by
  have hoff : (b.time + j * tpf) * 65536 + r - positionAt b.time = r + j * (tpf * 65536) := by
    rw [positionAt, positionUnit, add_mul, mul_assoc, add_assoc, Nat.add_sub_cancel_left, Nat.add_comm]
  have hframe : (r + j * (tpf * 65536)) / (tpf * 65536) = j := by
    rw [Nat.add_mul_div_right _ _ (Nat.zero_lt_of_lt hr), Nat.div_eq_of_lt hr, Nat.zero_add]
  have hstep : (r + j * (tpf * 65536)) % (tpf * 65536) = r := by
    rw [Nat.add_mul_mod_self_right, Nat.mod_eq_of_lt hr]
  simp only [Block.read, hi, if_true, hoff, positionUnit, hframe, hstep]

/-- The half-sum of a lane map is exact (R134). -/
theorem LaneMap.two_mul_apply_sum (i j : Nat) (channel : Nat → Int) :
    2 * LaneMap.apply (.sum i j) channel = channel i + channel j := mul_div_cancel₀ _ two_ne_zero

/-! ### The tone (R140) -/

/-- The sine of a position in the period of 24,576 ticks, times 2^100, as `toneValue` puts it together from the quarters. In units
of 1/65,536 tick a quarter is 402,653,184, a half 805,306,368 and the period 1,610,612,736. -/
def toneSine (k : Nat) : Int :=
  match k / 402653184 with
  | 0 => quarterSine (k % 402653184)
  | 1 => quarterSine (402653184 - k % 402653184)
  | 2 => -quarterSine (k % 402653184)
  | _ => -quarterSine (402653184 - k % 402653184)

theorem toneValue_eq (pos : Position) :
    toneValue pos = roundHalfAway (8388607 * toneSine (pos % 1610612736)) (10 * 2 ^ 100) := rfl

/-- The first half of the period is a quarter and its mirror image. -/
theorem toneSine_firstHalf {k : Nat} (h : k < 805306368) : toneSine k = quarterSine (min k (805306368 - k)) := by
  unfold toneSine
  rcases Nat.lt_or_ge k 402653184 with hk | hk
  · rw [Nat.div_eq_of_lt hk, Nat.mod_eq_of_lt hk, Nat.min_eq_left (by omega)]
    rfl
  · have hdiv : k / 402653184 = 1 := by omega
    have hmod : 402653184 - k % 402653184 = 805306368 - k := by omega
    rw [hdiv, hmod, Nat.min_eq_right (by omega)]
    rfl

/-- The second half is the negative of the first. -/
theorem toneSine_secondHalf {k : Nat} (h : k < 805306368) : toneSine (k + 805306368) = -toneSine k := by
  have hmod : (k + 805306368) % 402653184 = k % 402653184 := by omega
  unfold toneSine
  rw [hmod]
  rcases Nat.lt_or_ge k 402653184 with hk | hk
  · have hdiv : (k + 805306368) / 402653184 = 2 := by omega
    rw [hdiv, Nat.div_eq_of_lt hk]
    rfl
  · have hdiv : (k + 805306368) / 402653184 = 3 := by omega
    have hdiv' : k / 402653184 = 1 := by omega
    rw [hdiv, hdiv']
    rfl

theorem toneSine_within {k : Nat} (h : k < 1610612736) : -(2 ^ 100 + 2 ^ 60) ≤ toneSine k ∧ toneSine k ≤ 2 ^ 100 + 2 ^ 60 := by
  have half : ∀ j < 805306368, -(2 ^ 100 + 2 ^ 60) ≤ toneSine j ∧ toneSine j ≤ 2 ^ 100 + 2 ^ 60 := fun j hj => by
    rw [toneSine_firstHalf hj]
    exact quarterSine_within (by omega)
  rcases Nat.lt_or_ge k 805306368 with hk | hk
  · exact half k hk
  · obtain ⟨j, rfl⟩ := Nat.exists_eq_add_of_le' hk
    have hj : j < 805306368 := by omega
    obtain ⟨hlo, hhi⟩ := half j hj
    rw [toneSine_secondHalf hj]
    exact ⟨Int.neg_le_neg hhi, Int.neg_le_of_neg_le hlo⟩

theorem roundHalfAway_neg (n : Int) (d : Nat) : roundHalfAway (-n) d = -roundHalfAway n d := by
  rcases lt_trichotomy n 0 with h | rfl | h
  · rw [roundHalfAway, if_pos (by omega), roundHalfAway, if_neg (by omega), neg_neg]
  · have hzero : roundHalfAway 0 d = 0 := by
      rw [roundHalfAway, if_pos (Int.le_refl 0)]
      rcases d.eq_zero_or_pos with rfl | hd
      · rfl
      · exact Int.ediv_eq_zero_of_lt (by omega) (by omega)
    rw [neg_zero, hzero, neg_zero]
  · rw [roundHalfAway, if_neg (by omega), roundHalfAway, if_pos (by omega), neg_neg]

/-- A sine that exceeds 1 by no more than 2^(−40) gives no more than the rounded tenth of the full scale. -/
theorem toneValue_within (pos : Position) : -838861 ≤ toneValue pos ∧ toneValue pos ≤ 838861 := by
  obtain ⟨hlo, hhi⟩ := toneSine_within (k := pos % 1610612736) (Nat.mod_lt _ (by decide))
  obtain ⟨hnear, -⟩ := roundHalfAway_spec (8388607 * toneSine (pos % 1610612736)) (10 * 2 ^ 100) (by decide)
  rw [← toneValue_eq] at hnear
  generalize toneValue pos = v at *
  generalize toneSine (pos % 1610612736) = s at *
  push_cast at hnear
  norm_num at hlo hhi hnear
  omega

theorem toneValue_period (pos : Position) : toneValue (pos + 24576 * 65536) = toneValue pos := by
  rw [toneValue_eq, toneValue_eq]
  exact congrArg (fun k => roundHalfAway (8388607 * toneSine k) (10 * 2 ^ 100)) (Nat.add_mod_right pos 1610612736)

theorem toneSine_halfPeriod (pos : Nat) : toneSine ((pos + 805306368) % 1610612736) = -toneSine (pos % 1610612736) := by
  rcases Nat.lt_or_ge (pos % 1610612736) 805306368 with hk | hk
  · rw [← toneSine_secondHalf hk]
    exact congrArg toneSine (by omega)
  · obtain ⟨j, hj⟩ := Nat.exists_eq_add_of_le' hk
    have hmod : (pos + 805306368) % 1610612736 = j := by omega
    rw [hmod, hj, toneSine_secondHalf (by omega), neg_neg]

theorem toneValue_halfPeriod (pos : Position) : toneValue (pos + 12288 * 65536) = -toneValue pos := by
  rw [toneValue_eq, toneValue_eq, ← roundHalfAway_neg, ← mul_neg, ← toneSine_halfPeriod]

theorem toneValue_zero : toneValue 0 = 0 := by decide

theorem toneValue_quarter : toneValue (6144 * 65536) = 838861 := by decide

theorem toneValue_half : toneValue 805306368 = 0 := by
  have h := toneValue_halfPeriod 0
  rwa [toneValue_zero, neg_zero, Nat.zero_add] at h

/-- The first half is its own mirror image: at its two ends the tone is 0, between them a quarter mirrors the other. -/
theorem toneValue_reflected {pos : Nat} (h : pos ≤ 805306368) : toneValue (805306368 - pos) = toneValue pos := by
  have inside : ∀ k : Nat, k < 805306368 →
      toneValue k = roundHalfAway (8388607 * quarterSine (min k (805306368 - k))) (10 * 2 ^ 100) := fun k hk => by
    rw [toneValue_eq, Nat.mod_eq_of_lt (Nat.lt_trans hk (by decide)), toneSine_firstHalf hk]
  rcases pos.eq_zero_or_pos with rfl | hpos
  · exact toneValue_half.trans toneValue_zero.symm
  rcases h.eq_or_lt with rfl | hlt
  · exact toneValue_zero.trans toneValue_half.symm
  · have hmirror : min (805306368 - pos) (805306368 - (805306368 - pos)) = min pos (805306368 - pos) := by omega
    rw [inside pos hlt, inside (805306368 - pos) (Nat.sub_lt_self hpos h), hmirror]

/-! ### The serial form of a frame (R132, R190) -/

/-- A lane's slot: its 24 bits, most significant first (R132). -/
theorem getMsbD_portSlot_lane (lane : Int) {i : Nat} (h : i < 24) :
    (portSlot lane).getMsbD i = (BitVec.ofInt 24 lane).getLsbD (23 - i) := by
  rw [portSlot, BitVec.append_eq, BitVec.getMsbD_append, if_neg (Nat.not_le.mpr h), BitVec.getMsbD_eq_getLsbD, decide_eq_true h,
    Bool.true_and]

/-- The 8 low bits of a slot are 0 (R132). -/
theorem getMsbD_portSlot_low (lane : Int) {i : Nat} (h : 24 ≤ i) : (portSlot lane).getMsbD i = false := by
  rw [portSlot, BitVec.append_eq, BitVec.getMsbD_append, if_pos h, BitVec.getMsbD_zero]

theorem length_portPeriods (f : Lanes) : (portPeriods f).length = 64 := by
  rw [portPeriods, List.length_map, List.length_range]

/-- The frame clock is low through the left slot and high through the right (R190). -/
theorem portPeriods_some {f : Lanes} {i : Nat} {clock data : Bool} (h : (portPeriods f)[i]? = some (clock, data)) :
    i < 64 ∧ clock = decide (32 ≤ i) ∧ data = (false :: portBits f).getD i false := by
  have hi : i < 64 := length_portPeriods f ▸ (List.getElem?_eq_some_iff.mp h).1
  rw [portPeriods, List.getElem?_map, List.getElem?_range hi] at h
  cases h
  exact ⟨hi, rfl, rfl⟩

/-- Data lags the frame clock by one period: the left slot's bit `i` stands in the period after (R190). -/
theorem dataBit_left (f : Lanes) {i : Nat} (h : i < 32) :
    (false :: portBits f).getD (i + 1) false = (portSlot f.left).getMsbD i := by
  simp [portBits, List.getElem?_append, h]

theorem dataBit_right (f : Lanes) {i : Nat} (h : i < 32) :
    (false :: portBits f).getD (i + 33) false = (portSlot f.right).getMsbD i := by
  simp [portBits, List.getElem?_append, h]

/-- The data of a frame's periods: each slot from its second period to the first of the next, the lane's bits and then 0 (R190). -/
theorem portPeriods_data {f : Lanes} {i : Nat} {clock data : Bool} (h : (portPeriods f)[i]? = some (clock, data)) :
    (1 ≤ i → i ≤ 24 → data = (BitVec.ofInt 24 f.left).getLsbD (24 - i)) ∧
    (33 ≤ i → i ≤ 56 → data = (BitVec.ofInt 24 f.right).getLsbD (56 - i)) ∧
    (i = 0 ∨ (25 ≤ i ∧ i ≤ 32) ∨ 57 ≤ i → data = false) := by
  obtain ⟨hi, -, rfl⟩ := portPeriods_some h
  have left : ∀ j, i = j + 1 → j < 32 → (false :: portBits f).getD i false = (portSlot f.left).getMsbD j :=
    fun j hj hlt => hj ▸ dataBit_left f hlt
  have right : ∀ j, i = j + 33 → j < 32 → (false :: portBits f).getD i false = (portSlot f.right).getMsbD j :=
    fun j hj hlt => hj ▸ dataBit_right f hlt
  refine ⟨fun hlo hhi => ?_, fun hlo hhi => ?_, ?_⟩
  · rw [left (i - 1) (by omega) (by omega), getMsbD_portSlot_lane _ (by omega)]
    exact congrArg _ (by omega)
  · rw [right (i - 33) (by omega) (by omega), getMsbD_portSlot_lane _ (by omega)]
    exact congrArg _ (by omega)
  · rintro (rfl | ⟨hlo, hhi⟩ | hlo)
    · rfl
    · rw [left (i - 1) (by omega) (by omega), getMsbD_portSlot_low _ (by omega)]
    · rw [right (i - 33) (by omega) (by omega), getMsbD_portSlot_low _ (by omega)]

/-- Settles O46: the ramps by their line, the mix by its one rounding, the channels by the entry at P and the read between two
frames, the tone by the two halves of its period, and the port by its slots. -/
theorem rampsAndTheMix : Obligations.RampsAndTheMix := by
  refine ⟨⟨fun r target length => Ramp.value_frame_new, fun r target h => ?_, fun r length h => Ramp.value_frame_held h length,
      fun r length h => ?_⟩, ⟨fun m o g h c t x q => ?_, fun m o g h c t x q => saturate24_within _, fun m hlo hhi => ?_⟩,
    fun p z taken pos readMain => ?_, fun pool tpf queue pos i => ⟨fun h => ?_, fun front n back b hq hb h hlo hhi => ?_⟩,
    fun b next tpf pos i htpf => ⟨fun h => if_neg (Nat.not_lt.mpr h), fun j r hi hpos hr => ?_⟩,
    fun channel => ⟨fun _ => rfl, fun i j => LaneMap.two_mul_apply_sum i j channel, rfl⟩,
    ⟨toneValue_within, fun pos => ⟨toneValue_period pos, toneValue_halfPeriod pos⟩, fun pos => toneValue_reflected,
      toneValue_quarter, toneValue_half, ?_⟩,
    fun f => ⟨length_portPeriods f, fun i clock data h => ⟨?_, portPeriods_data h⟩⟩⟩
  · rw [Ramp.frame_new h]
    exact Ramp.value_complete (Nat.zero_le _)
  · rw [Ramp.frame_held]
    exact Ramp.value_complete (Nat.min_eq_left (Nat.le_succ_of_le h)).ge
  · intro programme lane
    exact ⟨roundRat lane, rfl, roundRat_spec lane⟩
  · rw [mixLane_unity, saturate24_of_within ⟨hlo, hhi⟩]
  · rw [Part.mixFrame, effective_eq]
    rfl
  · exact BlockPool.channelAt_none (BlockPool.entryAt_none h) i
  · rw [hq]
    exact BlockPool.channelAt_some (BlockPool.entryAt_first h ⟨hlo, hhi⟩) hb i
  · intro here there ideal given
    obtain ⟨hnear, haway⟩ := roundHalfAway_spec ideal (tpf * 65536) (Nat.zero_lt_of_lt hr)
    have hgiven : given = (tpf * 65536 : Nat) * roundHalfAway ideal (tpf * 65536) := by
      simp only [given, hpos, Block.read_between hi hr]
      exact Int.mul_comm _ _
    rw [hgiven]
    exact ⟨hnear, haway⟩
  · exact (toneValue_halfPeriod (6144 * 65536)).trans (congrArg _ toneValue_quarter)
  · obtain ⟨-, hclock, -⟩ := portPeriods_some h
    rw [hclock, decide_eq_true_iff]

end Sys2Proof.Machine
end

section
/-! PROOFS. The statements of the family of gain and substitution of chapter 8: ZGAN, ZSUB and GSUB with the ramp values of
section 12.3 (O44), and the conversion of source samples to 24 bits (O45). -/

namespace Sys2Proof.Machine

/-! ### The zone gain (R142) -/

section
variable {x : Zone} (g : Nat)

/-- In the running states the main gain is left to its ramp. -/
theorem Zone.withGain_running (h : x.state.running = true) :
    x.withGain g = { x with mixer := { x.mixer with zoneGain := min g x.setup.mixer.gainCeiling } } := by
  simp only [Zone.withGain, h, if_true]

/-- Outside the running states the resting main gain takes the zone gain. -/
theorem Zone.withGain_resting (h : x.state.running = false) :
    x.withGain g = { x with mixer := { x.mixer with
      zoneGain := min g x.setup.mixer.gainCeiling
      mainGain := .rest (min g x.setup.mixer.gainCeiling) } } := by
  simp only [Zone.withGain, h, Bool.false_eq_true, if_false]

end

/-- ZGAN on a zone whose mixer the gain makes `m`: the gain carried, the gain held, whether it was clamped, the ceiling, and the
main gain's value and target (R142). -/
theorem handleZgan_gain {p : Part} {z : ZoneId} {a b : Byte} {m : Mixer}
    (hm : (p.zone z).withGain (a.toNat + 256 * b.toNat) = { p.zone z with mixer := m }) :
    handleZgan [z.code, a, b] p = (p.setZone z { p.zone z with mixer := m }).accept
      ([a, b] ++ leBytes 2 m.zoneGain ++
        [if (p.zone z).setup.mixer.gainCeiling < a.toNat + 256 * b.toNat then 1#8 else 0#8] ++
        leBytes 2 (p.zone z).setup.mixer.gainCeiling ++ rampValueBytes m.mainGain.value ++ leBytes 2 m.mainGain.target) := by
  simp only [handleZgan, field_zero_one, field_cons_succ, field_two, ZoneId.ofCode_code, hm, leBytes_two, flagBytes,
    decide_eq_true_eq]

/-! ### The substitutions (R139, R144, R145) -/

section
variable {a : Byte} {sub : Substitution} (h : Substitution.ofCode a.toNat = some sub) (p : Part)
include h

theorem handleZsub_code (z : ZoneId) :
    handleZsub [z.code, a] p =
      (p.setZone z { p.zone z with mixer := { (p.zone z).mixer with substitution := sub } }).accept
        [(p.zone z).mixer.substitution.code, sub.code, p.globalSubstitution.code,
          (effective p.globalSubstitution sub).code] := by
  simp only [handleZsub, field_zero_one, field_cons_succ, ZoneId.ofCode_code, h]

theorem handleGsub_code :
    handleGsub [a] p = ({ p with globalSubstitution := sub } : Part).accept
      ([p.globalSubstitution.code, sub.code] ++ allZones.flatMap (fun w =>
        [(p.zone w).state.code, (effective sub (p.zone w).mixer.substitution).code])) := by
  simp only [handleGsub, field_zero_one, h]

end

theorem effective_none (zoneSub : Substitution) : effective .none zoneSub = zoneSub := rfl

theorem effective_global {globalSub : Substitution} (h : globalSub ≠ .none) (zoneSub : Substitution) :
    effective globalSub zoneSub = globalSub := (effective_eq globalSub zoneSub).trans (if_neg h)

/-! ### The value of a ramp in a reply (section 12.3) -/

theorem roundRat_nonneg {q : Rat} (h : 0 ≤ q) : 0 ≤ roundRat q := by
  have hnum : 0 ≤ q.num := Rat.num_nonneg.mpr h
  rw [roundRat, roundHalfAway, if_pos hnum]
  exact Int.ediv_nonneg (by omega) (by omega)

/-- Of two whole numbers equally near, a value that is not negative goes to the greater: it is never half a unit below. -/
theorem roundRat_near {q : Rat} (h : 0 ≤ q) :
    -1 < 2 * (((roundRat q).toNat : Rat) - q) ∧ 2 * (((roundRat q).toNat : Rat) - q) ≤ 1 := by
  have hcast : ((roundRat q).toNat : Rat) = roundRat q := by
    exact_mod_cast Int.toNat_of_nonneg (roundRat_nonneg h)
  obtain ⟨⟨hlo, hhi⟩, -, hbelow⟩ := roundRat_spec q
  rw [hcast]
  exact ⟨lt_of_le_of_ne hlo (fun he => absurd (hbelow he.symm) (not_lt.mpr h)), hhi⟩

/-- Settles O44: ZGAN by whether the zone runs, ZSUB and GSUB by what each writes, and a ramp's value by its one rounding. -/
theorem gainAndSubstitutionWrites : Obligations.GainAndSubstitutionWrites := by
  refine ⟨?_, fun v hv => ⟨(roundRat (v * 65536)).toNat, rfl, roundRat_near (mul_nonneg hv (by norm_num))⟩,
    effective_none, fun g z h => effective_global h z, ⟨rfl, rfl⟩, ⟨rfl, rfl⟩, ⟨rfl, rfl⟩⟩
  intro s tag a b z hp x ceiling gain told
  refine ⟨fun h => ?_, fun h => ?_, fun sub hsub => ⟨?_, ?_⟩⟩
  · exact exec_command_accepted (k := .zgan) (by decide) hp rfl
      (handleZgan_gain (p := s.part.toHunt) (Zone.withGain_running _ h))
  · exact exec_command_accepted (k := .zgan) (by decide) hp rfl
      (handleZgan_gain (p := s.part.toHunt) (Zone.withGain_resting _ h))
  · exact exec_command_accepted (k := .zsub) (by decide) hp rfl (handleZsub_code hsub s.part.toHunt z)
  · exact exec_command_accepted (k := .gsub) (by decide) hp rfl (handleGsub_code hsub s.part.toHunt)

/-! ### Source samples (R133) -/

/-- The low byte of a little-endian number is its first. -/
theorem ofNat_leNat_byte (a : Byte) (bytes : List Byte) : BitVec.ofNat 8 (leNat (a :: bytes)) = a := by
  refine BitVec.eq_of_toNat_eq ?_
  rw [BitVec.toNat_ofNat, leNat, Nat.add_mul_mod_self_left, Nat.mod_eq_of_lt a.isLt]

/-- A little-endian word is the word of the bytes after the first, and then the first. -/
theorem ofNat_leNat_cons (n : Nat) (a : Byte) (bytes : List Byte) :
    BitVec.ofNat (n + 8) (leNat (a :: bytes)) = (BitVec.ofNat n (leNat bytes)).append a := by
  have ha : a.toNat < 256 := a.isLt
  refine BitVec.eq_of_toNat_eq ?_
  rw [BitVec.append_eq, BitVec.toNat_append, BitVec.toNat_ofNat, BitVec.toNat_ofNat, leNat,
    ← Nat.shiftLeft_add_eq_or_of_lt a.isLt, Nat.shiftLeft_eq, Nat.pow_add, Nat.mul_comm (2 ^ n), Nat.mod_mul,
    Nat.add_mul_mod_self_left, Nat.mod_eq_of_lt ha, Nat.add_mul_div_left _ _ (by decide), Nat.div_eq_of_lt ha,
    Nat.zero_add, Nat.add_comm, Nat.mul_comm]

theorem toSample24_s16 (a b : Byte) : toSample24 .s16 [a, b] = (b.append a).toInt * 256 := by
  rw [toSample24, ofNat_leNat_cons 8, ofNat_leNat_byte]

/-- The fourth byte of an S24 sample plays no part. -/
theorem toSample24_s24 (a b c d : Byte) : toSample24 .s24 [a, b, c, d] = ((c.append b).append a).toInt := by
  rw [toSample24, ofNat_leNat_cons 16, ofNat_leNat_cons 8, ofNat_leNat_byte]

theorem toSample24_s32 (a b c d : Byte) : toSample24 .s32 [a, b, c, d] = (((d.append c).append b).append a).toInt / 256 := by
  rw [toSample24, ofNat_leNat_cons 24, ofNat_leNat_cons 16, ofNat_leNat_cons 8, ofNat_leNat_byte]

/-- A signed 16-bit word times 256, a signed 24-bit word, and a signed 32-bit word over 256 are all 24-bit values. -/
theorem toSample24_within (f : SampleFormat) (bytes : List Byte) :
    -8388608 ≤ toSample24 f bytes ∧ toSample24 f bytes ≤ 8388607 := by
  cases f with
  | s16 =>
    have hlo := (BitVec.ofNat 16 (leNat bytes)).le_toInt
    have hhi := (BitVec.ofNat 16 (leNat bytes)).toInt_lt
    rw [toSample24]
    omega
  | s24 =>
    have hlo := (BitVec.ofNat 24 (leNat bytes)).le_toInt
    have hhi := (BitVec.ofNat 24 (leNat bytes)).toInt_lt
    rw [toSample24]
    omega
  | s32 =>
    have hlo := (BitVec.ofNat 32 (leNat bytes)).le_toInt
    have hhi := (BitVec.ofNat 32 (leNat bytes)).toInt_lt
    rw [toSample24]
    omega

/-- Past a block's last frame the abutting entry's first stands in, by that entry's own format (R118). -/
theorem Block.following_last {b next : Block} {c : Nat} (h : c < next.channels) :
    b.following (some next) (b.frames - 1) c = next.sample 0 c := by
  have hlast : ¬ b.frames - 1 + 1 < b.frames := by omega
  simp only [Block.following, hlast, h, if_false, if_true]

/-- Settles O45, format by format. -/
theorem samplesBecome24Bit : Obligations.SamplesBecome24Bit :=
  ⟨toSample24_s16, toSample24_s24, toSample24_s32, toSample24_within, fun _ _ _ => rfl, fun _ _ _ => Block.following_last⟩

end Sys2Proof.Machine
end

section
/-! PROOFS. The statements of the family of chapter 9, the action schedule: SADD (O50), SCAN and SLST (O51), and the entries that
come due (O52). -/

namespace Sys2Proof.Machine

/-! ### The live entry with a handle (R149, R150) -/

theorem Schedule.handle_of_find {s : Schedule} {h : Word16} {e : ScheduleEntry} (hf : s.find h = some e) : e.handle = h :=
  by
  simpa using List.find?_some (p := fun x : ScheduleEntry => x.handle == h) hf

theorem Schedule.find_isSome_iff {s : Schedule} {h : Word16} :
    (s.find h).isSome = true ↔ h ∈ s.entries.map ScheduleEntry.handle := by
  simp [Schedule.find]

/-- Rewriting an entry under its own handle keeps the handles: a search finds the same place, rewritten or not. -/
theorem Schedule.find_update {h : Word16} {e : ScheduleEntry} (he : e.handle = h) (s : Schedule) (k : Word16) :
    (s.update h (fun _ => e)).find k = (s.find k).map (fun x => if x.handle = h then e else x) := by
  have hhandle : ∀ x : ScheduleEntry, (if x.handle = h then e else x).handle = x.handle := by
    intro x
    split
    · next hx => rw [he, hx]
    · rfl
  simp only [Schedule.find, Schedule.update, List.find?_map, Function.comp_def, hhandle]

/-- No entry is found under a handle that has left; the other handles find what they did. -/
theorem Schedule.find_remove (s : Schedule) (h k : Word16) :
    (s.remove h).find k = if k = h then none else s.find k := by
  simp only [Schedule.find, Schedule.remove, List.find?_filter]
  split
  · next hk => subst hk; simp
  · next hk =>
    congr 1
    funext x
    by_cases hx : x.handle = k
    · simp [hx, hk]
    · simp [hx]

/-- What is rewritten under a handle leaves with it. -/
theorem Schedule.remove_update {h : Word16} {e : ScheduleEntry} (he : e.handle = h) (s : Schedule) :
    (s.update h (fun _ => e)).remove h = s.remove h := by
  simp only [Schedule.remove, Schedule.update, Schedule.mk.injEq, and_true]
  induction s.entries with
  | nil => rfl
  | cons x xs ih =>
    rw [List.map_cons, List.filter_cons, List.filter_cons, ih]
    by_cases hx : x.handle = h
    · simp [hx, he]
    · simp [hx]

/-! ### Handles (R150) -/

/-- The search for a free handle ends at a taken one only where all the handles it passes are taken. -/
theorem Schedule.taken_of_freeHandle_taken {s : Schedule} {fuel : Nat} {h : Word16}
    (ht : (s.find (s.freeHandle h fuel)).isSome = true) :
    ∀ i ≤ fuel, (s.find (h + BitVec.ofNat 16 i)).isSome = true := by
  induction fuel generalizing h with
  | zero =>
    intro i hi
    obtain rfl := Nat.le_zero.mp hi
    rwa [BitVec.add_zero]
  | succ fuel ih =>
    rw [Schedule.freeHandle] at ht
    split at ht
    · next hh =>
      intro i hi
      cases i with
      | zero => rwa [BitVec.add_zero]
      | succ i =>
        have hnext : h + BitVec.ofNat 16 (i + 1) = h + 1 + BitVec.ofNat 16 i := by
          rw [BitVec.ofNat_add, BitVec.add_assoc, BitVec.add_comm 1]
          rfl
        rw [hnext]
        exact ih ht i (Nat.le_of_succ_le_succ hi)
    · next hh => exact absurd ht hh

/-- While a place is free, the handle given is held by no live entry (R150): of 33 handles in a row, 31 entries leave one free. -/
theorem Schedule.find_nextHandle {s : Schedule} (hs : s.entries.length < 32) : s.find s.nextHandle = none := by
  rw [← Option.not_isSome_iff_eq_none]
  intro ht
  have hall := Schedule.taken_of_freeHandle_taken ht
  have hnodup : ((List.range 33).map (fun i => s.counter + BitVec.ofNat 16 i)).Nodup := by
    refine List.Nodup.map_on (fun i hi j hj hij => ?_) List.nodup_range
    have hi := List.mem_range.mp hi
    have hj := List.mem_range.mp hj
    have hnat := congrArg BitVec.toNat (add_left_cancel hij)
    rwa [BitVec.toNat_ofNat, BitVec.toNat_ofNat, Nat.mod_eq_of_lt (by omega), Nat.mod_eq_of_lt (by omega)] at hnat
  have hsub : (List.range 33).map (fun i => s.counter + BitVec.ofNat 16 i) ⊆ s.entries.map ScheduleEntry.handle := by
    intro h hh
    obtain ⟨i, hi, rfl⟩ := List.mem_map.mp hh
    exact Schedule.find_isSome_iff.mp (hall i (Nat.le_of_lt_succ (List.mem_range.mp hi)))
  have hlen := (hnodup.subperm hsub).length_le
  rw [List.length_map, List.length_range, List.length_map] at hlen
  omega

/-- A free counter value is the handle given (R150). -/
theorem Schedule.nextHandle_of_free {s : Schedule} (h : s.find s.counter = none) : s.nextHandle = s.counter := by
  rw [Schedule.nextHandle, Config.scheduleCapacity, Schedule.freeHandle, h]
  rfl

/-! ### The list order (R149, R152) -/

/-- The live entries that stand before a new entry of this time. -/
def entriesBefore (time : DomainTime) (l : List ScheduleEntry) : List ScheduleEntry :=
  l.takeWhile (fun x => decide (x.time ≤ time))

/-- The live entries that stand after a new entry of this time. -/
def entriesAfter (time : DomainTime) (l : List ScheduleEntry) : List ScheduleEntry :=
  l.dropWhile (fun x => decide (x.time ≤ time))

theorem entriesBefore_append_entriesAfter (time : DomainTime) (l : List ScheduleEntry) :
    entriesBefore time l ++ entriesAfter time l = l := List.takeWhile_append_dropWhile

theorem insertByTime_eq (e : ScheduleEntry) (l : List ScheduleEntry) :
    insertByTime e l = entriesBefore e.time l ++ e :: entriesAfter e.time l := by
  induction l with
  | nil => rfl
  | cons x xs ih =>
    by_cases h : x.time ≤ e.time
    · simp [insertByTime, entriesBefore, entriesAfter, h, ih]
    · simp [insertByTime, entriesBefore, entriesAfter, h]

theorem time_le_of_mem_entriesBefore {time : DomainTime} {l : List ScheduleEntry} {x : ScheduleEntry}
    (hx : x ∈ entriesBefore time l) : x.time ≤ time := by
  simpa using List.mem_takeWhile_imp (p := fun x : ScheduleEntry => decide (x.time ≤ time)) hx

theorem time_lt_of_mem_entriesAfter {time : DomainTime} {l : List ScheduleEntry}
    (hl : l.Pairwise (fun a b => a.time ≤ b.time)) {x : ScheduleEntry} (hx : x ∈ entriesAfter time l) : time < x.time := by
  induction l with
  | nil => cases hx
  | cons y ys ih =>
    obtain ⟨hy, hys⟩ := List.pairwise_cons.mp hl
    by_cases h : y.time ≤ time
    · rw [entriesAfter, List.dropWhile_cons_of_pos (by simpa using h)] at hx
      exact ih hys hx
    · rw [entriesAfter, List.dropWhile_cons_of_neg (by simpa using h)] at hx
      rcases List.mem_cons.mp hx with rfl | hx
      · exact Nat.lt_of_not_le h
      · exact Nat.lt_of_lt_of_le (Nat.lt_of_not_le h) (hy x hx)

/-- An ascending list stays ascending when an entry joins it (R149). -/
theorem insertByTime_ascending (e : ScheduleEntry) {l : List ScheduleEntry} (hl : l.Pairwise (fun a b => a.time ≤ b.time)) :
    (insertByTime e l).Pairwise (fun a b => a.time ≤ b.time) := by
  have hafter : ∀ x ∈ entriesAfter e.time l, e.time ≤ x.time := fun x hx => Nat.le_of_lt (time_lt_of_mem_entriesAfter hl hx)
  rw [insertByTime_eq, List.pairwise_append, List.pairwise_cons]
  refine ⟨hl.sublist (List.takeWhile_sublist _), ⟨hafter, hl.sublist (List.dropWhile_sublist _)⟩, fun x hx y hy => ?_⟩
  have hxe : x.time ≤ e.time := time_le_of_mem_entriesBefore hx
  rcases List.mem_cons.mp hy with rfl | hy
  · exact hxe
  · exact Nat.le_trans hxe (hafter y hy)

/-! ### SADD (O50) -/

/-- The place of a new entry is one past the entries before it, since no other entry holds its handle (R152). -/
theorem Schedule.place_add {s : Schedule} (n : NewEntry) (hs : s.entries.length < 32) :
    (s.add n).place s.nextHandle = (entriesBefore n.time s.entries).length + 1 := by
  have hother : ∀ x ∈ entriesBefore n.time s.entries, (x.handle == s.nextHandle) = false := fun x hx =>
    Bool.eq_false_iff.mpr
      (List.find?_eq_none.mp (Schedule.find_nextHandle hs) x ((List.takeWhile_sublist _).mem hx))
  have hentries : (s.add n).entries = entriesBefore n.time s.entries ++ s.newEntry n :: entriesAfter n.time s.entries :=
    insertByTime_eq _ _
  rw [Schedule.place, hentries, List.findIdx_append, List.findIdx_eq_length_of_false hother, List.findIdx_cons]
  simp [Schedule.newEntry]

section
variable {p : Part} {d : DomainId} {z : ZoneId}

/-- A zone that passes checks 3 and 4 of R151. -/
theorem Part.zoneFailure_none (h : (p.zone z).state.takesEntries = true ∧ (p.zone z).setup.domain = d) :
    p.zoneFailure d z = none := by
  obtain ⟨hon, hd⟩ := h
  simp [Part.zoneFailure, hon, hd]

theorem Part.zoneFailure_off (h : (p.zone z).state.takesEntries = false) : p.zoneFailure d z = some .zoneOff := by
  simp [Part.zoneFailure, h]

theorem Part.zoneFailure_mismatch (h : (p.zone z).state.takesEntries = true) (hd : (p.zone z).setup.domain ≠ d) :
    p.zoneFailure d z = some .zoneMismatch := by
  simp [Part.zoneFailure, h, hd]

/-- Zones that pass the checks are passed over. -/
theorem Part.firstFailure_append {front : List ZoneId} (h : ∀ w ∈ front, p.zoneFailure d w = none) (back : List ZoneId) :
    p.firstFailure d (front ++ back) = p.firstFailure d back := by
  induction front with
  | nil => rfl
  | cons w front ih =>
    rw [List.cons_append, Part.firstFailure, h w List.mem_cons_self]
    exact ih (fun v hv => h v (List.mem_cons_of_mem _ hv))

theorem Part.firstFailure_none {zones : List ZoneId} (h : ∀ w ∈ zones, p.zoneFailure d w = none) :
    p.firstFailure d zones = none := by
  have hall := Part.firstFailure_append h []
  rwa [List.append_nil] at hall

theorem Part.firstFailure_some {front back : List ZoneId} {status : Status} (h : ∀ w ∈ front, p.zoneFailure d w = none)
    (hz : p.zoneFailure d z = some status) : p.firstFailure d (front ++ z :: back) = some (z, status) := by
  rw [Part.firstFailure_append h, Part.firstFailure, hz]

end

section
variable {body : List Byte} {n : NewEntry} (hn : NewEntry.ofBody body = some n) {p : Part}
include hn

theorem handleSadd_unbound (hd : (p.domain n.domain).state = .unbound) : handleSadd body p = p.refuse .wrongState := by
  simp only [handleSadd, hn, hd, if_true]

variable (hd : (p.domain n.domain).state ≠ .unbound)
include hd

theorem handleSadd_zone {z : ZoneId} {status : Status}
    (hf : p.firstFailure n.domain (ZoneSet.members n.zones) = some (z, status)) :
    handleSadd body p = (p, some (.refusalWith status [z.code])) := by
  simp only [handleSadd, hn, hd, hf, if_false]

variable (hf : p.firstFailure n.domain (ZoneSet.members n.zones) = none)
include hf

theorem handleSadd_full (hfull : 32 ≤ p.schedule.entries.length) : handleSadd body p = p.refuse .tableFull := by
  have hcap : Config.scheduleCapacity ≤ p.schedule.entries.length := hfull
  simp only [handleSadd, hn, hd, hf, hcap, if_false, if_true]

/-- The reply of a SADD that passes: handle, place, live entries, past-due zones (R152). -/
theorem handleSadd_added (hroom : p.schedule.entries.length < 32) :
    handleSadd body p = ({ p with schedule := p.schedule.add n } : Part).accept
      (leBytes 2 p.schedule.nextHandle.toNat ++ leBytes 1 ((entriesBefore n.time p.schedule.entries).length + 1) ++
        leBytes 1 (p.schedule.entries.length + 1) ++ [ZoneSet.code (p.pastDueSet n)]) := by
  have hcap : ¬ Config.scheduleCapacity ≤ p.schedule.entries.length := Nat.not_le.mpr hroom
  have hlength : (p.schedule.add n).entries.length = p.schedule.entries.length + 1 := insertByTime_length _ _
  simp only [handleSadd, hn, hd, hf, hcap, if_false, Schedule.place_add n hroom, hlength]

end

/-- Settles O50: SADD check by check in R151's order, the free handle by counting, the list order by where an entry joins. -/
theorem entriesJoinTheSchedule : Obligations.EntriesJoinTheSchedule := by
  refine ⟨fun s tag body n hp hlen hn hd hfit hroom => ?_, fun s tag body n hp hlen hn => ?_,
    fun s hs => ⟨Schedule.find_nextHandle hs, Schedule.nextHandle_of_free⟩,
    fun e l hl => ⟨insertByTime_ascending e hl, entriesBefore e.time l, entriesAfter e.time l,
      (entriesBefore_append_entriesAfter e.time l).symm, insertByTime_eq e l,
      fun _ => time_le_of_mem_entriesBefore, fun _ => time_lt_of_mem_entriesAfter hl⟩⟩
  · intro h e earlier past
    exact exec_command_accepted (k := .sadd) (by decide) hp (decide_eq_true hlen)
      (handleSadd_added (p := s.part.toHunt) hn hd
        (Part.firstFailure_none (fun z hz => Part.zoneFailure_none (hfit z hz))) hroom)
  · intro fits refused bound
    have hl : RequestKind.lengthOk .sadd body = true := decide_eq_true hlen
    have pass : ∀ w, fits w → s.part.toHunt.zoneFailure n.domain w = none := fun w => Part.zoneFailure_none
    refine ⟨fun hunbound => ?_, fun front z back hd hmembers hfront => ⟨fun hoff => ?_, fun hon hother => ?_⟩,
      fun hd hfit hfull => ?_⟩
    · exact exec_command_refused (k := .sadd) hp hl (handleSadd_unbound (p := s.part.toHunt) hn (not_not.mp hunbound))
    · refine exec_command_answered (k := .sadd) hp hl (handleSadd_zone (p := s.part.toHunt) hn hd ?_)
      rw [hmembers]
      exact Part.firstFailure_some (fun w hw => pass w (hfront w hw)) (Part.zoneFailure_off hoff)
    · refine exec_command_answered (k := .sadd) hp hl (handleSadd_zone (p := s.part.toHunt) hn hd ?_)
      rw [hmembers]
      exact Part.firstFailure_some (fun w hw => pass w (hfront w hw)) (Part.zoneFailure_mismatch hon hother)
    · exact exec_command_refused (k := .sadd) hp hl (handleSadd_full (p := s.part.toHunt) hn hd
        (Part.firstFailure_none (fun z hz => pass z (hfit z hz))) hfull)

/-! ### SCAN and SLST (O51) -/

theorem handleScan_absent {p : Part} {a b : Byte} (h : p.schedule.find (BitVec.ofNat 16 (a.toNat + 256 * b.toNat)) = none) :
    handleScan [a, b] p = p.refuse .noEntry := by
  simp only [handleScan, field_two, h]

theorem handleScan_live {p : Part} {a b : Byte} {e : ScheduleEntry}
    (h : p.schedule.find (BitVec.ofNat 16 (a.toNat + 256 * b.toNat)) = some e) :
    handleScan [a, b] p =
      ({ p with schedule := p.schedule.remove (BitVec.ofNat 16 (a.toNat + 256 * b.toNat)) } : Part).accept e.bytes := by
  simp only [handleScan, field_two, h]

/-- Settles O51: SCAN by whether the handle is live, SLST by its flag. -/
theorem cancelAndList : Obligations.CancelAndList := by
  intro s tag a b hp h
  refine ⟨fun hnone => ?_, fun e hsome => ?_, ?_, ?_⟩
  · exact exec_command_refused (k := .scan) hp rfl (handleScan_absent (p := s.part.toHunt) hnone)
  · exact exec_command_accepted (k := .scan) (by decide) hp rfl (handleScan_live (p := s.part.toHunt) hsome)
  · exact exec_command_accepted (k := .slst) (by decide) hp rfl rfl
  · exact exec_command_accepted (k := .slst) (by decide) hp rfl rfl

/-! ### One entry (R153, R159) -/

/-- The entry once a zone has applied it: the zone's bit cleared, the applied count one up (R153). -/
def ScheduleEntry.appliedBy (e : ScheduleEntry) (z : ZoneId) : ScheduleEntry := { e.without z with applied := e.applied + 1 }

@[simp] theorem ScheduleEntry.handle_appliedBy (e : ScheduleEntry) (z : ZoneId) : (e.appliedBy z).handle = e.handle := rfl

@[simp] theorem ScheduleEntry.pending_appliedBy (e : ScheduleEntry) (z : ZoneId) :
    (e.appliedBy z).pending.get z = false := by simp [ScheduleEntry.appliedBy, ScheduleEntry.without]

/-- The part once the zone's bit of a live entry is cleared and its applied count has risen, before its action acts (R153). -/
def Part.clearEntry (p : Part) (z : ZoneId) (e : ScheduleEntry) : Part :=
  p.withSchedule (p.schedule.update e.handle (fun _ => e.appliedBy z))

/-- The handle names a live entry that holds the zone pending and is due at the position (R153). -/
def Schedule.isDue (s : Schedule) (z : ZoneId) (pos : Position) (h : Word16) : Bool :=
  (s.find h).any (fun e => e.pending.get z && decide (positionAt e.time ≤ pos))

theorem Schedule.isDue_iff {s : Schedule} {z : ZoneId} {pos : Position} {h : Word16} :
    s.isDue z pos h = true ↔ ∃ e, s.find h = some e ∧ e.pending.get z = true ∧ positionAt e.time ≤ pos := by
  simp [Schedule.isDue, Option.any_eq_true]

section
variable {p : Part} {z : ZoneId} {pos : Position} {h : Word16} {e : ScheduleEntry}

theorem Part.applyEntry_absent (hf : p.schedule.find h = none) : p.applyEntry z pos h = p := by
  simp only [Part.applyEntry, hf]

theorem Part.applyEntry_waits (hf : p.schedule.find h = some e) (hn : ¬(e.pending.get z = true ∧ positionAt e.time ≤ pos)) :
    p.applyEntry z pos h = p := by
  simp only [Part.applyEntry, hf, hn, if_false]

theorem Part.applyEntry_due (hf : p.schedule.find h = some e) (hd : e.pending.get z = true ∧ positionAt e.time ≤ pos) :
    p.applyEntry z pos h =
      if ZoneSet.isEmpty (e.appliedBy z).pending then ((p.clearEntry z e).act z e.action).retire (e.appliedBy z)
      else (p.clearEntry z e).act z e.action := by
  obtain rfl := Schedule.handle_of_find hf
  simp only [Part.applyEntry, hf, hd, and_self, if_true]
  rfl

theorem Part.applyEntry_of_not_isDue (hn : p.schedule.isDue z pos h = false) : p.applyEntry z pos h = p := by
  cases hf : p.schedule.find h with
  | none => exact Part.applyEntry_absent hf
  | some e => exact Part.applyEntry_waits hf (fun hd => Bool.eq_false_iff.mp hn (Schedule.isDue_iff.mpr ⟨e, hf, hd⟩))

end

theorem Part.retire_silent {p : Part} {e : ScheduleEntry} (h : e.notify = false) :
    p.retire e = p.withSchedule (p.schedule.remove e.handle) := Part.reportDone_silent h

theorem Part.retire_notify {p : Part} {e : ScheduleEntry} (h : e.notify = true) :
    p.retire e = ((p.withSchedule (p.schedule.remove e.handle)).raise .actionDone .part).withSchedule
      { p.schedule.remove e.handle with
        done := keepDone (p.schedule.done ++ [⟨e.handle, e.action.kind, e.zones, e.applied, p.localTime⟩]) } :=
  Part.reportDone_notify h

@[simp] theorem Part.zone_retire (p : Part) (e : ScheduleEntry) (w : ZoneId) : (p.retire e).zone w = p.zone w :=
  Part.zone_reportDone _ _ _

theorem Part.entries_retire (p : Part) (e : ScheduleEntry) :
    (p.retire e).schedule.entries = (p.schedule.remove e.handle).entries := by
  rw [Part.retire, Part.reportDone_eq]

/-! ### Due entries in list order (R153, R154) -/

/-- Two schedules with the same live entries have the same due ones. -/
theorem Schedule.isDue_of_entries {s t : Schedule} (h : s.entries = t.entries) : s.isDue = t.isDue := by
  funext z pos k
  rw [Schedule.isDue, Schedule.find, h]
  rfl

theorem Schedule.isDue_of_none_pending {s : Schedule} {z : ZoneId} (h : ∀ e ∈ s.entries, e.pending.get z = false)
    (pos : Position) (k : Word16) : s.isDue z pos k = false := by
  refine Bool.eq_false_iff.mpr (fun hdue => ?_)
  obtain ⟨e, hf, hpending, -⟩ := Schedule.isDue_iff.mp hdue
  exact Bool.eq_false_iff.mp (h e (List.mem_of_find?_eq_some hf)) hpending

/-- A stop takes the zone out of every pending set (R158). -/
theorem Part.pending_stopZone {p : Part} {z : ZoneId} {mode : StopMode} {e : ScheduleEntry}
    (h : e ∈ (p.stopZone z mode).schedule.entries) : e.pending.get z = false := by
  unfold Part.stopZone at h
  dsimp only at h
  split at h
  · exact Part.pending_leaveSchedule h
  · exact Part.pending_toIdle h

section
variable {z : ZoneId} {pos : Position} {k : Word16}

/-- An action makes no entry due for its zone: a STOP empties the zone's pending bits, the others leave the schedule alone. -/
theorem Part.isDue_of_act {p : Part} {a : Action} (h : (p.act z a).schedule.isDue z pos k = true) :
    p.schedule.isDue z pos k = true := by
  cases a with
  | stop mode => exact absurd h (Bool.eq_false_iff.mp (Schedule.isDue_of_none_pending (fun _ => Part.pending_stopZone) pos k))
  | gain g => exact h
  | subst sub => exact h
  | overlay m duck => exact h
  | latency l => exact h
  | note => exact h

theorem Part.isDue_of_clearEntry {p : Part} {e : ScheduleEntry} (h : (p.clearEntry z e).schedule.isDue z pos k = true) :
    p.schedule.isDue z pos k = true := by
  obtain ⟨x, hf, hpending, htime⟩ := Schedule.isDue_iff.mp h
  rw [Part.clearEntry, Part.withSchedule, Schedule.find_update (e.handle_appliedBy z)] at hf
  obtain ⟨y, hy, rfl⟩ := Option.map_eq_some_iff.mp hf
  split at hpending
  · exact absurd hpending (Bool.eq_false_iff.mp (e.pending_appliedBy z))
  · next hother =>
    rw [if_neg hother] at htime
    exact Schedule.isDue_iff.mpr ⟨y, hy, hpending, htime⟩

theorem Part.isDue_of_retire {p : Part} {e : ScheduleEntry} (h : (p.retire e).schedule.isDue z pos k = true) :
    p.schedule.isDue z pos k = true := by
  rw [Schedule.isDue_of_entries (p.entries_retire e)] at h
  obtain ⟨x, hf, hx⟩ := Schedule.isDue_iff.mp h
  rw [Schedule.find_remove] at hf
  split at hf
  · cases hf
  · exact Schedule.isDue_iff.mpr ⟨x, hf, hx⟩

/-- The application of an entry makes no other entry due. -/
theorem Part.isDue_of_applyEntry {p : Part} {h : Word16} (hk : (p.applyEntry z pos h).schedule.isDue z pos k = true) :
    p.schedule.isDue z pos k = true := by
  cases hdue : p.schedule.isDue z pos h with
  | false => rwa [Part.applyEntry_of_not_isDue hdue] at hk
  | true =>
    obtain ⟨e, hf, hd⟩ := Schedule.isDue_iff.mp hdue
    rw [Part.applyEntry_due hf hd] at hk
    split at hk
    · exact Part.isDue_of_clearEntry (Part.isDue_of_act (Part.isDue_of_retire hk))
    · exact Part.isDue_of_clearEntry (Part.isDue_of_act hk)

/-- Of the handles that a zone comes to one after another, those that were not due at the start do nothing. -/
theorem Part.foldl_applyEntry_filter {p : Part} (l : List Word16) {q : Part}
    (hq : ∀ k, q.schedule.isDue z pos k = true → p.schedule.isDue z pos k = true) :
    l.foldl (fun q h => q.applyEntry z pos h) q =
      (l.filter (p.schedule.isDue z pos)).foldl (fun q h => q.applyEntry z pos h) q := by
  induction l generalizing q with
  | nil => rfl
  | cons h l ih =>
    cases hdue : p.schedule.isDue z pos h with
    | true =>
      rw [List.filter_cons_of_pos hdue, List.foldl_cons, List.foldl_cons]
      exact ih (fun k hk => hq k (Part.isDue_of_applyEntry hk))
    | false =>
      have hskip : q.applyEntry z pos h = q :=
        Part.applyEntry_of_not_isDue (Bool.eq_false_iff.mpr (fun hd => Bool.eq_false_iff.mp hdue (hq h hd)))
      rw [List.filter_cons_of_neg (Bool.eq_false_iff.mp hdue), List.foldl_cons, hskip]
      exact ih hq

end

/-! ### Due entries act and retire (O52) -/

section
variable {p : Part} {z : ZoneId} {pos : Position} {e : ScheduleEntry} (hf : p.schedule.find e.handle = some e)
  (hpending : e.pending.get z = true) (hdue : e.time * 65536 ≤ pos)
include hf hpending hdue

/-- With zones left, the entry stays (R153). -/
theorem Part.applyEntry_stays (hleft : ZoneSet.isEmpty (e.appliedBy z).pending = false) :
    p.applyEntry z pos e.handle = (p.clearEntry z e).act z e.action :=
  (Part.applyEntry_due hf ⟨hpending, hdue⟩).trans (if_neg (Bool.eq_false_iff.mp hleft))

/-- With the last zone, the entry retires (R159). -/
theorem Part.applyEntry_retires (hlast : ZoneSet.isEmpty (e.appliedBy z).pending = true) :
    p.applyEntry z pos e.handle = ((p.clearEntry z e).act z e.action).retire (e.appliedBy z) :=
  (Part.applyEntry_due hf ⟨hpending, hdue⟩).trans (if_pos hlast)

end

/-- Settles O52: one entry by whether it is due and whether it is emptied, the list by induction, each action by what it
writes. -/
theorem dueEntryActsAndRetires : Obligations.DueEntryActsAndRetires := by
  refine ⟨fun p z pos e g hf hpending hlast hdue hgain => ?_, fun p z pos e hf => ?_,
    fun p z pos h => Part.applyEntry_absent, fun p z pos => Part.foldl_applyEntry_filter _ (fun _ h => h),
    fun p z => ⟨fun _ => rfl, fun _ => rfl, fun _ _ => rfl, fun _ => rfl, fun _ => rfl, rfl⟩⟩
  · intro q
    have hq : q = ((p.clearEntry z e).setZone z ((p.zone z).withGain g)).retire (e.appliedBy z) := by
      rw [show q = _ from Part.applyEntry_retires hf hpending hdue hlast, hgain]
      rfl
    refine ⟨?_, ?_, fun hsilent => ?_, fun hnotify => ?_⟩
    · rw [hq, Part.zone_retire, Part.zone_setZone, if_pos rfl]
    · rw [hq, Part.entries_retire]
      exact congrArg Schedule.entries (Schedule.remove_update (e.handle_appliedBy z) p.schedule)
    · rw [hq, Part.retire_silent (e := e.appliedBy z) hsilent]
      exact ⟨rfl, rfl⟩
    · rw [hq, Part.retire_notify (e := e.appliedBy z) hnotify]
      exact ⟨rfl, rfl⟩
  · intro e' cleared acted
    refine ⟨Part.applyEntry_stays hf, fun hpending hdue hlast => ?_, fun hwait => Part.applyEntry_waits hf ?_⟩
    · have hretires : p.applyEntry z pos e.handle = acted.retire e' := Part.applyEntry_retires hf hpending hdue hlast
      exact ⟨fun hsilent => hretires.trans (Part.retire_silent hsilent),
        fun hnotify => hretires.trans (Part.retire_notify hnotify)⟩
    · rintro ⟨hpending, hdue⟩
      rcases hwait with hclear | hlate
      · exact Bool.eq_false_iff.mp hclear hpending
      · exact Nat.not_le.mpr hlate hdue

end Sys2Proof.Machine
end

section
/-! PROOFS. The statements of the family of chapter 10: the pending set and the attention lines (O53), the LINK of a discard
(O10), INDC and INDA (O54), the counters at their ceiling (O55) and the snapshots (O56). -/

namespace Sys2Proof.Machine

/-! ### The pending set (O53) -/

section
variable {pair : Pair} {now : LocalTime} {q : PendingPair} {l : List PendingPair}

/-- A raise that meets its own pair counts it and moves its latest time (R165). -/
theorem raiseIn_cons_same (h : q.pair = pair) :
    raiseIn pair now (q :: l) = { q with raises := min 255 (q.raises + 1), latest := now } :: l := if_pos h

/-- Before a pair that is reported later, a raised pair joins the set. -/
theorem raiseIn_cons_before (h : pair.rank < q.pair.rank) : raiseIn pair now (q :: l) = ⟨pair, 1, now, now⟩ :: q :: l :=
  (if_neg (fun he => Nat.lt_irrefl _ (he ▸ h))).trans (if_pos h)

/-- A pair that is reported earlier is passed over. -/
theorem raiseIn_cons_after (h : q.pair.rank < pair.rank) : raiseIn pair now (q :: l) = q :: raiseIn pair now l :=
  (if_neg (fun he => Nat.lt_irrefl _ (he ▸ h))).trans (if_neg (Nat.lt_asymm h))

variable (q pair) in
/-- A pair of the set is the raised one, or is reported after it, or before it. -/
theorem Pair.same_or_later_or_earlier : q.pair = pair ∨ pair.rank < q.pair.rank ∨ q.pair.rank < pair.rank := by
  rcases Nat.lt_trichotomy q.pair.rank pair.rank with hlt | heq | hgt
  · exact .inr (.inr hlt)
  · exact .inl (Pair.rank_inj heq)
  · exact .inr (.inl hgt)

/-- A raise of a pair that is not pending brings it into the set (R165). -/
theorem mem_raiseIn_fresh (h : ∀ q ∈ l, q.pair ≠ pair) : (⟨pair, 1, now, now⟩ : PendingPair) ∈ raiseIn pair now l := by
  induction l with
  | nil => exact List.mem_singleton_self _
  | cons a l ih =>
    rcases Pair.same_or_later_or_earlier pair a with hsame | hlater | hearlier
    · exact absurd hsame (h a List.mem_cons_self)
    · rw [raiseIn_cons_before hlater]
      exact List.mem_cons_self
    · rw [raiseIn_cons_after hearlier]
      exact List.mem_cons_of_mem _ (ih (fun q hq => h q (List.mem_cons_of_mem _ hq)))

/-- A raise leaves every other pair (R165). -/
theorem mem_raiseIn_other (h : q.pair ≠ pair) : q ∈ raiseIn pair now l ↔ q ∈ l := by
  have hne : ∀ x : PendingPair, x.pair = pair → q ≠ x := fun x hx he => h (he ▸ hx)
  induction l with
  | nil => exact iff_of_false (List.mem_singleton.not.mpr (hne _ rfl)) List.not_mem_nil
  | cons a l ih =>
    rcases Pair.same_or_later_or_earlier pair a with hsame | hlater | hearlier
    · rw [raiseIn_cons_same hsame, List.mem_cons, List.mem_cons, or_iff_right (hne a hsame),
        or_iff_right (hne { a with raises := min 255 (a.raises + 1), latest := now } hsame)]
    · rw [raiseIn_cons_before hlater, List.mem_cons, or_iff_right (hne _ rfl)]
    · rw [raiseIn_cons_after hearlier, List.mem_cons, List.mem_cons]
      exact or_congr_right ih

/-- In a set in report order, a raise of a pending pair counts it in its place (R165). -/
theorem raiseIn_of_pending (hsorted : l.Pairwise (fun a b => a.pair.rank < b.pair.rank)) (hq : q ∈ l) (hpair : q.pair = pair) :
    raiseIn pair now l =
      l.map (fun x => if x.pair = pair then { x with raises := min 255 (x.raises + 1), latest := now } else x) := by
  induction l with
  | nil => exact absurd hq List.not_mem_nil
  | cons a l ih =>
    obtain ⟨hafter, hrest⟩ := List.pairwise_cons.mp hsorted
    rcases List.mem_cons.mp hq with rfl | hmem
    · have hother : ∀ x ∈ l, x.pair ≠ pair := fun x hx he =>
        Nat.lt_irrefl q.pair.rank (by rw [hpair] at hafter ⊢; exact he ▸ hafter x hx)
      rw [raiseIn_cons_same hpair, List.map_cons, if_pos hpair]
      exact congrArg _ ((List.map_congr_left (fun x hx => if_neg (hother x hx))).trans (List.map_id l)).symm
    · have hearlier : a.pair.rank < pair.rank := hpair ▸ hafter q hmem
      have hne : a.pair ≠ pair := fun he => Nat.lt_irrefl _ (he ▸ hearlier)
      rw [raiseIn_cons_after hearlier, List.map_cons, if_neg hne, ih hrest hmem]

end

/-- R168 in the words of the statement: enabled, and routed to the line. -/
theorem IndicationUnit.pulls_iff (u : IndicationUnit) (line : Line) (q : PendingPair) :
    u.pulls line q = true ↔ (u.setting q.pair.kind).enabled = true ∧ (u.setting q.pair.kind).line = line := by
  rw [IndicationUnit.pulls, Bool.and_eq_true, beq_iff_eq]

/-- Settles O53: a raise by where its pair stands in the report order, a line by the pairs that hold it. -/
theorem pendingPairsAndLines : Obligations.PendingPairsAndLines := by
  refine ⟨fun pair now l _ hsorted => ⟨mem_raiseIn_fresh, fun q hq hpair => ?_, fun q => mem_raiseIn_other⟩, fun u line => ?_⟩
  · rw [raiseIn_of_pending hsorted hq hpair]
    exact List.mem_map.mpr ⟨q, hq, if_pos hpair⟩
  · simp only [IndicationUnit.asserted, List.any_eq_true, IndicationUnit.pulls_iff]

/-! ### The LINK of a discard (O10) -/

theorem IndicationUnit.isPending_iff (u : IndicationUnit) (pair : Pair) :
    u.isPending pair = true ↔ ∃ q ∈ u.pending, q.pair = pair := by
  simp only [IndicationUnit.isPending, List.any_eq_true, beq_iff_eq]

theorem IndicationUnit.not_isPending_iff (u : IndicationUnit) (pair : Pair) :
    u.isPending pair = false ↔ ∀ q ∈ u.pending, q.pair ≠ pair := by
  simp only [IndicationUnit.isPending, List.any_eq_false, beq_iff_eq, ne_eq]

/-- A cause joins the set, those that stand there staying (R166). -/
theorem CauseSet.add_eq (s : CauseSet) (c : LinkCause) :
    s.add c = ⟨s.crc || decide (c = .crc), s.framing || decide (c = .framing), s.overrun || decide (c = .overrun)⟩ := by
  cases c <;> simp [CauseSet.add]

/-- A LINK that is fresh starts the cause set with its own cause alone (R166). -/
theorem Part.causes_raiseLink_fresh {p : Part} (c : LinkCause) (h : p.indications.isPending ⟨.link, .part⟩ = false) :
    (p.raiseLink c).indications.causes = CauseSet.empty.add c :=
  congrArg (CauseSet.add · c) (if_neg (Bool.eq_false_iff.mp h))

/-- A LINK that is pending keeps its causes and takes one more (R166). -/
theorem Part.causes_raiseLink_pending {p : Part} (c : LinkCause) (h : p.indications.isPending ⟨.link, .part⟩ = true) :
    (p.raiseLink c).indications.causes = p.indications.causes.add c := congrArg (CauseSet.add · c) (if_pos h)

/-- A discard below the counter's ceiling: LINK with its cause, and one link error (R185). -/
theorem Part.discard_below {p : Part} (c : LinkCause) (hd : p.link.deaf = false)
    (hb : p.tallies.live.part.linkErrors.value < Config.counterCeiling) :
    p.discard c = { p.raiseLink c with tallies := { p.tallies with live := { p.tallies.live with part :=
      { p.tallies.live.part with linkErrors :=
        { p.tallies.live.part.linkErrors with value := p.tallies.live.part.linkErrors.value + 1 } } } } } :=
  (if_neg (Bool.eq_false_iff.mp hd)).trans (Part.tally_below (p := p.raiseLink c) (i := .part .linkErrors) hb)

/-- Settles O10: the pending set and the causes by whether LINK is pending, the rest as a discard writes it. -/
theorem discardRaisesLink : Obligations.DiscardRaisesLink := by
  intro p c hd hb u q
  have hq : q = _ := Part.discard_below c hd hb
  have hpending : q.indications.pending = raiseIn ⟨.link, .part⟩ p.localTime u.pending :=
    congrArg (·.indications.pending) hq
  have hcauses : q.indications.causes = (p.raiseLink c).indications.causes := congrArg (·.indications.causes) hq
  refine ⟨fun hfresh => ?_, fun hlink hset => ?_, by rw [hq]; rfl, by rw [hq], by rw [hq]; rfl⟩
  · rw [hpending, hcauses, Part.causes_raiseLink_fresh c hfresh, CauseSet.add_eq]
    exact ⟨mem_raiseIn_fresh ((u.not_isPending_iff _).mp hfresh), rfl, fun x => mem_raiseIn_other⟩
  · obtain ⟨r, hr, hpair⟩ := (u.isPending_iff _).mp hlink
    rw [hpending, hcauses, Part.causes_raiseLink_pending c hlink, CauseSet.add_eq]
    exact ⟨raiseIn_of_pending hset.1 hr hpair, rfl⟩

/-! ### INDC and INDA (O54) -/

/-- A write of one kind's setting (R167). -/
theorem IndicationUnit.setting_setSetting (u : IndicationUnit) (k j : IndicationKind) (s : KindSetting) :
    (u.setSetting k s).setting j = if j = k then s else u.setting j := by
  by_cases h : j = k
  · subst h
    rw [if_pos rfl]
    exact Vector.getElem_set_self ..
  · rw [if_neg h]
    exact Vector.getElem_set_ne k.index.isLt j.index.isLt (fun he => h (IndicationKind.index_inj he.symm))

/-- INDC writes the kinds it names, and no other (R167). -/
theorem IndicationUnit.setting_configure (u : IndicationUnit) (s : KindSetting) (ks : List IndicationKind)
    (j : IndicationKind) : (u.configure s ks).setting j = if j ∈ ks then s else u.setting j := by
  unfold IndicationUnit.configure
  induction ks generalizing u with
  | nil => rw [if_neg List.not_mem_nil]; rfl
  | cons k ks ih =>
    rw [List.foldl_cons, ih, IndicationUnit.setting_setSetting]
    by_cases hks : j ∈ ks
    · rw [if_pos hks, if_pos (List.mem_cons_of_mem _ hks)]
    · simp only [if_neg hks, List.mem_cons, or_iff_left hks]

theorem IndicationUnit.causes_configure (u : IndicationUnit) (s : KindSetting) (ks : List IndicationKind) :
    (u.configure s ks).causes = u.causes := by
  unfold IndicationUnit.configure
  induction ks generalizing u with
  | nil => rfl
  | cons k ks ih => exact ih (u.setSetting k s)

/-- The code of a kind names that kind alone, and ALL names the fifteen (section 12.3). -/
theorem kindsNamed_of_code {a : Byte} {kinds : List IndicationKind}
    (h : (a = 0xFF#8 ∧ kinds = allKinds) ∨ (∃ k : IndicationKind, a = k.code ∧ kinds = [k])) :
    kindsNamed a.toNat = some kinds := by
  rcases h with ⟨rfl, rfl⟩ | ⟨k, rfl, rfl⟩
  · rfl
  · cases k <;> rfl

/-- The reply of an INDC has the one setting after for every kind written (R167). -/
theorem configuredBytes_configure (u : IndicationUnit) (s : KindSetting) (kinds : List IndicationKind) :
    configuredBytes u (u.configure s kinds) kinds =
      leBytes 1 kinds.length ++ kinds.flatMap (fun k => (u.setting k).bytes ++ s.bytes) := by
  unfold configuredBytes
  congr 1
  exact List.flatMap_congr fun k hk => by rw [IndicationUnit.setting_configure, if_pos hk]

theorem handleIndc_accept {a b c : Byte} {kinds : List IndicationKind} {enabled : Bool} {line : Line} (p : Part)
    (hk : kindsNamed a.toNat = some kinds) (he : flagOf b.toNat = some enabled) (hl : Line.ofCode c.toNat = some line) :
    handleIndc [a, b, c] p =
      ({ p with indications := p.indications.configure ⟨enabled, line⟩ kinds } : Part).accept
        (leBytes 1 kinds.length ++ kinds.flatMap (fun k =>
          (p.indications.setting k).bytes ++ KindSetting.bytes ⟨enabled, line⟩) ++
          attentionBytes (p.indications.configure ⟨enabled, line⟩ kinds)) := by
  simp only [handleIndc, field_cons_succ, field_zero_one, hk, he, hl, configuredBytes_configure]

section
variable (u : IndicationUnit) (qs : List Pair)

/-- INDA takes out the pairs it lists, and no other (R170). -/
theorem IndicationUnit.pending_acknowledgeAll :
    (u.acknowledgeAll qs).pending = u.pending.filter (fun x => !qs.contains x.pair) := by
  unfold IndicationUnit.acknowledgeAll
  induction qs generalizing u with
  | nil => exact (List.filter_eq_self.mpr (fun _ _ => rfl)).symm
  | cons q qs ih =>
    rw [List.foldl_cons, ih]
    simp only [IndicationUnit.acknowledge, List.filter_filter, List.contains_cons, Bool.not_or, bne, Bool.and_comm]

theorem IndicationUnit.settings_acknowledgeAll : (u.acknowledgeAll qs).settings = u.settings := by
  unfold IndicationUnit.acknowledgeAll
  induction qs generalizing u with
  | nil => rfl
  | cons q qs ih => exact ih (u.acknowledge q)

/-- The causes leave with LINK (R166, R170). -/
theorem IndicationUnit.causes_acknowledgeAll :
    (u.acknowledgeAll qs).causes = if qs.any (fun q => q.kind == .link) then CauseSet.empty else u.causes := by
  unfold IndicationUnit.acknowledgeAll
  induction qs generalizing u with
  | nil => rfl
  | cons q qs ih =>
    rw [List.foldl_cons, ih, List.any_cons, IndicationUnit.acknowledge]
    by_cases hq : q.kind = .link <;> simp [hq]

end

theorem handleInda_accept {body : List Byte} {pairs : List Pair} (p : Part) (h : acknowledgedPairs body = some pairs) :
    handleInda body p =
      ({ p with indications := p.indications.acknowledgeAll pairs } : Part).accept
        (leBytes 1 (p.indications.pending.length - (p.indications.acknowledgeAll pairs).pending.length) ++
          leBytes 1 (pairs.length - (p.indications.pending.length - (p.indications.acknowledgeAll pairs).pending.length)) ++
          leBytes 1 (p.indications.acknowledgeAll pairs).pending.length ++
          attentionBytes (p.indications.acknowledgeAll pairs)) := by
  simp only [handleInda, h]

/-- Settles O54: the units that INDC and INDA leave are those their rules make, read field by field. -/
theorem configureAndAcknowledge : Obligations.ConfigureAndAcknowledge := by
  intro s tag a b c body hp u levels
  refine ⟨fun kinds enabled line hkinds he hl => ?_, IndicationKind.mem_allKinds, fun pairs hlen hpairs => ?_⟩
  · refine ⟨u.configure ⟨enabled, line⟩ kinds, ?_, fun k hk => ?_, fun k hk => ?_, u.pending_configure _ _,
      u.causes_configure _ _⟩
    · exact exec_command_accepted (k := .indc) (by decide) hp rfl
        (handleIndc_accept s.part.toHunt (kindsNamed_of_code hkinds) he hl)
    · rw [IndicationUnit.setting_configure, if_pos hk]
    · rw [IndicationUnit.setting_configure, if_neg hk]
  · exact ⟨u.acknowledgeAll pairs,
      exec_command_accepted (k := .inda) (by decide) hp hlen (handleInda_accept s.part.toHunt hpairs),
      u.pending_acknowledgeAll pairs, u.settings_acknowledgeAll pairs, u.causes_acknowledgeAll pairs⟩

/-! ### Counters at their ceiling (O55) -/

theorem ZoneTallies.get_set (s : ZoneTallies) (t u : ZoneTally) (c : Counter) :
    (s.set t c).get u = if u = t then c else s.get u := by cases t <;> cases u <;> rfl

theorem DomainTallies.get_set (s : DomainTallies) (t u : DomainTally) (c : Counter) :
    (s.set t c).get u = if u = t then c else s.get u := by cases t <;> cases u <;> rfl

theorem PartTallies.get_set (s : PartTallies) (t u : PartTally) (c : Counter) :
    (s.set t c).get u = if u = t then c else s.get u := by cases t <;> cases u <;> rfl

/-- A write of a counter leaves the 39 others. -/
theorem TallySet.get_set_other (s : TallySet) {i j : TallyId} (c : Counter) (h : j ≠ i) : (s.set i c).get j = s.get j := by
  cases i with
  | zone z t =>
    cases j with
    | zone w u =>
      simp only [TallySet.get, TallySet.set, PerZone.get_set]
      split
      · next hw => subst hw; rw [ZoneTallies.get_set, if_neg (fun hu : u = t => h (hu ▸ rfl))]
      · rfl
    | domain | part => rfl
  | domain d t =>
    cases j with
    | domain e u =>
      simp only [TallySet.get, TallySet.set, PerDomain.get_set]
      split
      · next he => subst he; rw [DomainTallies.get_set, if_neg (fun hu : u = t => h (hu ▸ rfl))]
      · rfl
    | zone | part => rfl
  | part t =>
    cases j with
    | part u => exact (PartTallies.get_set ..).trans (if_neg (fun hu : u = t => h (hu ▸ rfl)))
    | zone | domain => rfl

/-- A counter that is written as it is leaves the set as it is. -/
theorem TallySet.set_get (s : TallySet) (i : TallyId) : s.set i (s.get i) = s := by
  rcases i with ⟨z, t⟩ | ⟨d, t⟩ | t
  · have ht : (s.zones.get z).set t ((s.zones.get z).get t) = s.zones.get z := by cases t <;> rfl
    simp only [TallySet.set, TallySet.get, ht, PerZone.set_get]
  · have ht : (s.domains.get d).set t ((s.domains.get d).get t) = s.domains.get d := by cases t <;> rfl
    simp only [TallySet.set, TallySet.get, ht, PerDomain.set_get]
  · cases t <;> rfl

/-- A rise at the ceiling sets the overflow flag and nothing else (R172). -/
theorem Counter.rise_ceiling {c : Counter} (h : Config.counterCeiling ≤ c.value) :
    c.rise = ({ c with overflow := true }, !c.overflow) := if_neg (Nat.not_lt.mpr h)

section
variable {p : Part} {i : TallyId} (h : Config.counterCeiling ≤ (p.tallies.live.get i).value)
include h

/-- The rise that sets the overflow flag raises TALLY (R172). -/
theorem Part.indications_tally_overflows (ho : (p.tallies.live.get i).overflow = false) :
    (p.tally i).indications = (p.raise .tally .part).indications := by
  simp only [Part.tally, Counter.rise_ceiling h, ho, Bool.not_false, if_true]; rfl

/-- Once the overflow flag is set, a rise changes nothing (R172). -/
theorem Part.tally_overflowed (ho : (p.tallies.live.get i).overflow = true) : p.tally i = p := by
  have hsame : ({ p.tallies.live.get i with overflow := true } : Counter) = p.tallies.live.get i := ho ▸ rfl
  simp only [Part.tally, Counter.rise_ceiling h, hsame, TallySet.set_get, ho, Bool.not_true, Bool.false_eq_true, if_false]

end

/-- Settles O55: the counter itself by where it stands, the others by their names. -/
theorem countersStopAtTheCeiling : Obligations.CountersStopAtTheCeiling := by
  intro p i c q
  refine ⟨fun hbelow => ?_, fun hceiling hclear => ⟨?_, Part.indications_tally_overflows hceiling hclear⟩,
    Part.tally_overflowed, fun j hj => ?_⟩
  · have hq : q = _ := Part.tally_below hbelow
    rw [hq]
    exact ⟨TallySet.get_set_same .., rfl⟩
  · rw [Part.live_tally, TallySet.get_set_same, Counter.rise_ceiling hceiling]
  · rw [Part.live_tally, TallySet.get_set_other _ _ hj]

/-! ### TSNP, TAUT and the automatic snapshot (O56) -/

section
variable {u : TallyUnit} {now : LocalTime}

/-- TAUT with the setting in force (R175). -/
theorem TallyUnit.setAutomatic_same {on : Bool} (h : u.automatic = on) : u.setAutomatic now on = u := if_pos h.symm

/-- TAUT ON sets the deadline one second ahead (R175). -/
theorem TallyUnit.setAutomatic_on (h : u.automatic = false) :
    u.setAutomatic now true = { u with automatic := true, deadline := some (now + Config.ticksPerSecond) } :=
  if_neg (by rw [h]; decide)

/-- TAUT OFF stops the deadline (R175). -/
theorem TallyUnit.setAutomatic_off (h : u.automatic = true) :
    u.setAutomatic now false = { u with automatic := false, deadline := none } := if_neg (by rw [h]; decide)

end

theorem flagOf_flagBytes (on : Bool) : flagOf (field (flagBytes on) 0 1) = some on := by cases on <;> rfl

/-- A taken TAUT: the tally unit after it, and its setting and deadline in the reply (R175). -/
theorem exec_taut {s : State} {tag : Byte} {on : Bool} {v : TallyUnit} (hp : s.part.TakesRequests)
    (hv : s.part.tallies.setAutomatic s.part.localTime on = v) :
    exec (.taut tag (flagBytes on)) s =
      .next (s.replied { s.part with tallies := v } .taut tag (flagBytes v.automatic ++ deadlineBytes v.deadline)) := by
  subst hv
  refine exec_command_accepted (k := .taut) (by decide) hp rfl ?_
  show handleTaut (flagBytes on) s.part.toHunt = _
  rw [handleTaut, flagOf_flagBytes]
  rfl

/-- At its deadline the automatic snapshot is taken (R175). -/
theorem exec_automaticSnapshot_due {s : State} {t : LocalTime} (hd : s.part.tallies.deadline = some t)
    (ht : t ≤ s.part.localTime) : exec .automaticSnapshot s = .next { s with part := s.part.automaticSnapshot t } := by
  show execAutomaticSnapshot s = _
  simp only [execAutomaticSnapshot, State.complete, hd, if_pos ht]

/-- Settles O56: each form by the tally unit it leaves. -/
theorem snapshots : Obligations.Snapshots := by
  intro s tag u taken
  refine ⟨fun hp => ?_, fun t hd ht => exec_automaticSnapshot_due hd ht,
    fun hp hoff => exec_taut (on := true) hp (TallyUnit.setAutomatic_on hoff),
    fun hp hon => exec_taut (on := false) hp (TallyUnit.setAutomatic_off hon), fun hp on hsame => ?_⟩
  · exact exec_command_accepted (k := .tsnp) (by decide) hp rfl rfl
  · have hauto : s.part.tallies.automatic = on := hsame
    rw [exec_taut hp (TallyUnit.setAutomatic_same hsame), hauto]

end Sys2Proof.Machine
end

section
/-! PROOFS. The statements of the family of chapter 11, the host link: LRAT and RSET (O13), the receiver and its frames (O5, O4,
O8, O9), the SPI byte (O6) and the transmitter (O11). -/

namespace Sys2Proof.Machine

/-! ### LRAT and RSET (O13) -/

/-- In UART mode LRAT answers both divisors and the rate, and its reply carries the change (R186). -/
theorem handleLrat_uart {p : Part} (h : p.link.mode = .uart) (n : Byte) :
    handleLrat [n] p = (p, some ⟨.ok, [p.link.divisor, n] ++ leBytes 4 (baudRate n), .rate n⟩) := by
  simp only [handleLrat, h, field_zero_one, BitVec.ofNat_toNat, BitVec.setWidth_eq]

theorem handleLrat_spi {p : Part} (h : p.link.mode = .spi) (body : List Byte) : handleLrat body p = p.refuse .wrongState := by
  simp only [handleLrat, h]

/-- A baud rate that is a whole number is sent as it is (R186). -/
theorem baudRate_mul_of_dvd {n : Byte} (h : 24576000 % (8 * (n.toNat + 1)) = 0) :
    baudRate n * (8 * (n.toNat + 1)) = 24576000 := by
  have hexact : ¬(Config.ticksPerSecond % (8 * (n.toNat + 1)) ≠ 0 ∧ Config.baudRoundsUp n.toNat = true) := fun hx => hx.1 h
  rw [baudRate, if_neg hexact, Nat.add_zero]
  exact Nat.div_mul_cancel (Nat.dvd_of_mod_eq_zero h)

/-- Settles O13: the answers of LRAT by the link's mode, and of RSET. -/
theorem linkRequests : Obligations.LinkRequests := by
  intro s tag n hp
  refine ⟨fun huart => ?_, fun hspi => ?_, ?_, baudRate_mul_of_dvd⟩
  · exact exec_command_answered (k := .lrat) hp rfl (handleLrat_uart (p := s.part.toHunt) huart n)
  · exact exec_command_refused (k := .lrat) hp rfl (handleLrat_spi (p := s.part.toHunt) hspi [n])
  · exact exec_command_answered (k := .rset) hp rfl rfl

/-! ### What a byte does to the receiver (R178) -/

/-- The receiver of a part moves to a hunt state; the silence deadline stays as it is. -/
def Part.withReceiver (p : Part) (r : Receiver) : Part := { p with link := { p.link with receiver := r } }

@[simp] theorem Part.withReceiver_withReceiver (p : Part) (r t : Receiver) :
    (p.withReceiver r).withReceiver t = p.withReceiver t := rfl

@[simp] theorem Part.receiver_withReceiver (p : Part) (r : Receiver) : (p.withReceiver r).link.receiver = r := rfl

section
variable {p : Part}

theorem Part.receive_hunt_sync (h : p.link.receiver = .hunt) : p.receive Config.sync = p.withReceiver .lengthLow := by
  simp only [Part.receive, h, if_true]; rfl

theorem Part.receive_hunt_other (h : p.link.receiver = .hunt) {b : Byte} (hb : b ≠ Config.sync) : p.receive b = p := by
  simp only [Part.receive, h, if_neg hb]

theorem Part.receive_lengthLow (h : p.link.receiver = .lengthLow) (b : Byte) :
    p.receive b = p.withReceiver (.lengthHigh b) := by
  simp only [Part.receive, h]; rfl

theorem Part.receive_lengthHigh {low : Byte} (h : p.link.receiver = .lengthHigh low) (b : Byte) :
    p.receive b = p.lengthFormed (low.toNat + 256 * b.toNat) := by
  simp only [Part.receive, h]; rfl

theorem Part.receive_body_inner {len : Nat} {kept : List Byte} (h : p.link.receiver = .body len kept)
    (hlen : kept.length + 1 < len) (b : Byte) : p.receive b = p.withReceiver (.body len (kept ++ [b])) := by
  simp only [Part.receive, h, if_pos hlen]; rfl

theorem Part.receive_body_last {len : Nat} {kept : List Byte} (h : p.link.receiver = .body len kept)
    (hlen : len ≤ kept.length + 1) (b : Byte) : p.receive b = p.withReceiver (.checkLow (kept ++ [b])) := by
  simp only [Part.receive, h, if_neg (Nat.not_lt.mpr hlen)]; rfl

theorem Part.receive_checkLow {bytes : List Byte} (h : p.link.receiver = .checkLow bytes) (b : Byte) :
    p.receive b = p.withReceiver (.checkHigh bytes b) := by
  simp only [Part.receive, h]; rfl

theorem Part.receive_checkHigh {bytes : List Byte} {low : Byte} (h : p.link.receiver = .checkHigh bytes low) (b : Byte) :
    p.receive b = p.frameComplete (bytes.getD 0 0#8) (bytes.getD 1 0#8) (bytes.drop 2) (b.append low) := by
  simp only [Part.receive, h, ofNat_leNat_cons 8, ofNat_leNat_byte]

/-- A LEN in range begins the body (R178). -/
theorem Part.lengthFormed_inRange {len : Nat} (hlo : 2 ≤ len) (hhi : len ≤ Config.maxLen) :
    p.lengthFormed len = p.withReceiver (.body len []) := if_pos ⟨hlo, hhi⟩

/-- A LEN out of range discards the frame with FRAMING (R178). -/
theorem Part.lengthFormed_outOfRange {len : Nat} (h : ¬(2 ≤ len ∧ len ≤ Config.maxLen)) :
    p.lengthFormed len = p.toHunt.discard .framing := if_neg h

theorem Receiver.inFrame_iff (r : Receiver) : r.inFrame = true ↔ r ≠ .hunt := by cases r <;> simp [Receiver.inFrame]

/-- In UART mode a byte that leaves the frame unfinished sets the silence deadline (R181). -/
theorem Part.guardSilence_inFrame (hm : p.link.mode = .uart) (hr : p.link.receiver ≠ .hunt) :
    p.guardSilence = { p with link := { p.link with silence := some (p.localTime + 245760) } } := by
  simp only [Part.guardSilence, hm, p.link.receiver.inFrame_iff.mpr hr, if_true, Config.silenceLimit]

/-- In HUNT no silence deadline runs (R181). -/
theorem Part.guardSilence_hunt (hm : p.link.mode = .uart) (hr : p.link.receiver = .hunt) : p.guardSilence = p.toHunt := by
  simp only [Part.guardSilence, Part.toHunt, hm, hr, Receiver.inFrame, Bool.false_eq_true, if_false]

theorem Part.guardSilence_spi (hm : p.link.mode = .spi) : p.guardSilence = p := by
  simp only [Part.guardSilence, hm]

/-- A discard leaves the link as it is (R185). -/
@[simp] theorem Part.link_discard (p : Part) (c : LinkCause) : (p.discard c).link = p.link := (p.discard_unchanged c).1

/-- After a discard no silence deadline is left to stop. -/
theorem Part.guardSilence_discarded (p : Part) (c : LinkCause) : (p.toHunt.discard c).guardSilence = p.toHunt.discard c := by
  have hhunt : (p.toHunt.discard c).toHunt = p.toHunt.discard c := Part.toHunt_of_link (Part.link_discard _ c)
  have hr : (p.toHunt.discard c).link.receiver = .hunt := by rw [Part.link_discard]; rfl
  cases hm : (p.toHunt.discard c).link.mode with
  | spi => exact Part.guardSilence_spi hm
  | uart => exact (Part.guardSilence_hunt hm hr).trans hhunt

end

/-! ### A good byte in UART mode (O5) -/

section
variable {s : State} (hm : s.part.link.mode = .uart) {b : Byte}
include hm

theorem exec_byteReceived_uart : exec (.byteReceived b) s = .next { s with part := (s.part.receive b).guardSilence } := by
  show execByteReceived b s = _
  simp only [execByteReceived, State.complete, hm]

/-- A byte that leaves the frame unfinished moves the receiver and sets the silence deadline (R178, R181). -/
theorem exec_byteReceived_unfinished {r : Receiver} (h : s.part.receive b = s.part.withReceiver r) (hr : r ≠ .hunt) :
    exec (.byteReceived b) s = .next { s with part := { s.part with link := { s.part.link with
      receiver := r, silence := some (s.part.localTime + 245760) } } } := by
  rw [exec_byteReceived_uart hm, h, Part.guardSilence_inFrame (p := s.part.withReceiver r) hm hr]; rfl

end

/-- Settles O5, by the hunt state. -/
theorem uartByteMovesTheReceiver : Obligations.UartByteMovesTheReceiver := by
  intro s b hm at' guard
  refine ⟨fun hr hb => ?_, fun hr hb => ?_, fun hr => ?_, fun low hr hlo hhi => ?_, fun low hr hout => ?_,
    fun len kept hr hlen => ?_, fun len kept hr hlen => ?_, fun bytes hr => ?_, fun bytes low hr => ?_⟩
  · subst hb
    exact exec_byteReceived_unfinished hm (Part.receive_hunt_sync hr) nofun
  · rw [exec_byteReceived_uart hm, Part.receive_hunt_other hr hb, Part.guardSilence_hunt hm hr]; rfl
  · exact exec_byteReceived_unfinished hm (Part.receive_lengthLow hr b) nofun
  · exact exec_byteReceived_unfinished hm
      ((Part.receive_lengthHigh hr b).trans (Part.lengthFormed_inRange hlo hhi)) nofun
  · rw [exec_byteReceived_uart hm, Part.receive_lengthHigh hr, Part.lengthFormed_outOfRange hout, Part.guardSilence_discarded]
  · exact exec_byteReceived_unfinished hm (Part.receive_body_inner hr hlen b) nofun
  · exact exec_byteReceived_unfinished hm (Part.receive_body_last hr hlen b) nofun
  · exact exec_byteReceived_unfinished hm (Part.receive_checkLow hr b) nofun
  · rw [exec_byteReceived_uart hm, Part.receive_checkHigh hr]

/-! ### The bytes of a whole frame (O4) -/

/-- Two bytes hold a number below 65,536. -/
theorem leNat_leBytes_two {n : Nat} (h : n < 65536) :
    (BitVec.ofNat 8 n).toNat + 256 * (BitVec.ofNat 8 (n / 256)).toNat = n := by
  rw [BitVec.toNat_ofNat, BitVec.toNat_ofNat]; omega

/-- Two bytes, the high one first, are the word of their number. -/
theorem append_eq_ofNat (low high : Byte) : high.append low = BitVec.ofNat 16 (low.toNat + 256 * high.toNat) := by
  have hword := ofNat_leNat_cons 8 low [high]
  rw [ofNat_leNat_byte] at hword
  exact hword.symm

/-- The two bytes of a word, high byte first, are the word. -/
theorem append_leBytes_two (w : Word16) :
    (BitVec.ofNat 8 (w.toNat / 256)).append (BitVec.ofNat 8 w.toNat) = w := by
  rw [append_eq_ofNat, leNat_leBytes_two w.isLt, BitVec.ofNat_toNat, BitVec.setWidth_eq]

/-- The arrival of a frame does not depend on where the receiver stood. -/
theorem Part.frameArrival_withReceiver (p : Part) (r : Receiver) (kind tag : Byte) (body : List Byte) :
    (p.withReceiver r).frameArrival kind tag body = p.frameArrival kind tag body := by
  unfold Part.frameArrival; split <;> rfl

/-- In BODY, the bytes that are still to come lead to CHECK with all of them kept. -/
theorem Part.foldl_receive_body (p : Part) {len : Nat} (b : Byte) (bs kept : List Byte)
    (hlen : kept.length + (bs.length + 1) = len) :
    (b :: bs).foldl Part.receive (p.withReceiver (.body len kept)) = p.withReceiver (.checkLow (kept ++ b :: bs)) := by
  induction bs generalizing b kept with
  | nil => exact Part.receive_body_last (p.receiver_withReceiver _) (Nat.le_of_eq hlen.symm) b
  | cons c bs ih =>
    have hmore : kept.length + 1 < len := by rw [List.length_cons] at hlen; omega
    have hkept : (kept ++ [b]).length + (bs.length + 1) = len := by
      rw [List.length_append, List.length_singleton, Nat.add_assoc, Nat.add_comm 1]; exact hlen
    rw [List.foldl_cons, Part.receive_body_inner (p.receiver_withReceiver _) hmore, Part.withReceiver_withReceiver,
      ih c (kept ++ [b]) hkept, List.append_assoc, List.singleton_append]

/-- From HUNT, SYNC and a LEN in range lead to BODY. -/
theorem Part.foldl_receive_header {p : Part} (h : p.link.receiver = .hunt) {len : Nat} (hlo : 2 ≤ len)
    (hhi : len ≤ Config.maxLen) : ([Config.sync] ++ leBytes 2 len).foldl Part.receive p = p.withReceiver (.body len []) := by
  have hformed : (BitVec.ofNat 8 len).toNat + 256 * (BitVec.ofNat 8 (len / 256)).toNat = len :=
    leNat_leBytes_two (Nat.lt_of_le_of_lt hhi (by decide))
  simp only [leBytes, List.cons_append, List.nil_append, List.foldl_cons, List.foldl_nil]
  rw [Part.receive_hunt_sync h, Part.receive_lengthLow (p.receiver_withReceiver _), Part.withReceiver_withReceiver,
    Part.receive_lengthHigh (p.receiver_withReceiver _), hformed, Part.lengthFormed_inRange hlo hhi,
    Part.withReceiver_withReceiver]

/-- In CHECK, the two bytes of the CRC of what was kept complete the frame, and it arrives (R179). -/
theorem Part.foldl_receive_check (p : Part) (kind tag : Byte) (body : List Byte) :
    (leBytes 2 (crc16 (frameCovered kind tag body)).toNat).foldl Part.receive (p.withReceiver (.checkLow (kind :: tag :: body))) =
      p.frameArrival kind tag body := by
  simp only [leBytes, List.foldl_cons, List.foldl_nil]
  rw [Part.receive_checkLow (p.receiver_withReceiver _), Part.withReceiver_withReceiver,
    Part.receive_checkHigh (p.receiver_withReceiver _), append_leBytes_two]
  exact (if_pos rfl).trans (p.frameArrival_withReceiver _ kind tag body)

/-- Settles O4: header, body and check in turn. -/
theorem frameBytesAreAnArrival : Obligations.FrameBytesAreAnArrival := by
  refine ⟨by decide +kernel, fun p kind tag body hr hlen => ?_⟩
  have hbytes : frameBytes kind tag body = ([Config.sync] ++ leBytes 2 (body.length + 2)) ++ (kind :: tag :: body) ++
      leBytes 2 (crc16 (frameCovered kind tag body)).toNat := by
    simp [frameBytes, frameCovered]
  rw [hbytes, List.foldl_append, List.foldl_append, Part.foldl_receive_header hr (Nat.le_add_left 2 _) hlen,
    Part.foldl_receive_body p kind (tag :: body) [] (by rw [List.length_cons, List.length_nil, Nat.zero_add]),
    List.nil_append, Part.foldl_receive_check]

/-! ### Frames the link does not take (O8) -/

/-- Every arrival passes the link's gate first (R183). -/
theorem Part.frameArrival_gate (p : Part) (kind tag : Byte) (body : List Byte) :
    ∃ take : Part → Part, p.frameArrival kind tag body = p.arrival take := by
  unfold Part.frameArrival; split <;> exact ⟨_, rfl⟩

/-- A request command is the arrival of a frame of its kind's code (R183). -/
theorem exec_command_frameArrival (k : RequestKind) (tag : Byte) (body : List Byte) (s : State) :
    exec (k.command tag body) s = .next { s with part := s.part.frameArrival k.code tag body } := by
  rw [exec_command_next, Part.frameArrival_code]

section
variable {p : Part}

theorem Part.discard_deaf (h : p.link.deaf = true) (c : LinkCause) : p.discard c = p := if_pos h

theorem Part.discard_hearing (h : p.link.deaf = false) (c : LinkCause) :
    p.discard c = (p.raiseLink c).tally (.part .linkErrors) := if_neg (Bool.eq_false_iff.mp h)

theorem Part.frameArrival_deaf (h : p.link.deaf = true) (kind tag : Byte) (body : List Byte) :
    p.frameArrival kind tag body = p.toHunt := by
  obtain ⟨take, htake⟩ := p.frameArrival_gate kind tag body
  rw [htake, Part.arrival_deaf p take h]

/-- While 8 replies are unread, a frame of any kind is discarded with OVERRUN (R183, R185). -/
theorem Part.frameArrival_full (hd : p.link.deaf = false) (hn : 8 ≤ p.link.replies.length) (kind tag : Byte)
    (body : List Byte) :
    p.frameArrival kind tag body = (p.toHunt.raiseLink .overrun).tally (.part .linkErrors) := by
  obtain ⟨take, htake⟩ := p.frameArrival_gate kind tag body
  rw [htake, Part.arrival_full p take hd hn, Part.discard_hearing (p := p.toHunt) hd]

theorem Part.frameComplete_deaf (h : p.link.deaf = true) (kind tag : Byte) (body : List Byte) (crc : Word16) :
    p.frameComplete kind tag body crc = p.toHunt := by
  unfold Part.frameComplete; split
  · exact Part.frameArrival_deaf h kind tag body
  · exact Part.discard_deaf (p := p.toHunt) h .crc

end

theorem exec_lenOutOfRange (len : Word16) (s : State) :
    exec (.lenOutOfRange len) s = .next { s with part := (s.part.lengthFormed len.toNat).guardSilence } := rfl

theorem exec_unknownKind (kind tag : Byte) (body : List Byte) (s : State) :
    exec (.unknownKind kind tag body) s = .next { s with part := s.part.frameArrival kind tag body } := rfl

theorem exec_overrun (kind tag : Byte) (body : List Byte) (s : State) :
    exec (.overrun kind tag body) s = .next { s with part := s.part.frameArrival kind tag body } := rfl

theorem exec_crcMismatch (kind tag : Byte) (body : List Byte) (crc : Word16) (s : State) :
    exec (.crcMismatch kind tag body crc) s = .next { s with part := s.part.frameComplete kind tag body crc } := rfl

/-- Settles O8: the gate of an arrival, and a discard by a deaf link. -/
theorem framesTheLinkDoesNotTake : Obligations.FramesTheLinkDoesNotTake := by
  constructor
  · intro s kind tag body hd hn t
    refine ⟨?_, ?_, fun k => ?_⟩
    · rw [exec_overrun, Part.frameArrival_full hd hn]
    · rw [exec_unknownKind, Part.frameArrival_full hd hn]
    · rw [exec_command_frameArrival, Part.frameArrival_full hd hn]
  · intro s kind tag body crc len hd t
    refine ⟨fun k => ?_, ?_, ?_, ?_, fun hlen => ?_⟩
    · rw [exec_command_frameArrival, Part.frameArrival_deaf hd]
    · rw [exec_unknownKind, Part.frameArrival_deaf hd]
    · rw [exec_overrun, Part.frameArrival_deaf hd]
    · rw [exec_crcMismatch, Part.frameComplete_deaf hd]
    · rw [exec_lenOutOfRange, Part.lengthFormed_outOfRange hlen, Part.guardSilence_discarded,
        Part.discard_deaf (p := s.part.toHunt) hd]

/-! ### What discards a frame, and what does not (O9) -/

section
variable {s : State}

theorem exec_stopBitError_inFrame (hm : s.part.link.mode = .uart) (hr : s.part.link.receiver ≠ .hunt) :
    exec .stopBitError s = .next { s with part := s.part.cutFrame } := by
  show execStopBitError s = _
  rw [execStopBitError, State.complete, if_pos ⟨hm, (Receiver.inFrame_iff _).mpr hr⟩]

theorem exec_stopBitError_ignored (h : s.part.link.mode = .spi ∨ s.part.link.receiver = .hunt) :
    exec .stopBitError s = .next s := by
  have hidle : ¬(s.part.link.mode = .uart ∧ s.part.link.receiver.inFrame = true) := by
    rw [Receiver.inFrame_iff]
    rintro ⟨hm, hr⟩
    obtain hspi | hhunt := h
    · rw [hm] at hspi; cases hspi
    · exact hr hhunt
  show execStopBitError s = _
  rw [execStopBitError, State.complete, if_neg hidle]

theorem exec_inFrameSilenceExpiry_reached (h : s.part.silenceReached = true) :
    exec .inFrameSilenceExpiry s = .next { s with part := s.part.cutFrame } := by
  show execInFrameSilenceExpiry s = _
  rw [execInFrameSilenceExpiry, State.complete, if_pos h]

theorem exec_inFrameSilenceExpiry_unreached (h : ¬s.part.silenceReached = true) :
    exec .inFrameSilenceExpiry s = .next s := by
  show execInFrameSilenceExpiry s = _
  rw [execInFrameSilenceExpiry, State.complete, if_neg h]

theorem exec_spiTransferStart_spi (h : s.part.link.mode = .spi) :
    exec .spiTransferStart s = .next { s with part := { s.part with link := { s.part.link with selected := true } } } := by
  show execSpiTransferStart s = _
  rw [execSpiTransferStart, State.complete, if_pos h]

theorem exec_spiTransferStart_uart (h : s.part.link.mode = .uart) : exec .spiTransferStart s = .next s := by
  show execSpiTransferStart s = _
  rw [execSpiTransferStart, State.complete, if_neg (by rw [h]; decide)]

theorem exec_spiTransferEnd_spi (hm : s.part.link.mode = .spi) (hs : s.part.link.selected = true) :
    exec .spiTransferEnd s = .next { s with part := s.part.endTransfer } := by
  show execSpiTransferEnd s = _
  rw [execSpiTransferEnd, State.complete, if_pos ⟨hm, hs⟩]

theorem exec_spiTransferEnd_ignored (h : s.part.link.mode = .uart ∨ s.part.link.selected = false) :
    exec .spiTransferEnd s = .next s := by
  have hnone : ¬(s.part.link.mode = .spi ∧ s.part.link.selected = true) := by
    rintro ⟨hm, hs⟩
    obtain huart | hoff := h
    · rw [hm] at huart; cases huart
    · rw [hs] at hoff; cases hoff
  show execSpiTransferEnd s = _
  rw [execSpiTransferEnd, State.complete, if_neg hnone]

end

section
variable {p : Part}

/-- What discards a frame, by whether an RSET has been taken (R185, R187). -/
theorem Part.discard_toHunt (c : LinkCause) :
    p.toHunt.discard c = if p.link.deaf = true then p.toHunt else (p.toHunt.raiseLink c).tally (.part .linkErrors) := rfl

theorem Part.frameComplete_sound {kind tag : Byte} {body : List Byte} {crc : Word16}
    (h : crc16 (frameCovered kind tag body) = crc) : p.frameComplete kind tag body crc = p.frameArrival kind tag body := if_pos h

theorem Part.frameComplete_corrupt {kind tag : Byte} {body : List Byte} {crc : Word16}
    (h : crc16 (frameCovered kind tag body) ≠ crc) : p.frameComplete kind tag body crc = p.toHunt.discard .crc := if_neg h

/-- A formed LEN in range, and the deadline that guards the body in UART mode (R178, R181). -/
theorem Part.guardSilence_lengthFormed {len : Nat} (hlo : 2 ≤ len) (hhi : len ≤ Config.maxLen) :
    (p.lengthFormed len).guardSilence = { p with link := { p.link with
      receiver := .body len []
      silence := if p.link.mode = .uart then some (p.localTime + 245760) else p.link.silence } } := by
  rw [Part.lengthFormed_inRange hlo hhi]
  cases hm : p.link.mode with
  | spi => exact Part.guardSilence_spi (p := p.withReceiver (.body len [])) hm
  | uart => exact Part.guardSilence_inFrame (p := p.withReceiver (.body len [])) hm nofun

/-- The rise of nCS with a frame in progress, and in HUNT (R180). -/
theorem Part.endTransfer_inFrame (h : p.link.receiver ≠ .hunt) :
    p.endTransfer = Part.cutFrame { p with link := { p.link with selected := false, miso := none } } :=
  if_pos ((Receiver.inFrame_iff _).mpr h)

theorem Part.endTransfer_hunt (h : p.link.receiver = .hunt) :
    p.endTransfer = { p with link := { p.link with selected := false, miso := none } } :=
  if_neg (fun hin => (Receiver.inFrame_iff _).mp hin h)

end

/-- Settles O9, event by event. -/
theorem framesAreDiscarded : Obligations.FramesAreDiscarded := by
  intro s l discarded
  refine ⟨fun kind tag body crc => ⟨fun hne => ?_, fun heq => ?_⟩, fun len => ⟨fun hout => ?_, fun hlo hhi => ?_⟩,
    ⟨exec_stopBitError_inFrame, exec_stopBitError_ignored⟩,
    ⟨fun d hm hr hd hle => ?_, fun hidle => ?_, fun d hd hlt => ?_⟩,
    ⟨exec_spiTransferStart_spi, exec_spiTransferStart_uart⟩, fun hm hs hr => ?_, fun hm hs hr => ?_, exec_spiTransferEnd_ignored⟩
  · rw [exec_crcMismatch, Part.frameComplete_corrupt hne, Part.discard_toHunt]
  · rw [exec_crcMismatch, Part.frameComplete_sound heq]
  · rw [exec_lenOutOfRange, Part.lengthFormed_outOfRange hout, Part.guardSilence_discarded, Part.discard_toHunt]
  · rw [exec_lenOutOfRange, Part.guardSilence_lengthFormed hlo hhi]
  · exact exec_inFrameSilenceExpiry_reached (s.part.silenceReached_iff.mpr ⟨hm, hr, d, hd, hle⟩)
  · refine exec_inFrameSilenceExpiry_unreached (fun hreached => ?_)
    obtain ⟨hm, hr, d, hd, -⟩ := s.part.silenceReached_iff.mp hreached
    obtain hspi | hhunt | hnone := hidle
    · cases hm.symm.trans hspi
    · exact hr hhunt
    · cases hd.symm.trans hnone
  · refine exec_inFrameSilenceExpiry_unreached (fun hreached => ?_)
    obtain ⟨-, -, e, he, hle⟩ := s.part.silenceReached_iff.mp hreached
    cases he.symm.trans hd
    exact Nat.not_le.mpr hlt hle
  · rw [exec_spiTransferEnd_spi hm hs, Part.endTransfer_inFrame hr]; rfl
  · rw [exec_spiTransferEnd_spi hm hs, Part.endTransfer_hunt hr]

/-! ### A SPI byte position (O6) -/

section
variable {p : Part} (b : Byte)

theorem exec_byteReceived_spi {s : State} (h : s.part.link.mode = .spi) :
    exec (.byteReceived b) s = .next { s with part := s.part.spiByte b } := by
  show execByteReceived b s = _
  simp only [execByteReceived, State.complete, h]

theorem Part.spiByte_deselected (h : p.link.selected = false) : p.spiByte b = p := if_neg (Bool.eq_false_iff.mp h)

theorem Part.spiByte_selected (h : p.link.selected = true) :
    p.spiByte b = ({ p.settleShifted with link := p.settleShifted.link.shiftOut } : Part).receive b := if_pos h

/-- Where the head reply still has bytes to shift, nothing has left before the byte position (R180). -/
theorem Part.settleShifted_of_unshifted (h : p.link.headShifted = false) : p.settleShifted = p :=
  if_neg (Bool.eq_false_iff.mp h)

theorem Link.headShifted_spi {l : Link} (hm : l.mode = .spi) {r : Reply} {rest : List Reply} (hr : l.replies = r :: rest) :
    l.headShifted = decide (r.frame.length ≤ l.sent) := by
  simp only [Link.headShifted, hm, hr]

theorem Link.headShifted_empty {l : Link} (h : l.replies = []) : l.headShifted = false := by
  unfold Link.headShifted; split
  · next hr => rw [h] at hr; cases hr
  · rfl

/-- No byte of a reply has been sent before its first byte position: a frame is never empty. -/
theorem Link.headShifted_fresh {l : Link} (h : l.sent = 0) : l.headShifted = false := by
  unfold Link.headShifted; split
  · next r rest hm hr => rw [h]; exact decide_eq_false (Nat.not_le.mpr (Nat.succ_pos _))
  · rfl

theorem Link.shiftOut_empty {l : Link} (h : l.replies = []) : l.shiftOut = { l with miso := some 0xFF#8 } := by
  simp only [Link.shiftOut, h, Config.fill]

theorem Link.shiftOut_head {l : Link} {r : Reply} {rest : List Reply} (h : l.replies = r :: rest) :
    l.shiftOut = { l with miso := some (r.frame.getD l.sent 0xFF#8), sent := l.sent + 1 } := by
  simp only [Link.shiftOut, h, Config.fill]

/-- The head reply leaves: the reply behind it has sent nothing yet (R180). -/
theorem Link.depart_spi {l : Link} (hm : l.mode = .spi) {r : Reply} {rest : List Reply} (hr : l.replies = r :: rest)
    (now : LocalTime) : l.depart now = ({ l with replies := rest, sent := 0, txEnd := none } : Link).mark r.after := by
  have hend : l.sendEnd now = fun _ => none := by funext n; simp only [Link.sendEnd, hm]
  simp only [Link.depart, hr, hend, Option.bind_fun_none]

/-- The byte position after a departure, or after a reset, is that of a transmitter that has sent nothing (R180). -/
theorem Part.spiByte_settled {q : Part} (hp : p.link.selected = true) (hq : p.settleShifted = q)
    (hsel : q.link.selected = true) (hsent : q.link.sent = 0) : p.spiByte b = q.spiByte b := by
  rw [Part.spiByte_selected b hp, Part.spiByte_selected b hsel, hq,
    Part.settleShifted_of_unshifted (Link.headShifted_fresh hsent)]

section
variable (hm : p.link.mode = .spi) {r : Reply} {rest : List Reply} (hr : p.link.replies = r :: rest)
include hm hr

theorem Part.depart_spi : p.depart =
    { p with link := ({ p.link with replies := rest, sent := 0, txEnd := none } : Link).mark r.after } := by
  rw [Part.depart, Link.depart_spi hm hr]

variable (hsent : r.frame.length ≤ p.link.sent)
include hsent

/-- Before a byte position, a reply that has been shifted out leaves (R180). -/
theorem Part.settleShifted_departs (ha : r.after = .nothing) (hdue : p.link.resetDue = false) :
    p.settleShifted = { p with link := { p.link with replies := rest, sent := 0, txEnd := none } } := by
  rw [Part.settleShifted, Link.headShifted_spi hm hr, if_pos (decide_eq_true hsent), Part.depart_spi hm hr, ha]
  exact if_neg (Bool.eq_false_iff.mp hdue)

/-- An RSET reply leaves with its reset (R187). -/
theorem Part.settleShifted_resets (ha : r.after = .reset) :
    p.settleShifted = Part.reset p.link.mode p.link.divisor p.link.selected := by
  rw [Part.settleShifted, Link.headShifted_spi hm hr, if_pos (decide_eq_true hsent), Part.depart_spi hm hr, ha]
  rfl

end

end

/-- Settles O6: outside a transfer, with an empty queue, with a reply to send, and with one that has been sent. -/
theorem spiByteIsFullDuplex : Obligations.SpiByteIsFullDuplex := by
  intro s b hm
  have hexec := exec_byteReceived_spi b hm
  refine ⟨fun hoff => ?_, fun hsel hempty => ?_, fun r rest hsel hr hsent => ?_,
    fun r rest hsel hr hsent hdue => ⟨fun ha => ?_, fun ha => ?_⟩⟩
  · rw [hexec, Part.spiByte_deselected b hoff]
  · rw [hexec, Part.spiByte_selected b hsel, Part.settleShifted_of_unshifted (Link.headShifted_empty hempty),
      Link.shiftOut_empty hempty]
  · have hunsent : s.part.link.headShifted = false :=
      (Link.headShifted_spi hm hr).trans (decide_eq_false (Nat.not_le.mpr hsent))
    rw [hexec, Part.spiByte_selected b hsel, Part.settleShifted_of_unshifted hunsent, Link.shiftOut_head hr]
  · rw [hexec, Part.spiByte_settled b hsel (Part.settleShifted_departs hm hr hsent ha hdue) hsel rfl]
    refine Eq.symm ?_
    exact exec_byteReceived_spi (s := { s with part := { s.part with link := { s.part.link with
      replies := rest, sent := 0, txEnd := none } } }) b hm
  · rw [hexec, Part.spiByte_settled b hsel (Part.settleShifted_resets hm hr hsent ha) hsel rfl]
    refine Eq.symm ?_
    exact exec_byteReceived_spi
      (s := { s with part := Part.reset s.part.link.mode s.part.link.divisor s.part.link.selected }) b hm

/-! ### The transmitter (O11) -/

theorem byteTicks_eq (divisor : Byte) : byteTicks divisor = 10 * (8 * (divisor.toNat + 1)) := by
  rw [byteTicks, ← Nat.mul_assoc]

section
variable {l : Link}

/-- The next reply begins at once in UART mode (R182). -/
theorem Link.bind_sendEnd (now : LocalTime) (rest : List Reply) :
    rest.head?.bind (l.sendEnd now) =
      match l.mode, rest with
      | .uart, n :: _ => some (now + n.frame.length * (80 * (l.divisor.toNat + 1)))
      | _, _ => none := by
  unfold Link.sendEnd byteTicks
  cases rest <;> cases l.mode <;> rfl

theorem Link.mark_eq (a : AfterReply) : l.mark a =
    { l with
      rateDue := match a with | .rate n => some n | _ => l.rateDue
      resetDue := match a with | .reset => true | _ => l.resetDue } := by
  cases a <;> rfl

theorem Link.depart_cons {r : Reply} {rest : List Reply} (hr : l.replies = r :: rest) (now : LocalTime) :
    l.depart now = ({ l with replies := rest, sent := 0, txEnd := rest.head?.bind (l.sendEnd now) } : Link).mark r.after := by
  simp only [Link.depart, hr]

/-- A reply that is being sent when the divisor changes begins at the new rate (R186). -/
theorem Link.restartSend_uart (hm : l.mode = .uart) {r : Reply} {rest : List Reply} (hr : l.replies = r :: rest)
    {e now : LocalTime} (he : l.txEnd = some e) (hlt : now < e) :
    l.restartSend now = some (now + r.frame.length * (80 * (l.divisor.toNat + 1))) := by
  simp only [Link.restartSend, he, if_neg (Nat.not_le.mpr hlt), hr, List.head?_cons, Option.bind_some, Link.sendEnd, hm, byteTicks]

/-- The rate change that an LRAT reply has left (R186). -/
theorem Part.rateChange_due {p : Part} {n : Byte} (h : p.link.rateDue = some n) :
    p.rateChange = { p with link := { p.link with
      rateDue := none, divisor := n
      txEnd := ({ p.link with rateDue := none, divisor := n } : Link).restartSend p.localTime } } := by
  simp only [Part.rateChange, h, Link.setDivisor]

end

/-! ### What TXD carries (O11) -/

theorem Link.onTxd_empty {l : Link} (h : l.replies = []) (now : LocalTime) : l.onTxd now = none := by
  simp only [Link.onTxd, h]

/-- The ten bits of a byte by their place: start bit, data bits least significant first, stop bit (section 11.3). -/
theorem uartBits_start (b : Byte) : (uartBits b).getD 0 .stop = .start := rfl

theorem uartBits_data (b : Byte) {i : Nat} (hlo : 1 ≤ i) (hhi : i ≤ 8) :
    (uartBits b).getD i .stop = .data (b.getLsbD (i - 1)) := by
  interval_cases i <;> rfl

theorem uartBits_stop (b : Byte) : (uartBits b).getD 9 .stop = .stop := rfl

section
variable {k i j tick : Nat} (hi : i < 10) (hj : j < tick)
include hi hj

/-- Whole bits and ticks of a bit beside them make less than a byte. -/
theorem bits_lt_byte : i * tick + j < 10 * tick := by nlinarith

/-- In a time of `k` bytes, `i` bits and `j` ticks, `k` bytes are whole. -/
theorem wholeBytes_of_ticks : (k * (10 * tick) + (i * tick + j)) / (10 * tick) = k := by
  have hbyte := bits_lt_byte hi hj
  rw [Nat.add_comm, Nat.add_mul_div_right _ _ (by omega), Nat.div_eq_of_lt hbyte, Nat.zero_add]

/-- Of the byte after them, `i` bits are whole. -/
theorem wholeBits_of_ticks : (k * (10 * tick) + (i * tick + j)) % (10 * tick) / tick = i := by
  have hbyte := bits_lt_byte hi hj
  rw [Nat.mul_add_mod_self_right, Nat.mod_eq_of_lt hbyte, Nat.add_comm, Nat.add_mul_div_right _ _ (by omega),
    Nat.div_eq_of_lt hj, Nat.zero_add]

end

section
variable {l : Link} {r : Reply} {rest : List Reply} (hr : l.replies = r :: rest) {begun tick k i j : Nat}
  (ht : 8 * (l.divisor.toNat + 1) = tick) (hend : l.txEnd = some (begun + r.frame.length * (10 * tick)))
include hr ht hend

/-- The ticks since the reply began: its bytes so far, the bits of the present byte, the ticks of the present bit. -/
theorem Link.onTxd_begun :
    l.onTxd (begun + k * (10 * tick) + i * tick + j) = some (r.frame, k * (10 * tick) + (i * tick + j)) := by
  simp only [Link.onTxd, hr, hend, byteTicks_eq, ht, Option.some.injEq, Prod.mk.injEq, true_and]
  omega

variable (hi : i < 10) (hj : j < tick)
include hi hj

theorem Link.txSent_begun : l.txSent (begun + k * (10 * tick) + i * tick + j) = k := by
  simp only [Link.txSent, Link.onTxd_begun hr ht hend, byteTicks_eq, ht, wholeBytes_of_ticks hi hj]

variable (hk : k < r.frame.length)
include hk

theorem Link.txdByte_begun : l.txdByte (begun + k * (10 * tick) + i * tick + j) = some (r.frame.getD k 0#8) := by
  simp only [Link.txdByte, Link.onTxd_begun hr ht hend, byteTicks_eq, ht, wholeBytes_of_ticks hi hj,
    List.getElem?_eq_getElem hk, List.getD_eq_getElem _ _ hk]

theorem Link.txd_begun : l.txd (begun + k * (10 * tick) + i * tick + j) = (uartBits (r.frame.getD k 0#8)).getD i .stop := by
  simp only [Link.txd, Link.onTxd_begun hr ht hend, Link.txdByte_begun hr ht hend hi hj hk, byteTicks_eq, bitTicks, ht,
    wholeBits_of_ticks hi hj]

end

/-- Settles O11: the departure, the rate change, TXD while a reply is sent, and TXD at rest. -/
theorem repliesLeaveTheQueue : Obligations.RepliesLeaveTheQueue := by
  refine ⟨fun s r rest hr => ?_, fun s n hn => ?_, ?_, fun l now h => ?_⟩
  · have hdepart := (Link.depart_cons hr s.part.localTime).trans (Link.mark_eq _)
    rw [Link.bind_sendEnd] at hdepart
    exact congrArg (fun l => Host.Outcome.next { s with part := { s.part with link := l } }) hdepart
  · refine ⟨{ s with part := s.part.rateChange }, rfl, ?_, fun r rest e hm hr he hlt => ?_⟩
    · rw [Part.rateChange_due hn]
    · rw [Part.rateChange_due hn]
      exact Link.restartSend_uart (l := { s.part.link with rateDue := none, divisor := n }) hm hr he hlt
  · intro l r rest begun k i j hr tick hend hk hi hj now b
    have htxd : l.txd now = (uartBits b).getD i .stop := Link.txd_begun hr rfl hend hi hj hk
    refine ⟨Link.txSent_begun hr rfl hend hi hj, Link.txdByte_begun hr rfl hend hi hj hk, fun h0 => ?_, fun hlo hhi => ?_,
      fun h9 => ?_⟩
    · rw [htxd, h0, uartBits_start]
    · rw [htxd, uartBits_data b hlo hhi]
    · rw [htxd, h9, uartBits_stop]
  · simp only [Link.txd, Link.txdByte, Link.onTxd_empty h, and_self]

end Sys2Proof.Machine
end

section
/-! PROOFS. The judgement of requests of chapter 11 (O7): which codes each field encoding takes, what each request body holds, and
each handler by whether the fields are in range. -/

namespace Sys2Proof.Machine

/-! ### The codes that each encoding takes (section 12.3, R192) -/

/-- A table of codes that takes those up to `k` and none beyond. -/
theorem isSome_iff_le {α : Type} {f : Nat → Option α} {k : Nat} (htaken : ∀ n ≤ k, (f n).isSome = true)
    (hbeyond : ∀ n, f (n + (k + 1)) = none) (n : Nat) : (f n).isSome = true ↔ n ≤ k := by
  refine ⟨fun h => Nat.le_of_not_lt (fun hlt => ?_), htaken n⟩
  rw [← Nat.sub_add_cancel hlt, hbeyond] at h
  cases h

theorem isSome_flagOf (n : Nat) : (flagOf n).isSome = true ↔ n ≤ 1 := isSome_iff_le (by decide) (fun _ => rfl) n

theorem DomainId.isSome_ofCode (n : Nat) : (DomainId.ofCode n).isSome = true ↔ n ≤ 1 := isSome_iff_le (by decide) (fun _ => rfl) n

theorem ZoneId.isSome_ofCode (n : Nat) : (ZoneId.ofCode n).isSome = true ↔ n ≤ 3 := isSome_iff_le (by decide) (fun _ => rfl) n

theorem StrobeInput.isSome_ofCode (n : Nat) : (StrobeInput.ofCode n).isSome = true ↔ n ≤ 1 :=
  isSome_iff_le (by decide) (fun _ => rfl) n

theorem Role.isSome_ofCode (n : Nat) : (Role.ofCode n).isSome = true ↔ n ≤ 1 := isSome_iff_le (by decide) (fun _ => rfl) n

theorem LossCriterion.isSome_ofCode (n : Nat) : (LossCriterion.ofCode n).isSome = true ↔ n ≤ 1 :=
  isSome_iff_le (by decide) (fun _ => rfl) n

theorem StepAction.isSome_ofCode (n : Nat) : (StepAction.ofCode n).isSome = true ↔ n ≤ 1 :=
  isSome_iff_le (by decide) (fun _ => rfl) n

theorem Rate.isSome_ofCode (n : Nat) : (Rate.ofCode n).isSome = true ↔ n ≤ 1 := isSome_iff_le (by decide) (fun _ => rfl) n

theorem SampleFormat.isSome_ofCode (n : Nat) : (SampleFormat.ofCode n).isSome = true ↔ n ≤ 2 :=
  isSome_iff_le (by decide) (fun _ => rfl) n

theorem FilterAction.isSome_ofCode (n : Nat) : (FilterAction.ofCode n).isSome = true ↔ n ≤ 2 :=
  isSome_iff_le (by decide) (fun _ => rfl) n

theorem OverlayMode.isSome_ofCode (n : Nat) : (OverlayMode.ofCode n).isSome = true ↔ n ≤ 1 :=
  isSome_iff_le (by decide) (fun _ => rfl) n

theorem Substitution.isSome_ofCode (n : Nat) : (Substitution.ofCode n).isSome = true ↔ n ≤ 2 :=
  isSome_iff_le (by decide) (fun _ => rfl) n

theorem StopMode.isSome_ofCode (n : Nat) : (StopMode.ofCode n).isSome = true ↔ n ≤ 1 := isSome_iff_le (by decide) (fun _ => rfl) n

theorem QueueSelector.isSome_ofCode (n : Nat) : (QueueSelector.ofCode n).isSome = true ↔ n ≤ 2 :=
  isSome_iff_le (by decide) (fun _ => rfl) n

theorem Line.isSome_ofCode (n : Nat) : (Line.ofCode n).isSome = true ↔ n ≤ 1 := isSome_iff_le (by decide) (fun _ => rfl) n

theorem IndicationSelector.isSome_ofCode (n : Nat) : (IndicationSelector.ofCode n).isSome = true ↔ n ≤ 2 :=
  isSome_iff_le (by decide) (fun _ => rfl) n

theorem isSome_objectsNamed (n : Nat) : (objectsNamed n).isSome = true ↔ n ≤ 7 := isSome_iff_le (by decide) (fun _ => rfl) n

theorem isSome_inRange (lo hi x : Nat) : (inRange lo hi x).isSome = true ↔ lo ≤ x ∧ x ≤ hi := by simp [inRange]

theorem isSome_inRange_zero (hi x : Nat) : (inRange 0 hi x).isSome = true ↔ x ≤ hi := by simp [inRange]

theorem ZoneSet.isSome_ofCode (n : Nat) : (ZoneSet.ofCode n).isSome = true ↔ n ≤ 15 := by
  simp [ZoneSet.ofCode, Nat.lt_succ_iff]

theorem isSome_kindsNamed (n : Nat) : (kindsNamed n).isSome = true ↔ n ≤ 14 ∨ n = 255 := by
  have hkind : (IndicationKind.ofCode n).isSome = true ↔ n ≤ 14 := isSome_iff_le (by decide) (fun _ => rfl) n
  unfold kindsNamed; split
  · next hall => simp [hall]
  · next hone => simp [hkind, hone]

theorem LaneMap.isSome_ofCodes (body : List Byte) (off : Nat) :
    (LaneMap.ofCodes (field body off 1) (field body (off + 1) 1) (field body (off + 2) 1)).isSome = true ↔
      laneMapInRange body off := by
  unfold LaneMap.ofCodes laneMapInRange; split <;> simp_all

theorem RunForm.isSome_ofCodes (form operand : Nat) : (RunForm.ofCodes form operand).isSome = true ↔
    (form = 0 ∧ operand = 0) ∨ (form = 1 ∧ operand ≤ 65535) ∨ form = 2 ∨ (form = 3 ∧ operand ≤ 1) := by
  unfold RunForm.ofCodes; split <;> simp_all [DomainId.isSome_ofCode, Nat.lt_succ_iff]

theorem ZoneStart.isSome_ofCodes (form time : Nat) : (ZoneStart.ofCodes form time).isSome = true ↔
    form = 0 ∨ (form = 1 ∧ time = 0) := by
  unfold ZoneStart.ofCodes; split <;> simp_all

/-- A part of an encoding that stands under a condition on the bytes beside it. -/
theorem isSome_ite_map_iff {α β : Type} {c P : Prop} [Decidable c] {x : Option α} {f : α → β} (hx : x.isSome = true ↔ P) :
    (if c then x.map f else none).isSome = true ↔ P ∧ c := by
  by_cases hc : c <;> simp [hc, hx]

/-- The parameters of an action, at offset 11 of a SADD body (section 9.1). -/
theorem Action.isSome_ofBody (code : Nat) (body : List Byte) : (Action.ofBody code body 11).isSome = true ↔
    (code = 0 ∧ field body 13 2 = 0) ∨ (code = 1 ∧ field body 11 1 ≤ 2 ∧ field body 12 3 = 0) ∨
    (code = 2 ∧ field body 11 1 ≤ 1 ∧ field body 14 1 = 0) ∨ (code = 3 ∧ field body 11 2 ≤ 4095 ∧ field body 13 2 = 0) ∨
    (code = 4 ∧ field body 11 1 ≤ 1 ∧ field body 12 3 = 0) ∨ (code = 5 ∧ field body 11 4 = 0) := by
  have hsubst := isSome_ite_map_iff (c := field body 12 3 = 0) (f := Action.subst) (Substitution.isSome_ofCode (field body 11 1))
  have hover := isSome_ite_map_iff (c := field body 14 1 = 0) (f := fun m => Action.overlay m (field body 12 2))
    (OverlayMode.isSome_ofCode (field body 11 1))
  have hlate := isSome_ite_map_iff (c := field body 13 2 = 0) (f := Action.latency) (isSome_inRange_zero 4095 (field body 11 2))
  have hstop := isSome_ite_map_iff (c := field body 12 3 = 0) (f := Action.stop) (StopMode.isSome_ofCode (field body 11 1))
  unfold Action.ofBody
  split <;> simp_all

/-! ### What a body holds (section 12.4) -/

/-- A field that is read, and then the rest of the body. -/
theorem isSome_bind_iff {α β : Type} {x : Option α} {f : α → Option β} {P Q : Prop} (hx : x.isSome = true ↔ P)
    (hf : ∀ a, x = some a → ((f a).isSome = true ↔ Q)) : (x.bind f).isSome = true ↔ P ∧ Q := by
  cases x with
  | none => simp [← hx]
  | some a => simp [← hx, hf a rfl]

/-- The last field that is read. -/
theorem isSome_bind_last {α β : Type} {x : Option α} {f : α → Option β} {P : Prop} (hx : x.isSome = true ↔ P)
    (hf : ∀ a, (f a).isSome = true) : (x.bind f).isSome = true ↔ P :=
  (isSome_bind_iff hx (fun a _ => iff_true_intro (hf a))).trans (and_iff_left trivial)

section
variable (body : List Byte)

theorem fieldsInRange_dset :
    (DomainId.ofCode (field body 0 1)).isSome = true ∧ (DomainSetup.ofBody body).isSome = true ↔
      RequestKind.dset.FieldsInRange body :=
  and_congr (DomainId.isSome_ofCode _) <|
    isSome_bind_iff (Role.isSome_ofCode _) fun _ _ =>
    isSome_bind_iff (isSome_inRange _ _ _) fun _ _ =>
    isSome_bind_iff (LossCriterion.isSome_ofCode _) fun _ _ =>
    isSome_bind_iff (isSome_inRange _ _ _) fun _ _ =>
    isSome_bind_iff (isSome_inRange _ _ _) fun _ _ =>
    isSome_bind_iff (isSome_inRange _ _ _) fun _ _ =>
    isSome_bind_iff (isSome_inRange _ _ _) fun _ _ =>
    isSome_bind_iff (StepAction.isSome_ofCode _) fun _ _ =>
    isSome_bind_iff (isSome_inRange_zero _ _) fun _ _ =>
    isSome_bind_iff (isSome_inRange_zero _ _) fun _ _ =>
    isSome_bind_iff (isSome_inRange _ _ _) fun _ _ =>
    isSome_bind_iff (isSome_inRange_zero _ _) fun _ _ =>
    isSome_bind_iff (isSome_inRange_zero _ _) fun _ _ =>
    isSome_bind_last (isSome_inRange _ _ _) fun _ => rfl

theorem fieldsInRange_zset :
    (ZoneId.ofCode (field body 0 1)).isSome = true ∧ (ZoneSetup.ofBody body).isSome = true ↔
      RequestKind.zset.FieldsInRange body :=
  and_congr (ZoneId.isSome_ofCode _) <|
    isSome_bind_iff (DomainId.isSome_ofCode _) fun _ _ =>
    isSome_bind_iff (Rate.isSome_ofCode _) fun _ _ =>
    isSome_bind_iff (isSome_inRange_zero _ _) fun _ _ =>
    isSome_bind_iff (isSome_inRange _ _ _) fun _ _ =>
    isSome_bind_iff (isSome_inRange_zero _ _) fun _ _ =>
    isSome_bind_iff (isSome_inRange _ _ _) fun _ _ =>
    isSome_bind_iff (isSome_inRange _ _ _) fun _ _ =>
    isSome_bind_iff (isSome_inRange _ _ _) fun _ _ =>
    isSome_bind_iff (isSome_inRange _ _ _) fun _ _ =>
    isSome_bind_iff (isSome_inRange_zero _ _) fun _ _ =>
    isSome_bind_last (isSome_bind_iff (LaneMap.isSome_ofCodes body 21) fun _ _ =>
      isSome_bind_iff (LaneMap.isSome_ofCodes body 24) fun _ _ =>
      isSome_bind_iff (OverlayMode.isSome_ofCode _) fun _ _ =>
      isSome_bind_last (isSome_inRange_zero _ _) fun _ => rfl) fun _ => rfl

theorem fieldsInRange_fset : field body 0 1 < 16 ∧ (FilterEntry.ofBody body).isSome = true ↔ RequestKind.fset.FieldsInRange body :=
  and_congr Nat.lt_succ_iff <|
    isSome_bind_iff (isSome_flagOf _) fun _ _ =>
    isSome_bind_iff (FilterAction.isSome_ofCode _) fun _ _ =>
    isSome_bind_last (ZoneSet.isSome_ofCode _) fun _ => rfl

/-- Bytes per sample by the format's code (R193). -/
theorem SampleFormat.size_of_ofCode {n : Nat} {f : SampleFormat} (h : SampleFormat.ofCode n = some f) :
    f.size = if n = 0 then 2 else 4 := by
  unfold SampleFormat.ofCode at h
  split at h <;> cases h <;> rfl

theorem fieldsInRange_pblk : (Delivery.ofBody body).isSome = true ↔ RequestKind.pblk.FieldsInRange body :=
    isSome_bind_iff (Rate.isSome_ofCode _) fun _ _ =>
    isSome_bind_iff (SampleFormat.isSome_ofCode _) fun _ hformat =>
    isSome_bind_iff (isSome_inRange _ _ _) fun _ hchannels =>
    isSome_bind_iff (isSome_inRange _ _ _) fun _ hframes =>
    isSome_bind_iff (isSome_inRange_zero _ _) fun _ _ => by
      obtain ⟨rfl, -⟩ := inRange_eq hchannels
      obtain ⟨rfl, -⟩ := inRange_eq hframes
      simp [SampleFormat.size_of_ofCode hformat, Config.payloadCapacity]

/-- A zone set with no zone is the code 0. -/
theorem ZoneSet.isEmpty_of_ofCode {n : Nat} {zones : ZoneSet} (h : ZoneSet.ofCode n = some zones) :
    ZoneSet.isEmpty zones = true ↔ n = 0 := by
  have hall : ∀ n < 16, (!(n.testBit 0 || n.testBit 1 || n.testBit 2 || n.testBit 3)) = true ↔ n = 0 := by decide
  unfold ZoneSet.ofCode at h
  split at h
  · next hlt => cases h; exact hall n hlt
  · cases h

theorem fieldsInRange_sadd : (NewEntry.ofBody body).isSome = true ↔ RequestKind.sadd.FieldsInRange body := by
  have hnonempty : ∀ {zones : ZoneSet} {x : NewEntry}, ZoneSet.ofCode (field body 9 1) = some zones →
      ((if ZoneSet.isEmpty zones = true then none else some x).isSome = true ↔ 1 ≤ field body 9 1) := by
    intro zones x hzones
    rw [Nat.one_le_iff_ne_zero, Ne, ← ZoneSet.isEmpty_of_ofCode hzones]
    split <;> simp_all
  have hparts : (NewEntry.ofBody body).isSome = true ↔ _ :=
    isSome_bind_iff (DomainId.isSome_ofCode _) fun _ _ =>
    isSome_bind_iff (ZoneSet.isSome_ofCode _) fun _ hzones =>
    isSome_bind_iff (Action.isSome_ofBody _ _) fun _ _ =>
    isSome_bind_iff (isSome_flagOf _) fun _ _ => hnonempty hzones
  rw [hparts]
  exact ⟨fun ⟨hdomain, hhi, haction, hnotify, hlo⟩ => ⟨hdomain, ⟨hlo, hhi⟩, hnotify, haction⟩,
    fun ⟨hdomain, ⟨hlo, hhi⟩, hnotify, haction⟩ => ⟨hdomain, hhi, haction, hnotify, hlo⟩⟩

theorem fieldsInRange_drun :
    (DomainId.ofCode (field body 0 1)).isSome = true ∧ (RunForm.ofCodes (field body 1 1) (field body 2 8)).isSome = true ↔
      RequestKind.drun.FieldsInRange body :=
  and_congr (DomainId.isSome_ofCode _) (RunForm.isSome_ofCodes _ _)

theorem IndicationKind.isSome_ofCode (n : Nat) : (IndicationKind.ofCode n).isSome = true ↔ n ≤ 14 :=
  isSome_iff_le (by decide) (fun _ => rfl) n

theorem IndicationObject.isSome_ofCode (n : Nat) : (IndicationObject.ofCode n).isSome = true ↔ n ≤ 6 :=
  isSome_iff_le (by decide) (fun _ => rfl) n

/-- The class of an object decides which kinds go with it (section 10.1). -/
theorem Pair.isSome_ofCodes (kind object : Nat) : (Pair.ofCodes kind object).isSome = true ↔
    (kind ≤ 4 ∧ object = 0) ∨ (5 ≤ kind ∧ kind ≤ 7 ∧ 1 ≤ object ∧ object ≤ 2) ∨
    (8 ≤ kind ∧ kind ≤ 14 ∧ 3 ≤ object ∧ object ≤ 6) := by
  have hcodes : ∀ (k : Fin 15) (o : Fin 7), (Pair.ofCodes k o).isSome = true ↔ (k.val ≤ 4 ∧ o.val = 0) ∨
      (5 ≤ k.val ∧ k.val ≤ 7 ∧ 1 ≤ o.val ∧ o.val ≤ 2) ∨ (8 ≤ k.val ∧ k.val ≤ 14 ∧ 3 ≤ o.val ∧ o.val ≤ 6) := by decide
  have hnamed : (Pair.ofCodes kind object).isSome = true → kind ≤ 14 ∧ object ≤ 6 := by
    intro h
    obtain ⟨q, hq⟩ := Option.isSome_iff_exists.mp h
    obtain ⟨k, hk, hq⟩ := Option.bind_eq_some_iff.mp hq
    obtain ⟨o, ho, -⟩ := Option.bind_eq_some_iff.mp hq
    exact ⟨(IndicationKind.isSome_ofCode _).mp (hk ▸ rfl), (IndicationObject.isSome_ofCode _).mp (ho ▸ rfl)⟩
  constructor
  · intro h
    obtain ⟨hk, ho⟩ := hnamed h
    exact (hcodes ⟨kind, Nat.lt_succ_of_le hk⟩ ⟨object, Nat.lt_succ_of_le ho⟩).mp h
  · intro h
    exact (hcodes ⟨kind, by omega⟩ ⟨object, by omega⟩).mpr h

theorem isSome_pairsAt (off n : Nat) : (pairsAt body off n).isSome = true ↔
    ∀ i < n, (Pair.ofCodes (field body (2 * i + off) 1) (field body (2 * i + off + 1) 1)).isSome = true := by
  induction n generalizing off with
  | zero => simp [pairsAt]
  | succ n ih =>
    have hnext : ∀ i, 2 * i + (off + 2) = 2 * (i + 1) + off := fun i => by omega
    have hstep : (pairsAt body off (n + 1)).isSome = true ↔ _ :=
      isSome_bind_iff (Q := (pairsAt body (off + 2) n).isSome = true) Iff.rfl fun _ _ => isSome_bind_last Iff.rfl fun _ => rfl
    rw [hstep, ih, Nat.forall_lt_succ_left]
    simp only [hnext, Nat.mul_zero, Nat.zero_add]

theorem fieldsInRange_inda : (acknowledgedPairs body).isSome = true ↔ RequestKind.inda.FieldsInRange body := by
  have hpairs : (pairsAt body 1 (field body 0 1)).isSome = true ↔ _ :=
    (isSome_pairsAt body 1 _).trans (forall₂_congr fun _ _ => Pair.isSome_ofCodes _ _)
  unfold acknowledgedPairs; dsimp only
  split
  · next hcount => exact hpairs.trans ⟨fun h => ⟨hcount.1, hcount.2, h⟩, fun ⟨_, _, h⟩ => h⟩
  · next hcount => exact iff_of_false nofun (fun ⟨hlo, hhi, _⟩ => hcount ⟨hlo, hhi⟩)

end

/-! ### What a handler answers -/

/-- A handling that does not answer BAD_FIELD. -/
def PassesFields (r : Handling) : Prop := ∀ a, r.2 = some a → a.status ≠ .badField

theorem passesFields_answer (q : Part) {a : Answer} (h : a.status ≠ .badField) : PassesFields (q, some a) :=
  fun _ hb => Option.some.inj hb ▸ h

theorem passesFields_accept (q : Part) (content : List Byte) : PassesFields (q.accept content) :=
  passesFields_answer q nofun

theorem passesFields_refuse (q : Part) {s : Status} (h : s ≠ .badField) : PassesFields (q.refuse s) :=
  passesFields_answer q h

theorem passesFields_unanswered (q : Part) : PassesFields (q, none) := nofun

/-- The capture check refuses with its own two statuses (R14). -/
theorem Part.checkCapture_error {p : Part} {n : Byte} {i : StrobeInput} {s : Status} (h : p.checkCapture n i = .error s) :
    s ≠ .badField := by
  unfold Part.checkCapture at h
  split at h
  · cases h; nofun
  · split at h <;> cases h
    nofun

/-- The zone checks of SADD refuse with their own two statuses (R151). -/
theorem Part.firstFailure_status {p : Part} {d : DomainId} {zones : List ZoneId} {z : ZoneId} {s : Status}
    (h : p.firstFailure d zones = some (z, s)) : s ≠ .badField := by
  induction zones with
  | nil => cases h
  | cons w zones ih =>
    unfold Part.firstFailure at h
    split at h
    · next t ht =>
      cases h
      unfold Part.zoneFailure at ht
      split at ht
      · cases ht; nofun
      · split at ht <;> cases ht
        nofun
    · exact ih h

theorem Part.passesFields_deliver (p : Part) (dl : Delivery) (r : Route) (t : Target) : PassesFields (p.deliver dl r t) := by
  unfold Part.deliver; dsimp only
  split
  · exact passesFields_answer _ nofun
  · split
    · exact passesFields_answer _ nofun
    · split
      · exact passesFields_unanswered _
      · exact passesFields_accept _ _

theorem Part.passesFields_answerEcho (p : Part) (d : DomainId) (r : EchoRecord) (c : Capture) (t2 t3 : DomainTime) :
    PassesFields (p.answerEcho d r c t2 t3) := by
  unfold Part.answerEcho; dsimp only
  split
  · exact passesFields_answer _ nofun
  · exact passesFields_accept _ _

/-! ### Each handler by its fields (R192) -/

/-- A handling that is judged by whether the request's fields are in range: out of range it is BAD_FIELD alone. -/
structure JudgedBy (p : Part) (r : Handling) (inRange : Prop) : Prop where
  passes : inRange → PassesFields r
  refuses : ¬inRange → r = p.refuse .badField

section
variable {p : Part} {r : Handling} {P : Prop}

/-- A handler that reads one value from the body. -/
theorem judgedBy_one {α : Type} {x : Option α} (hx : x.isSome = true ↔ P) (hnone : x = none → r = p.refuse .badField)
    (hsome : ∀ a, x = some a → PassesFields r) : JudgedBy p r P where
  passes h := by
    obtain ⟨a, ha⟩ := Option.isSome_iff_exists.mp (hx.mpr h)
    exact hsome a ha
  refuses h := hnone (Option.not_isSome_iff_eq_none.mp (fun hs => h (hx.mp hs)))

/-- A handler that reads two values from the body. -/
theorem judgedBy_two {α β : Type} {x : Option α} {y : Option β} (hxy : x.isSome = true ∧ y.isSome = true ↔ P)
    (hfst : x = none → r = p.refuse .badField) (hsnd : ∀ a, x = some a → y = none → r = p.refuse .badField)
    (hsome : ∀ a b, x = some a → y = some b → PassesFields r) : JudgedBy p r P where
  passes h := by
    obtain ⟨hx, hy⟩ := hxy.mpr h
    obtain ⟨a, ha⟩ := Option.isSome_iff_exists.mp hx
    obtain ⟨b, hb⟩ := Option.isSome_iff_exists.mp hy
    exact hsome a b ha hb
  refuses h := by
    cases x with
    | none => exact hfst rfl
    | some a =>
      cases y with
      | none => exact hsnd a rfl rfl
      | some b => exact absurd (hxy.mp ⟨rfl, rfl⟩) h

end

section
variable {p : Part} {r : Handling}

/-- A request without fields to check. -/
theorem judgedBy_none (h : PassesFields r) : JudgedBy p r True := ⟨fun _ => h, fun hn => absurd trivial hn⟩

end

section
variable (body : List Byte) (p : Part)

theorem handleIndr_judged : JudgedBy p (handleIndr body p) (RequestKind.indr.FieldsInRange body) :=
  judgedBy_one (IndicationSelector.isSome_ofCode _) (fun h => by simp only [handleIndr, h])
    (fun sel h => by simp only [handleIndr, h]; exact passesFields_accept _ _)

theorem handleInda_judged : JudgedBy p (handleInda body p) (RequestKind.inda.FieldsInRange body) :=
  judgedBy_one (fieldsInRange_inda body) (fun h => by simp only [handleInda, h])
    (fun qs h => by simp only [handleInda, h]; exact passesFields_accept _ _)

theorem handleIndc_judged : JudgedBy p (handleIndc body p) (RequestKind.indc.FieldsInRange body) := by
  cases hk : kindsNamed (field body 0 1) with
  | none =>
    have hout : ¬(field body 0 1 ≤ 14 ∨ field body 0 1 = 255) := by rw [← isSome_kindsNamed, hk]; nofun
    exact ⟨fun ⟨hnamed, _⟩ => absurd hnamed hout, fun _ => by simp only [handleIndc, hk]⟩
  | some kinds =>
    have hnamed : field body 0 1 ≤ 14 ∨ field body 0 1 = 255 := (isSome_kindsNamed _).mp (hk ▸ rfl)
    exact judgedBy_two ((and_congr (isSome_flagOf _) (Line.isSome_ofCode _)).trans (and_iff_right hnamed).symm)
      (fun h => by simp only [handleIndc, hk, h]) (fun on hon h => by simp only [handleIndc, hk, hon, h])
      (fun on line hon hline => by simp only [handleIndc, hk, hon, hline]; exact passesFields_accept _ _)

theorem handleCapc_judged : JudgedBy p (handleCapc body p) (RequestKind.capc.FieldsInRange body) :=
  judgedBy_two (and_congr (isSome_flagOf _) (isSome_flagOf _)) (fun h => by simp only [handleCapc, h])
    (fun rx hrx h => by simp only [handleCapc, hrx, h])
    (fun rx tx hrx htx => by simp only [handleCapc, hrx, htx]; exact passesFields_accept _ _)

theorem handleStmp_judged : JudgedBy p (handleStmp body p) (RequestKind.stmp.FieldsInRange body) := by
  refine judgedBy_two (and_congr (DomainId.isSome_ofCode _) (StrobeInput.isSome_ofCode _)) (fun h => by simp only [handleStmp, h])
    (fun d hd h => by simp only [handleStmp, hd, h]) (fun d i hd hi => ?_)
  simp only [handleStmp, hd, hi]
  split
  · split
    · next s hs => exact passesFields_refuse _ (Part.checkCapture_error hs)
    · exact passesFields_accept _ _
  · exact passesFields_refuse _ nofun

theorem handleDset_judged : JudgedBy p (handleDset body p) (RequestKind.dset.FieldsInRange body) := by
  refine judgedBy_two (fieldsInRange_dset body) (fun h => by simp only [handleDset, h])
    (fun d hd h => by simp only [handleDset, hd, h]) (fun d setup hd hs => ?_)
  simp only [handleDset, hd, hs]
  split
  · exact passesFields_accept _ _
  · exact passesFields_refuse _ nofun

/-- DRUN checks the form against the role only later, and may then answer BAD_FIELD too (R18). -/
theorem handleDrun_outOfRange (h : ¬RequestKind.drun.FieldsInRange body) : handleDrun body p = p.refuse .badField := by
  unfold handleDrun; split
  · next d form hd hform => exact absurd ((fieldsInRange_drun body).mp ⟨hd ▸ rfl, hform ▸ rfl⟩) h
  · rfl

theorem handleDrel_judged : JudgedBy p (handleDrel body p) (RequestKind.drel.FieldsInRange body) := by
  refine judgedBy_one (DomainId.isSome_ofCode _) (fun h => by simp only [handleDrel, h]) (fun d h => ?_)
  simp only [handleDrel, h]
  split <;> exact passesFields_accept _ _

theorem handleDsta_judged : JudgedBy p (handleDsta body p) (RequestKind.dsta.FieldsInRange body) :=
  judgedBy_one (DomainId.isSome_ofCode _) (fun h => by simp only [handleDsta, h])
    (fun d h => by simp only [handleDsta, h]; exact passesFields_accept _ _)

theorem handleBeac_judged : JudgedBy p (handleBeac body p) (RequestKind.beac.FieldsInRange body) := by
  refine judgedBy_one (DomainId.isSome_ofCode _) (fun h => by simp only [handleBeac, h]) (fun d h => ?_)
  simp only [handleBeac, h]
  split
  · exact passesFields_refuse _ nofun
  · split
    · next s hs => exact passesFields_refuse _ (Part.checkCapture_error hs)
    · split
      · exact passesFields_refuse _ nofun
      · split
        · exact passesFields_refuse _ nofun
        · exact passesFields_accept _ _

theorem handleLchg_judged : JudgedBy p (handleLchg body p) (RequestKind.lchg.FieldsInRange body) := by
  refine judgedBy_one (DomainId.isSome_ofCode _) (fun h => by simp only [handleLchg, h]) (fun d h => ?_)
  simp only [handleLchg, h]
  split
  · exact passesFields_accept _ _
  · exact passesFields_refuse _ nofun

theorem handleEchs_judged : JudgedBy p (handleEchs body p) (RequestKind.echs.FieldsInRange body) := by
  refine judgedBy_one (DomainId.isSome_ofCode _) (fun h => by simp only [handleEchs, h]) (fun d h => ?_)
  simp only [handleEchs, h]
  split
  · exact passesFields_refuse _ nofun
  · split
    · exact passesFields_refuse _ nofun
    · split
      · exact passesFields_refuse _ nofun
      · split
        · next s hs => exact passesFields_refuse _ (Part.checkCapture_error hs)
        · exact passesFields_answer _ nofun

theorem handleEcha_judged : JudgedBy p (handleEcha body p) (RequestKind.echa.FieldsInRange body) := by
  refine judgedBy_one (DomainId.isSome_ofCode _) (fun h => by simp only [handleEcha, h]) (fun d h => ?_)
  simp only [handleEcha, h]
  split
  · exact passesFields_refuse _ nofun
  · split
    · exact passesFields_refuse _ nofun
    · split
      · next s hs => exact passesFields_refuse _ (Part.checkCapture_error hs)
      · exact Part.passesFields_answerEcho _ _ _ _ _ _

theorem handleFset_judged : JudgedBy p (handleFset body p) (RequestKind.fset.FieldsInRange body) := by
  rw [← fieldsInRange_fset]
  unfold handleFset
  split
  · next hindex =>
    rw [and_iff_right hindex]
    exact judgedBy_one Iff.rfl (fun h => by simp only [h]) (fun e h => by simp only [h]; exact passesFields_accept _ _)
  · next hindex => exact ⟨fun h => absurd h.1 hindex, fun _ => rfl⟩

/-- The actions that a default route can have, MAIN and REJECT, by their codes (R77). -/
theorem FilterAction.exists_default_iff (n : Nat) :
    (∃ a, FilterAction.ofCode n = some a ∧ a ≠ .overlay) ↔ n = 0 ∨ n = 2 := by
  unfold FilterAction.ofCode; split <;> simp_all

theorem handleFdef_judged : JudgedBy p (handleFdef body p) (RequestKind.fdef.FieldsInRange body) := by
  have hrange : _ ↔ RequestKind.fdef.FieldsInRange body :=
    and_congr (FilterAction.exists_default_iff (field body 0 1)) (ZoneSet.isSome_ofCode (field body 1 1))
  rw [← hrange]
  unfold handleFdef
  split
  · next hover =>
    exact ⟨fun ⟨⟨_, ha, hne⟩, _⟩ => absurd (Option.some.inj (ha.symm.trans hover)) hne, fun _ => rfl⟩
  · next action zones hne ha hz =>
    exact ⟨fun _ => passesFields_accept _ _, fun h => absurd ⟨⟨action, ha, hne⟩, hz ▸ rfl⟩ h⟩
  · next hnone =>
    refine ⟨fun ⟨⟨a, ha, _⟩, hzones⟩ => ?_, fun _ => rfl⟩
    obtain ⟨zones, hz⟩ := Option.isSome_iff_exists.mp hzones
    exact (hnone a zones ha hz).elim

theorem handlePblk_judged : JudgedBy p (handlePblk body p) (RequestKind.pblk.FieldsInRange body) := by
  refine judgedBy_one (fieldsInRange_pblk body) (fun h => handlePblk_badField h p) (fun dl h => ?_)
  simp only [handlePblk, h]
  split
  · exact passesFields_answer _ nofun
  · exact Part.passesFields_deliver _ _ _ _
  · exact Part.passesFields_deliver _ _ _ _

theorem handlePool_judged : JudgedBy p (handlePool body p) (RequestKind.pool.FieldsInRange body) := by
  have hrange : RequestKind.pool.FieldsInRange body ↔ field body 0 2 < Config.poolSlots ∨ field body 0 2 = 0xFFFF :=
    or_congr_left Nat.lt_succ_iff.symm
  rw [hrange]
  unfold handlePool; dsimp only
  split
  · next hall => exact ⟨fun _ => passesFields_accept _ _, fun h => absurd (Or.inr hall) h⟩
  · next hall =>
    split
    · next hslot => exact ⟨fun _ => passesFields_accept _ _, fun h => absurd (Or.inl hslot) h⟩
    · next hslot => exact ⟨fun h => absurd h (not_or.mpr ⟨hslot, hall⟩), fun _ => rfl⟩

theorem handlePwmk_judged : JudgedBy p (handlePwmk body p) (RequestKind.pwmk.FieldsInRange body) :=
  judgedBy_one (isSome_inRange_zero _ _) (fun h => by simp only [handlePwmk, h])
    (fun w h => by simp only [handlePwmk, h]; exact passesFields_accept _ _)

theorem handleZset_judged : JudgedBy p (handleZset body p) (RequestKind.zset.FieldsInRange body) := by
  refine judgedBy_two (fieldsInRange_zset body) (fun h => by simp only [handleZset, h])
    (fun z hz h => by simp only [handleZset, hz, h]) (fun z setup hz hs => ?_)
  simp only [handleZset, hz, hs]
  split
  · exact passesFields_accept _ _
  · exact passesFields_refuse _ nofun

theorem handleZena_judged : JudgedBy p (handleZena body p) (RequestKind.zena.FieldsInRange body) := by
  refine judgedBy_one (ZoneId.isSome_ofCode _) (fun h => by simp only [handleZena, h]) (fun z h => ?_)
  simp only [handleZena, h]
  split
  · exact passesFields_accept _ _
  · exact passesFields_refuse _ nofun

theorem handleZdis_judged : JudgedBy p (handleZdis body p) (RequestKind.zdis.FieldsInRange body) :=
  judgedBy_one (ZoneId.isSome_ofCode _) (fun h => by simp only [handleZdis, h])
    (fun z h => by simp only [handleZdis, h]; exact passesFields_accept _ _)

theorem handleZrun_judged : JudgedBy p (handleZrun body p) (RequestKind.zrun.FieldsInRange body) := by
  refine judgedBy_two (and_congr (ZoneId.isSome_ofCode _) (ZoneStart.isSome_ofCodes _ _)) (fun h => by simp only [handleZrun, h])
    (fun z hz h => by simp only [handleZrun, hz, h]) (fun z start hz hs => ?_)
  simp only [handleZrun, hz, hs]
  split
  · exact passesFields_accept _ _
  · exact passesFields_refuse _ nofun

theorem handleZstp_judged : JudgedBy p (handleZstp body p) (RequestKind.zstp.FieldsInRange body) := by
  refine judgedBy_two (and_congr (ZoneId.isSome_ofCode _) (StopMode.isSome_ofCode _)) (fun h => by simp only [handleZstp, h])
    (fun z hz h => by simp only [handleZstp, hz, h]) (fun z mode hz hmode => ?_)
  simp only [handleZstp, hz, hmode]
  split
  · exact passesFields_refuse _ nofun
  · exact passesFields_accept _ _

theorem handleZflu_judged : JudgedBy p (handleZflu body p) (RequestKind.zflu.FieldsInRange body) :=
  judgedBy_two (and_congr (ZoneId.isSome_ofCode _) (QueueSelector.isSome_ofCode _)) (fun h => by simp only [handleZflu, h])
    (fun z hz h => by simp only [handleZflu, hz, h])
    (fun z sel hz hsel => by simp only [handleZflu, hz, hsel]; exact passesFields_accept _ _)

theorem handleZsta_judged : JudgedBy p (handleZsta body p) (RequestKind.zsta.FieldsInRange body) :=
  judgedBy_one (ZoneId.isSome_ofCode _) (fun h => by simp only [handleZsta, h])
    (fun z h => by simp only [handleZsta, h]; exact passesFields_accept _ _)

theorem handleZgan_judged : JudgedBy p (handleZgan body p) (RequestKind.zgan.FieldsInRange body) :=
  judgedBy_one (ZoneId.isSome_ofCode _) (fun h => by simp only [handleZgan, h])
    (fun z h => by simp only [handleZgan, h]; exact passesFields_accept _ _)

theorem handleZsub_judged : JudgedBy p (handleZsub body p) (RequestKind.zsub.FieldsInRange body) :=
  judgedBy_two (and_congr (ZoneId.isSome_ofCode _) (Substitution.isSome_ofCode _)) (fun h => by simp only [handleZsub, h])
    (fun z hz h => by simp only [handleZsub, hz, h])
    (fun z sub hz hsub => by simp only [handleZsub, hz, hsub]; exact passesFields_accept _ _)

theorem handleGsub_judged : JudgedBy p (handleGsub body p) (RequestKind.gsub.FieldsInRange body) :=
  judgedBy_one (Substitution.isSome_ofCode _) (fun h => by simp only [handleGsub, h])
    (fun sub h => by simp only [handleGsub, h]; exact passesFields_accept _ _)

theorem handleSadd_judged : JudgedBy p (handleSadd body p) (RequestKind.sadd.FieldsInRange body) := by
  refine judgedBy_one (fieldsInRange_sadd body) (fun h => by simp only [handleSadd, h]) (fun n h => ?_)
  simp only [handleSadd, h]
  split
  · exact passesFields_refuse _ nofun
  · split
    · next z s hs => exact passesFields_answer _ (Part.firstFailure_status hs)
    · split
      · exact passesFields_refuse _ nofun
      · exact passesFields_accept _ _

theorem handleScan_passes : PassesFields (handleScan body p) := by
  unfold handleScan; dsimp only
  split
  · exact passesFields_refuse _ nofun
  · exact passesFields_accept _ _

theorem handleSlst_judged : JudgedBy p (handleSlst body p) (RequestKind.slst.FieldsInRange body) :=
  judgedBy_one (isSome_flagOf _) (fun h => by simp only [handleSlst, h])
    (fun clear h => by simp only [handleSlst, h]; exact passesFields_accept _ _)

theorem handleTaut_judged : JudgedBy p (handleTaut body p) (RequestKind.taut.FieldsInRange body) :=
  judgedBy_one (isSome_flagOf _) (fun h => by simp only [handleTaut, h])
    (fun on h => by simp only [handleTaut, h]; exact passesFields_accept _ _)

theorem handleTred_judged : JudgedBy p (handleTred body p) (RequestKind.tred.FieldsInRange body) :=
  judgedBy_one (isSome_objectsNamed _) (fun h => by simp only [handleTred, h])
    (fun objects h => by simp only [handleTred, h]; exact passesFields_accept _ _)

theorem handleLrat_passes : PassesFields (handleLrat body p) := by
  unfold handleLrat
  split
  · exact passesFields_refuse _ nofun
  · exact passesFields_answer _ nofun

/-- Every kind but DRUN is judged by its fields (R192). -/
theorem RequestKind.handler_judged {k : RequestKind} (hk : k ≠ .drun) :
    JudgedBy p (k.handler body p) (k.FieldsInRange body) := by
  cases k
  case helo => exact judgedBy_none (passesFields_accept _ _)
  case rset => exact judgedBy_none (passesFields_answer _ nofun)
  case lrat => exact judgedBy_none (handleLrat_passes body p)
  case indr => exact handleIndr_judged body p
  case inda => exact handleInda_judged body p
  case indc => exact handleIndc_judged body p
  case capc => exact handleCapc_judged body p
  case capl => exact judgedBy_none (passesFields_accept _ _)
  case capd => exact judgedBy_none (passesFields_accept _ _)
  case stmp => exact handleStmp_judged body p
  case dset => exact handleDset_judged body p
  case drun => exact absurd rfl hk
  case drel => exact handleDrel_judged body p
  case dsta => exact handleDsta_judged body p
  case beac => exact handleBeac_judged body p
  case lchg => exact handleLchg_judged body p
  case echs => exact handleEchs_judged body p
  case echa => exact handleEcha_judged body p
  case fset => exact handleFset_judged body p
  case fdef => exact handleFdef_judged body p
  case pblk => exact handlePblk_judged body p
  case pool => exact handlePool_judged body p
  case pwmk => exact handlePwmk_judged body p
  case zset => exact handleZset_judged body p
  case zena => exact handleZena_judged body p
  case zdis => exact handleZdis_judged body p
  case zrun => exact handleZrun_judged body p
  case zstp => exact handleZstp_judged body p
  case zflu => exact handleZflu_judged body p
  case zsta => exact handleZsta_judged body p
  case zgan => exact handleZgan_judged body p
  case zsub => exact handleZsub_judged body p
  case gsub => exact handleGsub_judged body p
  case sadd => exact handleSadd_judged body p
  case scan => exact judgedBy_none (handleScan_passes body p)
  case slst => exact handleSlst_judged body p
  case tsnp => exact judgedBy_none (passesFields_accept _ _)
  case taut => exact handleTaut_judged body p
  case tred => exact handleTred_judged body p

/-- A field out of its range is answered BAD_FIELD by every kind (R192). -/
theorem RequestKind.handler_outOfRange {k : RequestKind} (h : ¬k.FieldsInRange body) :
    k.handler body p = p.refuse .badField := by
  by_cases hk : k = .drun
  · subst hk; exact handleDrun_outOfRange body p h
  · exact (RequestKind.handler_judged body p hk).refuses h

end

/-! ### The judgement of a request (O7) -/

theorem Status.eq_badField_of_code (s : Status) : s.code = Status.badField.code → s = .badField := by
  cases s <;> decide

/-- An unknown KIND is answered under reply kind 0xFE with the KIND byte (R184). -/
theorem Part.frameArrival_unknownKind {p : Part} {kind : Byte} (hp : p.TakesRequests) (hk : RequestKind.ofCode kind.toNat = none)
    (tag : Byte) (body : List Byte) : p.frameArrival kind tag body =
      { p.toHunt with link := p.toHunt.link.enqueue p.localTime ⟨0xFE#8, tag, [0x01#8, kind], .nothing⟩ } := by
  unfold Part.frameArrival
  rw [hk]
  exact Part.arrival_taken p _ hp

/-- The reply queue after a taken request: the answer stands at its tail, if there is one (R183). -/
theorem Part.replies_request {p : Part} {k : RequestKind} {tag : Byte} {body : List Byte} (hp : p.TakesRequests)
    (hl : k.lengthOk body = true) :
    (p.request k k.handler tag body).link.replies =
      p.link.replies ++ ((k.handler body p.toHunt).2.map (Answer.reply · k.code tag)).toList := by
  have hkept : (k.handler body p.toHunt).1.link.replies = p.link.replies := RequestKind.handler_replies _ _ k
  rw [Part.request_taken p k k.handler tag body hp hl]
  cases (k.handler body p.toHunt).2 with
  | none => simp [hkept]
  | some a => simp [hkept]

/-- A request whose handler passes the fields is not answered BAD_FIELD. -/
theorem exec_command_ne_badField {s : State} {k : RequestKind} {tag : Byte} {body : List Byte} (hp : s.part.TakesRequests)
    (hl : k.lengthOk body = true) (hpass : PassesFields (k.handler body s.part.toHunt)) :
    exec (k.command tag body) s ≠ .next (s.refusedWith k tag .badField []) := by
  rw [exec_command_next]
  intro heq
  have hparts := congrArg (fun t : State => t.part.link.replies) (Host.Outcome.next.inj heq)
  have hreplies : ((k.handler body s.part.toHunt).2.map (Answer.reply · k.code tag)).toList =
      [(Answer.refusalWith .badField []).reply k.code tag] :=
    List.append_cancel_left ((Part.replies_request hp hl).symm.trans hparts)
  cases ha : (k.handler body s.part.toHunt).2 with
  | none => rw [ha] at hreplies; cases hreplies
  | some a =>
    rw [ha] at hreplies
    have hbody : a.status.code :: a.content = [Status.badField.code] := congrArg Reply.body (List.cons.inj hreplies).1
    exact hpass a ha (Status.eq_badField_of_code a.status (List.cons.inj hbody).1)

/-- Settles O7: the arrival, the length, the fields and the kind. -/
theorem requestsAreJudged : Obligations.RequestsAreJudged := by
  refine ⟨fun k s tag body => exec_command_frameArrival k tag body s, fun k s tag body hp hl => ?_,
    fun k s tag body hp hl => ⟨fun hout => ?_, fun hin hk => ?_⟩, fun s kind tag body hp hk => ?_⟩
  · rw [exec_command_next, Part.request_badLength s.part k k.handler tag body hp hl]; rfl
  · exact exec_command_refused hp hl (RequestKind.handler_outOfRange body s.part.toHunt hout)
  · exact exec_command_ne_badField hp hl ((RequestKind.handler_judged body s.part.toHunt hk).passes hin)
  · rw [exec_unknownKind, Part.frameArrival_unknownKind hp hk]

end Sys2Proof.Machine
end

section
/-! PROOFS. The statements about every command: a step executes the command at the front of the queue (O1), and a command answers a
next state and writes the part alone (O3). -/

namespace Sys2Proof.Machine

/-! ### The command at the front of the queue (O1) -/

/-- The counterpart of `step_emptyQueue`. -/
theorem step_front {c : Instr} {rest : List Instr} {s : State} (h : s.pending = c :: rest) :
    step s = exec c { s with pending := rest } := by simp only [step, h]

/-- Settles O1: in the statement's state the command in front is `c`, and the write of the rest replaces the whole queue. -/
theorem stepExecutesFrontCommand : Obligations.StepExecutesFrontCommand := fun _ _ _ => step_front rfl

/-! ### What a command writes (O3) -/

/-- Every arm of the dispatch, a request's through `State.request` and an event's directly, is a `State.complete`: it answers a next
state whose part alone is new. The split is over the rows of the table, and in each the part is the one that arm's rule leaves. -/
theorem exec_writes_part (c : Instr) (s : State) : ∃ q : Part, exec c s = .next { s with part := q } := by
  cases c <;> exact ⟨_, rfl⟩

/-- Settles O3: what a command writes, the part, holds neither the waiting commands nor the count of free values asked. -/
theorem everyCommandAnswersNext : Obligations.EveryCommandAnswersNext := by
  intro c s
  obtain ⟨q, hnext⟩ := exec_writes_part c s
  exact ⟨{ s with part := q }, hnext, s.pending_withPart q, rfl⟩

end Sys2Proof.Machine
end
